-- ==== Sys2Proof/Word.lean ====
section
/-! DEFINITION. The words of the machine (R5, R7): a word is 64 bits, addresses are words, memories are keyed by Nat. -/

namespace Sys2Proof

/-- A word: 64 bits, the width of w0-w55 (R5). -/
abbrev Word := BitVec 64

/-- A byte: 8 bits (R5). -/
abbrev Byte := BitVec 8

/-- A 6-bit operand selector field of an instruction (R117). -/
abbrev Sel := BitVec 6

/-- A table held sparsely: pairs of key and entry, keys strictly rising. A key that is not listed reads as the default its accessor names.
Used wherever the module has many alike things (newts, channels, slots, rings). -/
abbrev Table (α : Type) := List (Nat × α)

/-- The entry at key `k`, or `d` where the key is not listed. -/
def Table.get {α : Type} (d : α) : Table α → Nat → α
  | [], _ => d
  | (k', v) :: t, k => if k = k' then v else Table.get d t k

/-- The table with entry `v` at key `k`. -/
def Table.set {α : Type} : Table α → Nat → α → Table α
  | [], k, v => [(k, v)]
  | (k', v') :: t, k, v =>
    if k < k' then (k, v) :: (k', v') :: t
    else if k = k' then (k, v) :: t
    else (k', v') :: Table.set t k v

/-- Bits hi down to lo of the number x (R7). -/
def bitsOf (x hi lo : Nat) : Nat := (x >>> lo) % 2 ^ (hi + 1 - lo)

/-- Bit n of the number x (R7). -/
def bitOf (x n : Nat) : Bool := (x >>> n) % 2 == 1

end Sys2Proof
end

