-- ==== Sys2Proof/Syntax.lean ====
section
/-! DEFINITION. The syntax: one constructor for each row of the opcode table. The first part holds the instructions
that have an encoding (R121), the second the steps of the module that have none (the happenings that 95_what_each_step_holds.md
lists), with operands that say where the step takes place. -/

namespace Sys2Proof

/-- Conditions of `bcc`, `cmp`, `cmpi` and `vcmp` (R119). -/
inductive Cond where
  | eq | ne | lt | ge | le | gt | ltn | gen | len | gtn | always
deriving DecidableEq, Repr

/-- Sizes of loads and stores (R162). -/
inductive MemSize where
  | b | bs | h | hs | w | ws | d
deriving DecidableEq, Repr

/-- Sizes of atomics (R171). -/
inductive ASize where
  | w | d
deriving DecidableEq, Repr

/-- Vector lane types (R120). -/
inductive VTy where
  | f32 | bf16 | f16 | i32 | i16 | i8
deriving DecidableEq, Repr

/-- Destination types of `vcvt` (R120): the lane types and the two 8-bit floating formats. -/
inductive DTy where
  | lane (t : VTy) | e4m3 | e5m2
deriving DecidableEq, Repr

/-- Matrix formats (R120). -/
inductive MFmt where
  | bf16 | f16 | e4m3 | e5m2 | e4m3s | e5m2s | nq4
deriving DecidableEq, Repr

/-- Rounding modes (R93, R197). -/
inductive Rnd where
  | rne | rtz | rdn | rup
deriving DecidableEq, Repr

/-- Kinds of `rank` (R263). -/
inductive RankKind where
  | ev | bar | ring
deriving DecidableEq, Repr

/-- Scopes of `fence` (R180). -/
inductive Scope where
  | n | t | p | s
deriving DecidableEq, Repr

/-- A vector operand: its selector and its slot field (R117, R118). -/
structure VOp where
  sel : Sel
  slot : BitVec 3
deriving DecidableEq, Repr

/-- The kinds of function that report readiness (R26, R28). -/
inductive Func where
  | tile | station | eth | host
deriving DecidableEq, Repr

/-- The operations performed at a barrier record's home (R76). -/
inductive BarOp where
  | join | arrive | leave
deriving DecidableEq, Repr

/-- What a network packet arriving at a queue pair carries (R382). -/
inductive NetOp where
  | send | writeImm
deriving DecidableEq, Repr

/-- The instructions and steps of the machine, one constructor for each row of the opcode table. -/
inductive Instr where
  | nop
  | br (slot : BitVec 6) (disp : BitVec 26)
  | bcc (cond : Cond) (a b : Sel) (slot : BitVec 6) (disp : BitVec 32)
  | call (slot : BitVec 6) (disp : BitVec 26)
  | jr (b : Sel)
  | callr (b : Sel)
  | loop (a : Sel) (slot : BitVec 6) (disp : BitVec 26)
  | endAct
  | trap (imm : BitVec 16)
  | trapKillContext
  | trapResumeAtFault
  | trapResumePastFault
  | trapTransferObligations
  | brk (imm : BitVec 16)
  | add (a b c : Sel)
  | sub (a b c : Sel)
  | mul (a b c : Sel)
  | mulh (a b c : Sel)
  | mulhn (a b c : Sel)
  | div (a b c : Sel)
  | divn (a b c : Sel)
  | rem (a b c : Sel)
  | remn (a b c : Sel)
  | and (a b c : Sel)
  | or (a b c : Sel)
  | xor (a b c : Sel)
  | andn (a b c : Sel)
  | shl (a b c : Sel)
  | shr (a b c : Sel)
  | sar (a b c : Sel)
  | rol (a b c : Sel)
  | min (a b c : Sel)
  | minn (a b c : Sel)
  | max (a b c : Sel)
  | maxn (a b c : Sel)
  | cmp (cond : Cond) (a b c : Sel)
  | sel (a b c d : Sel)
  | clz (a b : Sel)
  | ctz (a b : Sel)
  | popc (a b : Sel)
  | ext (a b : Sel) (pos : BitVec 6) (len : BitVec 7)
  | ins (a b : Sel) (pos : BitVec 6) (len : BitVec 7)
  | addi (a b : Sel) (imm : BitVec 22)
  | movi (a : Sel) (imm : BitVec 32)
  | movhi (a : Sel) (imm : BitVec 32)
  | shladd (a b c : Sel) (sh : BitVec 4)
  | andi (a b : Sel) (imm : BitVec 22)
  | ori (a b : Sel) (imm : BitVec 22)
  | xori (a b : Sel) (imm : BitVec 22)
  | shli (a b : Sel) (imm : BitVec 22)
  | shri (a b : Sel) (imm : BitVec 22)
  | sari (a b : Sel) (imm : BitVec 22)
  | cmpi (cond : Cond) (a b : Sel) (imm : BitVec 22)
  | muli (a b : Sel) (imm : BitVec 22)
  | csrr (a : Sel) (csr : BitVec 12)
  | csrw (a : Sel) (csr : BitVec 12)
  | csrx (a : Sel) (csr : BitVec 12)
  | rte
  | tlbinv (b c : Sel)
  | frgrant (b c : Sel)
  | pair (a : Sel) (mode : Bool)
  | chunk
  | ld (size : MemSize) (a b : Sel) (imm : BitVec 22)
  | st (size : MemSize) (a b : Sel) (imm : BitVec 22)
  | ldg (size : MemSize) (a b : Sel) (imm : BitVec 22)
  | stg (size : MemSize) (a b : Sel) (imm : BitVec 22)
  | ldc (size : MemSize) (a b : Sel) (imm : BitVec 22)
  | pref (wr : Bool) (b : Sel) (imm : BitVec 22)
  | aadd (size : ASize) (a b c : Sel)
  | amin (size : ASize) (a b c : Sel)
  | amax (size : ASize) (a b c : Sel)
  | aminn (size : ASize) (a b c : Sel)
  | amaxn (size : ASize) (a b c : Sel)
  | aand (size : ASize) (a b c : Sel)
  | aor (size : ASize) (a b c : Sel)
  | axor (size : ASize) (a b c : Sel)
  | axchg (size : ASize) (a b c : Sel)
  | acas (size : ASize) (a b c d : Sel)
  | ladd (size : ASize) (a b c : Sel)
  | lcas (size : ASize) (a b c d : Sel)
  | renew (b c : Sel)
  | wtag (a b : Sel)
  | wset (b c : Sel) (k p : Bool)
  | wzero (b c : Sel)
  | fence (scope : Scope) (ls ro i host : Bool)
  | marm (b : Sel) (imm : BitVec 22)
  | mwait (a : Sel)
  | roinv
  | send (a b c : Sel)
  | sendw (a b c : Sel)
  | pour (counted : Bool) (a b c d : Sel)
  | bind (a b : Sel)
  | chmask (a b : Sel)
  | advp (h : BitVec 4) (n : BitVec 7)
  | advc (h : BitVec 4) (n : BitVec 7)
  | ringset (h : BitVec 4) (b : Sel)
  | mkev (a b c : Sel)
  | rmev (a : Sel)
  | sig (a b : Sel)
  | waitge (a b c : Sel)
  | owe (a b : Sel)
  | sendo (bar : Bool) (a b c d : Sel)
  | rank (kind : RankKind) (a b : Sel)
  | rkmid (a b c : Sel)
  | mkbar (b c : Sel)
  | bara (a b : Sel)
  | barw (a b : Sel)
  | join (b : Sel)
  | leave (b : Sel)
  | compose (a : Sel) (n : BitVec 4)
  | release
  | drawt (a : Sel)
  | drawg (a b c : Sel)
  | vadd (ty : VTy) (a b c : VOp)
  | vsub (ty : VTy) (a b c : VOp)
  | vmul (ty : VTy) (a b c : VOp)
  | vfma (ty : VTy) (a b c : VOp)
  | vmax (ty : VTy) (a b c : VOp)
  | vmin (ty : VTy) (a b c : VOp)
  | vabs (ty : VTy) (a b : VOp)
  | vneg (ty : VTy) (a b : VOp)
  | vrcp (a b : VOp)
  | vrsqrt (a b : VOp)
  | vexp2 (a b : VOp)
  | vlog2 (a b : VOp)
  | vcmp (cond : Cond) (ty : VTy) (a b c : VOp)
  | vsel (ty : VTy) (a b c d : VOp)
  | vcvt (ty : VTy) (dty : DTy) (rnd : Rnd) (sat : Bool) (a b : VOp)
  | vquant (a b c : VOp)
  | vdeq (a b c d : VOp)
  | vredadd (ty : VTy) (a b : VOp)
  | vredmax (ty : VTy) (a b : VOp)
  | vredmin (ty : VTy) (a b : VOp)
  | vbcast (ty : VTy) (a : VOp) (b : Sel)
  | vext (ty : VTy) (a : Sel) (b : BitVec 4) (lane : BitVec 8)
  | vshuf (ty : VTy) (a b c : VOp)
  | vand (a b c : VOp)
  | vor (a b c : VOp)
  | vxor (a b c : VOp)
  | vshl (ty : VTy) (a b c : VOp)
  | vshr (ty : VTy) (a b c : VOp)
  | vsar (ty : VTy) (a b c : VOp)
  | vld (a : BitVec 4) (b : Sel) (imm : BitVec 22)
  | vst (a : BitVec 4) (b : Sel) (imm : BitVec 22)
  | vmov (a b : VOp)
  | mma (fmt : MFmt) (a : BitVec 2) (rb rc : BitVec 4) (ev : BitVec 16)
  | gmma (fmt : MFmt) (a : BitVec 2) (rb rc : BitVec 4) (ev : BitVec 16)
  | mzero (a : BitVec 2)
  | mst (a : BitVec 2) (b : Sel) (ev : BitVec 16)
  | mld (a : BitVec 2) (b : Sel) (ev : BitVec 16)
  | gang (mask : BitVec 8)
  | ungang
  | mscale (a : BitVec 2) (b : Sel)
  | cxgo (b : Sel) (ev : BitVec 16)
  | cxstop
  | cxstat (a : Sel)
  -- steps of the module without an encoding
  | messageArrival (core : Nat)
  | reinjectDiverted (core : Nat)
  | streamBeatLanding (core : Nat)
  | endOfStream (core : Nat)
  | dispatchNewActivation (core : Nat)
  | resumption (core : Nat)
  | outputBufferRelease (core slot : Nat)
  | eventSignalAtHome (core slot : Nat) (name : BitVec 16) (n : BitVec 32)
  | barrierOpAtHome (op : BarOp) (core slot : Nat) (va : Word) (beats : BitVec 32)
  | beatDecrement (part : Nat)
  | pourBeatLanding (core : Nat)
  | watchdogExpiry (core : Nat)
  | fadeTick
  | granuleExpiry (core gran : Nat)
  | replay (core slot : Nat)
  | migration (core slot : Nat)
  | matrixOpStart (core : Nat)
  | gmmaJoinStart (core : Nat)
  | matrixOpComplete (core : Nat)
  | pumpChainEntry (core : Nat)
  | pumpChainSig (core : Nat)
  | pumpChainEnd (core : Nat)
  | chunkAcquire (core : Nat)
  | chunkPerform (core : Nat)
  | writeSignatureArrival (core : Nat) (sig : BitVec 512)
  | externalAgentWrite (part : Nat) (va : Word) (data : List Byte)
  | evictPhase (part : Nat)
  | evlimExpiry (part : Nat)
  | savePhase (part : Nat)
  | saveComplete (part : Nat)
  | resumeNoticePhase (part : Nat)
  | resumeComplete (part : Nat)
  | queueStallExpiry (part q : Nat)
  | preemptTimeout (part q : Nat)
  | registerWrite (pf : Bool) (part : Nat) (off : Nat) (v : Word)
  | qtailDoorbell (part q : Nat) (v : BitVec 16)
  | commandEntryRead (part q : Nat)
  | launch (part q : Nat)
  | copy (part q : Nat)
  | mark (part q : Nat)
  | create
  | destroy
  | grow
  | shrink
  | preempt
  | resume
  | grant
  | config
  | replayCommand
  | commandComplete (part q : Nat)
  | leaseRenew (port : Bool)
  | leaseExpiry
  | bucketRegisterWrite (part : Nat) (v : Word)
  | bucketRefill
  | qosWindowEnd (part mon : Nat)
  | collectiveSlotWrite (part slot : Nat) (v : Word)
  | collectiveContribution (part : Nat) (imm : BitVec 32) (va : Word) (len : Nat)
  | collectiveDeadline (part slot : Nat)
  | qpTailWrite (qp : Nat) (tail : BitVec 16)
  | workEntryComplete (qp : Nat)
  | networkArrival (qp : Nat) (op : NetOp) (imm : BitVec 32) (va : Word) (data : List Byte)
  | transportError (qp : Nat)
  | telemetrySweep (part : Nat)
  | meshCrcFailure (idx : Nat)
  | controlResendTimeout (idx : Nat)
  | refreshRound (station row : Nat)
  | powerOn
  | readyReport (fn : Func) (idx : Nat) (pass : Bool)
  | thermalClamp (tile : Nat)
  | thermalThrottle (tile : Nat) (halt : Bool)
  | firmwareHeartbeatTimeout (tile : Nat)
  | getMeasurements (port : Bool) (index : Nat)
  | dctlHalt (core : Nat)
  | dctlRun (core : Nat)
  | dctlStep (core : Nat)
  | dctlDrain (core : Nat)
  | ddataAccess (core : Nat) (wr : Option Word)
  | breakpointMatch (core : Nat)
  | watchpointMatch (core : Nat)
  | traceArm (station : Nat) (v : Word)
  | traceTrigger (station : Nat)
  | traceDrainDone (station : Nat)
  | moduleReset
  | placementDeadline (part q : Nat)
  | firmwareImageInstall (slotB : Bool) (edOk mlOk : Bool) (version : Nat)
  | drawLimitChange (limit : Nat) (highFlow : Bool)
  | cnpReceived (qp : Nat)
  | pfcPauseFrame (port prio : Nat) (pause : Bool)
deriving DecidableEq, Repr

end Sys2Proof
end

