-- ==== Sys2Proof/WellFormed.lean ====
section
/-! DEFINITION. Well-formed instructions: what checks 8 to 10 of R113 demand of the fields of an instruction, apart from
the core it runs on (R117 to R121, and the instruction entries). The steps without an encoding are always well-formed. -/

namespace Sys2Proof

/-- q0-q3 as a scalar operand (R117). -/
def Sel.isQ (s : Sel) : Bool := 56 ≤ s.toNat && s.toNat ≤ 59

/-- A legal scalar source: w0-w55 or q0-q3 (R117). -/
def Sel.srcOk (s : Sel) : Bool := s.toNat ≤ 59

/-- A legal scalar destination: w0-w55 (R117). -/
def Sel.dstOk (s : Sel) : Bool := s.toNat ≤ 55

/-- At most one field of an instruction names a q selector (R118). -/
def oneQ (l : List Sel) : Bool := (l.filter Sel.isQ).length ≤ 1

/-- A destination and its sources are legal selectors, and at most one q is named (R113 check 9). -/
def selsOk (dst src : List Sel) : Bool := dst.all Sel.dstOk && src.all Sel.srcOk && oneQ src

/-- The vector operand is a ring h0-h15 (R117). -/
def VOp.isRing (v : VOp) : Bool := 16 ≤ v.sel.toNat && v.sel.toNat ≤ 31

/-- The vector operand is q0-q3 (R117). -/
def VOp.isQ (v : VOp) : Bool := 32 ≤ v.sel.toNat && v.sel.toNat ≤ 35

/-- The vector operand is v0-v15 (R117). -/
def VOp.isV (v : VOp) : Bool := v.sel.toNat ≤ 15

/-- The slot field is zero unless the operand is a ring (R118). -/
def VOp.slotOk (v : VOp) : Bool := v.isRing || v.slot == 0

/-- A legal vector source (R117). -/
def VOp.srcOk (v : VOp) : Bool := v.sel.toNat ≤ 35

/-- A legal vector destination (R117). -/
def VOp.dstOk (v : VOp) : Bool := v.sel.toNat ≤ 31

/-- A vector destination and its sources are legal, and at most one q is named (R117, R118). -/
def vselsOk (a : VOp) (src : List VOp) : Bool :=
  a.dstOk && src.all VOp.srcOk && decide ((src.filter VOp.isQ).length ≤ 1)

/-- Lanes of a type (R120). -/
def VTy.lanes : VTy → Nat
  | .f32 | .i32 => 16
  | .bf16 | .f16 | .i16 => 32
  | .i8 => 64

/-- Lane width in bits (R120). -/
def VTy.width : VTy → Nat
  | .f32 | .i32 => 32
  | .bf16 | .f16 | .i16 => 16
  | .i8 => 8

/-- The floating lane types (R120). -/
def VTy.isFloat : VTy → Bool
  | .f32 | .bf16 | .f16 => true
  | .i32 | .i16 | .i8 => false

/-- The unsigned conditions (R119). -/
def Cond.isUnsigned : Cond → Bool
  | .ltn | .gen | .len | .gtn => true
  | _ => false

/-- Sizes legal in a store (R162). -/
def MemSize.storeOk : MemSize → Bool
  | .b | .h | .w | .d => true
  | .bs | .hs | .ws => false

/-- The CSR numbers that name a CSR at some level (R158, R340, R345, R364, R366, R397). -/
def csrNamed (n : Nat) : Bool :=
  n ≤ 0x00D || (0x010 ≤ n && n ≤ 0x014) || (0x020 ≤ n && n ≤ 0x027) || (0x100 ≤ n && n ≤ 0x10A)

/-- The number of one bits in the low k bits of x. -/
def popCount : Nat → Nat → Nat
  | 0, _ => 0
  | k + 1, x => x % 2 + popCount k (x / 2)

/-- The four service requests that are constructors of their own (R280, R335). -/
def isServiceCode (imm : BitVec 16) : Bool :=
  imm == 0x7F01 || imm == 0x7F02 || imm == 0x7F03 || imm == 0x7F04

/-- The slot fields of every operand are zero unless the operand is a ring (R118). -/
def slotsOk (l : List VOp) : Bool := l.all VOp.slotOk

/-- Well-formedness of an instruction (R113 checks 8 to 10, R117 to R121). -/
def Instr.wf : Instr → Bool
  | .nop | .br _ _ | .call _ _ | .endAct => true
  | .bcc c a b _ _ => selsOk [] [a, b] && (c != .always || (a == 0 && b == 0))
  | .jr b | .callr b => selsOk [] [b]
  | .loop a _ _ => 1 ≤ a.toNat && a.toNat ≤ 55
  | .trap imm => !isServiceCode imm
  | .trapKillContext | .trapResumeAtFault | .trapResumePastFault | .trapTransferObligations => true
  | .brk _ => true
  | .add a b c | .sub a b c | .mul a b c | .mulh a b c | .mulhn a b c | .div a b c | .divn a b c | .rem a b c
  | .remn a b c | .and a b c | .or a b c | .xor a b c | .andn a b c | .shl a b c | .shr a b c | .sar a b c
  | .rol a b c | .min a b c | .minn a b c | .max a b c | .maxn a b c => selsOk [a] [b, c]
  | .cmp _ a b c => selsOk [a] [b, c]
  | .sel a b c d => selsOk [a] [b, c, d]
  | .clz a b | .ctz a b | .popc a b => selsOk [a] [b]
  | .ext a b pos len | .ins a b pos len => selsOk [a] [b] && 1 ≤ len.toNat && pos.toNat + len.toNat ≤ 64
  | .addi a b _ | .andi a b _ | .ori a b _ | .xori a b _ | .muli a b _ | .cmpi _ a b _ => selsOk [a] [b]
  | .shli a b imm | .shri a b imm | .sari a b imm => selsOk [a] [b] && imm.toNat ≤ 63
  | .movi a _ | .movhi a _ => selsOk [a] []
  | .shladd a b c _ => selsOk [a] [b, c]
  | .csrr a n | .csrx a n => selsOk [a] [] && csrNamed n.toNat
  | .csrw a n => selsOk [] [a] && csrNamed n.toNat
  | .rte | .chunk => true
  | .tlbinv b c | .frgrant b c => selsOk [] [b, c]
  | .pair a _ => selsOk [a] []
  | .ld _ a b _ | .ldg _ a b _ | .ldc _ a b _ => selsOk [a] [b]
  | .st z a b _ | .stg z a b _ => selsOk [] [a, b] && z.storeOk
  | .pref _ b _ => selsOk [] [b]
  | .aadd _ a b c | .amin _ a b c | .amax _ a b c | .aminn _ a b c | .amaxn _ a b c | .aand _ a b c
  | .aor _ a b c | .axor _ a b c | .axchg _ a b c | .ladd _ a b c => selsOk [a] [b, c]
  | .acas _ a b c d | .lcas _ a b c d => selsOk [a] [b, c, d]
  | .renew b c | .wset b c _ _ | .wzero b c => selsOk [] [b, c]
  | .wtag a b => selsOk [a] [b]
  | .fence sc _ _ _ host => !host || sc == .s
  | .marm b _ => selsOk [] [b]
  | .mwait a => selsOk [a] []
  | .roinv => true
  | .send a b c | .sendw a b c | .mkev a b c => selsOk [] [a, b, c]
  | .pour _ a b c d | .sendo _ a b c d => selsOk [] [a, b, c, d]
  | .bind a b | .chmask a b | .sig a b | .owe a b | .bara a b => selsOk [] [a, b]
  | .advp _ n | .advc _ n => 1 ≤ n.toNat && n.toNat ≤ 64
  | .ringset _ b => selsOk [] [b]
  | .rmev a => selsOk [] [a]
  | .waitge a b c | .rkmid a b c | .drawg a b c => selsOk [a] [b, c]
  | .rank _ a b => selsOk [a] [b]
  | .mkbar b c => selsOk [] [b, c]
  | .barw a b => selsOk [a] [b]
  | .join b | .leave b => selsOk [] [b]
  | .compose a n => selsOk [a] [] && (n == 2 || n == 4 || n == 8)
  | .release => true
  | .drawt a => selsOk [a] []
  | .vadd _ a b c | .vsub _ a b c | .vmul _ a b c | .vmax _ a b c | .vmin _ a b c | .vshuf _ a b c
  | .vand a b c | .vor a b c | .vxor a b c => slotsOk [a, b, c] && vselsOk a [b, c]
  | .vquant a b c => slotsOk [a, b, c] && vselsOk a [b, c]
  | .vfma _ a b c => slotsOk [a, b, c] && vselsOk a [b, c] && a.isV
  | .vabs _ a b | .vneg _ a b | .vredadd _ a b | .vredmax _ a b | .vredmin _ a b => slotsOk [a, b] && vselsOk a [b]
  | .vrcp a b | .vrsqrt a b | .vexp2 a b | .vlog2 a b | .vmov a b => slotsOk [a, b] && vselsOk a [b]
  | .vcmp c t a b d => slotsOk [a, b, d] && vselsOk a [b, d] && !(t.isFloat && c.isUnsigned)
  | .vsel _ a b c d | .vdeq a b c d => slotsOk [a, b, c, d] && vselsOk a [b, c, d]
  | .vcvt _ _ _ _ a b => slotsOk [a, b] && vselsOk a [b]
  | .vbcast _ a b => slotsOk [a] && vselsOk a [] && selsOk [] [b]
  | .vext t a _ lane => selsOk [a] [] && lane.toNat < t.lanes
  | .vshl t a b c | .vshr t a b c | .vsar t a b c => slotsOk [a, b, c] && vselsOk a [b, c] && !t.isFloat
  | .vld _ b _ | .vst _ b _ => selsOk [] [b]
  | .mma _ _ _ _ _ | .gmma _ _ _ _ _ | .mzero _ => true
  | .mst _ b _ | .mld _ b _ | .mscale _ b | .cxgo b _ => selsOk [] [b]
  | .gang mask => 2 ≤ popCount 8 mask.toNat
  | .ungang | .cxstop => true
  | .cxstat a => selsOk [a] []
  | .messageArrival _ | .reinjectDiverted _ | .streamBeatLanding _ | .endOfStream _
  | .dispatchNewActivation _ | .resumption _ | .outputBufferRelease _ _ | .eventSignalAtHome _ _ _ _
  | .barrierOpAtHome _ _ _ _ _ | .beatDecrement _ | .pourBeatLanding _ | .watchdogExpiry _
  | .fadeTick | .granuleExpiry _ _ | .replay _ _ | .migration _ _
  | .matrixOpStart _ | .gmmaJoinStart _ | .matrixOpComplete _ | .pumpChainEntry _
  | .pumpChainSig _ | .pumpChainEnd _ | .chunkAcquire _ | .chunkPerform _
  | .writeSignatureArrival _ _ | .externalAgentWrite _ _ _ | .evictPhase _ | .evlimExpiry _
  | .savePhase _ | .saveComplete _ | .resumeNoticePhase _ | .resumeComplete _
  | .queueStallExpiry _ _ | .preemptTimeout _ _ | .registerWrite _ _ _ _ | .qtailDoorbell _ _ _
  | .commandEntryRead _ _ | .launch _ _ | .copy _ _ | .mark _ _
  | .create | .destroy | .grow | .shrink
  | .preempt | .resume | .grant | .config
  | .replayCommand | .commandComplete _ _ | .leaseRenew _ | .leaseExpiry
  | .bucketRegisterWrite _ _ | .bucketRefill | .qosWindowEnd _ _ | .collectiveSlotWrite _ _ _
  | .collectiveContribution _ _ _ _ | .collectiveDeadline _ _ | .qpTailWrite _ _ | .workEntryComplete _
  | .networkArrival _ _ _ _ _ | .transportError _ | .telemetrySweep _ | .meshCrcFailure _
  | .controlResendTimeout _ | .refreshRound _ _ | .powerOn | .readyReport _ _ _
  | .thermalClamp _ | .thermalThrottle _ _ | .firmwareHeartbeatTimeout _ | .getMeasurements _ _
  | .dctlHalt _ | .dctlRun _ | .dctlStep _ | .dctlDrain _
  | .ddataAccess _ _ | .breakpointMatch _ | .watchpointMatch _ | .traceArm _ _
  | .traceTrigger _ | .traceDrainDone _ | .moduleReset | .placementDeadline _ _
  | .firmwareImageInstall _ _ _ _ | .drawLimitChange _ _ | .cnpReceived _ | .pfcPauseFrame _ _ _ => true

end Sys2Proof
end

