-- ==== Sys2Proof/Decode.lean ====
section
/-! DEFINITION. Decoding and encoding (R109, R110, R113, R115 to R122): the fields of a head and its tail, checks 6 to
10 of R113 in their order, and the encoder written from the same tables. -/

namespace Sys2Proof

/-- A head and its tail taken apart: TS, OP and A of the head (R115), the tail zero-extended to 48 bits. -/
structure Parts where
  ts : BitVec 2
  op : BitVec 8
  a : BitVec 6
  tail : BitVec 48
deriving DecidableEq, Repr

/-- The head halfword (R115). -/
def Parts.head (p : Parts) : BitVec 16 := p.ts ++ p.op ++ p.a

/-- The parts of a head halfword with a tail (R115). -/
def Parts.ofHead (h : BitVec 16) (tail : BitVec 48) : Parts :=
  { ts := h.extractLsb' 14 2, op := h.extractLsb' 6 8, a := h.extractLsb' 0 6, tail := tail }

/-- Tail layout BC (R116). -/
def tailBC (b c : BitVec 6) (m : BitVec 4) : BitVec 48 := 0#32 ++ b ++ c ++ m
/-- Tail layout I16 (R116). -/
def tailI16 (i : BitVec 16) : BitVec 48 := 0#32 ++ i
/-- Tail layout BI (R116). -/
def tailBI (b : BitVec 6) (m : BitVec 4) (i : BitVec 22) : BitVec 48 := 0#16 ++ b ++ m ++ i
/-- Tail layout BCD (R116). -/
def tailBCD (b c d : BitVec 6) (m : BitVec 14) : BitVec 48 := 0#16 ++ b ++ c ++ d ++ m
/-- Tail layout J (R116). -/
def tailJ (slot : BitVec 6) (disp : BitVec 26) : BitVec 48 := 0#16 ++ slot ++ disp
/-- Tail layout I32 (R116). -/
def tailI32 (i : BitVec 32) : BitVec 48 := 0#16 ++ i
/-- Tail layout V (R116, R220). -/
def tailV (b c : BitVec 6) (sa sb sc : BitVec 3) (ty : BitVec 3) (x : BitVec 8) : BitVec 48 :=
  0#16 ++ b ++ c ++ sa ++ sb ++ sc ++ ty ++ x
/-- Tail layout V4 (R116, R220). -/
def tailV4 (d : BitVec 6) (sd : BitVec 3) (b c : BitVec 6) (sa sb sc : BitVec 3) (ty : BitVec 3) (x : BitVec 8) : BitVec 48 :=
  d ++ sd ++ 0#7 ++ b ++ c ++ sa ++ sb ++ sc ++ ty ++ x
/-- Tail layout BCJ (R116). -/
def tailBCJ (b : BitVec 6) (cond : BitVec 4) (slot : BitVec 6) (disp : BitVec 32) : BitVec 48 := b ++ cond ++ slot ++ disp
/-- Tail layout M (R116, R228). -/
def tailM (rb rc : BitVec 4) (fmt : BitVec 4) (ev : BitVec 16) : BitVec 48 :=
  0#16 ++ 0#2 ++ rb ++ 0#2 ++ rc ++ fmt ++ ev
/-- Tail layout MA (R116, R228). -/
def tailMA (b : BitVec 6) (ev : BitVec 16) : BitVec 48 := 0#16 ++ b ++ 0#10 ++ ev

-- condition, size, type and format codes (R119, R120, R162, R171, R180, R197)

/-- Condition codes (R119). -/
def Cond.code : Cond → BitVec 4
  | .eq => 0
  | .ne => 1
  | .lt => 2
  | .ge => 3
  | .le => 4
  | .gt => 5
  | .ltn => 6
  | .gen => 7
  | .len => 8
  | .gtn => 9
  | .always => 10

/-- Condition codes (R119). -/
def Cond.ofCode (x : BitVec 4) : Option Cond :=
  match x.toNat with
  | 0 => some .eq
  | 1 => some .ne
  | 2 => some .lt
  | 3 => some .ge
  | 4 => some .le
  | 5 => some .gt
  | 6 => some .ltn
  | 7 => some .gen
  | 8 => some .len
  | 9 => some .gtn
  | 10 => some .always
  | _ => none

/-- Size codes of loads and stores (R162). -/
def MemSize.code : MemSize → BitVec 4
  | .b => 0
  | .bs => 1
  | .h => 2
  | .hs => 3
  | .w => 4
  | .ws => 5
  | .d => 6

/-- Size codes of loads and stores (R162). -/
def MemSize.ofCode (x : BitVec 4) : Option MemSize :=
  match x.toNat with
  | 0 => some .b
  | 1 => some .bs
  | 2 => some .h
  | 3 => some .hs
  | 4 => some .w
  | 5 => some .ws
  | 6 => some .d
  | _ => none

/-- Size codes of atomics (R171). -/
def ASize.code : ASize → BitVec 4
  | .w => 0
  | .d => 1

/-- Size codes of atomics (R171). -/
def ASize.ofCode (x : BitVec 4) : Option ASize :=
  match x.toNat with
  | 0 => some .w
  | 1 => some .d
  | _ => none

/-- Vector type codes (R120). -/
def VTy.code : VTy → BitVec 3
  | .f32 => 0
  | .bf16 => 1
  | .f16 => 2
  | .i32 => 3
  | .i16 => 4
  | .i8 => 5

/-- Vector type codes (R120). -/
def VTy.ofCode (x : BitVec 3) : Option VTy :=
  match x.toNat with
  | 0 => some .f32
  | 1 => some .bf16
  | 2 => some .f16
  | 3 => some .i32
  | 4 => some .i16
  | 5 => some .i8
  | _ => none

/-- Matrix format codes (R120). -/
def MFmt.code : MFmt → BitVec 4
  | .bf16 => 1
  | .f16 => 2
  | .e4m3 => 3
  | .e5m2 => 4
  | .e4m3s => 5
  | .e5m2s => 6
  | .nq4 => 7

/-- Matrix format codes (R120). -/
def MFmt.ofCode (x : BitVec 4) : Option MFmt :=
  match x.toNat with
  | 1 => some .bf16
  | 2 => some .f16
  | 3 => some .e4m3
  | 4 => some .e5m2
  | 5 => some .e4m3s
  | 6 => some .e5m2s
  | 7 => some .nq4
  | _ => none

/-- Rounding codes (R197). -/
def Rnd.code : Rnd → BitVec 2
  | .rne => 0
  | .rtz => 1
  | .rdn => 2
  | .rup => 3

/-- Rounding codes (R197). -/
def Rnd.ofCode (x : BitVec 2) : Option Rnd :=
  match x.toNat with
  | 0 => some .rne
  | 1 => some .rtz
  | 2 => some .rdn
  | _ => some .rup

/-- Kind codes of `rank` (R263). -/
def RankKind.code : RankKind → BitVec 4
  | .ev => 0
  | .bar => 1
  | .ring => 2

/-- Kind codes of `rank` (R263). -/
def RankKind.ofCode (x : BitVec 4) : Option RankKind :=
  match x.toNat with
  | 0 => some .ev
  | 1 => some .bar
  | 2 => some .ring
  | _ => none

/-- Scope codes of `fence` (R180). -/
def Scope.code : Scope → BitVec 2
  | .n => 0
  | .t => 1
  | .p => 2
  | .s => 3

/-- Scope codes of `fence` (R180). -/
def Scope.ofCode (x : BitVec 2) : Option Scope :=
  match x.toNat with
  | 0 => some .n
  | 1 => some .t
  | 2 => some .p
  | _ => some .s

/-- Destination type codes of `vcvt` (R120). -/
def DTy.code : DTy → BitVec 4
  | .lane t => 0#1 ++ t.code
  | .e4m3 => 6
  | .e5m2 => 7

/-- Destination type codes of `vcvt` (R120). -/
def DTy.ofCode (x : BitVec 4) : Option DTy :=
  match x.toNat with
  | 0 => some (.lane .f32)
  | 1 => some (.lane .bf16)
  | 2 => some (.lane .f16)
  | 3 => some (.lane .i32)
  | 4 => some (.lane .i16)
  | 5 => some (.lane .i8)
  | 6 => some .e4m3
  | 7 => some .e5m2
  | _ => none

/-- One-bit field of a Boolean. -/
def bit1 (b : Bool) : BitVec 1 := BitVec.ofBool b

/-- The low n bits of the field x as a Boolean at bit i. -/
def fbit {w : Nat} (x : BitVec w) (i : Nat) : Bool := x.getLsbD i

/-- The fields of a tail, read in each of its layouts (R116). -/
structure Fields where
  /-- BC: B [15:10], C [9:4], M [3:0] -/
  bcB : BitVec 6
  bcC : BitVec 6
  bcM : BitVec 4
  /-- I16 -/
  i16 : BitVec 16
  /-- 32-bit tails: B [31:26], C [25:20], D [19:14], M14 [13:0]; M [25:22], imm22 [21:0]; disp [25:0]; imm32 [31:0] -/
  b : BitVec 6
  c : BitVec 6
  d : BitVec 6
  m14 : BitVec 14
  m4 : BitVec 4
  i22 : BitVec 22
  disp26 : BitVec 26
  i32 : BitVec 32
  /-- V: slot A, slot B, slot C, type, X; V4 adds D, slot D and [38:32] -/
  sa : BitVec 3
  sb : BitVec 3
  sc : BitVec 3
  ty : BitVec 3
  x : BitVec 8
  d4 : BitVec 6
  sd : BitVec 3
  z7 : BitVec 7
  /-- BCJ: B [47:42], cond [41:38], slot [37:32], disp [31:0] -/
  cond : BitVec 4
  slot6 : BitVec 6
  /-- M: [31:30], ring B, [25:24], ring C, format, event; MA: [25:20] -/
  zm1 : BitVec 2
  rb : BitVec 4
  zm2 : BitVec 2
  rc : BitVec 4
  fmt : BitVec 4
  ev : BitVec 16
deriving DecidableEq, Repr

/-- The fields of a tail (R116). -/
def fieldsOf (t : BitVec 48) : Fields :=
  { bcB := t.extractLsb' 10 6, bcC := t.extractLsb' 4 6, bcM := t.extractLsb' 0 4, i16 := t.extractLsb' 0 16,
    b := t.extractLsb' 26 6, c := t.extractLsb' 20 6, d := t.extractLsb' 14 6, m14 := t.extractLsb' 0 14,
    m4 := t.extractLsb' 22 4, i22 := t.extractLsb' 0 22, disp26 := t.extractLsb' 0 26, i32 := t.extractLsb' 0 32,
    sa := t.extractLsb' 17 3, sb := t.extractLsb' 14 3, sc := t.extractLsb' 11 3, ty := t.extractLsb' 8 3,
    x := t.extractLsb' 0 8, d4 := t.extractLsb' 42 6, sd := t.extractLsb' 39 3, z7 := t.extractLsb' 32 7,
    cond := t.extractLsb' 38 4, slot6 := t.extractLsb' 32 6, zm1 := t.extractLsb' 30 2, rb := t.extractLsb' 26 4,
    zm2 := t.extractLsb' 24 2, rc := t.extractLsb' 20 4, fmt := t.extractLsb' 16 4, ev := t.extractLsb' 0 16 }

/-- Checks 7 to 10 of R113 for one opcode: its TS, its reserved fields, its selectors, its code fields. A refusal answers
the reason of fault 0x01. -/
def chk (p : Parts) (ts : BitVec 2) (zero sels : Bool) (i : Option Instr) : Except Nat Instr :=
  if p.ts ≠ ts then .error 2
  else if !zero then .error 3
  else if !sels then .error 4
  else match i with
    | some i => .ok i
    | none => .error 5

/-- `some i` where the code fields hold permitted values (R113 check 10). -/
def ifCode (c : Bool) (i : Instr) : Option Instr := if c then some i else none

/-- The instruction of a `trap` code: the four service requests have constructors of their own (R280, R335). -/
def trapOf (imm : BitVec 16) : Instr :=
  if imm = 0x7F01 then .trapKillContext
  else if imm = 0x7F02 then .trapResumeAtFault
  else if imm = 0x7F03 then .trapResumePastFault
  else if imm = 0x7F04 then .trapTransferObligations
  else .trap imm

/-- Opcodes 0x00 to 0x0F (R121). -/
def decode0 (p : Parts) (f : Fields) : Nat → Except Nat Instr
  | 0 => chk p 0 (p.a == 0) (true) (some .nop)
  | 1 => chk p 2 (p.a == 0) (true) (some (.br f.b f.disp26))
  | 2 => chk p 3 (f.cond.toNat != 10 || (p.a == 0 && f.d4 == 0)) (selsOk [] [p.a, f.d4]) ((Cond.ofCode f.cond).map fun c => .bcc c p.a f.d4 f.slot6 f.i32)
  | 3 => chk p 2 (p.a == 0) (true) (some (.call f.b f.disp26))
  | 4 => chk p 1 (p.a == 0 && f.bcC == 0 && f.bcM == 0) (selsOk [] [f.bcB]) (some (.jr f.bcB))
  | 5 => chk p 1 (p.a == 0 && f.bcC == 0 && f.bcM == 0) (selsOk [] [f.bcB]) (some (.callr f.bcB))
  | 6 => chk p 2 (true) (decide (1 ≤ p.a.toNat) && decide (p.a.toNat ≤ 55)) (some (.loop p.a f.b f.disp26))
  | 7 => chk p 0 (p.a == 0) (true) (some .endAct)
  | 8 => chk p 1 (p.a == 0) (true) (some (trapOf f.i16))
  | 9 => chk p 1 (p.a == 0) (true) (some (.brk f.i16))
  | _ => .error 1

/-- Opcodes 0x10 to 0x1F (R121). -/
def decode1 (p : Parts) (f : Fields) : Nat → Except Nat Instr
  | 0 => chk p 1 (f.bcM == 0) (selsOk [p.a] [f.bcB, f.bcC]) (some (.add p.a f.bcB f.bcC))
  | 1 => chk p 1 (f.bcM == 0) (selsOk [p.a] [f.bcB, f.bcC]) (some (.sub p.a f.bcB f.bcC))
  | 2 => chk p 1 (f.bcM == 0) (selsOk [p.a] [f.bcB, f.bcC]) (some (.mul p.a f.bcB f.bcC))
  | 3 => chk p 1 (f.bcM == 0) (selsOk [p.a] [f.bcB, f.bcC]) (some (.mulh p.a f.bcB f.bcC))
  | 4 => chk p 1 (f.bcM == 0) (selsOk [p.a] [f.bcB, f.bcC]) (some (.mulhn p.a f.bcB f.bcC))
  | 5 => chk p 1 (f.bcM == 0) (selsOk [p.a] [f.bcB, f.bcC]) (some (.div p.a f.bcB f.bcC))
  | 6 => chk p 1 (f.bcM == 0) (selsOk [p.a] [f.bcB, f.bcC]) (some (.divn p.a f.bcB f.bcC))
  | 7 => chk p 1 (f.bcM == 0) (selsOk [p.a] [f.bcB, f.bcC]) (some (.rem p.a f.bcB f.bcC))
  | 8 => chk p 1 (f.bcM == 0) (selsOk [p.a] [f.bcB, f.bcC]) (some (.remn p.a f.bcB f.bcC))
  | 9 => chk p 1 (f.bcM == 0) (selsOk [p.a] [f.bcB, f.bcC]) (some (.and p.a f.bcB f.bcC))
  | 10 => chk p 1 (f.bcM == 0) (selsOk [p.a] [f.bcB, f.bcC]) (some (.or p.a f.bcB f.bcC))
  | 11 => chk p 1 (f.bcM == 0) (selsOk [p.a] [f.bcB, f.bcC]) (some (.xor p.a f.bcB f.bcC))
  | 12 => chk p 1 (f.bcM == 0) (selsOk [p.a] [f.bcB, f.bcC]) (some (.andn p.a f.bcB f.bcC))
  | 13 => chk p 1 (f.bcM == 0) (selsOk [p.a] [f.bcB, f.bcC]) (some (.shl p.a f.bcB f.bcC))
  | 14 => chk p 1 (f.bcM == 0) (selsOk [p.a] [f.bcB, f.bcC]) (some (.shr p.a f.bcB f.bcC))
  | _ => chk p 1 (f.bcM == 0) (selsOk [p.a] [f.bcB, f.bcC]) (some (.sar p.a f.bcB f.bcC))

/-- Opcodes 0x20 to 0x2F (R121). -/
def decode2 (p : Parts) (f : Fields) : Nat → Except Nat Instr
  | 0 => chk p 1 (f.bcM == 0) (selsOk [p.a] [f.bcB, f.bcC]) (some (.rol p.a f.bcB f.bcC))
  | 1 => chk p 1 (f.bcM == 0) (selsOk [p.a] [f.bcB, f.bcC]) (some (.min p.a f.bcB f.bcC))
  | 2 => chk p 1 (f.bcM == 0) (selsOk [p.a] [f.bcB, f.bcC]) (some (.minn p.a f.bcB f.bcC))
  | 3 => chk p 1 (f.bcM == 0) (selsOk [p.a] [f.bcB, f.bcC]) (some (.max p.a f.bcB f.bcC))
  | 4 => chk p 1 (f.bcM == 0) (selsOk [p.a] [f.bcB, f.bcC]) (some (.maxn p.a f.bcB f.bcC))
  | 5 => chk p 1 (true) (selsOk [p.a] [f.bcB, f.bcC]) ((Cond.ofCode f.bcM).map fun k => .cmp k p.a f.bcB f.bcC)
  | 6 => chk p 2 (f.m14 == 0) (selsOk [p.a] [f.b, f.c, f.d]) (some (.sel p.a f.b f.c f.d))
  | 7 => chk p 1 (f.bcC == 0 && f.bcM == 0) (selsOk [p.a] [f.bcB]) (some (.clz p.a f.bcB))
  | 8 => chk p 1 (f.bcC == 0 && f.bcM == 0) (selsOk [p.a] [f.bcB]) (some (.ctz p.a f.bcB))
  | 9 => chk p 1 (f.bcC == 0 && f.bcM == 0) (selsOk [p.a] [f.bcB]) (some (.popc p.a f.bcB))
  | 10 => chk p 2 (f.c == 0 && f.d == 0 && !fbit f.m14 13) (selsOk [p.a] [f.b]) (ifCode (decide (1 ≤ (f.m14.extractLsb' 6 7).toNat) && decide ((f.m14.extractLsb' 0 6).toNat + (f.m14.extractLsb' 6 7).toNat ≤ 64)) (.ext p.a f.b (f.m14.extractLsb' 0 6) (f.m14.extractLsb' 6 7)))
  | 11 => chk p 2 (f.c == 0 && f.d == 0 && !fbit f.m14 13) (selsOk [p.a] [f.b]) (ifCode (decide (1 ≤ (f.m14.extractLsb' 6 7).toNat) && decide ((f.m14.extractLsb' 0 6).toNat + (f.m14.extractLsb' 6 7).toNat ≤ 64)) (.ins p.a f.b (f.m14.extractLsb' 0 6) (f.m14.extractLsb' 6 7)))
  | 12 => chk p 2 (f.m4 == 0) (selsOk [p.a] [f.b]) (some (.addi p.a f.b f.i22))
  | 13 => chk p 2 (true) (selsOk [p.a] []) (some (.movi p.a f.i32))
  | 14 => chk p 2 (true) (selsOk [p.a] []) (some (.movhi p.a f.i32))
  | _ => chk p 1 (true) (selsOk [p.a] [f.bcB, f.bcC]) (some (.shladd p.a f.bcB f.bcC f.bcM))

/-- Opcodes 0x30 to 0x3F (R121). -/
def decode3 (p : Parts) (f : Fields) : Nat → Except Nat Instr
  | 0 => chk p 2 (f.m4 == 0) (selsOk [p.a] [f.b]) (some (.andi p.a f.b f.i22))
  | 1 => chk p 2 (f.m4 == 0) (selsOk [p.a] [f.b]) (some (.ori p.a f.b f.i22))
  | 2 => chk p 2 (f.m4 == 0) (selsOk [p.a] [f.b]) (some (.xori p.a f.b f.i22))
  | 3 => chk p 2 (f.m4 == 0) (selsOk [p.a] [f.b]) (ifCode (decide (f.i22.toNat ≤ 63)) (.shli p.a f.b f.i22))
  | 4 => chk p 2 (f.m4 == 0) (selsOk [p.a] [f.b]) (ifCode (decide (f.i22.toNat ≤ 63)) (.shri p.a f.b f.i22))
  | 5 => chk p 2 (f.m4 == 0) (selsOk [p.a] [f.b]) (ifCode (decide (f.i22.toNat ≤ 63)) (.sari p.a f.b f.i22))
  | 6 => chk p 2 (true) (selsOk [p.a] [f.b]) ((Cond.ofCode f.m4).map fun k => .cmpi k p.a f.b f.i22)
  | 7 => chk p 2 (f.m4 == 0) (selsOk [p.a] [f.b]) (some (.muli p.a f.b f.i22))
  | 8 => chk p 1 ((f.i16.extractLsb' 12 4) == 0) (selsOk [p.a] []) (ifCode (csrNamed (f.i16.extractLsb' 0 12).toNat) (.csrr p.a (f.i16.extractLsb' 0 12)))
  | 9 => chk p 1 ((f.i16.extractLsb' 12 4) == 0) (selsOk [] [p.a]) (ifCode (csrNamed (f.i16.extractLsb' 0 12).toNat) (.csrw p.a (f.i16.extractLsb' 0 12)))
  | 10 => chk p 1 ((f.i16.extractLsb' 12 4) == 0) (selsOk [p.a] []) (ifCode (csrNamed (f.i16.extractLsb' 0 12).toNat) (.csrx p.a (f.i16.extractLsb' 0 12)))
  | 11 => chk p 0 (p.a == 0) (true) (some .rte)
  | 12 => chk p 1 (p.a == 0 && f.bcM == 0) (selsOk [] [f.bcB, f.bcC]) (some (.tlbinv f.bcB f.bcC))
  | 13 => chk p 1 (p.a == 0 && f.bcM == 0) (selsOk [] [f.bcB, f.bcC]) (some (.frgrant f.bcB f.bcC))
  | 14 => chk p 1 ((f.i16.extractLsb' 1 15) == 0) (selsOk [p.a] []) (some (.pair p.a (fbit f.i16 0)))
  | _ => chk p 0 (p.a == 0) (true) (some .chunk)

/-- Opcodes 0x40 to 0x4F (R121). -/
def decode4 (p : Parts) (f : Fields) : Nat → Except Nat Instr
  | 0 => chk p 2 (true) (selsOk [p.a] [f.b]) ((MemSize.ofCode f.m4).map fun z => .ld z p.a f.b f.i22)
  | 1 => chk p 2 (true) (selsOk [] [p.a, f.b]) ((MemSize.ofCode f.m4).bind fun z => ifCode z.storeOk (.st z p.a f.b f.i22))
  | 2 => chk p 2 (true) (selsOk [p.a] [f.b]) ((MemSize.ofCode f.m4).map fun z => .ldg z p.a f.b f.i22)
  | 3 => chk p 2 (true) (selsOk [] [p.a, f.b]) ((MemSize.ofCode f.m4).bind fun z => ifCode z.storeOk (.stg z p.a f.b f.i22))
  | 4 => chk p 2 (true) (selsOk [p.a] [f.b]) ((MemSize.ofCode f.m4).map fun z => .ldc z p.a f.b f.i22)
  | 5 => chk p 2 (p.a == 0) (selsOk [] [f.b]) (ifCode (decide (f.m4.toNat ≤ 1)) (.pref (fbit f.m4 0) f.b f.i22))
  | 6 => chk p 1 (true) (selsOk [p.a] [f.bcB, f.bcC]) ((ASize.ofCode f.bcM).map fun z => .aadd z p.a f.bcB f.bcC)
  | 7 => chk p 1 (true) (selsOk [p.a] [f.bcB, f.bcC]) ((ASize.ofCode f.bcM).map fun z => .amin z p.a f.bcB f.bcC)
  | 8 => chk p 1 (true) (selsOk [p.a] [f.bcB, f.bcC]) ((ASize.ofCode f.bcM).map fun z => .amax z p.a f.bcB f.bcC)
  | 9 => chk p 1 (true) (selsOk [p.a] [f.bcB, f.bcC]) ((ASize.ofCode f.bcM).map fun z => .aminn z p.a f.bcB f.bcC)
  | 10 => chk p 1 (true) (selsOk [p.a] [f.bcB, f.bcC]) ((ASize.ofCode f.bcM).map fun z => .amaxn z p.a f.bcB f.bcC)
  | 11 => chk p 1 (true) (selsOk [p.a] [f.bcB, f.bcC]) ((ASize.ofCode f.bcM).map fun z => .aand z p.a f.bcB f.bcC)
  | 12 => chk p 1 (true) (selsOk [p.a] [f.bcB, f.bcC]) ((ASize.ofCode f.bcM).map fun z => .aor z p.a f.bcB f.bcC)
  | 13 => chk p 1 (true) (selsOk [p.a] [f.bcB, f.bcC]) ((ASize.ofCode f.bcM).map fun z => .axor z p.a f.bcB f.bcC)
  | 14 => chk p 1 (true) (selsOk [p.a] [f.bcB, f.bcC]) ((ASize.ofCode f.bcM).map fun z => .axchg z p.a f.bcB f.bcC)
  | _ => chk p 2 ((f.m14.extractLsb' 1 13) == 0) (selsOk [p.a] [f.b, f.c, f.d]) (some (.acas (if fbit f.m14 0 then .d else .w) p.a f.b f.c f.d))

/-- Opcodes 0x50 to 0x5F (R121). -/
def decode5 (p : Parts) (f : Fields) : Nat → Except Nat Instr
  | 0 => chk p 1 (true) (selsOk [p.a] [f.bcB, f.bcC]) ((ASize.ofCode f.bcM).map fun z => .ladd z p.a f.bcB f.bcC)
  | 1 => chk p 2 ((f.m14.extractLsb' 1 13) == 0) (selsOk [p.a] [f.b, f.c, f.d]) (some (.lcas (if fbit f.m14 0 then .d else .w) p.a f.b f.c f.d))
  | 2 => chk p 1 (p.a == 0 && f.bcM == 0) (selsOk [] [f.bcB, f.bcC]) (some (.renew f.bcB f.bcC))
  | 3 => chk p 1 (f.bcC == 0 && f.bcM == 0) (selsOk [p.a] [f.bcB]) (some (.wtag p.a f.bcB))
  | 4 => chk p 1 (p.a == 0 && (f.bcM.extractLsb' 2 2) == 0) (selsOk [] [f.bcB, f.bcC]) (some (.wset f.bcB f.bcC (fbit f.bcM 1) (fbit f.bcM 0)))
  | 5 => chk p 1 (p.a == 0 && f.bcM == 0) (selsOk [] [f.bcB, f.bcC]) (some (.wzero f.bcB f.bcC))
  | 6 => chk p 1 (p.a == 0 && (f.i16.extractLsb' 6 10) == 0) (true) ((Scope.ofCode (f.i16.extractLsb' 0 2)).bind fun s => ifCode (!fbit f.i16 5 || s == .s) (.fence s (fbit f.i16 2) (fbit f.i16 3) (fbit f.i16 4) (fbit f.i16 5)))
  | 7 => chk p 2 (p.a == 0 && f.m4 == 0) (selsOk [] [f.b]) (some (.marm f.b f.i22))
  | 8 => chk p 0 (true) (selsOk [p.a] []) (some (.mwait p.a))
  | 9 => chk p 0 (p.a == 0) (true) (some .roinv)
  | _ => .error 1

/-- Opcodes 0x60 to 0x6F (R121). -/
def decode6 (p : Parts) (f : Fields) : Nat → Except Nat Instr
  | 0 => chk p 1 (f.bcM == 0) (selsOk [] [p.a, f.bcB, f.bcC]) (some (.send p.a f.bcB f.bcC))
  | 1 => chk p 1 (f.bcM == 0) (selsOk [] [p.a, f.bcB, f.bcC]) (some (.sendw p.a f.bcB f.bcC))
  | 2 => chk p 2 ((f.m14.extractLsb' 1 13) == 0) (selsOk [] [p.a, f.b, f.c, f.d]) (some (.pour (fbit f.m14 0) p.a f.b f.c f.d))
  | 3 => chk p 1 (f.bcC == 0 && f.bcM == 0) (selsOk [] [p.a, f.bcB]) (some (.bind p.a f.bcB))
  | 4 => chk p 1 (f.bcC == 0 && f.bcM == 0) (selsOk [] [p.a, f.bcB]) (some (.chmask p.a f.bcB))
  | 5 => chk p 1 ((f.i16.extractLsb' 7 9) == 0) (decide (p.a.toNat ≤ 15)) (ifCode (decide (1 ≤ (f.i16.extractLsb' 0 7).toNat) && decide ((f.i16.extractLsb' 0 7).toNat ≤ 64)) (.advp (p.a.extractLsb' 0 4) (f.i16.extractLsb' 0 7)))
  | 6 => chk p 1 ((f.i16.extractLsb' 7 9) == 0) (decide (p.a.toNat ≤ 15)) (ifCode (decide (1 ≤ (f.i16.extractLsb' 0 7).toNat) && decide ((f.i16.extractLsb' 0 7).toNat ≤ 64)) (.advc (p.a.extractLsb' 0 4) (f.i16.extractLsb' 0 7)))
  | 7 => chk p 1 (f.bcC == 0 && f.bcM == 0) (decide (p.a.toNat ≤ 15) && selsOk [] [f.bcB]) (some (.ringset (p.a.extractLsb' 0 4) f.bcB))
  | 8 => chk p 1 (f.bcM == 0) (selsOk [] [p.a, f.bcB, f.bcC]) (some (.mkev p.a f.bcB f.bcC))
  | 9 => chk p 1 (f.bcB == 0 && f.bcC == 0 && f.bcM == 0) (selsOk [] [p.a]) (some (.rmev p.a))
  | 10 => chk p 1 (f.bcC == 0 && f.bcM == 0) (selsOk [] [p.a, f.bcB]) (some (.sig p.a f.bcB))
  | 11 => chk p 1 (f.bcM == 0) (selsOk [p.a] [f.bcB, f.bcC]) (some (.waitge p.a f.bcB f.bcC))
  | 12 => chk p 1 (f.bcC == 0 && f.bcM == 0) (selsOk [] [p.a, f.bcB]) (some (.owe p.a f.bcB))
  | 13 => chk p 2 ((f.m14.extractLsb' 1 13) == 0) (selsOk [] [p.a, f.b, f.c, f.d]) (some (.sendo (fbit f.m14 0) p.a f.b f.c f.d))
  | 14 => chk p 1 (f.bcC == 0) (selsOk [p.a] [f.bcB]) ((RankKind.ofCode f.bcM).map fun k => .rank k p.a f.bcB)
  | _ => chk p 1 (f.bcM == 0) (selsOk [p.a] [f.bcB, f.bcC]) (some (.rkmid p.a f.bcB f.bcC))

/-- Opcodes 0x70 to 0x7F (R121). -/
def decode7 (p : Parts) (f : Fields) : Nat → Except Nat Instr
  | 0 => chk p 2 (p.a == 0 && f.d == 0 && f.m14 == 0) (selsOk [] [f.b, f.c]) (some (.mkbar f.b f.c))
  | 1 => chk p 1 (f.bcC == 0 && f.bcM == 0) (selsOk [] [p.a, f.bcB]) (some (.bara p.a f.bcB))
  | 2 => chk p 1 (f.bcC == 0 && f.bcM == 0) (selsOk [p.a] [f.bcB]) (some (.barw p.a f.bcB))
  | 3 => chk p 1 (p.a == 0 && f.bcC == 0 && f.bcM == 0) (selsOk [] [f.bcB]) (some (.join f.bcB))
  | 4 => chk p 1 (p.a == 0 && f.bcC == 0 && f.bcM == 0) (selsOk [] [f.bcB]) (some (.leave f.bcB))
  | 5 => chk p 1 ((f.i16.extractLsb' 4 12) == 0) (selsOk [p.a] []) (ifCode (f.i16.extractLsb' 0 4 == 2 || f.i16.extractLsb' 0 4 == 4 || f.i16.extractLsb' 0 4 == 8) (.compose p.a (f.i16.extractLsb' 0 4)))
  | 6 => chk p 0 (p.a == 0) (true) (some .release)
  | 7 => chk p 0 (true) (selsOk [p.a] []) (some (.drawt p.a))
  | 8 => chk p 1 (f.bcM == 0) (selsOk [p.a] [f.bcB, f.bcC]) (some (.drawg p.a f.bcB f.bcC))
  | _ => .error 1

/-- Opcodes 0x80 to 0x8F (R121). X of `vcmp` holds a condition code in [3:0] (R119), and [7:4] is taken as a field that must be zero,
reason 3 (DESIGN CHOICE, log 96). -/
def decode8 (p : Parts) (f : Fields) : Nat → Except Nat Instr
  | 0 => chk p 2 (f.x == 0 && slotsOk [(⟨p.a, f.sa⟩ : VOp), (⟨f.b, f.sb⟩ : VOp), (⟨f.c, f.sc⟩ : VOp)]) (vselsOk (⟨p.a, f.sa⟩ : VOp) [(⟨f.b, f.sb⟩ : VOp), (⟨f.c, f.sc⟩ : VOp)]) ((VTy.ofCode f.ty).map fun t => .vadd t (⟨p.a, f.sa⟩ : VOp) (⟨f.b, f.sb⟩ : VOp) (⟨f.c, f.sc⟩ : VOp))
  | 1 => chk p 2 (f.x == 0 && slotsOk [(⟨p.a, f.sa⟩ : VOp), (⟨f.b, f.sb⟩ : VOp), (⟨f.c, f.sc⟩ : VOp)]) (vselsOk (⟨p.a, f.sa⟩ : VOp) [(⟨f.b, f.sb⟩ : VOp), (⟨f.c, f.sc⟩ : VOp)]) ((VTy.ofCode f.ty).map fun t => .vsub t (⟨p.a, f.sa⟩ : VOp) (⟨f.b, f.sb⟩ : VOp) (⟨f.c, f.sc⟩ : VOp))
  | 2 => chk p 2 (f.x == 0 && slotsOk [(⟨p.a, f.sa⟩ : VOp), (⟨f.b, f.sb⟩ : VOp), (⟨f.c, f.sc⟩ : VOp)]) (vselsOk (⟨p.a, f.sa⟩ : VOp) [(⟨f.b, f.sb⟩ : VOp), (⟨f.c, f.sc⟩ : VOp)]) ((VTy.ofCode f.ty).map fun t => .vmul t (⟨p.a, f.sa⟩ : VOp) (⟨f.b, f.sb⟩ : VOp) (⟨f.c, f.sc⟩ : VOp))
  | 3 => chk p 2 (f.x == 0 && slotsOk [(⟨p.a, f.sa⟩ : VOp), (⟨f.b, f.sb⟩ : VOp), (⟨f.c, f.sc⟩ : VOp)]) (vselsOk (⟨p.a, f.sa⟩ : VOp) [(⟨f.b, f.sb⟩ : VOp), (⟨f.c, f.sc⟩ : VOp)] && (⟨p.a, f.sa⟩ : VOp).isV) ((VTy.ofCode f.ty).map fun t => .vfma t (⟨p.a, f.sa⟩ : VOp) (⟨f.b, f.sb⟩ : VOp) (⟨f.c, f.sc⟩ : VOp))
  | 4 => chk p 2 (f.x == 0 && slotsOk [(⟨p.a, f.sa⟩ : VOp), (⟨f.b, f.sb⟩ : VOp), (⟨f.c, f.sc⟩ : VOp)]) (vselsOk (⟨p.a, f.sa⟩ : VOp) [(⟨f.b, f.sb⟩ : VOp), (⟨f.c, f.sc⟩ : VOp)]) ((VTy.ofCode f.ty).map fun t => .vmax t (⟨p.a, f.sa⟩ : VOp) (⟨f.b, f.sb⟩ : VOp) (⟨f.c, f.sc⟩ : VOp))
  | 5 => chk p 2 (f.x == 0 && slotsOk [(⟨p.a, f.sa⟩ : VOp), (⟨f.b, f.sb⟩ : VOp), (⟨f.c, f.sc⟩ : VOp)]) (vselsOk (⟨p.a, f.sa⟩ : VOp) [(⟨f.b, f.sb⟩ : VOp), (⟨f.c, f.sc⟩ : VOp)]) ((VTy.ofCode f.ty).map fun t => .vmin t (⟨p.a, f.sa⟩ : VOp) (⟨f.b, f.sb⟩ : VOp) (⟨f.c, f.sc⟩ : VOp))
  | 6 => chk p 2 (f.x == 0 && f.c == 0 && f.sc == 0 && slotsOk [(⟨p.a, f.sa⟩ : VOp), (⟨f.b, f.sb⟩ : VOp)]) (vselsOk (⟨p.a, f.sa⟩ : VOp) [(⟨f.b, f.sb⟩ : VOp)]) ((VTy.ofCode f.ty).map fun t => .vabs t (⟨p.a, f.sa⟩ : VOp) (⟨f.b, f.sb⟩ : VOp))
  | 7 => chk p 2 (f.x == 0 && f.c == 0 && f.sc == 0 && slotsOk [(⟨p.a, f.sa⟩ : VOp), (⟨f.b, f.sb⟩ : VOp)]) (vselsOk (⟨p.a, f.sa⟩ : VOp) [(⟨f.b, f.sb⟩ : VOp)]) ((VTy.ofCode f.ty).map fun t => .vneg t (⟨p.a, f.sa⟩ : VOp) (⟨f.b, f.sb⟩ : VOp))
  | 8 => chk p 2 (f.x == 0 && f.c == 0 && f.sc == 0 && slotsOk [(⟨p.a, f.sa⟩ : VOp), (⟨f.b, f.sb⟩ : VOp)]) (vselsOk (⟨p.a, f.sa⟩ : VOp) [(⟨f.b, f.sb⟩ : VOp)]) (ifCode (f.ty == 0) (.vrcp (⟨p.a, f.sa⟩ : VOp) (⟨f.b, f.sb⟩ : VOp)))
  | 9 => chk p 2 (f.x == 0 && f.c == 0 && f.sc == 0 && slotsOk [(⟨p.a, f.sa⟩ : VOp), (⟨f.b, f.sb⟩ : VOp)]) (vselsOk (⟨p.a, f.sa⟩ : VOp) [(⟨f.b, f.sb⟩ : VOp)]) (ifCode (f.ty == 0) (.vrsqrt (⟨p.a, f.sa⟩ : VOp) (⟨f.b, f.sb⟩ : VOp)))
  | 10 => chk p 2 (f.x == 0 && f.c == 0 && f.sc == 0 && slotsOk [(⟨p.a, f.sa⟩ : VOp), (⟨f.b, f.sb⟩ : VOp)]) (vselsOk (⟨p.a, f.sa⟩ : VOp) [(⟨f.b, f.sb⟩ : VOp)]) (ifCode (f.ty == 0) (.vexp2 (⟨p.a, f.sa⟩ : VOp) (⟨f.b, f.sb⟩ : VOp)))
  | 11 => chk p 2 (f.x == 0 && f.c == 0 && f.sc == 0 && slotsOk [(⟨p.a, f.sa⟩ : VOp), (⟨f.b, f.sb⟩ : VOp)]) (vselsOk (⟨p.a, f.sa⟩ : VOp) [(⟨f.b, f.sb⟩ : VOp)]) (ifCode (f.ty == 0) (.vlog2 (⟨p.a, f.sa⟩ : VOp) (⟨f.b, f.sb⟩ : VOp)))
  | 12 => chk p 2 ((f.x.extractLsb' 4 4) == 0 && slotsOk [(⟨p.a, f.sa⟩ : VOp), (⟨f.b, f.sb⟩ : VOp), (⟨f.c, f.sc⟩ : VOp)]) (vselsOk (⟨p.a, f.sa⟩ : VOp) [(⟨f.b, f.sb⟩ : VOp), (⟨f.c, f.sc⟩ : VOp)]) ((VTy.ofCode f.ty).bind fun t => (Cond.ofCode (f.x.extractLsb' 0 4)).bind fun k => ifCode (!(t.isFloat && k.isUnsigned)) (.vcmp k t (⟨p.a, f.sa⟩ : VOp) (⟨f.b, f.sb⟩ : VOp) (⟨f.c, f.sc⟩ : VOp)))
  | 13 => chk p 3 (f.x == 0 && f.z7 == 0 && slotsOk [(⟨p.a, f.sa⟩ : VOp), (⟨f.b, f.sb⟩ : VOp), (⟨f.c, f.sc⟩ : VOp), (⟨f.d4, f.sd⟩ : VOp)]) (vselsOk (⟨p.a, f.sa⟩ : VOp) [(⟨f.b, f.sb⟩ : VOp), (⟨f.c, f.sc⟩ : VOp), (⟨f.d4, f.sd⟩ : VOp)]) ((VTy.ofCode f.ty).map fun t => .vsel t (⟨p.a, f.sa⟩ : VOp) (⟨f.b, f.sb⟩ : VOp) (⟨f.c, f.sc⟩ : VOp) (⟨f.d4, f.sd⟩ : VOp))
  | 14 => chk p 2 (!fbit f.x 0 && f.c == 0 && f.sc == 0 && slotsOk [(⟨p.a, f.sa⟩ : VOp), (⟨f.b, f.sb⟩ : VOp)]) (vselsOk (⟨p.a, f.sa⟩ : VOp) [(⟨f.b, f.sb⟩ : VOp)]) ((VTy.ofCode f.ty).bind fun t => (DTy.ofCode (f.x.extractLsb' 4 4)).bind fun u => (Rnd.ofCode (f.x.extractLsb' 2 2)).map fun r => .vcvt t u r (fbit f.x 1) (⟨p.a, f.sa⟩ : VOp) (⟨f.b, f.sb⟩ : VOp))
  | _ => chk p 3 (f.x == 0 && f.z7 == 0 && f.d4 == 0 && f.sd == 0 && slotsOk [(⟨p.a, f.sa⟩ : VOp), (⟨f.b, f.sb⟩ : VOp), (⟨f.c, f.sc⟩ : VOp)]) (vselsOk (⟨p.a, f.sa⟩ : VOp) [(⟨f.b, f.sb⟩ : VOp), (⟨f.c, f.sc⟩ : VOp)]) (ifCode (f.ty == 0) (.vquant (⟨p.a, f.sa⟩ : VOp) (⟨f.b, f.sb⟩ : VOp) (⟨f.c, f.sc⟩ : VOp)))

/-- Opcodes 0x90 to 0x9F (R121). -/
def decode9 (p : Parts) (f : Fields) : Nat → Except Nat Instr
  | 0 => chk p 3 (f.x == 0 && f.z7 == 0 && slotsOk [(⟨p.a, f.sa⟩ : VOp), (⟨f.b, f.sb⟩ : VOp), (⟨f.c, f.sc⟩ : VOp), (⟨f.d4, f.sd⟩ : VOp)]) (vselsOk (⟨p.a, f.sa⟩ : VOp) [(⟨f.b, f.sb⟩ : VOp), (⟨f.c, f.sc⟩ : VOp), (⟨f.d4, f.sd⟩ : VOp)]) (ifCode (f.ty == 0) (.vdeq (⟨p.a, f.sa⟩ : VOp) (⟨f.b, f.sb⟩ : VOp) (⟨f.c, f.sc⟩ : VOp) (⟨f.d4, f.sd⟩ : VOp)))
  | 1 => chk p 2 (f.x == 0 && f.c == 0 && f.sc == 0 && slotsOk [(⟨p.a, f.sa⟩ : VOp), (⟨f.b, f.sb⟩ : VOp)]) (vselsOk (⟨p.a, f.sa⟩ : VOp) [(⟨f.b, f.sb⟩ : VOp)]) ((VTy.ofCode f.ty).map fun t => .vredadd t (⟨p.a, f.sa⟩ : VOp) (⟨f.b, f.sb⟩ : VOp))
  | 2 => chk p 2 (f.x == 0 && f.c == 0 && f.sc == 0 && slotsOk [(⟨p.a, f.sa⟩ : VOp), (⟨f.b, f.sb⟩ : VOp)]) (vselsOk (⟨p.a, f.sa⟩ : VOp) [(⟨f.b, f.sb⟩ : VOp)]) ((VTy.ofCode f.ty).map fun t => .vredmax t (⟨p.a, f.sa⟩ : VOp) (⟨f.b, f.sb⟩ : VOp))
  | 3 => chk p 2 (f.x == 0 && f.c == 0 && f.sc == 0 && slotsOk [(⟨p.a, f.sa⟩ : VOp), (⟨f.b, f.sb⟩ : VOp)]) (vselsOk (⟨p.a, f.sa⟩ : VOp) [(⟨f.b, f.sb⟩ : VOp)]) ((VTy.ofCode f.ty).map fun t => .vredmin t (⟨p.a, f.sa⟩ : VOp) (⟨f.b, f.sb⟩ : VOp))
  | 4 => chk p 2 (f.x == 0 && f.c == 0 && f.sc == 0 && f.sb == 0 && slotsOk [(⟨p.a, f.sa⟩ : VOp)]) (vselsOk (⟨p.a, f.sa⟩ : VOp) [] && selsOk [] [f.b]) ((VTy.ofCode f.ty).map fun t => .vbcast t (⟨p.a, f.sa⟩ : VOp) f.b)
  | 5 => chk p 2 (f.c == 0 && f.sc == 0 && f.sa == 0 && slotsOk [(⟨f.b, f.sb⟩ : VOp)]) (selsOk [p.a] [] && (⟨f.b, f.sb⟩ : VOp).isV) ((VTy.ofCode f.ty).bind fun t => ifCode (decide (f.x.toNat < t.lanes)) (.vext t p.a (f.b.extractLsb' 0 4) f.x))
  | 6 => chk p 2 (f.x == 0 && slotsOk [(⟨p.a, f.sa⟩ : VOp), (⟨f.b, f.sb⟩ : VOp), (⟨f.c, f.sc⟩ : VOp)]) (vselsOk (⟨p.a, f.sa⟩ : VOp) [(⟨f.b, f.sb⟩ : VOp), (⟨f.c, f.sc⟩ : VOp)]) ((VTy.ofCode f.ty).map fun t => .vshuf t (⟨p.a, f.sa⟩ : VOp) (⟨f.b, f.sb⟩ : VOp) (⟨f.c, f.sc⟩ : VOp))
  | 7 => chk p 2 (f.x == 0 && slotsOk [(⟨p.a, f.sa⟩ : VOp), (⟨f.b, f.sb⟩ : VOp), (⟨f.c, f.sc⟩ : VOp)]) (vselsOk (⟨p.a, f.sa⟩ : VOp) [(⟨f.b, f.sb⟩ : VOp), (⟨f.c, f.sc⟩ : VOp)]) (ifCode (f.ty == 0) (.vand (⟨p.a, f.sa⟩ : VOp) (⟨f.b, f.sb⟩ : VOp) (⟨f.c, f.sc⟩ : VOp)))
  | 8 => chk p 2 (f.x == 0 && slotsOk [(⟨p.a, f.sa⟩ : VOp), (⟨f.b, f.sb⟩ : VOp), (⟨f.c, f.sc⟩ : VOp)]) (vselsOk (⟨p.a, f.sa⟩ : VOp) [(⟨f.b, f.sb⟩ : VOp), (⟨f.c, f.sc⟩ : VOp)]) (ifCode (f.ty == 0) (.vor (⟨p.a, f.sa⟩ : VOp) (⟨f.b, f.sb⟩ : VOp) (⟨f.c, f.sc⟩ : VOp)))
  | 9 => chk p 2 (f.x == 0 && slotsOk [(⟨p.a, f.sa⟩ : VOp), (⟨f.b, f.sb⟩ : VOp), (⟨f.c, f.sc⟩ : VOp)]) (vselsOk (⟨p.a, f.sa⟩ : VOp) [(⟨f.b, f.sb⟩ : VOp), (⟨f.c, f.sc⟩ : VOp)]) (ifCode (f.ty == 0) (.vxor (⟨p.a, f.sa⟩ : VOp) (⟨f.b, f.sb⟩ : VOp) (⟨f.c, f.sc⟩ : VOp)))
  | 10 => chk p 2 (f.x == 0 && slotsOk [(⟨p.a, f.sa⟩ : VOp), (⟨f.b, f.sb⟩ : VOp), (⟨f.c, f.sc⟩ : VOp)]) (vselsOk (⟨p.a, f.sa⟩ : VOp) [(⟨f.b, f.sb⟩ : VOp), (⟨f.c, f.sc⟩ : VOp)]) ((VTy.ofCode f.ty).bind fun t => ifCode (!t.isFloat) (.vshl t (⟨p.a, f.sa⟩ : VOp) (⟨f.b, f.sb⟩ : VOp) (⟨f.c, f.sc⟩ : VOp)))
  | 11 => chk p 2 (f.x == 0 && slotsOk [(⟨p.a, f.sa⟩ : VOp), (⟨f.b, f.sb⟩ : VOp), (⟨f.c, f.sc⟩ : VOp)]) (vselsOk (⟨p.a, f.sa⟩ : VOp) [(⟨f.b, f.sb⟩ : VOp), (⟨f.c, f.sc⟩ : VOp)]) ((VTy.ofCode f.ty).bind fun t => ifCode (!t.isFloat) (.vshr t (⟨p.a, f.sa⟩ : VOp) (⟨f.b, f.sb⟩ : VOp) (⟨f.c, f.sc⟩ : VOp)))
  | 12 => chk p 2 (f.x == 0 && slotsOk [(⟨p.a, f.sa⟩ : VOp), (⟨f.b, f.sb⟩ : VOp), (⟨f.c, f.sc⟩ : VOp)]) (vselsOk (⟨p.a, f.sa⟩ : VOp) [(⟨f.b, f.sb⟩ : VOp), (⟨f.c, f.sc⟩ : VOp)]) ((VTy.ofCode f.ty).bind fun t => ifCode (!t.isFloat) (.vsar t (⟨p.a, f.sa⟩ : VOp) (⟨f.b, f.sb⟩ : VOp) (⟨f.c, f.sc⟩ : VOp)))
  | 13 => chk p 2 (f.m4 == 0) (decide (p.a.toNat ≤ 15) && selsOk [] [f.b]) (some (.vld (p.a.extractLsb' 0 4) f.b f.i22))
  | 14 => chk p 2 (f.m4 == 0) (decide (p.a.toNat ≤ 15) && selsOk [] [f.b]) (some (.vst (p.a.extractLsb' 0 4) f.b f.i22))
  | _ => chk p 2 (f.x == 0 && f.c == 0 && f.sc == 0 && slotsOk [(⟨p.a, f.sa⟩ : VOp), (⟨f.b, f.sb⟩ : VOp)]) (vselsOk (⟨p.a, f.sa⟩ : VOp) [(⟨f.b, f.sb⟩ : VOp)]) (ifCode (f.ty == 0) (.vmov (⟨p.a, f.sa⟩ : VOp) (⟨f.b, f.sb⟩ : VOp)))

/-- Opcodes 0xA0 to 0xAF (R121). -/
def decodeA (p : Parts) (f : Fields) : Nat → Except Nat Instr
  | 0 => chk p 2 ((p.a.extractLsb' 2 4) == 0 && f.zm1 == 0 && f.zm2 == 0) (true) ((MFmt.ofCode f.fmt).map fun m => .mma m (p.a.extractLsb' 0 2) f.rb f.rc f.ev)
  | 1 => chk p 2 ((p.a.extractLsb' 2 4) == 0 && f.zm1 == 0 && f.zm2 == 0) (true) ((MFmt.ofCode f.fmt).map fun m => .gmma m (p.a.extractLsb' 0 2) f.rb f.rc f.ev)
  | 2 => chk p 0 ((p.a.extractLsb' 2 4) == 0) (true) (some (.mzero (p.a.extractLsb' 0 2)))
  | 3 => chk p 2 ((p.a.extractLsb' 2 4) == 0 && f.c == 0 && f.fmt == 0) (selsOk [] [f.b]) (some (.mst (p.a.extractLsb' 0 2) f.b f.ev))
  | 4 => chk p 2 ((p.a.extractLsb' 2 4) == 0 && f.c == 0 && f.fmt == 0) (selsOk [] [f.b]) (some (.mld (p.a.extractLsb' 0 2) f.b f.ev))
  | 5 => chk p 1 (p.a == 0 && (f.i16.extractLsb' 8 8) == 0) (true) (ifCode (decide (2 ≤ popCount 8 (f.i16.extractLsb' 0 8).toNat)) (.gang (f.i16.extractLsb' 0 8)))
  | 6 => chk p 0 (p.a == 0) (true) (some .ungang)
  | 7 => chk p 1 ((p.a.extractLsb' 2 4) == 0 && f.bcC == 0 && f.bcM == 0) (selsOk [] [f.bcB]) (some (.mscale (p.a.extractLsb' 0 2) f.bcB))
  | _ => .error 1

/-- Opcodes 0xB0 to 0xBF (R121). -/
def decodeB (p : Parts) (f : Fields) : Nat → Except Nat Instr
  | 0 => chk p 2 (p.a == 0 && f.c == 0 && f.fmt == 0) (selsOk [] [f.b]) (some (.cxgo f.b f.ev))
  | 1 => chk p 0 (p.a == 0) (true) (some .cxstop)
  | 2 => chk p 0 (true) (selsOk [p.a] []) (some (.cxstat p.a))
  | _ => .error 1

/-- The instruction of a head and its tail, or the reason of fault 0x01 (R113 checks 6 to 10). -/
def decodeParts (p : Parts) : Except Nat Instr :=
  let f := fieldsOf p.tail
  let lo := p.op.toNat % 16
  match p.op.toNat / 16 with
  | 0 => decode0 p f lo
  | 1 => decode1 p f lo
  | 2 => decode2 p f lo
  | 3 => decode3 p f lo
  | 4 => decode4 p f lo
  | 5 => decode5 p f lo
  | 6 => decode6 p f lo
  | 7 => decode7 p f lo
  | 8 => decode8 p f lo
  | 9 => decode9 p f lo
  | 10 => decodeA p f lo
  | 11 => decodeB p f lo
  | _ => .error 1

/-- The head and tail of an instruction, from the encoding tables of the spec; none for a step without an encoding. -/
def encodeParts : Instr → Option Parts
  | .nop => some ⟨0, 0x00, 0, 0⟩
  | .br slot disp => some ⟨2, 0x01, 0, tailJ slot disp⟩
  | .bcc c a b slot disp => some ⟨3, 0x02, a, tailBCJ b c.code slot disp⟩
  | .call slot disp => some ⟨2, 0x03, 0, tailJ slot disp⟩
  | .jr b => some ⟨1, 0x04, 0, tailBC b 0 0⟩
  | .callr b => some ⟨1, 0x05, 0, tailBC b 0 0⟩
  | .loop a slot disp => some ⟨2, 0x06, a, tailJ slot disp⟩
  | .endAct => some ⟨0, 0x07, 0, 0⟩
  | .trap i => some ⟨1, 0x08, 0, tailI16 i⟩
  | .trapKillContext => some ⟨1, 0x08, 0, tailI16 0x7F01⟩
  | .trapResumeAtFault => some ⟨1, 0x08, 0, tailI16 0x7F02⟩
  | .trapResumePastFault => some ⟨1, 0x08, 0, tailI16 0x7F03⟩
  | .trapTransferObligations => some ⟨1, 0x08, 0, tailI16 0x7F04⟩
  | .brk i => some ⟨1, 0x09, 0, tailI16 i⟩
  | .add a b c => some ⟨1, 0x10, a, tailBC b c 0⟩
  | .sub a b c => some ⟨1, 0x11, a, tailBC b c 0⟩
  | .mul a b c => some ⟨1, 0x12, a, tailBC b c 0⟩
  | .mulh a b c => some ⟨1, 0x13, a, tailBC b c 0⟩
  | .mulhn a b c => some ⟨1, 0x14, a, tailBC b c 0⟩
  | .div a b c => some ⟨1, 0x15, a, tailBC b c 0⟩
  | .divn a b c => some ⟨1, 0x16, a, tailBC b c 0⟩
  | .rem a b c => some ⟨1, 0x17, a, tailBC b c 0⟩
  | .remn a b c => some ⟨1, 0x18, a, tailBC b c 0⟩
  | .and a b c => some ⟨1, 0x19, a, tailBC b c 0⟩
  | .or a b c => some ⟨1, 0x1A, a, tailBC b c 0⟩
  | .xor a b c => some ⟨1, 0x1B, a, tailBC b c 0⟩
  | .andn a b c => some ⟨1, 0x1C, a, tailBC b c 0⟩
  | .shl a b c => some ⟨1, 0x1D, a, tailBC b c 0⟩
  | .shr a b c => some ⟨1, 0x1E, a, tailBC b c 0⟩
  | .sar a b c => some ⟨1, 0x1F, a, tailBC b c 0⟩
  | .rol a b c => some ⟨1, 0x20, a, tailBC b c 0⟩
  | .min a b c => some ⟨1, 0x21, a, tailBC b c 0⟩
  | .minn a b c => some ⟨1, 0x22, a, tailBC b c 0⟩
  | .max a b c => some ⟨1, 0x23, a, tailBC b c 0⟩
  | .maxn a b c => some ⟨1, 0x24, a, tailBC b c 0⟩
  | .cmp k a b c => some ⟨1, 0x25, a, tailBC b c k.code⟩
  | .sel a b c d => some ⟨2, 0x26, a, tailBCD b c d 0⟩
  | .clz a b => some ⟨1, 0x27, a, tailBC b 0 0⟩
  | .ctz a b => some ⟨1, 0x28, a, tailBC b 0 0⟩
  | .popc a b => some ⟨1, 0x29, a, tailBC b 0 0⟩
  | .ext a b pos len => some ⟨2, 0x2A, a, tailBCD b 0 0 (0#1 ++ len ++ pos)⟩
  | .ins a b pos len => some ⟨2, 0x2B, a, tailBCD b 0 0 (0#1 ++ len ++ pos)⟩
  | .addi a b i => some ⟨2, 0x2C, a, tailBI b 0 i⟩
  | .movi a i => some ⟨2, 0x2D, a, tailI32 i⟩
  | .movhi a i => some ⟨2, 0x2E, a, tailI32 i⟩
  | .shladd a b c sh => some ⟨1, 0x2F, a, tailBC b c sh⟩
  | .andi a b i => some ⟨2, 0x30, a, tailBI b 0 i⟩
  | .ori a b i => some ⟨2, 0x31, a, tailBI b 0 i⟩
  | .xori a b i => some ⟨2, 0x32, a, tailBI b 0 i⟩
  | .muli a b i => some ⟨2, 0x37, a, tailBI b 0 i⟩
  | .shli a b i => some ⟨2, 0x33, a, tailBI b 0 i⟩
  | .shri a b i => some ⟨2, 0x34, a, tailBI b 0 i⟩
  | .sari a b i => some ⟨2, 0x35, a, tailBI b 0 i⟩
  | .cmpi k a b i => some ⟨2, 0x36, a, tailBI b k.code i⟩
  | .csrr a n => some ⟨1, 0x38, a, tailI16 (0#4 ++ n)⟩
  | .csrw a n => some ⟨1, 0x39, a, tailI16 (0#4 ++ n)⟩
  | .csrx a n => some ⟨1, 0x3A, a, tailI16 (0#4 ++ n)⟩
  | .rte => some ⟨0, 0x3B, 0, 0⟩
  | .tlbinv b c => some ⟨1, 0x3C, 0, tailBC b c 0⟩
  | .frgrant b c => some ⟨1, 0x3D, 0, tailBC b c 0⟩
  | .renew b c => some ⟨1, 0x52, 0, tailBC b c 0⟩
  | .wzero b c => some ⟨1, 0x55, 0, tailBC b c 0⟩
  | .pair a m => some ⟨1, 0x3E, a, tailI16 (0#15 ++ bit1 m)⟩
  | .chunk => some ⟨0, 0x3F, 0, 0⟩
  | .ld z a b i => some ⟨2, 0x40, a, tailBI b z.code i⟩
  | .ldg z a b i => some ⟨2, 0x42, a, tailBI b z.code i⟩
  | .ldc z a b i => some ⟨2, 0x44, a, tailBI b z.code i⟩
  | .st z a b i => some ⟨2, 0x41, a, tailBI b z.code i⟩
  | .stg z a b i => some ⟨2, 0x43, a, tailBI b z.code i⟩
  | .pref wr b i => some ⟨2, 0x45, 0, tailBI b (0#3 ++ bit1 wr) i⟩
  | .aadd z a b c => some ⟨1, 0x46, a, tailBC b c z.code⟩
  | .amin z a b c => some ⟨1, 0x47, a, tailBC b c z.code⟩
  | .amax z a b c => some ⟨1, 0x48, a, tailBC b c z.code⟩
  | .aminn z a b c => some ⟨1, 0x49, a, tailBC b c z.code⟩
  | .amaxn z a b c => some ⟨1, 0x4A, a, tailBC b c z.code⟩
  | .aand z a b c => some ⟨1, 0x4B, a, tailBC b c z.code⟩
  | .aor z a b c => some ⟨1, 0x4C, a, tailBC b c z.code⟩
  | .axor z a b c => some ⟨1, 0x4D, a, tailBC b c z.code⟩
  | .axchg z a b c => some ⟨1, 0x4E, a, tailBC b c z.code⟩
  | .ladd z a b c => some ⟨1, 0x50, a, tailBC b c z.code⟩
  | .acas z a b c d => some ⟨2, 0x4F, a, tailBCD b c d (0#13 ++ bit1 (z == .d))⟩
  | .lcas z a b c d => some ⟨2, 0x51, a, tailBCD b c d (0#13 ++ bit1 (z == .d))⟩
  | .wtag a b => some ⟨1, 0x53, a, tailBC b 0 0⟩
  | .wset b c k pp => some ⟨1, 0x54, 0, tailBC b c (0#2 ++ bit1 k ++ bit1 pp)⟩
  | .fence s ls ro i h => some ⟨1, 0x56, 0, tailI16 (0#10 ++ bit1 h ++ bit1 i ++ bit1 ro ++ bit1 ls ++ s.code)⟩
  | .marm b i => some ⟨2, 0x57, 0, tailBI b 0 i⟩
  | .mwait a => some ⟨0, 0x58, a, 0⟩
  | .roinv => some ⟨0, 0x59, 0, 0⟩
  | .send a b c => some ⟨1, 0x60, a, tailBC b c 0⟩
  | .sendw a b c => some ⟨1, 0x61, a, tailBC b c 0⟩
  | .mkev a b c => some ⟨1, 0x68, a, tailBC b c 0⟩
  | .pour k a b c d => some ⟨2, 0x62, a, tailBCD b c d (0#13 ++ bit1 k)⟩
  | .sendo k a b c d => some ⟨2, 0x6D, a, tailBCD b c d (0#13 ++ bit1 k)⟩
  | .bind a b => some ⟨1, 0x63, a, tailBC b 0 0⟩
  | .chmask a b => some ⟨1, 0x64, a, tailBC b 0 0⟩
  | .sig a b => some ⟨1, 0x6A, a, tailBC b 0 0⟩
  | .owe a b => some ⟨1, 0x6C, a, tailBC b 0 0⟩
  | .bara a b => some ⟨1, 0x71, a, tailBC b 0 0⟩
  | .advp h n => some ⟨1, 0x65, 0#2 ++ h, tailI16 (0#9 ++ n)⟩
  | .advc h n => some ⟨1, 0x66, 0#2 ++ h, tailI16 (0#9 ++ n)⟩
  | .ringset h b => some ⟨1, 0x67, 0#2 ++ h, tailBC b 0 0⟩
  | .rmev a => some ⟨1, 0x69, a, tailBC 0 0 0⟩
  | .waitge a b c => some ⟨1, 0x6B, a, tailBC b c 0⟩
  | .rkmid a b c => some ⟨1, 0x6F, a, tailBC b c 0⟩
  | .drawg a b c => some ⟨1, 0x78, a, tailBC b c 0⟩
  | .rank k a b => some ⟨1, 0x6E, a, tailBC b 0 k.code⟩
  | .mkbar b c => some ⟨2, 0x70, 0, tailBCD b c 0 0⟩
  | .barw a b => some ⟨1, 0x72, a, tailBC b 0 0⟩
  | .join b => some ⟨1, 0x73, 0, tailBC b 0 0⟩
  | .leave b => some ⟨1, 0x74, 0, tailBC b 0 0⟩
  | .compose a n => some ⟨1, 0x75, a, tailI16 (0#12 ++ n)⟩
  | .release => some ⟨0, 0x76, 0, 0⟩
  | .drawt a => some ⟨0, 0x77, a, 0⟩
  | .vadd t a b c => some ⟨2, 0x80, a.sel, tailV b.sel c.sel a.slot b.slot c.slot t.code 0⟩
  | .vsub t a b c => some ⟨2, 0x81, a.sel, tailV b.sel c.sel a.slot b.slot c.slot t.code 0⟩
  | .vmul t a b c => some ⟨2, 0x82, a.sel, tailV b.sel c.sel a.slot b.slot c.slot t.code 0⟩
  | .vmax t a b c => some ⟨2, 0x84, a.sel, tailV b.sel c.sel a.slot b.slot c.slot t.code 0⟩
  | .vmin t a b c => some ⟨2, 0x85, a.sel, tailV b.sel c.sel a.slot b.slot c.slot t.code 0⟩
  | .vshuf t a b c => some ⟨2, 0x96, a.sel, tailV b.sel c.sel a.slot b.slot c.slot t.code 0⟩
  | .vfma t a b c => some ⟨2, 0x83, a.sel, tailV b.sel c.sel a.slot b.slot c.slot t.code 0⟩
  | .vabs t a b => some ⟨2, 0x86, a.sel, tailV b.sel 0 a.slot b.slot 0 t.code 0⟩
  | .vneg t a b => some ⟨2, 0x87, a.sel, tailV b.sel 0 a.slot b.slot 0 t.code 0⟩
  | .vredadd t a b => some ⟨2, 0x91, a.sel, tailV b.sel 0 a.slot b.slot 0 t.code 0⟩
  | .vredmax t a b => some ⟨2, 0x92, a.sel, tailV b.sel 0 a.slot b.slot 0 t.code 0⟩
  | .vredmin t a b => some ⟨2, 0x93, a.sel, tailV b.sel 0 a.slot b.slot 0 t.code 0⟩
  | .vrcp a b => some ⟨2, 0x88, a.sel, tailV b.sel 0 a.slot b.slot 0 0 0⟩
  | .vrsqrt a b => some ⟨2, 0x89, a.sel, tailV b.sel 0 a.slot b.slot 0 0 0⟩
  | .vexp2 a b => some ⟨2, 0x8A, a.sel, tailV b.sel 0 a.slot b.slot 0 0 0⟩
  | .vlog2 a b => some ⟨2, 0x8B, a.sel, tailV b.sel 0 a.slot b.slot 0 0 0⟩
  | .vmov a b => some ⟨2, 0x9F, a.sel, tailV b.sel 0 a.slot b.slot 0 0 0⟩
  | .vcmp k t a b c => some ⟨2, 0x8C, a.sel, tailV b.sel c.sel a.slot b.slot c.slot t.code (0#4 ++ k.code)⟩
  | .vsel t a b c d => some ⟨3, 0x8D, a.sel, tailV4 d.sel d.slot b.sel c.sel a.slot b.slot c.slot t.code 0⟩
  | .vdeq a b c d => some ⟨3, 0x90, a.sel, tailV4 d.sel d.slot b.sel c.sel a.slot b.slot c.slot 0 0⟩
  | .vquant a b c => some ⟨3, 0x8F, a.sel, tailV4 0 0 b.sel c.sel a.slot b.slot c.slot 0 0⟩
  | .vcvt t u r sat a b => some ⟨2, 0x8E, a.sel, tailV b.sel 0 a.slot b.slot 0 t.code (u.code ++ r.code ++ bit1 sat ++ 0#1)⟩
  | .vbcast t a b => some ⟨2, 0x94, a.sel, tailV b 0 a.slot 0 0 t.code 0⟩
  | .vext t a b lane => some ⟨2, 0x95, a, tailV (0#2 ++ b) 0 0 0 0 t.code lane⟩
  | .vand a b c => some ⟨2, 0x97, a.sel, tailV b.sel c.sel a.slot b.slot c.slot 0 0⟩
  | .vor a b c => some ⟨2, 0x98, a.sel, tailV b.sel c.sel a.slot b.slot c.slot 0 0⟩
  | .vxor a b c => some ⟨2, 0x99, a.sel, tailV b.sel c.sel a.slot b.slot c.slot 0 0⟩
  | .vshl t a b c => some ⟨2, 0x9A, a.sel, tailV b.sel c.sel a.slot b.slot c.slot t.code 0⟩
  | .vshr t a b c => some ⟨2, 0x9B, a.sel, tailV b.sel c.sel a.slot b.slot c.slot t.code 0⟩
  | .vsar t a b c => some ⟨2, 0x9C, a.sel, tailV b.sel c.sel a.slot b.slot c.slot t.code 0⟩
  | .vld a b i => some ⟨2, 0x9D, 0#2 ++ a, tailBI b 0 i⟩
  | .vst a b i => some ⟨2, 0x9E, 0#2 ++ a, tailBI b 0 i⟩
  | .mma m a rb rc ev => some ⟨2, 0xA0, 0#4 ++ a, tailM rb rc m.code ev⟩
  | .gmma m a rb rc ev => some ⟨2, 0xA1, 0#4 ++ a, tailM rb rc m.code ev⟩
  | .mzero a => some ⟨0, 0xA2, 0#4 ++ a, 0⟩
  | .mst a b ev => some ⟨2, 0xA3, 0#4 ++ a, tailMA b ev⟩
  | .mld a b ev => some ⟨2, 0xA4, 0#4 ++ a, tailMA b ev⟩
  | .gang m => some ⟨1, 0xA5, 0, tailI16 (0#8 ++ m)⟩
  | .ungang => some ⟨0, 0xA6, 0, 0⟩
  | .mscale a b => some ⟨1, 0xA7, 0#4 ++ a, tailBC b 0 0⟩
  | .cxgo b ev => some ⟨2, 0xB0, 0, tailMA b ev⟩
  | .cxstop => some ⟨0, 0xB1, 0, 0⟩
  | .cxstat a => some ⟨0, 0xB2, a, 0⟩
  | .messageArrival _ | .reinjectDiverted _ | .streamBeatLanding _ | .endOfStream _
  | .dispatchNewActivation _ | .resumption _ | .outputBufferRelease _ _ | .eventSignalAtHome _ _ _ _
  | .barrierOpAtHome _ _ _ _ _ | .beatDecrement _ | .pourBeatLanding _ | .watchdogExpiry _
  | .fadeTick | .granuleExpiry _ _ | .replay _ _ | .migration _ _
  | .matrixOpStart _ | .gmmaJoinStart _ | .matrixOpComplete _ | .pumpChainEntry _
  | .pumpChainSig _ | .pumpChainEnd _ | .chunkAcquire _ | .chunkPerform _
  | .writeSignatureArrival _ _ | .externalAgentWrite _ _ _ | .evictPhase _ | .evlimExpiry _
  | .savePhase _ | .saveComplete _ | .resumeNoticePhase _ | .resumeComplete _
  | .queueStallExpiry _ _ | .preemptTimeout _ _ | .registerWrite _ _ _ _ | .qtailDoorbell _ _ _
  | .commandEntryRead _ _ | .launch _ _ | .copy _ _ | .mark _ _
  | .create | .destroy | .grow | .shrink
  | .preempt | .resume | .grant | .config
  | .replayCommand | .commandComplete _ _ | .leaseRenew _ | .leaseExpiry
  | .bucketRegisterWrite _ _ | .bucketRefill | .qosWindowEnd _ _ | .collectiveSlotWrite _ _ _
  | .collectiveContribution _ _ _ _ | .collectiveDeadline _ _ | .qpTailWrite _ _ | .workEntryComplete _
  | .networkArrival _ _ _ _ _ | .transportError _ | .telemetrySweep _ | .meshCrcFailure _
  | .controlResendTimeout _ | .refreshRound _ _ | .powerOn | .readyReport _ _ _
  | .thermalClamp _ | .thermalThrottle _ _ | .firmwareHeartbeatTimeout _ | .getMeasurements _ _
  | .dctlHalt _ | .dctlRun _ | .dctlStep _ | .dctlDrain _
  | .ddataAccess _ _ | .breakpointMatch _ | .watchpointMatch _ | .traceArm _ _
  | .traceTrigger _ | .traceDrainDone _ | .moduleReset | .placementDeadline _ _
  | .firmwareImageInstall _ _ _ _ | .drawLimitChange _ _ | .cnpReceived _ | .pfcPauseFrame _ _ _ => none

/-- The number of tail halfwords of a head: its TS field (R109, R115). -/
def tailHalves (head : BitVec 16) : Nat := (head.extractLsb' 14 2).toNat

/-- The words of a well-formed instruction as halfwords: its head, then its tail from the lowest halfword (R109). -/
def encode (i : Instr) : Option (List (BitVec 16)) :=
  (encodeParts i).map fun p =>
    p.head :: (List.range p.ts.toNat).map fun k => p.tail.extractLsb' (16 * k) 16

/-- The head and tail of an instruction's halfwords put together and decoded: the head first, then its tail from the
lowest halfword. -/
def decodeHalves : List (BitVec 16) → Except Nat Instr
  | [] => .error 1
  | h :: t =>
    let tail := (t.take (tailHalves h)).foldr (fun x acc => acc * 65536 + x.toNat) 0
    decodeParts (Parts.ofHead h (BitVec.ofNat 48 tail))

/-- A code line: 32 halfwords as numbers, halfword 0 first (R109). -/
abbrev Line := List Nat

/-- Halfword k of a line. -/
def Line.half (l : Line) (k : Nat) : Nat := l.getD k 0

/-- H, the number of instructions in the line (R109). -/
def Line.count (l : Line) : Nat := Line.half l 0 % 32

/-- The number of tail halfwords of slots 1 to s (R109). -/
def Line.tailsTo (l : Line) : Nat → Nat
  | 0 => 0
  | s + 1 => Line.tailsTo l s + Line.half l (s + 1) / 16384 % 4

/-- The line is well-formed (R110). -/
def Line.wellFormed (l : Line) : Bool :=
  Line.half l 0 < 32 && 1 ≤ Line.count l && 1 + Line.count l + Line.tailsTo l (Line.count l) ≤ 32

/-- The first halfword of the tail of slot s (R109). -/
def Line.top (l : Line) (s : Nat) : Nat := 32 - Line.tailsTo l s

/-- The tail of slot s, its least significant halfword first (R109, R113). -/
def Line.tail (l : Line) (s : Nat) : Nat :=
  (List.range (Line.half l s / 16384 % 4)).foldr (fun k acc => acc * 65536 + Line.half l (Line.top l s + k)) 0

/-- The head and tail of slot s of a line (R113). -/
def Line.parts (l : Line) (s : Nat) : Parts :=
  Parts.ofHead (BitVec.ofNat 16 (Line.half l s)) (BitVec.ofNat 48 (Line.tail l s))

/-- The line that holds one instruction in slot 1, its other halfwords zero (R109). -/
def Line.single (p : Parts) : Line :=
  let n := p.ts.toNat
  [1, p.head.toNat] ++ List.replicate (30 - n) 0 ++ (List.range n).map fun k => (p.tail.extractLsb' (16 * k) 16).toNat

/-- The parts of an instruction whose bits are w as spec/opcode_table.json writes them. A row of 16 bits is a head
alone; a row of 32 bits has its head in bits 31 to 16 and its one-halfword tail in bits 15 to 0 (R109, R115: the table
writes `jr` as 0x41000000, head 0x4100). Tail halfwords that the table gives no bits are zero. -/
def tableParts (nbits w : Nat) : Parts :=
  if nbits ≤ 16 then Parts.ofHead (BitVec.ofNat 16 w) 0
  else Parts.ofHead (BitVec.ofNat 16 (w / 65536)) (BitVec.ofNat 48 (w % 65536))

/-- The instruction the decoder reads from the bits w of a row of the opcode table. The bits are laid out as the line
format stores them (R109): in a line whose slot 1 holds the instruction. -/
def decodeTableWord (nbits w : Nat) : Option Instr :=
  let l := Line.single (tableParts nbits w)
  if Line.wellFormed l then
    match decodeParts (Line.parts l 1) with
    | .ok i => some i
    | .error _ => none
  else none

end Sys2Proof
end

