-- ==== Sys2Proof/Config.lean ====
section
/-! DEFINITION. The configuration: what the manual leaves to the implementation or leaves open. The opaque constants
have no body, so nothing in Lean can evaluate them (notes/assumptions/2.md, 4.md, 5.md). -/

namespace Sys2Proof.Config

/-- What a LAUNCH takes from an image (R318, R321, R372): the declared channels with words 0 to 2 of their handler-table entries, the
event table, the wells by first granule, granule count, K and P, and the manifest's token count. -/
structure LaunchImage where
  chans : List (Nat × Word × Word × Word)
  events : List (Nat × BitVec 20)
  wells : List (Nat × Nat × Bool × Bool)
  tokens : Nat
deriving DecidableEq, Repr, Inhabited

/-- The length in bytes of the parts of a launch image that a LAUNCH takes, as the image's first 64 bytes give it, and what the bytes of
that length say: R321 names the parts of an image and gives no layout (DESIGN CHOICE, log 41: these parts lie below 32 MiB). -/
opaque lengthSaid : List Byte → BitVec 25
opaque imageSaid : List Byte → LaunchImage

/-- The same, where an image whose first 64 bytes are zero has no bytes, and declares nothing (DESIGN CHOICE, log 41). -/
def imageLength (head : List Byte) : BitVec 25 := if head.all (· == 0) then 0 else lengthSaid head
def image (bs : List Byte) : LaunchImage := if bs.isEmpty then ⟨[], [], [], 0⟩ else imageSaid bs

/-- The n-th free value a step draws: a word the manual does not determine (DESIGN CHOICE, log 4). -/
opaque freeWord : Nat → BitVec 64

/-- The n-th free choice: a number below nothing in particular, reduced by its user (DESIGN CHOICE, log 4). -/
opaque freeNat : Nat → Nat

/-- The physical address of a burst of a DRAM row: station, row and scrub pointer (R393); the manual does not lay rows out. -/
opaque burstPa : Nat → Nat → Nat → Nat

/-- The set of a cistern, and of a newt's global data cache, that a 256-byte line falls into (R16, R104: 16-way and 4-way; the manual
does not give the index; log 37). -/
opaque cisSet : Nat → Nat
opaque dataSet : Nat → Nat

/-- What the junction sensor of a tile reads at a cycle, in °C, and whether firmware wants the cool RETN class for a partition (R29, R82;
free values, log 95). -/
opaque junction : Nat → Nat → Nat
opaque coolClass : Nat → Bool

/-- The key pair that the device's random source gives for the n-th draw, and AES-XTS-256 with a key pair, a tweak and a 128-byte data
unit (R21, R379; log 91). -/
opaque key : Nat → BitVec 512
opaque xts : BitVec 512 → Nat → BitVec 1024 → BitVec 1024

/-- The flits (bits [31:0]) and stall cycles (bits [63:32]) of a tile's output link in all by a cycle, each modulo 2^32: link number
16 × tile + 4 × port + vc (R398; free values, log 4). -/
opaque link : Nat → Nat → BitVec 64

/-- What the host has assigned a queue pair (R381): its partition and the addresses of its send and receive rings (log 46). -/
opaque qpHome : Nat → Nat × BitVec 64 × BitVec 64

/-- The frame that page `n` of partition `p`'s BAR2 maps: those of its queue area, which the manual does not name (R367; log 97). -/
opaque barFrame (p n : Nat) : Nat

/-- Cycles beyond the exact figure that a happening takes (R2: finer timing than the figures is not promised; log 5). -/
opaque stall : Nat → Nat

/-- The near-tier capacity in bytes: 128 GDDR 7 devices of 3 GB (R21, R23), read as 384 × 10^9 (R3) and taken down to a
whole 64 KiB frame (R102; PRESUMED rounding, log 6). -/
def nearBytes : Nat := 384000000000 / 65536 * 65536

/-- The far-tier capacity in bytes: 4 TiB (R102). -/
def farBytes : Nat := 0x40000000000

/-- Tiles of the module (R14). -/
def tiles : Nat := 32768

/-- The value "none" of a rank (R59). -/
def noRank : Nat := 0xFFFFF

/-- The event name "none" (R73). -/
def noEvent : Nat := 0xFFFF

end Sys2Proof.Config
end

