-- ==== Sys2Proof/Machine/State.lean ====
section
/-! DEFINITION. The state of the module as plain data: every register, table, queue and memory the manual names
(INVENTORY.md, "State"), the reasons a step can stop, and the state after reset. -/

namespace Sys2Proof.Machine

/-- The reasons the machine stops with a fault. -/
inductive Fault where
  /-- Raised by `step` when firmware has halted the module above 95 °C (R29) and what comes next is neither a module reset
  nor power-on: the manual gives a halted module no further behaviour. Safe: the model does nothing where the hardware is
  halted. -/
  | moduleHalted
deriving DecidableEq, Repr

/-- The reasons the model gives no meaning. -/
inductive Refusal where
  /-- Raised by `exec` for an instruction whose meaning is not written yet. Safe: nothing is claimed. -/
  | notModelled (mnemonic : String)
deriving DecidableEq, Repr

/-- Bytes by address, in one canonical form: addresses strictly rising and no byte equal to 0, which is what an
unlisted address reads as (R26: stations and local stores are zeroed before they report ready). -/
abbrev Memory := List Host.Cell

/-- A granule tag (R83). -/
structure Tag where
  p : Bool := false
  k : Bool := false
  x : Bool := false
  z : Bool := true
  expiry : BitVec 12 := 0
deriving DecidableEq, Repr

/-- A channel entry of the handler table: its fields that software writes (R31). -/
structure Chan where
  hpc : BitVec 57 := 0
  rank : BitVec 20 := 0
  ring : BitVec 4 := 0
  valid : Bool := false
  replay : Bool := false
  mode : Bool := false
  mask : Bool := false
  pri : BitVec 2 := 0
  wsp : BitVec 8 := 0
  qlimit : BitVec 8 := 0
  budget : BitVec 16 := 0
deriving DecidableEq, Repr

/-- The queue tag of R340: a command-processor queue of a partition and the command it serves. -/
structure QTag where
  part : Nat
  q : Nat
  cmd : Nat
deriving DecidableEq, Repr

/-- A unit of obligation a message carries: its object, and for an arrival its generation and rank (R68, R253). -/
structure OUnit where
  bar : Bool := false
  obj : Word := 0
  rank : BitVec 20 := 0
  gen : BitVec 32 := 0
deriving DecidableEq, Repr

/-- What a message means beyond its words: firmware's own notices name the context they are about (R279, R334). -/
inductive Note where
  | plain
  | context (tile : Nat) (core slot : Nat) (act : BitVec 32)
  | evict
  | resume
deriving DecidableEq, Repr

/-- What a sender's network interface keeps of a control message until it is acknowledged (R392): the core and the activation that issued it,
the times it has been resent, and whether the last sending was lost. -/
structure Resend where
  core : Nat
  act : Nat
  tries : Nat := 0
  lost : Bool := false
deriving DecidableEq, Repr

/-- A message: route word, length in bytes, the places in the inbox ring of its header and its undequeued payload words (in words of 8
bytes), the partition it is sent in (none: a notice of its own tile's firmware or hardware), the payload words not yet dequeued, the first
payload word (R44), its sender, the units it carries, the times it has been replayed, its queue tag, what it is about, the bytes of a
stream segment that have landed, whether its payload is poisoned, and for a message of the system channel, which is a control message, its
resending (R246, R35, R352, R45, R51, R340, R308, R251, R392). -/
structure Msg where
  route : Word := 0
  len : Nat := 0
  place : List Nat := []
  part : Option Nat := none
  words : List Word := []
  first : Word := 0
  src : Nat := 0
  carry : List OUnit := []
  replays : Nat := 0
  tag : Option QTag := none
  note : Note := .plain
  done : Nat := 0
  poison : Bool := false
  sys : Option Resend := none
deriving DecidableEq, Repr

/-- A stream in progress on a stream-mode channel: its source, the bytes landed, the offset in the head slot, and its
end-of-stream message once that has landed (R38, R39). -/
structure Stream where
  src : Nat
  bytes : Nat
  off : Nat
  carry : List OUnit := []
  eos : Option Msg := none
deriving DecidableEq, Repr

/-- What the network interface holds for a channel: queued messages, the words of a foreign message already reached and their places in
the inbox ring with its header's, diverted messages, the stream, an ended stream that a replay delivers again, and the slot of the live
activation (R31 LIVE, SLOT, R36, R39, R45, R51). -/
structure Inq where
  q : List Msg := []
  part : List Word := []
  pend : List Nat := []
  div : List Msg := []
  ovf : List Msg := []
  stream : Option Stream := none
  again : Option Stream := none
  live : Option Nat := none
deriving DecidableEq, Repr

/-- An entry of an obligation table (R61). HOLDER is the manual's code; `made` is its place in the order of making among the entries of its
core (R63). -/
structure Obl where
  bar : Bool
  arr : Bool
  rank : BitVec 20
  holder : Nat
  count : BitVec 32
  obj : Word
  made : Nat := 0
deriving DecidableEq, Repr

/-- The record of a fault (R331, R332) without word 0, which names the context: code, sub-cause, PC (word 1), address
(word 2), words 3 and 5 to 7, the two ranks of word 4 (FLOOR where it is not the context's own), the FINFO value (R160), LIZ,
and for fault 0x07 the home tile and the KIND of R107. -/
structure FaultRec where
  code : Nat
  sub : Nat := 0
  pc : Word := 0
  addr : Word := 0
  w3 : Word := 0
  orank : Nat := 0xFFFFF
  floor : Option Nat := none
  w5 : Word := 0
  w6 : Word := 0
  w7 : Word := 0
  finfo : Word := 0
  liz : Bool := false
  home : Option Nat := none
  kind : Nat := 0
deriving DecidableEq, Repr

/-- States of an activation slot (R53). -/
inductive ActSt where
  | free | running | suspended | ready | faulted | saved
deriving DecidableEq, Repr

/-- A monitor (R182 to R184). -/
structure Mon where
  armed : Bool := false
  line : Word := 0
  pa : Nat := 0
  written : Bool := false
  spurious : Bool := false
deriving DecidableEq, Repr

/-- One predicate of a wait (R74, R76, R127, R184, R216). -/
inductive Pred where
  | event (name : BitVec 16) (v : BitVec 32)
  | bar (va : Word) (count : BitVec 32)
  | mon
  | words (ch n : Nat)
  | filled (h s : Nat)
  | room (h s : Nat)
deriving DecidableEq, Repr

/-- The parts of an activation that concern waiting: q bindings, BARSEL, the monitor, the wait it is suspended in, and
what a satisfied event or barrier wait found (R248, R152, R182, R74). -/
structure ActSync where
  qb : Table Nat := []
  barsel : BitVec 60 := 0
  mon : Mon := {}
  wait : List Pred := []
  woken : Option Bool := none
deriving DecidableEq, Repr

/-- The fault CSRs of a service-core activation (R160). -/
structure FCsr where
  cause : BitVec 17 := 0
  pc : Word := 0
  addr : Word := 0
  newt : BitVec 25 := 0
  info : Word := 0
deriving DecidableEq, Repr

/-- The parts of an activation that concern its life: the side-effect flag, whether a commit point has passed, whether it is at one whose
release waits, what its owes added, its deferred engine fault, its queue tag, the record of the fault it stopped with, the beats and the
waited message still to be acknowledged, the context a notice handler acts on, whether its `end` has released its lizard, the triggering
message or stream as it came, whether word 58 is a poisoned payload word (R392), and on a service core the context it handles (core, slot
and number) with its fault CSRs (R51, R64, R210, R340, R250, R334, R160). -/
structure ActLife where
  side : Bool := false
  past : Bool := false
  atPoint : Bool := false
  owed : List (Word × Nat) := []
  deferred : Option FaultRec := none
  tag : Option QTag := none
  fault : Option FaultRec := none
  beats : Nat := 0
  sendw : Bool := false
  notice : Option (Nat × Nat × Nat × BitVec 32) := none
  parked : Bool := false
  liz : Bool := false
  kind : Note := .plain
  whole : Option Msg := none
  flow : Option Stream := none
  bad58 : Bool := false
  ctx : Option (Nat × Nat × BitVec 32) := none
  fcsr : FCsr := {}
deriving DecidableEq, Repr

/-- An activation slot (R40, R44): state, channel, the model's own number of the activation (a LAUNCH starts SEQ again), SEQ, PC,
the PC that passed control to it (R114), H of the line last fetched (R111), watchdog count, dispatched BUDGET and WSP, triggering
message, and the register image of a context that the service core has returned (R153). -/
structure Act where
  st : ActSt := .free
  chan : Nat := 0
  uid : BitVec 32 := 0
  seq : BitVec 32 := 0
  pc : Word := 0
  src : Word := 0
  hdr : Nat := 31
  count : Nat := 0
  budget : BitVec 16 := 0
  wsp : BitVec 8 := 0
  msg : Msg := {}
  image : Option (Table Word) := none
  sync : ActSync := {}
  life : ActLife := {}
deriving DecidableEq, Repr

/-- Where a store goes once its chunk commits: local store, a cached home, an edge station or host port, or the device
region (R164, R166, R168). -/
inductive Dest where
  | loc
  | home
  | edge
  | host
  | dev
deriving DecidableEq, Repr

/-- A store-buffer entry (R164, R166): its chunk, where it goes, its address (offset, or virtual and physical address),
home tile, its bytes, and whether a `tlbinv` has removed the entry that translated it, so that it is translated afresh (R101, R108). -/
structure Store where
  chunk : Nat
  dest : Dest
  va : Word
  pa : Nat
  home : Nat
  data : List Byte
  stale : Bool := false
deriving DecidableEq, Repr

/-- What the chunk machinery keeps of one chunk: its number, slot, checkpoint (first PC, registers, vector registers, BARSEL; R131, R209),
retired instructions, lines read and written with their homes, what its owes added, the words its q read dequeued with their places and
the MASK bits its `chmask`s replaced, latest first (R285), its squashes in succession, and the homes still wanted and granted of its
isolated attempt (R281 to R284), its fingerprint, and whether the chunk is the re-execution after a mismatch (R395). -/
structure Chunk where
  id : Nat := 0
  slot : Nat := 0
  pc : Word := 0
  src : Word := 0
  regs : Table Word := []
  v : Table (BitVec 512) := []
  barsel : BitVec 60 := 0
  retired : Nat := 0
  rd : List (Nat × Nat) := []
  wr : List (Nat × Nat) := []
  owes : List (Word × Nat) := []
  pops : List (Nat × List Word × List Nat) := []
  masks : List (Nat × Bool) := []
  squashes : Nat := 0
  want : List Nat := []
  iso : List Nat := []
  fp : Word := 0xFFFFFFFFFFFFFFFF
  retry : Bool := false
deriving DecidableEq, Repr

/-- What the follower of a pair has of its own of a chunk (R394, R395): the chunk's number, the follower's fingerprint, and its registers
in the checkpoint. -/
structure Shadow where
  id : Nat
  fp : Word
  regs : Table Word
  v : Table (BitVec 512)
deriving DecidableEq, Repr

/-- What the follower of a pair has of its own in its leader's buffers (R394): of its chunks, the data of its buffered stores in order,
each with its chunk, and the pre-images of its matrix operations in order. -/
structure Twin where
  chunks : List Shadow := []
  data : List (Nat × List Byte) := []
  pre : List (BitVec 2048) := []
deriving DecidableEq, Repr

/-- A chunk that has ended: the homes still to acquire, in ascending order, the homes granted (R283, R405), and the PC of
the instruction that ended it (R307). -/
structure Ended where
  c : Chunk
  todo : List Nat
  held : List Nat
  pc : Word
deriving DecidableEq, Repr

/-- What an output-buffer entry does when it is released (R47, R250). -/
inductive OKind where
  | send (wait : Bool) (route : Word) (len : Nat) (data : List Word)
  | sendo (bar : Bool) (route : Word) (len : Nat) (data : List Word) (obj : Word)
  | pour (t s c n : Nat) (target : Option Word)
  | sig (name : BitVec 16) (n : BitVec 32)
  | bara (va : Word) (k : BitVec 32)
  | join (va : Word)
  | leave (va : Word)
deriving DecidableEq, Repr

/-- An output-buffer entry: its kind, the PC that made it, its chunk and its slot, whether the message of a `sendw` has been injected, the
times its control message has been resent, and whether the last sending was lost (R47, R250, R330, R392). -/
structure OEntry where
  kind : OKind
  pc : Word
  chunk : Nat
  slot : Nat
  sent : Bool := false
  tries : Nat := 0
  lost : Bool := false
deriving DecidableEq, Repr

/-- A ring descriptor (R214). -/
structure Ring where
  rank : BitVec 20 := 0
  count : BitVec 7 := 0
  slog : BitVec 4 := 0
  base : BitVec 17 := 0
  wcur : BitVec 6 := 0
  rcur : BitVec 6 := 0
  filled : BitVec 7 := 0
  tail : BitVec 6 := 0
  head : BitVec 6 := 0
deriving DecidableEq, Repr

/-- What a matrix operation computes (R229 to R233). -/
inductive MKind where
  | mma (fmt : MFmt) (a hb hc : Nat)
  | gmma (fmt : MFmt) (a hb hc : Nat) (n : Nat)
  | mzero (a : Nat)
  | mscale (a : Nat) (s : BitVec 32)
  | mst (a off : Nat)
  | mld (a off : Nat)
deriving DecidableEq, Repr

/-- An operation of the matrix engine (R206, R208, R355): kind, event, PC, issuing slot and its activation's number, issue-time
BFMT, whether it has started, the K groups done of an interrupted `gmma`, the accumulator pre-image, and its place in the newt's
order of issue. -/
structure MOp where
  kind : MKind
  ev : BitVec 16
  pc : Word
  slot : Nat
  seq : BitVec 32
  bfmt : Table (BitVec 7)
  started : Bool := false
  group : Nat := 0
  pre : BitVec 2048 := 0
  ord : Nat := 0
deriving DecidableEq, Repr

/-- The pump's position (R238, R242): STATE, SUB, the chain's head, the entry reached and its words, the bytes of its COPY
done, the running offsets and loop counters, the remote beats not yet acknowledged, whether a SIG has paid the chain's own
completion event, the local ranges of the COPY it has reached in the range scoreboard, read and written, and whether that COPY's access
has started (R212). -/
structure Pump where
  state : Nat := 0
  sub : Nat := 0
  head : Nat := 0
  idx : Nat := 0
  ent : List Word := []
  done : Nat := 0
  soff : Word := 0
  doff : Word := 0
  cnt : Table Nat := []
  remote : Nat := 0
  paid : Bool := false
  rd : Option (Nat × Nat) := none
  wr : Option (Nat × Nat) := none
  going : Bool := false
deriving DecidableEq, Repr

/-- A chain in the pump's queue (R236): head, event, PC, issuing slot with its activation's number and level, issue-time BFMT, whether a
channel 30 activation of a newt issued it (R358), the restart state it takes up (R241), whether it has started, and its place in the
newt's order of issue. -/
structure COp where
  head : Nat
  ev : BitVec 16
  pc : Word
  slot : Nat
  seq : BitVec 32
  lvl : Nat
  bfmt : Table (BitVec 7)
  by30 : Bool := false
  from_ : Option Pump := none
  started : Bool := false
  ord : Nat := 0
deriving DecidableEq, Repr

/-- The engines of a core: queues, the pump and its restart state, the number of `gmma`s since `gang`, those of them that were
cancelled, the operations issued, and the gang spill ring (R206, R230, R241, R355). -/
structure Eng where
  mq : List MOp := []
  pq : List COp := []
  pump : Pump := {}
  rest : Option Pump := none
  gseq : Nat := 0
  lost : List Nat := []
  issued : Nat := 0
  spill : List Byte := []
deriving DecidableEq, Repr

/-- The vector registers, accumulators and rings (R207). -/
structure Vec where
  v : Table (BitVec 512) := []
  a : Table (BitVec 2048) := []
  ring : Table Ring := []
deriving DecidableEq, Repr

/-- The local store (or the SRAM of a service core): cells, tags, hidden alarm flags, poison marks by sector, and the
errors SECDED would find, by 64-bit word: 1 correctable, 2 uncorrectable (R79, R83, R89, R91, R92). -/
structure Local where
  cells : Memory := []
  tags : Table Tag := []
  alarm : Table Bool := []
  poison : Table Bool := []
  ecc : Table Nat := []
deriving DecidableEq, Repr

/-- The held context of a service core: the image, record, core, slot, number and lizard member set of a migrated context and its state
of service (R329, R106, R333). -/
structure Held where
  core : Nat
  slot : Nat
  act : BitVec 32
  image : Table Word
  frec : FaultRec
  liz : List Nat := []
  parked : Bool := false
  seq : Nat := 0
  waiting : Bool := false
deriving DecidableEq, Repr

/-- A translation kept by a slice TLB or the MMU (R97, R101, R366): the leaf entry and whether it maps 32 MiB. -/
structure Leaf where
  entry : Word
  large : Bool
deriving DecidableEq, Repr

/-- A debug module (R400): its registers, the activation and the PC of a match that has halted it and is passed once (R401), and the number
of the next engine operation when the instruction being stepped issued (R244). -/
structure Dbg where
  ctl : Word := 0
  halted : Bool := false
  why : Nat := 0
  idx : Nat := 0
  imm : BitVec 16 := 0
  dbp : Table Word := []
  dwa : Table Word := []
  dwc : Table (BitVec 7) := []
  acc : Word := 0
  dpc : Option Word := none
  skip : Option (BitVec 32 × Word) := none
  mark : Nat := 0
deriving DecidableEq, Repr

/-- Scalar state of a core: the running slot, round-robin pointers, dispatch sequence number, the model's own count of activations, GUARD
with the values that writes since the last sweep replaced and their ticks, GANGM, DRAW, BFMT, the chunk counter, the lizard (member count
and activation of a head; head of a member), the pair (partner; whether leader), the resume notice still to run, and the place in the
inbox ring where the next message goes (R42, R44, R81, R152, R159, R93, R268, R156, R354, R35). -/
structure CoreCtl where
  run : Option Nat := none
  last : Table Nat := []
  seq : BitVec 32 := 0
  nact : BitVec 32 := 0
  guard : BitVec 11 := 128
  guardWas : List (Nat × BitVec 11) := []
  gangm : BitVec 8 := 0
  draw : Nat := 0
  bfmt : Table (BitVec 7) := []
  nchunk : Nat := 0
  lizn : Nat := 0
  lizact : BitVec 32 := 0
  lizhead : Option Nat := none
  pair : Option Nat := none
  leader : Bool := false
  resuming : Bool := false
  inw : Nat := 0
deriving DecidableEq, Repr

/-- Counters of a newt (R398): corrected errors, replays, stale landings, pair retries. -/
structure Cnt where
  ecc : BitVec 32 := 0
  replays : BitVec 32 := 0
  stale : BitVec 32 := 0
  retries : BitVec 32 := 0
deriving DecidableEq, Repr

/-- The signature that a chunk has last sent to a home it wants (R283, R392): the chunk, the home, the times it has been resent, and
whether the last sending, or the grant, was lost. -/
structure Signing where
  chunk : Nat
  home : Nat
  tries : Nat := 0
  lost : Bool := false
deriving DecidableEq, Repr

/-- The translation request with which an activation goes on at its next instruction, where one of them has been lost (R97, R392): the
activation's number and its PC, the times the request has been resent, and whether the last sending was lost. -/
structure Asked where
  act : BitVec 32
  pc : Word
  tries : Nat := 0
  lost : Bool := false
deriving DecidableEq, Repr

/-- The memory-ordering state of a core: the running chunk, ended chunks, the signature under way where that has been lost once, store
buffer, output buffer (R164, R283, R392, R47). -/
structure Order where
  chunk : Chunk := {}
  ended : List Ended := []
  sign : Option Signing := none
  sb : List Store := []
  ob : List OEntry := []
deriving DecidableEq, Repr

/-- A newt or a service core (R16, R365); `asked` is the translation request under way (R392), `par` are the sectors of its global data
cache with a parity error, true where a read has found it (R391), and `twin` is what a pair's follower has of its own in its leader's
buffers (R394). -/
structure Core where
  ctl : CoreCtl := {}
  regs : Table Word := []
  slots : Table Act := []
  moved : Option (Nat × Act) := none
  chans : Table Chan := []
  inq : Table Inq := []
  ord : Order := {}
  asked : Option Asked := none
  obl : List Obl := []
  spilt : List Obl := []
  ls : Local := {}
  vec : Vec := {}
  eng : Eng := {}
  dbg : Dbg := {}
  cnt : Cnt := {}
  icache : Table (List Byte) := []
  par : Table Bool := []
  twin : Twin := {}
deriving DecidableEq, Repr

/-- What a service core holds beside its core: held contexts, FWROOT and the MMU, its firmware's image slot, whether that firmware has
faulted, the cycle it started and that of its first heartbeat (R329, R366, R380). -/
structure Svc where
  held : List Held := []
  fwroot : Word := 0
  mmu : Table Leaf := []
  slotB : Bool := false
  bad : Bool := false
  started : Nat := 0
  beat : Nat := 0
deriving DecidableEq, Repr

/-- A tile: readiness, owner, draw budget in force and the one firmware will apply at the next launch boundary, slice TLB, read-only
buffer, the spilled obligation entries that have gone to the save area, the error responses its router has given while it is not ready,
sequence number of its batched fault records, counters, the cycle in which its link counters were zeroed, and its service core's own state
(R24 to R27, R97, R105, R63, R107, R398). -/
structure Tile where
  ready : Bool := false
  owner : Option Nat := none
  budget : Nat := 16
  want : Nat := 32
  tlb : Table (Table Leaf) := []
  ro : Table (List Byte) := []
  placed : Nat := 0
  refused : Nat := 0
  seq : BitVec 32 := 0
  cnt : Table Nat := []
  linked : Nat := 0
  svc : Svc := {}
deriving DecidableEq, Repr

/-- A waiter of an event record: a core's activation, or a command-processor queue (R73). -/
inductive Who where
  | act (core slot : Nat)
  | queue (q : Nat)
deriving DecidableEq, Repr

/-- An event record (R73). Its home is computed from its name, its waiter slots and OVF from the list's length. -/
structure Event where
  rank : BitVec 20
  counter : BitVec 32 := 0
  poison : Bool := false
  waiters : List (Who × BitVec 32) := []
deriving DecidableEq, Repr

/-- A waiter of a barrier record, or a killed member's departure still to be made (R75, R337): the record is the one at physical
address `pa`, whatever address reached it. -/
structure BarWait where
  part : Nat
  va : Word
  pa : Nat
  count : BitVec 32
  who : Option (Nat × Nat)
deriving DecidableEq, Repr

/-- A command-processor queue (R370, R387): its registers; whether it serves nothing until a QTAIL write; the entry in service
with its phase (0 none, 1 waiting, 2 to be performed, 3 under way, 4 to be completed), the bytes of a COPY done, whether its wait
returned poisoned, its STATUS, whether the queue holds its obligation (R372), whether a context of the command has been killed
(R388), the command's number, the doorbells that cover entries not yet read (the QTAIL each wrote and its cycle), the cycle of the one
that covers the entry in service, and the cycle of that entry's read. -/
structure Queue where
  base : Word := 0
  size : BitVec 4 := 0
  tail : BitVec 16 := 0
  head : BitVec 16 := 0
  vec : BitVec 11 := 0
  copy : Bool := false
  stop : Bool := false
  cmd : Option (List Word) := none
  phase : Nat := 0
  done : Nat := 0
  poisoned : Bool := false
  status : Nat := 0
  owes : Bool := false
  faulted : Bool := false
  ncmd : Nat := 0
  bells : List (BitVec 16 × Nat) := []
  bell : Nat := 0
  began : Nat := 0
deriving DecidableEq, Repr

/-- The watchdog registers of a queue (R340). -/
structure QWd where
  ptmo : BitVec 16 := 0x0100
  period : BitVec 16 := 0
  prog : BitVec 32 := 0
  killed : Bool := false
  saved : Bool := false
  stage : BitVec 2 := 0
  since : Nat := 0
deriving DecidableEq, Repr

/-- Pre-emption control of a partition (R345 to R354): PRECTL, SWAP as sampled when PEND was written, the tick STATE 1 ended,
the cycle STATE 2 began, the ticks of the pause (R354), and whether the tiles are the partition's (R353). -/
structure Pre where
  evlim : BitVec 16 := 0x0040
  holdt : BitVec 16 := 0xFFFF
  state : BitVec 4 := 0
  swap : Bool := false
  mode : Bool := false
  tick : Nat := 0
  began : Nat := 0
  span : Nat := 0
  given : Bool := true
deriving DecidableEq, Repr

/-- A QoS monitor (R376). -/
structure Qos where
  bound : BitVec 32 := 0
  p : BitVec 10 := 0
  k : BitVec 5 := 4
  src : BitVec 2 := 0
  id : BitVec 15 := 0
  viol : Bool := false
  bin : BitVec 5 := 0
  bins : Table (BitVec 32) := []
  samples : Nat := 0
deriving DecidableEq, Repr

/-- A registered collective (R383): the slot word, what the engine keeps of the record, and whether the record is still to be read, its
home being held (R283). -/
structure Coll where
  va : Word := 0
  tag : BitVec 16 := 0
  expect : BitVec 16 := 0
  ev : BitVec 16 := 0
  buf : Word := 0
  blen : BitVec 32 := 0
  wait : Bool := false
  deadline : Nat := 0
  count : BitVec 32 := 0
  done : Bool := false
  pois : Bool := false
deriving DecidableEq, Repr

/-- A token bucket (R375): DEPTH, RATE, the tokens it holds. -/
structure Bucket where
  depth : BitVec 20 := 0
  rate : BitVec 20 := 0
  tokens : Nat := 0
deriving DecidableEq, Repr

/-- Telemetry of a partition (R397 to R399): TELBASE, EN and K, the sweeps made, the cycle from which the period of the next one runs,
FLOGCNT, and the counters. -/
structure Tel where
  base : Word := 0
  en : Bool := false
  k : BitVec 5 := 20
  seq : Nat := 0
  since : Nat := 0
  flog : BitVec 32 := 0
  cnt : Table Nat := []
deriving DecidableEq, Repr

/-- The control block of a PARTID, whether or not a partition has it: buckets by CLASS and STATION, the selected bucket, monitors,
VECTORS and collectives (R375, R376, R377, R383). -/
structure Contract where
  buckets : Table Bucket := []
  sel : BitVec 8 := 0
  qos : Table Qos := []
  qosvec : BitVec 11 := 0x041
  prevec : BitVec 11 := 0x040
  coll : Table Coll := []
deriving DecidableEq, Repr

/-- A partition (R360 to R364, R373, R378, R379), with the tiles clamped since its last launch (R82), what a SWAP has saved of its
cores and held contexts (R351), the REPLAY commands (tile, range, unresolvable) that reached it while it was saved (R357), and the
bytes written so far above the tile entries of its save area (R373). -/
structure Part where
  node : Nat := 0
  conf : Bool := false
  retn : BitVec 11 := 1024
  clamped : List Nat := []
  pre : Pre := {}
  savebase : Word := 0
  ptroot : Word := 0
  pwsel : BitVec 5 := 0
  win : Table Word := []
  qwsel : BitVec 12 := 0
  queues : Table Queue := []
  wd : Table QWd := []
  pool : List Nat := []
  tel : Tel := {}
  saved : Table Core := []
  savedHeld : Table (List Held) := []
  late : List (Nat × Nat × Nat × Bool) := []
  above : Nat := 0
deriving DecidableEq, Repr

/-- A record of the host's batched fault queue (R107). -/
structure PageRec where
  vpage : Word
  kind : Nat
  seq : BitVec 32
  tile : Nat
  part : Nat
  newt : Nat
deriving DecidableEq, Repr

/-- A work entry that the network engine has taken: its words 0 to 4, the cycle of the tail write, and for a READ whether its data has
been handed to its homes (R287, R376, R382). -/
structure WEntry where
  words : List Word
  began : Nat
  given : Bool := false
deriving DecidableEq, Repr

/-- A SEND or WRITE_IMM that has arrived at a queue pair (R382): its immediate value, its address and data, the receive entry it has
consumed, and whether its data has been handed to its homes. -/
structure Arrival where
  op : NetOp
  imm : BitVec 32
  va : Word
  data : List Byte
  entry : Option WEntry := none
  given : Bool := false
deriving DecidableEq, Repr

/-- A queue pair of the network engine (R381, R382): its partition, the tail register and the index of the next entry to take, the
addresses of its rings, the index of the next receive entry, the entries taken and not yet completed, the error state, the
congestion notifications that have reduced its rate, those it has generated on ECN marks, the arrivals not yet performed, oldest
first (R383), and the tail writes that cover entries not yet taken (the index each wrote and its cycle). -/
structure QPair where
  part : Nat := 0
  tail : BitVec 16 := 0
  head : BitVec 16 := 0
  sbase : Word := 0
  rbase : Word := 0
  rhead : BitVec 16 := 0
  ops : List WEntry := []
  err : Bool := false
  cnp : Nat := 0
  sent : Nat := 0
  arr : List Arrival := []
  bells : List (BitVec 16 × Nat) := []
deriving DecidableEq, Repr

/-- What is on its way through the mesh (R17, R18): a message and whether its sender waits for its acceptance, the
beats of a pour or of a remote pump copy that land together, and a counted beat's decrement, with the tile that sends it, the
times it has been resent and whether the last sending was lost (R392). A sender that waits for an acknowledgement is named by its
core and its activation's number; `by30` says that a channel 30 activation of a newt sent the beats (R358). -/
inductive Flight where
  | msg (dst : Nat) (m : Msg) (wait : Option (Nat × Nat))
  | beats (src dst off : Nat) (data : List Byte) (poison : List Bool) (target : Option Word) (part : Nat)
      (ack : Option (Nat × Nat)) (pump : Option Nat) (by30 : Bool)
  | decr (part : Nat) (va : Word) (n : Nat) (ack : Option (Nat × Nat)) (tile tries : Nat) (lost : Bool)
deriving DecidableEq, Repr

/-- The rest of a write by an agent outside the chunk order, which a held home delays (R287): its partition (4096: the address is
physical), its address and its bytes, or the arrival obligation that is to be discharged poisoned there (R283, R337). -/
structure Late where
  part : Nat
  va : Nat
  data : List Byte
  arr : Option Obl := none
deriving DecidableEq, Repr

/-- What happens next: a step of the table, or the next instruction, dispatch or resumption of a core. -/
inductive Happening where
  | step (i : Instr)
  | run (core : Nat)
deriving DecidableEq, Repr

/-- A trace station (R402). -/
structure Trace where
  tile : Nat := 0
  pre : BitVec 16 := 0
  trig : BitVec 2 := 0
  tcyc : Word := 0
  state : BitVec 2 := 0
  done : Bool := false
deriving DecidableEq, Repr

/-- States of a node of the buddy tree (R361). BLOCKED is computed from readiness. -/
inductive Node where
  | free | split | owned (part : Nat)
deriving DecidableEq, Repr

/-- A firmware image slot of the module: its security version, and whether it is accepted (R380). The manual does not say what the
slots hold before an image is installed: an accepted image of version 0 (DESIGN CHOICE, log 35). -/
structure Image where
  version : Nat := 0
  accepted : Bool := true
deriving DecidableEq, Repr

/-- A fault-log entry as it reaches the host administrator (R379): the partition, the tile, CYCLE, and the words of the record. -/
structure AdminFault where
  part : Nat
  tile : Nat
  time : Nat
  words : List Word
deriving DecidableEq, Repr

/-- What the module shares: the lease, the administrative queue, raised MSI-X vectors (function, vector and host port, oldest first), the
draw limit in force, the one last accepted and the coolant class, the batched fault queue, the fault-log entries that have reached the
administrator, the fatal mesh errors posted, the firmware images and the slot of the newest, the last measurement asked for, the stations
and the Ethernet and host ports that are ready, and the functions that have failed their self-test, and the counters of errors charged to
no partition (R368, R370, R25, R107, R392, R380, R26, R27, R396). -/
structure HostSt where
  period : BitVec 16 := 1000
  expired : Bool := false
  owner : Bool := false
  taken : Bool := false
  renewed : Nat := 0
  admin : Queue := {}
  msix : List (Nat × Nat × Bool) := []
  limit : Nat := 524288
  asked : Nat := 524288
  highFlow : Bool := false
  faultq : List PageRec := []
  faults : List AdminFault := []
  errors : List Nat := []
  images : Table Image := []
  minVersion : Nat := 0
  newSlot : Bool := false
  meas : Option (Nat × Word) := none
  stations : List Nat := []
  eth : List Nat := []
  ports : List Nat := []
  failed : List (Func × Nat) := []
  cnt : Table Nat := []
deriving DecidableEq, Repr

/-- A half-line that a cistern holds (R5, R104): its home tile, its 128 bytes, whether it is dirty, which of its four sectors are
poisoned, and the errors SECDED would find, by 64-bit word: 1 correctable, 2 uncorrectable (R390, R391). -/
structure Half where
  home : Nat
  data : BitVec 1024
  dirty : Bool := false
  poison : BitVec 4 := 0
  ecc : Table Nat := []
deriving DecidableEq, Repr

/-- Memory behind the homes: edge-station bytes by physical address, the half-lines that cisterns hold by PA[51:7], the directory of
each 256-byte line by PA[51:8] (the newts whose global data caches hold it, oldest first), poisoned sectors of the edge stations, the
frame-owner table (PARTID + 1; 0 is the free pool), the scrub pointers by row, the errors that ECC would find by 64-bit word: 1
correctable, 2 uncorrectable, and the AES-XTS-256 key pairs that the edge stations' engines hold, by PARTID (R102, R104, R390, R155,
R378, R393, R379). -/
structure Phys where
  dram : Memory := []
  cis : Table Half := []
  dir : Table (List Nat) := []
  poison : Table Bool := []
  owner : Table Nat := []
  scrub : Table Nat := []
  ecc : Table Nat := []
  keys : Table (BitVec 512) := []
deriving DecidableEq, Repr

/-- The whole module (R13 to R16): CYCLE, CYCLE when the last step ended and the cycles charged since to running activations (R50), the
fade ticks swept, the count of free values drawn, what the model keeps to say what comes next (the core whose turn it is, whether steps of
the module go first, and the agenda; log 2), what is in transit, agents' writes that held homes delay, cores, tiles, physical memory,
events and their waiters, partitions, their nodes and control blocks, the bucket steps taken (R375), the host's registers, queue pairs,
trace stations, paused priorities, and whether firmware has halted the module. -/
structure State where
  cycle : Nat
  clock : Nat
  paid : Table Nat
  swept : Nat
  freeCount : Nat
  turn : Nat
  odd : Bool
  agenda : List Happening
  flight : List Flight
  late : List Late
  cores : Table Core
  tiles : Table Tile
  phys : Phys
  events : Table Event
  bars : List BarWait
  parts : Table Part
  nodes : Table Node
  blocks : Table Contract
  refills : Nat
  host : HostSt
  net : Table QPair
  trace : Table Trace
  paused : Table Nat
  halted : Bool
deriving DecidableEq, Repr

/-- The module right after reset: nothing listed, CYCLE 0, no tile ready (R26 to R28, R81, R159), node 1 free (R361), the
lease of port 0 (R368), the default draw limit (R25). Values the manual does not give are those of
notes/assumptions/1.md. -/
def State.reset : State :=
  { cycle := 0, clock := 0, paid := [], swept := 0, freeCount := 0
    turn := 0, odd := true, agenda := [], flight := [], late := []
    cores := [], tiles := [], phys := {}, events := [], bars := []
    parts := [], nodes := [(1, .free)], blocks := [], refills := 0
    host := {}, net := [], trace := [], paused := [], halted := false }

end Sys2Proof.Machine
end

