-- ==== Sys2Proof/Machine/Mem.lean ====
section
/-! DEFINITION. Memory in canonical form, the accessors of the state's tables, the geometry of tiles and partitions
(R14, R15, R360), and granule tags (R83 to R85). -/

namespace Sys2Proof.Machine

/-- The byte at an address; an unlisted address reads 0. -/
def Memory.read : Memory → Nat → Byte
  | [], _ => 0
  | (a', b) :: t, a => if a = a' then b else if a < a' then 0 else Memory.read t a

/-- The memory with byte `b` at address `a`, in canonical form: a zero byte is not listed. -/
def Memory.write : Memory → Nat → Byte → Memory
  | [], a, b => if b = 0 then [] else [(a, b)]
  | (a', b') :: t, a, b =>
    if a < a' then (if b = 0 then (a', b') :: t else (a, b) :: (a', b') :: t)
    else if a = a' then (if b = 0 then t else (a, b) :: t)
    else (a', b') :: Memory.write t a b

/-- Every address of the list is above `lo`, strictly rising, and no byte is 0. -/
def Memory.wfFrom : Nat → Memory → Bool
  | _, [] => true
  | lo, (a, b) :: t => decide (lo ≤ a) && decide (b ≠ 0) && Memory.wfFrom (a + 1) t

/-- The canonical form of a memory. -/
def Memory.wf (m : Memory) : Bool := Memory.wfFrom 0 m

/-- `n` bytes from address `a` upward. -/
def Memory.bytes (m : Memory) (a : Nat) : Nat → List Byte
  | 0 => []
  | n + 1 => m.read a :: Memory.bytes m (a + 1) n

/-- The bytes written from address `a` upward. -/
def Memory.put (m : Memory) (a : Nat) : List Byte → Memory
  | [] => m
  | b :: bs => Memory.put (m.write a b) (a + 1) bs

/-- The number that bytes hold, least significant first (R6). -/
def leNat : List Byte → Nat
  | [] => 0
  | b :: bs => b.toNat + 256 * leNat bs

/-- The `n` bytes of a number, least significant first (R6). -/
def leBytes : Nat → Nat → List Byte
  | 0, _ => []
  | n + 1, x => BitVec.ofNat 8 x :: leBytes n (x / 256)

/-- The key is listed in the table. -/
def has {α : Type} (t : Table α) (k : Nat) : Bool := t.any fun e => e.1 == k

/-- The table without key `k`. -/
def drop {α : Type} (t : Table α) (k : Nat) : Table α := t.filter fun e => e.1 != k

/-- The entry at key `k`, if listed. -/
def find {α : Type} (t : Table α) (k : Nat) : Option α := (t.find? fun e => e.1 == k).map (·.2)

/-! ## Accessors -/

/-- The core with key `k` (the value of its NEWTID CSR, R159). -/
def State.core (s : State) (k : Nat) : Core := Table.get {} s.cores k

/-- The state with core `k` replaced. -/
def State.setCore (s : State) (k : Nat) (c : Core) : State := { s with cores := Table.set s.cores k c }

/-- The state with core `k` changed by `f`. -/
def State.modCore (s : State) (k : Nat) (f : Core → Core) : State := s.setCore k (f (s.core k))

/-- Tile `t`. -/
def State.tile (s : State) (t : Nat) : Tile := Table.get {} s.tiles t

/-- The state with tile `t` changed by `f`. -/
def State.modTile (s : State) (t : Nat) (f : Tile → Tile) : State := { s with tiles := Table.set s.tiles t (f (s.tile t)) }

/-- The service-core state of tile `t` changed by `f`. -/
def State.modSvc (s : State) (t : Nat) (f : Svc → Svc) : State := s.modTile t fun x => { x with svc := f x.svc }

/-- Partition `p`. -/
def State.part (s : State) (p : Nat) : Part := Table.get {} s.parts p

/-- The state with partition `p` changed by `f`. -/
def State.modPart (s : State) (p : Nat) (f : Part → Part) : State := { s with parts := Table.set s.parts p (f (s.part p)) }

/-- The control block of PARTID `p` (R377). -/
def State.ct (s : State) (p : Nat) : Contract := Table.get {} s.blocks p

/-- The state with that changed by `f`. -/
def State.modCt (s : State) (p : Nat) (f : Contract → Contract) : State := { s with blocks := Table.set s.blocks p (f (s.ct p)) }

/-- The state with the local store of core `k` changed by `f`. -/
def State.modLs (s : State) (k : Nat) (f : Local → Local) : State := s.modCore k fun c => { c with ls := f c.ls }

/-- The core with its scalar state changed by `f`. -/
def Core.modCtl (c : Core) (f : CoreCtl → CoreCtl) : Core := { c with ctl := f c.ctl }

/-- Activation slot `i` of a core. -/
def Core.slot (c : Core) (i : Nat) : Act := Table.get {} c.slots i

/-- The core with slot `i` changed by `f`. -/
def Core.modSlot (c : Core) (i : Nat) (f : Act → Act) : Core := { c with slots := Table.set c.slots i (f (c.slot i)) }

/-- The slot of the running activation. -/
def Core.runSlot (c : Core) : Nat := c.ctl.run.getD 0

/-- The running activation. -/
def Core.act (c : Core) : Act := c.slot c.runSlot

/-- The running activation is a lizard's (R268). -/
def Core.inLiz (c : Core) : Bool := c.ctl.lizn != 0 && c.ctl.run.isSome && c.act.uid == c.ctl.lizact

/-- Channel entry `ch`; PRI of channel 31 reads 3 (R31). -/
def Core.chan (c : Core) (ch : Nat) : Chan :=
  let e := Table.get {} c.chans ch
  if ch = 31 then { e with pri := 3 } else e

/-- The core with channel entry `ch` replaced. -/
def Core.setChan (c : Core) (ch : Nat) (e : Chan) : Core := { c with chans := Table.set c.chans ch e }

/-- What the network interface holds for channel `ch`. -/
def Core.inb (c : Core) (ch : Nat) : Inq := Table.get {} c.inq ch

/-- The core with that changed by `f`. -/
def Core.modInb (c : Core) (ch : Nat) (f : Inq → Inq) : Core := { c with inq := Table.set c.inq ch (f (c.inb ch)) }

/-- Ring descriptor of handle `h`. -/
def Core.ring (c : Core) (h : Nat) : Ring := Table.get {} c.vec.ring h

/-- The core with ring `h` replaced. -/
def Core.setRing (c : Core) (h : Nat) (r : Ring) : Core := { c with vec := { c.vec with ring := Table.set c.vec.ring h r } }

/-! ## Counters (R396, R398) -/

/-- A saturating 32-bit counter of a table, `n` higher. -/
def countUp (t : Table Nat) (i n : Nat) : Table Nat := Table.set t i (Nat.min 0xFFFFFFFF (Table.get 0 t i + n))

/-- Counter `i` of a tile, of a partition, or of none, one or `n` higher. -/
def State.tileCount (s : State) (t i : Nat) : State := s.modTile t fun x => { x with cnt := countUp x.cnt i 1 }
def State.partCount (s : State) (p i : Nat) : State :=
  s.modPart p fun x => { x with tel := { x.tel with cnt := countUp x.tel.cnt i 1 } }
def State.hostCount (s : State) (i n : Nat) : State := { s with host := { s.host with cnt := countUp s.host.cnt i n } }

/-- A count of the frame's owner, of none for a free frame (R396). -/
def State.frameCount (s : State) (pa i n : Nat) : State :=
  match Table.get 0 s.phys.owner (pa / 65536) with
  | 0 => if n = 0 then s else s.hostCount i n
  | p + 1 => if n = 0 then s else s.modPart p fun x => { x with tel := { x.tel with cnt := countUp x.tel.cnt i n } }

/-! ## Geometry -/

/-- The key belongs to a service core (NEWTID.SVC, R159). -/
def isSvc (k : Nat) : Bool := k / 0x100000 == 1

/-- The tile of a core key (R15, R159). -/
def tileOf (k : Nat) : Nat := k % 0x100000 / 32

/-- The key of the service core of tile `t` (R159). -/
def svcOf (t : Nat) : Nat := 0x100000 + t * 32

/-- The partition that tile `t` belongs to: none while it is not ready (R27). What holds a tile that its firmware's failure has made not
ready stays with it, and it is the partition's again once firmware has started anew (DESIGN CHOICE, log 35). -/
def State.tilePart (s : State) (t : Nat) : Option Nat := if (s.tile t).ready then (s.tile t).owner else none

/-- What the tile of core `k` holds is this partition's, ready or not: its ended chunks, kills and images are (log 35). -/
def State.holding (s : State) (k : Nat) : Option Nat := (s.tile (tileOf k)).owner

/-- The partition of the tile of core `k`. -/
def State.owner (s : State) (k : Nat) : Option Nat := s.tilePart (tileOf k)

/-- A host port is ready, so that the host reaches the functions' registers and the module's memory (R26). -/
def State.hostUp (s : State) : Bool := !s.host.ports.isEmpty

/-- Depth of a buddy node (R360). -/
def nodeDepth (n : Nat) : Nat := Nat.log2 n

/-- Tile count of a buddy node: 8 × 2^k for order k = 12 − d (R360). -/
def nodeTiles (n : Nat) : Nat := 8 * 2 ^ (12 - nodeDepth n)

/-- First tile of a buddy node (R360). -/
def nodeFirst (n : Nat) : Nat := (n - 2 ^ nodeDepth n) * nodeTiles n

/-- Tile count of partition `p`. -/
def State.partTiles (s : State) (p : Nat) : Nat := nodeTiles (s.part p).node

/-- First tile of partition `p`: its command processor's (R360). -/
def State.partFirst (s : State) (p : Nat) : Nat := nodeFirst (s.part p).node

/-- Tile `t` has failed its self-test since the last module reset (R27). -/
def State.failedTile (s : State) (t : Nat) : Bool := s.host.failed.contains (.tile, t)

/-- Tile `t` lies in partition `p`; one that is not ready belongs to none (R27). -/
def State.inPart (s : State) (p t : Nat) : Bool :=
  has s.parts p && decide (s.partFirst p ≤ t) && decide (t < s.partFirst p + s.partTiles p) && (s.tile t).ready

/-- The fade clock (R81, R158): FADE.TICKS = CYCLE >> 12. -/
def State.fade (s : State) : Nat := s.cycle / 4096

/-! ## Granule tags -/

/-- (FADE[11:0] − EXPIRY) mod 4096 (R84). -/
def Tag.age (t : Tag) (fade : Nat) : Nat := (fade % 4096 + 4096 - t.expiry.toNat) % 4096

/-- Expired(g) (R84). -/
def Tag.expired (t : Tag) (fade : Nat) : Bool := t.x || (!t.z && decide (t.age fade < 2048))

/-- Remaining(g) (R84). -/
def Tag.remaining (t : Tag) (fade : Nat) : Nat := (t.expiry.toNat + 4096 - fade % 4096) % 4096

/-- The tag after a renewal (R85). -/
def Tag.renewed (t : Tag) (fade retn : Nat) : Tag :=
  { t with expiry := BitVec.ofNat 12 (fade % 4096 + retn), x := false, z := false }

/-- The offset lies in the part of a service core's SRAM that is firmware's (R365). -/
def inFirmware (off : Nat) : Bool := decide (off < 0x40000) || decide (0x7C000 ≤ off)

/-- The tag of granule `g`. -/
def Local.tag (l : Local) (g : Nat) : Tag := Table.get {} l.tags g

/-- The local store with tag `g` replaced. -/
def Local.setTag (l : Local) (g : Nat) (t : Tag) : Local := { l with tags := Table.set l.tags g t }

/-- Renew(g) (R85, R126): the tag renewed and the alarm flag cleared. -/
def Local.renew (l : Local) (g fade retn : Nat) : Local :=
  { l.setTag g ((l.tag g).renewed fade retn) with alarm := Table.set l.alarm g false }

/-- A bit of a table of marks, set or cleared. -/
def mark (t : Table Bool) (k : Nat) (b : Bool) : Table Bool := if b then Table.set t k true else drop t k

/-- The ECC entries of the 64-bit words of `n` bytes from `off`, cleared: the words were written whole. -/
def clearEcc (e : Table Nat) (off n : Nat) : Table Nat :=
  e.filter fun x => !(decide (off ≤ x.1 * 8) && decide (x.1 * 8 + 8 ≤ off + n))

/-- The cells of granule `g` set to zero, with its marks (a granule with Z = 1 holds zeros when it is next written whole,
R86). -/
def Local.clearCells (l : Local) (g : Nat) : Local :=
  { l with
    cells := l.cells.filter fun x => x.1 / 512 != g
    poison := l.poison.filter fun x => x.1 / 16 != g
    ecc := l.ecc.filter fun x => x.1 / 64 != g }

/-- The poison marks of granule `g` cleared (R92). -/
def Local.unmark (l : Local) (g : Nat) : Local := { l with poison := l.poison.filter fun x => x.1 / 16 != g }

/-- The marks of `n` sectors from the one that holds `off` set to `b`. -/
def Local.markSectors (l : Local) (off : Nat) (b : Bool) : Nat → Local
  | 0 => l
  | n + 1 => { Local.markSectors l off b n with poison := mark (Local.markSectors l off b n).poison (off / 32 + n) b }

/-- The 64-bit word number `w` is written in part by `n` bytes from `off`. -/
def wordInPart (w off n : Nat) : Bool :=
  decide (w * 8 < off + n) && decide (off < w * 8 + 8) && !(decide (off ≤ w * 8) && decide (w * 8 + 8 ≤ off + n))

/-- The words that `n` bytes from `off` are merged into and whose untouched part is uncorrectable: their sectors (R91). -/
def Local.badSectors (l : Local) (off n : Nat) : List Nat :=
  (l.ecc.filter fun x => x.2 == 2 && wordInPart x.1 off n).map (·.1 / 4)

/-- The single-bit errors in the words that `n` bytes from `off` are merged into (R91). -/
def Local.mends (l : Local) (off n : Nat) : Nat := (l.ecc.filter fun x => x.2 == 1 && wordInPart x.1 off n).length

/-- Sectors marked poisoned. -/
def Local.poisonAll (l : Local) : List Nat → Local
  | [] => l
  | x :: t => Local.poisonAll { l with poison := mark l.poison x true } t

/-- The whole sectors of a write of `n` bytes from `off`: the first one's offset and their number (R92). -/
def wholeFrom (off : Nat) : Nat := (off + 31) / 32 * 32
def wholeCount (off n : Nat) : Nat := (off + n) / 32 - (off + 31) / 32

/-- Bytes written to the cells, with their SECDED words and sector marks (R91, R92): every word written, whole or by a merge, has fresh
check bits; a word whose untouched part is uncorrectable has its sector poisoned; sectors covered whole take mark `pois`. -/
def Local.putCells (l : Local) (off : Nat) (data : List Byte) (pois : Bool) : Local :=
  let n := data.length
  let l2 := { l with
    cells := l.cells.put off data
    ecc := l.ecc.filter fun x => !(decide (x.1 * 8 < off + n) && decide (off < x.1 * 8 + 8)) }
  (l2.markSectors (wholeFrom off) pois (wholeCount off n)).poisonAll (l.badSectors off n)

/-- The corrected-error counter raised by `n` (R91). -/
def Core.countEcc (c : Core) (n : Nat) : Core :=
  { c with cnt := { c.cnt with ecc := BitVec.ofNat 32 (Nat.min 0xFFFFFFFF (c.cnt.ecc.toNat + n)) } }

/-- A write of bytes within one granule under the tag it meets (R85, R86), by an agent whose check was made: a granule with
Z = 1 is written whole, zeros merged with the bytes, and renewed; `whole` says that the write covers the granule in one
operation, which renews it; a granule that expired since the check takes the bytes and its sectors are poisoned. -/
def Local.land (l : Local) (fade retn : Nat) (whole : Bool) (off : Nat) (data : List Byte) (pois : Bool) : Local :=
  let g := off / 512
  let t := l.tag g
  let wasZ := t.z && !t.x
  let dead := t.expired fade && !whole
  let l1 := (if wasZ then l.clearCells g else l).putCells off data pois
  if dead then l1.markSectors (off / 32 * 32) true ((off % 32 + data.length + 31) / 32)
  else if wasZ || whole then l1.renew g fade retn else l1

/-- The same write where nothing is renewed (R358): a granule with Z = 1 takes zeros and the bytes, and only its Z changes. -/
def Local.landStill (l : Local) (fade off : Nat) (data : List Byte) (pois : Bool) : Local :=
  let g := off / 512
  let t := l.tag g
  if t.z && !t.x then ((l.clearCells g).putCells off data pois).setTag g { t with z := false }
  else l.land fade 0 false off data pois

end Sys2Proof.Machine
end

