-- ==== Sys2Proof/Machine/Dbg.lean ====
section
/-! DEFINITION. The registers of the debug modules (R400): where they lie, what they read, and the plain effect of writing
them. The halts, steps and matches are in Debug.lean. -/

namespace Sys2Proof.Machine

/-- A physical address in the debug modules' range (R400): 0x4_1000_0000_0000 + 0x100 × newt id. -/
def isDebugPa (pa : Nat) : Bool := decide (0x4100000000000 ≤ pa) && decide (pa < 0x4100000000000 + 0x10000000)

/-- The newt of such an address. -/
def debugNewt (pa : Nat) : Nat := (pa - 0x4100000000000) / 256

/-- The tile's partition is confidential: debug access is refused (R379, R400). -/
def State.dbgRefused (s : State) (k : Nat) : Bool :=
  match s.owner k with
  | some p => (s.part p).conf
  | none => false

/-- An engine operation of the core is in flight (DSTAT.ENGBUSY, R400). -/
def Core.engBusy (c : Core) : Bool := !c.eng.mq.isEmpty || !c.eng.pq.isEmpty

/-- Eight bytes of a wide register from byte index `i`. -/
def wordAt {w : Nat} (x : BitVec w) (i : Nat) : Word := (x >>> (8 * i)).setWidth 64

/-- The lizard that core `k` is part of while it runs: its head and its size (R268). -/
def State.runningLiz (s : State) (k : Nat) : Option (Nat × Nat) :=
  let h := (s.core k).ctl.lizhead.getD k
  if (s.core h).inLiz then some (h, (s.core h).ctl.lizn) else none

/-- The member of a lizard of `n` newts, counted from its head, whose register cache holds word `i`: (i mod n), and the head for the
frame words (R270). -/
def lizPlace (n i : Nat) : Nat := if 56 ≤ i then 0 else i % n

/-- Word `i` of the register cache of core `k` (R44); in a running lizard it lives in the cache of one member, and no other cache has it
(R270). What the members' caches hold together are the registers of the head. Words 60 to 63 read zero (R45). -/
def State.cacheWord (s : State) (k i : Nat) : Word :=
  if 60 ≤ i then 0
  else match s.runningLiz k with
  | some (h, n) => if lizPlace n i = k - h then Table.get 0 (s.core h).regs i else 0
  | none => Table.get 0 (s.core k).regs i

/-- DDATA's place of core `k`, as DACC names it, read (R400): space 0 register cache word, 1 local-store cells raw, 2 vector register
byte, 3 accumulator element. -/
def State.ddata (s : State) (k : Nat) : Word :=
  let c := s.core k
  let i := bitsOf c.dbg.acc.toNat 61 0
  match bitsOf c.dbg.acc.toNat 63 62 with
  | 0 => s.cacheWord k (i % 64)
  | 1 => BitVec.ofNat 64 (leNat (c.ls.cells.bytes i 8))
  | 2 => wordAt (Table.get 0 c.vec.v (i / 64 % 16)) (i % 64)
  | _ => (Table.get 0 c.vec.a (i / 64 % 4) >>> (32 * (i % 64))).setWidth 64

/-- Bits [lo + 63 : lo] of a wide register replaced. -/
def putWord {w : Nat} (x : BitVec w) (lo : Nat) (y : Word) : BitVec w :=
  (x &&& ~~~((0xFFFFFFFFFFFFFFFF#64).setWidth w <<< lo)) ||| (y.setWidth w <<< lo)

/-- A word of the register cache of core `k` written by the debugger: none where the lizard's word lives in another member (R270), and none
of words 60 to 63, which discard what is written to them (R45). -/
def State.putCacheWord (s : State) (k i : Nat) (y : Word) : State :=
  if 60 ≤ i then s
  else match s.runningLiz k with
  | some (h, n) => if lizPlace n i = k - h then s.modCore h fun c => { c with regs := Table.set c.regs i y } else s
  | none => s.modCore k fun c => { c with regs := Table.set c.regs i y }

/-- DDATA's place of core `k` written (R400). -/
def State.putDdata (s : State) (k : Nat) (y : Word) : State :=
  let i := bitsOf (s.core k).dbg.acc.toNat 61 0
  match bitsOf (s.core k).dbg.acc.toNat 63 62 with
  | 0 => s.putCacheWord k (i % 64) y
  | 1 => s.modCore k fun c => { c with ls := { c.ls with cells := c.ls.cells.put i (leBytes 8 y.toNat) } }
  | 2 => s.modCore k fun c => { c with vec := { c.vec with
      v := Table.set c.vec.v (i / 64 % 16) (putWord (Table.get 0 c.vec.v (i / 64 % 16)) (8 * (i % 64)) y) } }
  | _ => s.modCore k fun c => { c with vec := { c.vec with
      a := Table.set c.vec.a (i / 64 % 4) (putWord (Table.get 0 c.vec.a (i / 64 % 4)) (32 * (i % 64)) y) } }

/-- DSTAT (R400). -/
def Core.dstat (c : Core) : Word :=
  BitVec.ofNat 64 (c.dbg.imm.toNat * 65536 + c.dbg.why * 16 + c.dbg.idx * 4
    + (if c.engBusy then 2 else 0) + (if c.dbg.halted then 1 else 0))

/-- DPC: the PC of the next instruction of the running activation, or what the debugger has set (R400). -/
def Core.dpcReg (c : Core) : Word :=
  match c.dbg.dpc with
  | some p => p
  | none =>
    match c.ctl.run with
    | some i => (c.slot i).pc
    | none => 0

/-- DCTL as it reads: W1S bits read 0, but DRAIN reads 1 while an engine operation is in flight after it was written. -/
def Core.dctlReg (c : Core) : Word :=
  (c.dbg.ctl &&& 0x78#64) ||| (if c.dbg.ctl.getLsbD 7 && c.engBusy then 0x80#64 else 0)

/-- A debug register read at an offset of the module's 256 bytes; a confidential partition's newt reads zero (R379). -/
def State.dbgRead (s : State) (k off : Nat) : Word :=
  let c := s.core k
  if s.dbgRefused k then 0
  else match off with
  | 0x00 => c.dctlReg
  | 0x08 => c.dstat
  | 0x10 => Table.get 0 c.dbg.dbp 0
  | 0x18 => Table.get 0 c.dbg.dbp 1
  | 0x20 => Table.get 0 c.dbg.dbp 2
  | 0x28 => Table.get 0 c.dbg.dbp 3
  | 0x30 => Table.get 0 c.dbg.dwa 0
  | 0x38 => Table.get 0 c.dbg.dwa 1
  | 0x40 => (Table.get 0 c.dbg.dwc 0).setWidth 64
  | 0x48 => (Table.get 0 c.dbg.dwc 1).setWidth 64
  | 0x50 => c.dbg.acc
  | 0x58 => if c.dbg.halted then s.ddata k else 0xFFFFFFFFFFFFFFFF
  | 0x60 => c.dpcReg
  | _ => 0

end Sys2Proof.Machine
end

