-- ==== Sys2Proof/Machine/Xlate.lean ====
section
/-! DEFINITION. Global addresses: placement windows (R95, R96), the walk of the page tables (R98 to R100), the slice TLBs
and the firmware MMU (R101, R366), the map of physical addresses (R102), frame ownership (R155), and reads and writes at
the homes (R104, R168). -/

namespace Sys2Proof.Machine

/-- The regions of the physical address space (R102). -/
inductive Region where
  | near | far | host (port : Nat) | dev | hole
deriving DecidableEq, Repr

/-- The region of a physical address (R102). -/
def regionOf (pa : Nat) : Region :=
  if pa < Config.nearBytes then .near
  else if 0x1000000000000 ≤ pa ∧ pa < 0x1000000000000 + Config.farBytes then .far
  else if 0x2000000000000 ≤ pa ∧ pa < 0x3000000000000 then .host 0
  else if 0x3000000000000 ≤ pa ∧ pa < 0x4000000000000 then .host 1
  else if 0x4000000000000 ≤ pa ∧ pa < 0x5000000000000 then .dev
  else .hole

/-- The edge station that serves a line (R103): by the interleave of its tier, or for a host window the station of the addressed port
(R22). -/
def stationOf (pa : Nat) : Nat :=
  match regionOf pa with
  | .far => Nat.xor (bitsOf pa 17 12) (bitsOf pa 23 18)
  | .host 0 => 8
  | .host _ => 40
  | _ => Nat.xor (bitsOf pa 13 8) (bitsOf pa 19 14)

/-- The stations that serve a frame (R103): all of them in the near tier, sixteen in the far tier. -/
def frameStations (f : Nat) : List Nat :=
  match regionOf (f * 65536) with
  | .far => (List.range 16).map fun i => Nat.xor (bitsOf f 1 0) (bitsOf f 7 6) * 16 + i
  | _ => List.range 64

/-- Every station that serves a frame is ready (R27). -/
def State.stationsReady (s : State) (f : Nat) : Bool := (frameStations f).all s.host.stations.contains

/-- Kinds of global access (R100). `bare` is a read that no newt's data cache keeps: `ldc` and the pump (R105, R238). -/
inductive Acc where
  | read | store | atomic | fetch | bare
deriving DecidableEq, Repr

/-- What translation answers: the physical address, the home tile and where the access goes, or a fault with its code,
its FINFO value and the home tile (R100). -/
inductive Xl where
  | ok (pa home : Nat) (dest : Dest)
  | fault (code info home : Nat)
deriving DecidableEq, Repr

/-- A little-endian number read from the edge stations (R6, R98). -/
def Phys.edge (p : Phys) (pa n : Nat) : Nat := leNat (p.dram.bytes pa n)

/-- Byte `j` of a half-line. -/
def Half.byte (h : Half) (j : Nat) : Byte := h.data.extractLsb' (8 * j) 8

/-- Byte `j` of a half-line written: the half-line is dirty as a whole (R104). -/
def Half.put (h : Half) (j : Nat) (b : Byte) : Half :=
  { h with
    data := (h.data &&& ~~~(0xFF#1024 <<< (8 * j))) ||| (b.setWidth 1024 <<< (8 * j))
    dirty := true }

/-- A byte as its home cistern holds it: that of the half-line it holds, else the edge station's (R104). -/
def Phys.byte (p : Phys) (pa : Nat) : Byte :=
  match find p.cis (pa / 128) with
  | some h => h.byte (pa % 128)
  | none => p.dram.read pa

/-- `n` bytes as the home cistern holds them. -/
def Phys.bytes (p : Phys) (pa : Nat) : Nat → List Byte
  | 0 => []
  | n + 1 => p.byte pa :: Phys.bytes p (pa + 1) n

/-- The sectors of `n` bytes from `pa`, by number. -/
def sectorsOf (pa n : Nat) : List Nat := (List.range ((pa % 32 + n + 31) / 32)).map (pa / 32 + ·)

/-- The sectors that a write of `n` bytes from `pa` covers whole. -/
def wholeSectors (pa n : Nat) : List Nat :=
  (sectorsOf pa n).filter fun s => decide (pa ≤ s * 32) && decide (s * 32 + 32 ≤ pa + n)

/-- A table of marks with those of several keys set to `b`. -/
def markAll (t : Table Bool) (b : Bool) : List Nat → Table Bool
  | [] => t
  | k :: ks => markAll (mark t k b) b ks

/-- A sector at its edge station is poisoned, or holds an uncorrectable error (R390, R391). -/
def Phys.edgePoison (p : Phys) (x : Nat) : Bool :=
  Table.get false p.poison x || p.ecc.any fun e => e.1 / 4 == x && e.2 == 2

/-- A sector at its home is poisoned: in the half-line that its cistern holds, else at the edge station (R390, R391). -/
def Phys.homePoison (p : Phys) (x : Nat) : Bool :=
  match find p.cis (x / 4) with
  | some h => h.poison.getLsbD (x % 4)
  | none => p.edgePoison x

/-- A sector of the range is poisoned where an access with destination `d` finds it. -/
def Phys.poisoned (p : Phys) (d : Dest) (pa n : Nat) : Bool :=
  (sectorsOf pa n).any fun x => if d = .edge then p.edgePoison x else p.homePoison x

/-- The half-line number `x` as it is filled from its edge station (R104, R391). -/
def Phys.halfFrom (p : Phys) (home x : Nat) : Half :=
  { home := home
    data := BitVec.ofNat 1024 (p.edge (x * 128) 128)
    poison := BitVec.ofNat 4 ((List.range 4).foldl (fun m j => m + if p.edgePoison (4 * x + j) then 2 ^ j else 0) 0) }

/-- Half-line `x` allocated and filled in the cistern of tile `home`, unless it is held (R104). -/
def Phys.fill (p : Phys) (home x : Nat) : Phys :=
  if has p.cis x then p else { p with cis := Table.set p.cis x (p.halfFrom home x) }

/-- The half-line of a byte changed by `f`, allocated first (R104). -/
def Phys.modHalf (p : Phys) (home x : Nat) (f : Half → Half) : Phys :=
  { p with cis := Table.set p.cis x (f ((find p.cis x).getD (p.halfFrom home x))) }

/-- Bytes written in the home cistern: they stay there, and their half-lines are dirty (R104). -/
def Phys.cisPut (p : Phys) (home pa : Nat) : List Byte → Phys
  | [] => p
  | b :: bs => Phys.cisPut (p.modHalf home (pa / 128) fun h => h.put (pa % 128) b) home (pa + 1) bs

/-- The marks of sectors in the home cistern set to `b` (R390). -/
def Phys.markHome (p : Phys) (home : Nat) (b : Bool) : List Nat → Phys
  | [] => p
  | x :: t =>
    Phys.markHome (p.modHalf home (x / 4) fun h => { h with poison :=
      if b then h.poison ||| (1#4 <<< (x % 4)) else h.poison &&& ~~~(1#4 <<< (x % 4)) }) home b t

/-- Bytes written at the edge station (R168). -/
def Phys.edgePut (p : Phys) (pa : Nat) (bs : List Byte) : Phys := { p with dram := p.dram.put pa bs }

/-- The marks of sectors at the edge stations set to `b`; their words hold no error any more (R390). -/
def Phys.markEdge (p : Phys) (b : Bool) (xs : List Nat) : Phys :=
  { p with
    poison := markAll p.poison b xs
    ecc := p.ecc.filter fun e => !xs.contains (e.1 / 4) }

/-- A write at the home cistern (R104): the sectors it covers whole lose their marks (R390). -/
def Phys.writeHome (p : Phys) (home pa : Nat) (bs : List Byte) : Phys :=
  (p.cisPut home pa bs).markHome home false (wholeSectors pa bs.length)

/-- A write at the edge station (R168): the sectors it covers whole lose their marks (R390). -/
def Phys.writeEdge (p : Phys) (pa : Nat) (bs : List Byte) : Phys :=
  (p.edgePut pa bs).markEdge false (wholeSectors pa bs.length)

/-- The sectors of a half-line with an uncorrectable word. -/
def Half.bad (h : Half) : List Nat := (List.range 4).filter fun j => h.ecc.any fun e => e.1 / 4 == j && e.2 == 2

/-- A half-line whose words have been checked: corrected, or their sectors poisoned. -/
def Half.checked (h : Half) : Half :=
  { h with poison := h.bad.foldl (fun m j => m ||| (1#4 <<< j)) h.poison, ecc := [] }

/-- Half-line `x` leaves its cistern: a dirty one is written back whole, with its marks (R390, R393); every sharer of its line
acknowledges, and the directory lists none (R104). -/
def Phys.writeBack (p : Phys) (x : Nat) : Phys :=
  match find p.cis x with
  | none => p
  | some h0 =>
    let h := h0.checked
    let p1 := if h.dirty then
        ((p.edgePut (x * 128) (leBytes 128 h.data.toNat)).markEdge false ((List.range 4).map (4 * x + ·))).markEdge true
          (((List.range 4).filter fun j => h.poison.getLsbD j).map (4 * x + ·))
      else p
    { p1 with cis := drop p1.cis x, dir := drop p1.dir (x / 2) }

/-- Half-lines that leave their cisterns. -/
def Phys.writeBacks (p : Phys) : List Nat → Phys
  | [] => p
  | x :: t => Phys.writeBacks (p.writeBack x) t

/-! ## Integrity checks (R391, R393, R396) -/

/-- The 64-byte burst of the edge stations that holds `pa` is read: correctable errors are corrected and rewritten, sectors with an
uncorrectable one marked poisoned, and both counted. -/
def State.dramCheck (s : State) (pa : Nat) : State :=
  let es := s.phys.ecc.filter fun e => e.1 / 8 == pa / 64
  if es.isEmpty then s
  else
    let bad := [pa / 64 * 2, pa / 64 * 2 + 1].filter fun x => es.any fun e => e.1 / 4 == x && e.2 == 2
    let s1 : State := { s with phys := { s.phys with
      ecc := s.phys.ecc.filter fun e => e.1 / 8 != pa / 64
      poison := markAll s.phys.poison true bad } }
    (s1.frameCount pa 2 (es.filter fun e => e.2 == 1).length).frameCount pa 3 bad.length

/-- The tile whose counters take an error in half-line `x`, held at tile `home`, where partition `p` owns the frame (R396): its home, or,
where that is not the partition's, the partition's first tile (DESIGN CHOICE, log 116). -/
def State.countTileOf (s : State) (p home : Nat) : Nat := if (s.tile home).owner = some p then home else s.partFirst p

/-- What a check of half-line `x` has found, charged to the owner of its frame, and for a free frame to none (R396). -/
def State.countHalf (s : State) (x : Nat) (h : Half) : State :=
  let n := (h.ecc.filter fun e => e.2 == 1).length
  if h.ecc.isEmpty then s
  else
    match Table.get 0 s.phys.owner (x * 128 / 65536) with
    | 0 => (s.hostCount 0 n).hostCount 1 h.bad.length
    | p + 1 => s.modTile (s.countTileOf p h.home) fun t => { t with cnt := countUp (countUp t.cnt 0 n) 1 h.bad.length }

/-- Half-lines that leave their cisterns, written back where they are dirty, what their checks find counted (R104, R391). -/
def State.writeBackHalves (s : State) (hs : List (Nat × Half)) : State :=
  hs.foldl (fun s e => s.countHalf e.1 e.2) { s with phys := s.phys.writeBacks (hs.map (·.1)) }

/-- Half-line `x` is read where it lies, in a cistern or at its edge station, and checked there. -/
def State.halfCheck (s : State) (x : Nat) : State :=
  match find s.phys.cis x with
  | some h =>
    if h.ecc.isEmpty then s
    else State.countHalf { s with phys := { s.phys with cis := Table.set s.phys.cis x h.checked } } x h
  | none => (s.dramCheck (x * 128)).dramCheck (x * 128 + 64)

/-- Half-line `x` read in the cistern of tile `home`, where it is filled from its edge station unless it is held. -/
def State.halfRead (s : State) (home x : Nat) : State :=
  let s1 := s.halfCheck x
  { s1 with phys := s1.phys.fill home x }

/-- Blocks of `size` bytes that `n` bytes from `pa` lie in, by number. -/
def blocksOf (size pa n : Nat) : List Nat := (List.range ((pa % size + n + size - 1) / size)).map (pa / size + ·)

/-- The half-lines of a range read where they lie; its bursts read at the edge stations. -/
def State.halvesCheck (s : State) (pa n : Nat) : State := (blocksOf 128 pa n).foldl State.halfCheck s
def State.burstsCheck (s : State) (pa n : Nat) : State := (blocksOf 64 pa n).foldl (fun s x => s.dramCheck (x * 64)) s

/-- `n` bytes from `pa` read where they lie: every half-line of theirs at the home is held there and checked, every burst at an edge
station is checked (R104, R391). -/
def State.readsAt (s : State) (d : Dest) (home pa n : Nat) : State :=
  match d with
  | .home => (blocksOf 128 pa n).foldl (State.halfRead · home) s
  | .edge => s.burstsCheck pa n
  | .loc | .dev | .host => s

/-! ## The directory and the newts' global data caches (R104) -/

/-- The newts whose data caches hold line `l`: the first four are the hardware pointers of the directory, the rest the service core
keeps in its SRAM (R104). -/
def Phys.sharers (p : Phys) (l : Nat) : List Nat := Table.get [] p.dir l
def Phys.pointers (p : Phys) (l : Nat) : List Nat := (p.sharers l).take 4
def Phys.moreSharers (p : Phys) (l : Nat) : List Nat := (p.sharers l).drop 4

/-- The lines that newt `k`'s data cache holds. -/
def Phys.cached (p : Phys) (k : Nat) : List Nat := (p.dir.filter fun e => e.2.contains k).map (·.1)

/-- Newt `k` caches line `l`: its home's directory lists it. -/
def Phys.share (p : Phys) (k l : Nat) : Phys :=
  if (p.sharers l).contains k then p else { p with dir := Table.set p.dir l (p.sharers l ++ [k]) }

/-- The sharers of line `l` other than `k` are invalidated (R104). -/
def Phys.unshare (p : Phys) (k l : Nat) : Phys :=
  if has p.dir l then
    let rest := (p.sharers l).filter (· == k)
    { p with dir := if rest.isEmpty then drop p.dir l else Table.set p.dir l rest }
  else p

/-! ## Page tables -/

/-- The fields of a page-table entry (R99). -/
def pteFrame (e : Nat) : Nat := bitsOf e 45 10
def pteHome (e : Nat) : Nat := bitsOf e 63 49

/-- A nonzero reserved field of an entry (R99): bits [47:46] and [9:6]. -/
def pteReserved (e : Nat) : Bool := bitsOf e 47 46 != 0 || bitsOf e 9 6 != 0

/-- A malformed pointer at level 1 or 2 (R99, R100). -/
def ptrMalformed (lvl e : Nat) : Bool :=
  pteReserved e || (lvl == 1 && bitOf e 5) || bitsOf e 4 1 != 0 || bitOf e 48 || pteHome e != 0

/-- A malformed leaf (R99, R100): `large` says that it stands in a large block, where LG is 1 and FRAME[8:0] is zero. -/
def leafMalformed (large : Bool) (e : Nat) : Bool :=
  pteReserved e || (bitOf e 5 != large) || bitsOf e 3 1 == 0 || (large && bitsOf e 18 10 != 0)
    || (bitOf e 48 && bitsOf e 63 54 != 0)

/-- A frame lies in an unpopulated region (R102). -/
def frameHole (frame : Nat) : Bool := regionOf (frame * 65536) == .hole

/-- What serves a physical address is ready: its edge station, or its host port (R26). -/
def State.addrUp (s : State) (pa : Nat) : Bool :=
  match regionOf pa with
  | .near | .far => s.host.stations.contains (stationOf pa)
  | .host q => s.host.ports.contains q
  | .dev | .hole => true

/-- What the unpopulated row of R100 judges, for an address in a frame: the frame's region, and that what serves the address is ready.
The capability table, which gives the near tier's capacity, counts only functions that are ready (R27, R102; DEDUCED, log 115). -/
def State.unpopulated (s : State) (frame pa : Nat) : Bool := frameHole frame || !s.addrUp pa

/-- What a walk finds: a leaf, or where it stopped: level, and FINFO bits [1:0] (R100). -/
inductive Walk where
  | leaf (e : Nat) (large : Bool)
  | stop (lvl info : Nat)
deriving DecidableEq, Repr

/-- A table entry whose sector is poisoned holds no entry: it counts as malformed (R390; DESIGN CHOICE, log 114). -/
def Phys.entryBad (p : Phys) (pa : Nat) : Bool := p.edgePoison (pa / 32)

/-- The last level of a walk, in a table of 64 KiB blocks or a large block. -/
def State.walk3 (s : State) (frame va : Nat) (large : Bool) : Walk × List Nat :=
  let a := frame * 65536 + 8 * (if large then bitsOf va 27 25 else bitsOf va 27 16)
  if s.unpopulated frame a then (.stop 3 2, [])
  else
    let e := s.phys.edge a 8
    (if s.phys.entryBad a then .stop 3 1
      else if !bitOf e 0 then .stop 3 0
      else if leafMalformed large e then .stop 3 1
      else .leaf e large, [a])

/-- The second level. -/
def State.walk2 (s : State) (frame va : Nat) : Walk × List Nat :=
  let a := frame * 65536 + 8 * bitsOf va 39 28
  if s.unpopulated frame a then (.stop 2 2, [])
  else
    let e := s.phys.edge a 8
    if s.phys.entryBad a then (.stop 2 1, [a])
    else if !bitOf e 0 then (.stop 2 0, [a])
    else if ptrMalformed 2 e then (.stop 2 1, [a])
    else
      let w := s.walk3 (pteFrame e) va (bitOf e 5)
      (w.1, a :: w.2)

/-- The walk of the tables under `root` for an address (R98, R100), and the addresses of the entries it reads from the edge stations. The
manual does not say what the walker reads in a table frame of a host window or of the device region: it reads zeros there, V = 0 (DESIGN
CHOICE, log 79). -/
def State.walk (s : State) (root va : Nat) : Walk × List Nat :=
  let a := root * 65536 + 8 * bitsOf va 51 40
  if root = 0 then (.stop 1 0, [])
  else if s.unpopulated root a then (.stop 1 2, [])
  else
    let e := s.phys.edge a 8
    if s.phys.entryBad a then (.stop 1 1, [a])
    else if !bitOf e 0 then (.stop 1 0, [a])
    else if ptrMalformed 1 e then (.stop 1 1, [a])
    else
      let w := s.walk2 (pteFrame e) va
      (w.1, a :: w.2)

/-- FINFO of a fault 0x07: walk level and the malformed and unpopulated bits (R160). -/
def walkInfo (lvl info : Nat) : Nat := lvl * 4 + info

/-- The key of a translation in a TLB: the page number of 64 KiB, or, above 2^36, the number of 32 MiB. -/
def tlbKey (va : Nat) (large : Bool) : Nat := if large then 2 ^ 36 + bitsOf va 51 25 else bitsOf va 51 16

/-- A TLB's leaf for an address, or none. -/
def tlbFind (t : Table Leaf) (va : Nat) : Option Leaf :=
  match find t (tlbKey va false) with
  | some l => some l
  | none => find t (tlbKey va true)

/-- The permission row of R100. -/
def denied (e lvl : Nat) (a : Acc) : Bool :=
  (match a with
    | .read => !bitOf e 1
    | .bare => !bitOf e 1
    | .store => !bitOf e 2
    | .atomic => !(bitOf e 1 && bitOf e 2)
    | .fetch => !bitOf e 3) || (lvl == 0 && bitOf e 4)

/-- The physical address a leaf gives (R98, R99). -/
def leafPa (e : Nat) (large : Bool) (va : Nat) : Nat :=
  if large then pteFrame e * 65536 + bitsOf va 24 0 else pteFrame e * 65536 + bitsOf va 15 0

/-- The home tile of an address in a window (R96). -/
def windowHome (w va : Nat) : Nat :=
  if bitOf w 62 then
    let h := Nat.xor (Nat.xor (bitsOf va 22 8) (bitsOf va 37 23)) (bitsOf va 51 38)
    Nat.lor (bitsOf w 46 32) (Nat.land h (bitsOf w 14 0))
  else bitsOf w 46 32

/-- A valid window that every access through faults 0x08 on (R96): its home, or a tile of its group, lies outside the
partition, or is not ready (R27), or HOME and GMASK share a bit. -/
def State.windowBad (s : State) (p w : Nat) : Bool :=
  let home := bitsOf w 46 32
  let last := Nat.lor home (bitsOf w 14 0)
  if bitOf w 62 then
    Nat.land home (bitsOf w 14 0) != 0 || !s.inPart p home || !s.inPart p last
      || s.tiles.any fun x => !x.2.ready && Nat.lor x.1 (bitsOf w 14 0) == last
  else !s.inPart p home

/-- The frame-owner check of R155: an access of partition `p` to memory whose frame it does not own is refused. -/
def State.notOwned (s : State) (p pa : Nat) : Bool :=
  match regionOf pa with
  | .near | .far => Table.get 0 s.phys.owner (pa / 65536) != p + 1
  | _ => false

/-- From a takeover onward, accesses through the old port's host window are refused (R368). -/
def State.oldPort (s : State) (pa : Nat) : Bool :=
  match regionOf pa with
  | .host q => s.host.taken && (q == 1) != s.host.owner
  | _ => false

/-- Where an access to a physical address goes (R102, R168). -/
def destOf (uc : Bool) (pa : Nat) : Dest :=
  match regionOf pa with
  | .host _ => .host
  | .dev => .dev
  | _ => if uc then .edge else .home

/-- The leaf rows of R100 in order, for a leaf found for window `w` (number `wi`) at home tile `home`. -/
def State.leafCheck (s : State) (p lvl : Nat) (a : Acc) (w wi home va e : Nat) (large : Bool) : Xl :=
  let hsh := bitOf e 48
  let pa := leafPa e large va
  if denied e lvl a then .fault 0x08 0 home
  else if (!bitOf w 62 && (hsh || pteHome e != home)) || (bitOf w 62 && (!hsh || bitsOf e 53 49 != wi)) then
    .fault 0x09 0 home
  else if s.unpopulated (pteFrame e) pa then .fault 0x07 (walkInfo 3 2) home
  else if s.notOwned p pa || s.oldPort pa then .fault 0x08 0 home
  else .ok pa home (destOf (bitOf w 61) pa)

/-- An access other than a store that goes to a home finds its half-line there, allocated and filled (R97, R104), and one that goes to
the edge station finds its burst, both checked (R391); a store's data comes when its chunk commits. -/
def State.filled (s : State) (a : Acc) (x : Xl) : State :=
  match x with
  | .ok pa home .home => if a = .store then s else s.halfRead home (pa / 128)
  | .ok pa _ .edge => if a = .store then s else s.dramCheck pa
  | _ => s

/-- Translation of an access of partition `p` at level U or S (R95 to R100), with the slice TLB filled by a walk that
found a leaf (R97, R101). `own` is the accessing core's tile, the home of a fault in an invalid window (DESIGN CHOICE,
log 12). -/
def State.xlate (s : State) (p own lvl : Nat) (a : Acc) (va : Nat) : Xl × State :=
  if bitsOf va 63 57 ≠ 0 then (.fault 0x08 0 own, s)
  else
    let wi := bitsOf va 56 52
    let w := (Table.get 0 (s.part p).win wi).toNat
    if !bitOf w 63 then (.fault 0x07 0 own, s)
    else if s.windowBad p w then (.fault 0x08 0 own, s)
    else
      let home := windowHome w va
      let tlb := Table.get [] (s.tile home).tlb p
      match tlbFind tlb va with
      | some l =>
        let x := s.leafCheck p lvl a w wi home va l.entry.toNat l.large
        (x, s.filled a x)
      | none =>
        let f := s.walk (bitsOf (s.part p).ptroot.toNat 51 16) va
        let s1 := f.2.foldl State.dramCheck s
        match f.1 with
        | .stop n i => (.fault 0x07 (walkInfo n i) home, s1)
        | .leaf e large =>
          let x := s.leafCheck p lvl a w wi home va e large
          (x, State.filled (s1.modTile home fun t =>
            { t with tlb := Table.set t.tlb p (Table.set tlb (tlbKey va large) ⟨BitVec.ofNat 64 e, large⟩) }) a x)

/-- The home that a firmware leaf names (R366): HOME, or with HSH = 1 the home its window of the tile's partition gives. -/
def State.fwHome (s : State) (t e va : Nat) : Nat :=
  if bitOf e 48 then windowHome (Table.get 0 (s.part ((s.tilePart t).getD 0)).win (bitsOf e 53 49)).toNat va
  else pteHome e

/-- A firmware leaf names no home (R366): with HSH = 1, a window that the tile's partition has not made hashed. -/
def State.fwHomeless (s : State) (t e : Nat) : Bool :=
  let w := (Table.get 0 (s.part ((s.tilePart t).getD 4096)).win (bitsOf e 53 49)).toNat
  bitOf e 48 && !(bitOf w 63 && bitOf w 62)

/-- Translation at level F by the MMU of tile `t` (R366): every leaf counts as PRIV = 1, and the home that the leaf names checks only
that it is that home. The not-ready error response of a home (R27) is fault 0x08, as of a window whose home is not in the partition (R96;
DESIGN CHOICE, log 115). -/
def State.xlateF (s : State) (t : Nat) (a : Acc) (va : Nat) : Xl × State :=
  let rows (e : Nat) (large : Bool) : Xl :=
    let pa := leafPa e large va
    if denied e 2 a then .fault 0x08 0 t
    else if destOf false pa = .home ∧ s.fwHomeless t e then .fault 0x09 0 t
    else if s.unpopulated (pteFrame e) pa then .fault 0x07 (walkInfo 3 2) t
    else if s.oldPort pa ∨ (destOf false pa = .home ∧ (s.tile (s.fwHome t e va)).ready = false) then .fault 0x08 0 t
    else .ok pa (s.fwHome t e va) (destOf false pa)
  if bitsOf va 63 57 ≠ 0 then (.fault 0x08 0 t, s)
  else
    match tlbFind (s.tile t).svc.mmu va with
    | some l => (rows l.entry.toNat l.large, s.filled a (rows l.entry.toNat l.large))
    | none =>
      let f := s.walk (bitsOf (s.tile t).svc.fwroot.toNat 51 16) va
      let s1 := f.2.foldl State.dramCheck s
      match f.1 with
      | .stop n i => (.fault 0x07 (walkInfo n i) t, s1)
      | .leaf e large =>
        (rows e large, State.filled (s1.modSvc t fun v =>
          { v with mmu := Table.set v.mmu (tlbKey va large) ⟨BitVec.ofNat 64 e, large⟩ }) a (rows e large))

/-- Sectors that come afresh into core `k`'s global data cache hold no parity error (R391). -/
def State.freshSectors (s : State) (k : Nat) (f : Nat → Bool) : State :=
  if (s.core k).par.isEmpty then s else s.modCore k fun c => { c with par := c.par.filter fun e => !f e.1 }

/-- A load of newt `k` leaves its line in the newt's global data cache, and the home's directory lists it; a sharer beyond the four
pointers traps to the home's service core, which is counted (R104, R398). -/
def State.shared (s : State) (k : Nat) (a : Acc) (x : Xl) : State :=
  match x with
  | .ok pa home .home =>
    if a = .read ∧ isSvc k = false then
      let l := s.phys.sharers (pa / 256)
      if l.contains k then s
      else
        let s1 := if 4 ≤ l.length then s.tileCount home 5 else s
        State.freshSectors { s1 with phys := s1.phys.share k (pa / 256) } k (fun x => x / 8 == pa / 256)
    else s
  | _ => s

/-- Translation of an access of core `k` at level `lvl`: by the MMU at level F, else at the home (R366). A core whose tile
has no owner has no windows. -/
def State.xlateOf (s : State) (k lvl : Nat) (a : Acc) (va : Nat) : Xl × State :=
  if lvl = 2 then s.xlateF (tileOf k) a va
  else
    match s.owner k with
    | some p =>
      let x := s.xlate p (tileOf k) lvl a va
      (x.1, x.2.shared k a x.1)
    | none => (.fault 0x07 0 (tileOf k), s)

/-- The home tile of a virtual address of partition `p`, the tile `own` where no window maps it (R97, R99, R338). -/
def State.vaHome (s : State) (p own va : Nat) : Nat :=
  let w := (Table.get 0 (s.part p).win (bitsOf va 56 52)).toNat
  if bitsOf va 63 57 ≠ 0 ∨ !bitOf w 63 ∨ s.windowBad p w then own else windowHome w va

/-- The bytes an access reads: at the home, at the edge station, from a debug module (R400), or from a host window or
another device, whose contents are not the module's to know (R168; free values, log 4). -/
def State.globalBytes (s : State) (d : Dest) (pa n : Nat) : List Byte :=
  match d with
  | .home | .loc => s.phys.bytes pa n
  | .edge => s.phys.dram.bytes pa n
  | .dev =>
    if isDebugPa pa then ((leBytes 8 (s.dbgRead (debugNewt pa) (pa % 256 / 8 * 8)).toNat).drop (pa % 8)).take n
    else (List.range n).map fun i => (Config.freeWord (s.freeCount + i)).setWidth 8
  | .host => (List.range n).map fun i => (Config.freeWord (s.freeCount + i)).setWidth 8

/-- Reading a host window or the device region draws free values; the count moves past them. -/
def State.drew (s : State) (d : Dest) (n : Nat) : State :=
  match d with
  | .host | .dev => { s with freeCount := s.freeCount + n }
  | _ => s

end Sys2Proof.Machine
end

