-- ==== Sys2Proof/Machine/Obls.lean ====
section
/-! DEFINITION. Obligation tables (R61 to R64): entries, spilling, FLOOR, and the laws of merging. -/

namespace Sys2Proof.Machine

/-- The HOLDER code of activation slot `i` (R61, R365): 0–7, and 16–23 for slots 8–15. -/
def holderOf (i : Nat) : Nat := if i < 8 then i else i + 8

/-- HOLDER codes of the matrix engine, the pump and messages in transit (R61). -/
def holderMx : Nat := 8
def holderCx : Nat := 10
def holderNet : Nat := 11

/-- The entry of holder `h` on an object. -/
def Obl.on (o : Obl) (h : Nat) (bar : Bool) (obj : Word) : Bool := o.holder == h && o.bar == bar && o.obj == obj

/-- The entry of holder `h` on an object, resident or spilled. -/
def Core.oblOf (c : Core) (h : Nat) (bar : Bool) (obj : Word) : Option Obl := (c.obl ++ c.spilt).find? (·.on h bar obj)

/-- The arrivals that holder `h` owes on a record: those with ARR clear (R61, R76). -/
def Core.owedArrivals (c : Core) (h : Nat) (va : Word) : List Obl := (c.obl ++ c.spilt).filter fun o => o.on h true va && !o.arr

/-- Every entry of holder `h`, resident and spilled. -/
def Core.oblsOf (c : Core) (h : Nat) : List Obl := (c.obl ++ c.spilt).filter fun o => o.holder == h

/-- The least rank of a list of entries that count toward FLOOR: those with ARR clear (R57, R61). -/
def floorOf : List Obl → Nat
  | [] => Config.noRank
  | o :: t => if o.arr then floorOf t else Nat.min o.rank.toNat (floorOf t)

/-- FLOOR of holder `h` (R57, R63). -/
def Core.floor (c : Core) (h : Nat) : Nat := floorOf (c.oblsOf h)

/-- The entry that spills first: the highest rank, then the higher holder, then the later made (R63). -/
def spillPick : List Obl → Option Obl
  | [] => none
  | o :: t =>
    match spillPick t with
    | none => some o
    | some m =>
      if m.rank.toNat < o.rank.toNat ∨ (m.rank = o.rank ∧ (m.holder < o.holder ∨ (m.holder = o.holder ∧ m.made < o.made))) then some o
      else some m

/-- The entry that returns first: the lowest rank (R63); of equal ranks the one that spilled first (DESIGN CHOICE, log 83). -/
def returnPick : List Obl → Option Obl
  | [] => none
  | o :: t =>
    match returnPick t with
    | none => some o
    | some m => if o.rank.toNat ≤ m.rank.toNat then some o else some m

/-- A spilled entry returns if the table has room (R63). -/
def Core.unspill (c : Core) : Core :=
  if c.obl.length < 64 then
    match returnPick c.spilt with
    | some o => { c with obl := c.obl ++ [o], spilt := c.spilt.erase o }
    | none => c
  else c

/-- The place of the next entry in the order of making. -/
def Core.nextMade (c : Core) : Nat := (c.obl ++ c.spilt).foldl (fun m o => Nat.max m (o.made + 1)) 0

/-- A new entry placed in the table, spilling one if it is full (R63). -/
def Core.newObl (c : Core) (x : Obl) : Core :=
  let o := { x with made := c.nextMade }
  if c.obl.length < 64 then { c with obl := c.obl ++ [o] }
  else
    match spillPick c.obl with
    | some m => { c with obl := c.obl.erase m ++ [o], spilt := c.spilt ++ [m] }
    | none => { c with obl := c.obl ++ [o] }

/-- Spilled entries return while the table has room, lowest rank first (R63); `fuel` bounds them. -/
def Core.unspillAll (c : Core) : Nat → Core
  | 0 => c
  | n + 1 => Core.unspillAll c.unspill n

/-- An entry of a list replaced by another: its first occurrence. -/
def replaceObl (o o' : Obl) : List Obl → List Obl
  | [] => []
  | x :: t => if x = o then o' :: t else x :: replaceObl o o' t

/-- An entry changed into another, wherever it lies. -/
def Core.putObl (c : Core) (o o' : Obl) : Core :=
  if c.obl.contains o then { c with obl := replaceObl o o' c.obl } else { c with spilt := replaceObl o o' c.spilt }

/-- An entry removed, wherever it lies; a spilled one returns in its room (R63). -/
def Core.delObl (c : Core) (o : Obl) : Core :=
  if c.obl.contains o then Core.unspill { c with obl := c.obl.erase o } else { c with spilt := c.spilt.erase o }

/-- The entry of holder `h` on an object changed by `f`, wherever it lies. -/
def Core.mapObl (c : Core) (h : Nat) (bar : Bool) (obj : Word) (f : Obl → Obl) : Core :=
  match c.oblOf h bar obj with
  | some o => c.putObl o (f o)
  | none => c

/-- The entry of holder `h` on an object removed. -/
def Core.dropObl (c : Core) (h : Nat) (bar : Bool) (obj : Word) : Core :=
  match c.oblOf h bar obj with
  | some o => c.delObl o
  | none => c

/-- Every entry of holder `h` removed; spilled entries return in their room (R63). -/
def Core.dropHolder (c : Core) (h : Nat) : Core :=
  Core.unspillAll { c with
    obl := c.obl.filter fun o => o.holder != h
    spilt := c.spilt.filter fun o => o.holder != h } c.spilt.length

/-- The object word of an event name. -/
def evObj (name : Nat) : Word := BitVec.ofNat 64 (name % 65536)

/-- An addition of `n` signals on event `name` would carry COUNT past 2^32 − 1 (R62). -/
def Core.oweOverflows (c : Core) (h : Nat) (name n : Nat) : Bool :=
  match c.oblOf h false (evObj name) with
  | some o => decide (o.count.toNat + n ≥ 2 ^ 32)
  | none => decide (n ≥ 2 ^ 32)

/-- `n` signals owed by holder `h` on event `name` of rank `rank` (R62, R67). -/
def Core.owe (c : Core) (h name n rank : Nat) : Core :=
  if n = 0 then c
  else match c.oblOf h false (evObj name) with
    | some _ => c.mapObl h false (evObj name) fun o => { o with count := o.count + BitVec.ofNat 32 n }
    | none => c.newObl ⟨false, false, BitVec.ofNat 20 rank, h, BitVec.ofNat 32 n, evObj name, 0⟩

/-- Discharge of `min n COUNT` signals of holder `h` on event `name` (R69, R126). -/
def Core.discharge (c : Core) (h name n : Nat) : Core :=
  match c.oblOf h false (evObj name) with
  | none => c
  | some o =>
    if o.count.toNat ≤ n then c.dropObl h false (evObj name)
    else c.mapObl h false (evObj name) fun o => { o with count := o.count - BitVec.ofNat 32 n }

/-- A unit carried by a message, held by `h` (R62, R68). COUNT of an arrival is a generation, so a second arrival on one record cannot
add to it: what is in transit to one core, or comes with a stream, is then a second entry (DEDUCED, log 84). -/
def Core.takeUnit (c : Core) (h : Nat) (u : OUnit) : Core :=
  if u.bar then c.newObl ⟨true, false, u.rank, h, u.gen, u.obj, 0⟩
  else c.owe h (u.obj.toNat % 65536) 1 u.rank.toNat

/-- A unit leaves holder `h`: a signal by COUNT, an arrival with the entry of its generation. -/
def Core.dropUnit (c : Core) (h : Nat) (u : OUnit) : Core :=
  if u.bar then
    match (c.obl ++ c.spilt).find? fun o => o.on h true u.obj && !o.arr && o.count == u.gen with
    | some o => c.delObl o
    | none => c
  else c.discharge h (u.obj.toNat % 65536) 1

/-- Units that together would carry a COUNT of holder `h` past 2^32 − 1: their event (R62). -/
def Core.unitOverflow (c : Core) (h : Nat) (us : List OUnit) : Option Nat :=
  (us.find? fun u => !u.bar && c.oweOverflows h (u.obj.toNat % 65536)
    (us.filter fun v => !v.bar && v.obj.toNat % 65536 == u.obj.toNat % 65536).length).map fun u => u.obj.toNat % 65536

/-- A field placed at a bit position. -/
def fld (x lo : Nat) : Nat := x * 2 ^ lo

/-- A flag as a number. -/
def bnat (b : Bool) : Nat := if b then 1 else 0

/-- The two words of an obligation table entry (R61). -/
def Obl.words (o : Obl) : List Word :=
  [o.obj, BitVec.ofNat 64 (fld (if o.bar then 2 else 1) 62 + fld (bnat o.arr) 61 + fld o.rank.toNat 40
    + fld (o.holder % 256) 32 + o.count.toNat)]

/-- Its 16 bytes. -/
def Obl.image (o : Obl) : List Byte := o.words.flatMap fun w => leBytes 8 w.toNat

/-- What the owes of a squashed chunk or a replayed activation added is taken back (R64). -/
def Core.unowe (c : Core) (h : Nat) : List (Word × Nat) → Core
  | [] => c
  | (obj, n) :: t => Core.unowe (c.discharge h (obj.toNat % 65536) n) h t

end Sys2Proof.Machine
end

