-- ==== Sys2Proof/Machine/Chunks.lean ====
section
/-! DEFINITION. Chunks (R281 to R288, R405): signatures, ending a chunk, acquiring and performing it, squashes, and what
every write at a home does to monitors and open chunks (R183, R284). -/

namespace Sys2Proof.Machine

/-- The fold of eight bit groups of a line number (R282). -/
def sigFold (l : Nat) : Nat :=
  (List.range 7).foldl (fun x i => Nat.xor x (bitsOf l (8 * i + 7) (8 * i))) 0

/-- A line's signature: bits h0 and 256 + h1 (R282), for L := VA[63:8]. -/
def lineSig (l : Nat) : BitVec 512 :=
  BitVec.ofNat 512 (Nat.lor (2 ^ sigFold l) (2 ^ (256 + sigFold (l / 16))))

/-- The signature of several lines. -/
def sigOf : List Nat → BitVec 512
  | [] => 0
  | l :: t => lineSig l ||| sigOf t

/-- Two signatures meet (R282). -/
def sigMeets (a b : BitVec 512) : Bool :=
  let x := a &&& b
  x.setWidth 256 != 0 && (x >>> 256) != 0

/-- The lines of a list of line and home. -/
def linesOf (l : List (Nat × Nat)) : List Nat := l.map (·.1)

/-- A line of an address (R167, R282). -/
def lineOf (va : Nat) : Nat := va / 256

/-- A number inserted in a list kept ascending without repeats. -/
def insertNat (x : Nat) : List Nat → List Nat
  | [] => [x]
  | y :: t => if x < y then x :: y :: t else if x = y then y :: t else y :: insertNat x t

/-- The homes a chunk touched, in ascending tile index (R283). -/
def Chunk.homes (c : Chunk) : List Nat := (c.rd ++ c.wr).foldl (fun t x => insertNat x.2 t) []

/-- The chunk touched a line: it counts once in each signature (R167). -/
def addLine (l : List (Nat × Nat)) (line home : Nat) : List (Nat × Nat) :=
  if l.any fun x => x.1 == line then l else l ++ [(line, home)]

/-- Homes that core `k` holds: those granted to its ended chunks, and those of an isolated attempt (R283, R284). -/
def Core.heldHomes (c : Core) : List Nat := c.ord.ended.flatMap (·.held) ++ c.ord.chunk.iso

/-- Home `h` is held by a core other than `k`. -/
def State.heldByOther (s : State) (k h : Nat) : Bool :=
  s.cores.any fun x => x.1 != k && x.2.heldHomes.contains h

/-- A read by core `k` of a line at a home is delayed: a chunk that holds the home has a write signature that meets the
line (R283). -/
def State.readDelayed (s : State) (k home line : Nat) : Bool :=
  s.cores.any fun x => x.1 != k && x.2.ord.ended.any fun e =>
    e.held.contains home && sigMeets (lineSig line) (sigOf (linesOf e.c.wr))

/-- A write by another agent at a home is delayed while the home is held and either signature meets the line (R283,
R287); a home held for an isolated attempt delays it whatever the line (R284). -/
def State.writeDelayed (s : State) (k home line : Nat) : Bool :=
  s.cores.any fun x => x.1 != k && (x.2.ord.chunk.iso.contains home || x.2.ord.ended.any fun e =>
    e.held.contains home && sigMeets (lineSig line) (sigOf (linesOf (e.c.wr ++ e.c.rd))))

/-- The key under which an agent outside the chunk order writes at the homes (R287): no core has it, so every core's open chunks
are checked. -/
def agentKey : Nat := 0x400000

/-- The slot state a squash restores: PC, the PC that passed control to it, BARSEL (R284, R285). -/
def Act.restored (a : Act) (c : Chunk) : Act :=
  { a with pc := c.pc, src := c.src, sync := { a.sync with barsel := c.barsel } }

/-- The buffers of core `c` without what chunks numbered `lo` and above hold (R284). -/
def Core.dropChunks (c : Core) (lo : Nat) : Core :=
  { c with ord := { c.ord with
      sb := c.ord.sb.filter fun e => decide (e.chunk < lo)
      ob := c.ord.ob.filter fun e => decide (e.chunk < lo) } }

/-- The words that a squashed chunk's q read dequeued are queued again, in front (R285: a squashed chunk leaves no such
effect; DEDUCED, log 13), each at its place. -/
def Core.requeue (c : Core) (slot : Nat) : List (Nat × List Word × List Nat) → Core
  | [] => c
  | (ch, ws, ps) :: t =>
    Core.requeue (if ch = (c.slot slot).chan then
        c.modSlot slot fun a => { a with msg := { a.msg with
          words := ws ++ a.msg.words
          place := a.msg.place.take 2 ++ ps ++ a.msg.place.drop 2 } }
      else c.modInb ch fun i => { i with part := ws ++ i.part, pend := i.pend.take 2 ++ ps ++ i.pend.drop 2 }) slot t

/-- The MASK bits that a squashed chunk's `chmask`s replaced, latest first, are put back (R285). -/
def Core.remask (c : Core) : List (Nat × Bool) → Core
  | [] => c
  | (ch, b) :: t => Core.remask (c.setChan ch { Table.get {} c.chans ch with mask := b }) t

/-- A squash of core `c` from chunk `q` on: its entries and those of every later chunk are dropped, the checkpoint of `q` is
restored, what the owes added is taken back, and the activation re-executes from the first instruction of `q` (R284,
R405, R64). After 8 squashes in succession the next attempt is isolated on the homes of the last one (R284). -/
def Core.squashFrom (c : Core) (q : Chunk) (later : List Chunk) : Core :=
  let h := holderOf q.slot
  let c1 := (c.dropChunks q.id).unowe h (q.owes ++ later.flatMap (·.owes))
  let c2 := ((c1.requeue q.slot q.pops).remask (later.reverse.flatMap (·.masks) ++ q.masks)).modSlot q.slot fun a => (a.restored q)
  let n := q.squashes + 1
  { c2 with
    regs := q.regs
    vec := { c2.vec with v := q.v }
    ord := { c2.ord with
      ended := c2.ord.ended.filter fun e => decide (e.c.id < q.id)
      chunk := { q with
        retired := 0
        rd := []
        wr := []
        owes := []
        pops := []
        masks := []
        squashes := n
        fp := 0xFFFFFFFFFFFFFFFF
        want := if 8 ≤ n then q.homes.foldl (fun t x => insertNat x t) (q.want.foldl (fun t x => insertNat x t) q.iso) else []
        iso := [] } } }

/-- The current chunk squashed, with the ended chunks kept. -/
def Core.squashCurrent (c : Core) : Core := c.squashFrom c.ord.chunk []

/-- The follower's own part of its leader's chunk number `id`. -/
def Core.shadow (d : Core) (id : Nat) : Option Shadow := d.twin.chunks.find? (·.id == id)

/-- The fingerprint of the follower `d` for its leader's chunk number `id`: all ones before the first record (R395). -/
def Core.printOf (d : Core) (id : Nat) : Word := ((d.shadow id).map (·.fp)).getD 0xFFFFFFFFFFFFFFFF

/-- The two fingerprints of chunk `q` of core `k`, the leader's first, where `k` leads a pair and they differ (R395). -/
def State.missOf (s : State) (k : Nat) (q : Chunk) : Option (Word × Word) :=
  match (s.core k).ctl.pair with
  | some f =>
    if (s.core k).ctl.leader && q.fp != (s.core f).printOf q.id then some (q.fp, (s.core f).printOf q.id) else none
  | none => none

/-- The pair's fingerprints differ. -/
def State.missed (s : State) (k : Nat) (q : Chunk) : Bool := (s.missOf k q).isSome

/-- The chunks of core `c` that have not taken their place in the commit order, in program order (R283): an ended chunk takes its place
with its last grant, unless its pair's fingerprints differ, which `missed` says (R307). -/
def Core.unplaced (c : Core) (missed : Chunk → Bool) : List Chunk :=
  (c.ord.ended.dropWhile fun e => e.todo.isEmpty && !missed e.c).map (·.c)
    ++ (if c.ctl.run.isSome then [c.ord.chunk] else [])

/-- Core `c` receives a write signature: the earliest chunk that has not taken its place and whose own signatures it meets is squashed
(R284, R307). -/
def Core.signature (c : Core) (missed : Chunk → Bool) (g : BitVec 512) : Core :=
  match (c.unplaced missed).dropWhile fun q => !(sigMeets g (sigOf (linesOf q.rd)) || sigMeets g (sigOf (linesOf q.wr))) with
  | [] => c
  | q :: t => c.squashFrom q t

/-- Core `c` is an open reader of line `l` (R284): a chunk of it that is not complete has read it. -/
def Core.reads (c : Core) (l : Nat) : Bool :=
  (c.ord.ended.any fun e => (linesOf e.c.rd).contains l) || (linesOf c.ord.chunk.rd).contains l

/-- Armed monitors on the line that holds physical address `pa` have their written flag set (R183). -/
def Act.wrote (pa : Nat) (a : Act) : Act :=
  if a.sync.mon.armed && a.sync.mon.pa / 256 == pa / 256 then
    { a with sync := { a.sync with mon := { a.sync.mon with written := true } },
             st := if a.st = .suspended ∧ a.sync.wait = [.mon] then .ready else a.st }
  else a

/-- A table's entries changed by `f`. -/
def mapVals {α : Type} (f : α → α) (t : Table α) : Table α := t.map fun e => (e.1, f e.2)

/-- Monitors of core `c` after a write at `pa`, those of an activation that a notice has moved out of its slot too (R183, R347). -/
def Core.wrote (pa : Nat) (c : Core) : Core :=
  { c with
    slots := mapVals (Act.wrote pa) c.slots
    moved := c.moved.map fun x => (x.1, Act.wrote pa x.2) }

/-- What every write at a home does beside changing the bytes: it sets the written flag of the monitors on the line, and its write
signature `g` goes to every sharer and open reader of the line among the other cores (R183, R284). The line is named by its partition,
so a core of another partition is not an open reader of it. -/
def State.wrote (s : State) (k : Nat) (part : Option Nat) (g : BitVec 512) (va pa : Nat) : State :=
  { s with cores := s.cores.map fun x =>
      (x.1, Core.wrote pa (if x.1 != k && s.holding x.1 == part &&
          (x.2.reads (lineOf va) || (s.phys.sharers (pa / 256)).contains x.1) then x.2.signature (s.missed x.1) g else x.2)) }

/-- The level of core `k` at channel `ch` (R158, R365): newts run at U; a service core's channels 0–31 at S, 32–63 at F. -/
def levelOf (k ch : Nat) : Nat := if isSvc k then (if ch < 32 then 1 else 2) else 0

/-- The lines among those of chunk lines `l` of core `k` that its accesses find at physical addresses `f` (R102). -/
def State.linesAt (s : State) (k : Nat) (f : Nat → Bool) (l : List (Nat × Nat)) : List Nat :=
  let lvl := levelOf k ((s.core k).slot (s.core k).ord.chunk.slot).chan
  let meets (a : Acc) (x : Nat) : Bool := match (s.xlateOf k lvl a (x * 256)).1 with
    | .ok pa _ _ => f pa
    | .fault .. => false
  (l.filter fun x => meets .bare x.1 || meets .store x.1).map (·.1)

/-- A write by an agent at physical addresses `f` waits: a chunk that holds homes has a line there (R283, R287), or a home of a
half-line there is held for an isolated attempt (R284). -/
def State.physDelayed (s : State) (k : Nat) (f : Nat → Bool) : Bool :=
  s.cores.any fun x => x.1 != k &&
    ((x.2.ord.ended.any fun e => !e.held.isEmpty && !(s.linesAt x.1 f (e.c.wr ++ e.c.rd)).isEmpty)
      || (!x.2.ord.chunk.iso.isEmpty && s.phys.cis.any fun h => f (h.1 * 128) && x.2.ord.chunk.iso.contains h.2.home))

/-- What a write by an agent at physical addresses `f` does beside changing bytes (R183, R287): the monitors there are set, and open
chunks of other cores with a line there are squashed. -/
def State.wroteAt (s : State) (k : Nat) (f : Nat → Bool) : State :=
  let set (a : Act) : Act := if f a.sync.mon.pa then Act.wrote a.sync.mon.pa a else a
  { s with cores := s.cores.map fun x =>
      let ls := x.2.ord.ended.flatMap (fun e => e.c.rd ++ e.c.wr) ++ x.2.ord.chunk.rd ++ x.2.ord.chunk.wr
      let c := if x.1 = k then x.2 else x.2.signature (s.missed x.1) (sigOf (s.linesAt x.1 f ls))
      (x.1, { c with slots := mapVals set c.slots, moved := c.moved.map fun m => (m.1, set m.2) }) }

/-- Bytes written at a home or edge station by a commit of signature `g`, with what every write does there (R284, R287): the other
newts' cached copies go (R104). What the write is merged into is checked first (R391). -/
def State.putSigned (s : State) (k : Nat) (part : Option Nat) (g : BitVec 512) (d : Dest) (va pa home : Nat) (bs : List Byte) : State :=
  match d with
  | .home =>
    let s0 := s.halvesCheck pa bs.length
    let s1 := State.wrote { s0 with phys := s0.phys.writeHome home pa bs } k part g va pa
    State.freshSectors { s1 with phys := s1.phys.unshare k (pa / 256) } k ((wholeSectors pa bs.length).contains ·)
  | .edge =>
    let s0 := s.burstsCheck pa bs.length
    State.wrote { s0 with phys := s0.phys.writeEdge pa bs } k part g va pa
  | _ => s

/-- Bytes written at a home or edge station as a one-line commit (R287). -/
def State.putGlobal (s : State) (k : Nat) (part : Option Nat) (d : Dest) (va pa home : Nat) (bs : List Byte) : State :=
  s.putSigned k part (lineSig (lineOf va)) d va pa home bs

/-- A chunk that has run no instruction yet takes its checkpoint: the register cache, v0–v15, BARSEL and the PC of slot
`i` (R131, R209). -/
def Core.checkpoint (c : Core) (i : Nat) : Core :=
  let a := c.slot i
  if c.ord.chunk.retired = 0 then
    { c with ord := { c.ord with chunk := { c.ord.chunk with
        slot := i
        pc := a.pc
        src := a.src
        regs := c.regs
        v := c.vec.v
        barsel := a.sync.barsel } } }
  else c

/-- The chunk after chunk `q`: nothing run, nothing touched. -/
def Chunk.next (q : Chunk) (id : Nat) : Chunk :=
  { q with
    id := id
    retired := 0
    rd := []
    wr := []
    owes := []
    pops := []
    masks := []
    want := []
    iso := []
    squashes := 0
    retry := false
    fp := 0xFFFFFFFFFFFFFFFF }

/-- The current chunk ends: it waits to acquire its homes, in ascending order; homes held for an isolated attempt stay
held (R283, R284). -/
def Core.endChunk (c : Core) (pc : Word) : Core :=
  let q := c.ord.chunk
  { c with
    ord := { c.ord with
      ended := c.ord.ended ++ [⟨q, q.homes.filter (!q.iso.contains ·), q.iso, pc⟩]
      chunk := q.next c.ctl.nchunk }
    ctl := { c.ctl with nchunk := c.ctl.nchunk + 1 } }

/-- The chunk of core `c` that asks for its next home, and the home (R283, R284). -/
def Core.asking (c : Core) : Option (Nat × Nat) :=
  match c.ord.ended with
  | e :: _ => e.todo.head?.map fun h => (e.c.id, h)
  | [] => c.ord.chunk.want.head?.map fun h => (c.ord.chunk.id, h)

/-- What core `c` has last sent to the home it asks for. -/
def Core.signing (c : Core) : Option Signing :=
  c.asking.map fun x => (c.ord.sign.filter fun y => y.chunk == x.1 && y.home == x.2).getD { chunk := x.1, home := x.2 }

/-- The translation request with which the running activation of core `c` goes on at its next instruction (R97, R392). -/
def Core.request (c : Core) : Option Asked :=
  c.ctl.run.map fun i =>
    (c.asked.filter fun y => y.act == (c.slot i).uid && y.pc == (c.slot i).pc).getD { act := (c.slot i).uid, pc := (c.slot i).pc }

/-- The next home in order does not grant core `k`'s chunk yet: another core holds it, or the signature has been lost (R283, R392). -/
def State.ungranted (s : State) (k h : Nat) : Bool := s.heldByOther k h || (s.core k).signing.any (·.lost)

/-- The next home in order is asked for by the first ended chunk of core `k`, or, when none is left, by an isolated attempt
before it executes: it is granted unless another core holds it (R283, R284). -/
def State.acquire (s : State) (k : Nat) : State :=
  let c := s.core k
  match c.ord.ended with
  | ⟨q, h :: hs, held, pc⟩ :: t =>
    if s.ungranted k h then s
    else s.setCore k { c with ord := { c.ord with ended := ⟨q, hs, held ++ [h], pc⟩ :: t } }
  | [] =>
    match c.ord.chunk.want with
    | h :: hs =>
      if s.ungranted k h then s
      else s.setCore k { c with ord := { c.ord with chunk := { c.ord.chunk with
        want := hs, iso := c.ord.chunk.iso ++ [h] } } }
    | [] => s
  | _ => s

/-- Whether a local store of core `k` lands in a granule with P = 1 (R164). -/
def Local.persist (l : Local) (off : Nat) : Bool := (l.tag (off / 512)).p

/-- The member of a lizard that a wide local offset names (R271). -/
def memberOf (k off : Nat) : Nat := k + off / 0x20000

/-- RETN as core `k` sees it: its partition's value (R81, R82); 1,024 on a tile without an owner. -/
def State.retn (s : State) (k : Nat) : Nat :=
  match s.holding k with
  | some p => (s.part p).retn.toNat
  | none => 1024

/-- A core store drained to the cells (R86, R164): on a service core the SRAM has no tags (R365). A word that the store covers in part
is read and merged, and a single-bit error there is corrected and counted (R91). -/
def State.drain (s : State) (k off : Nat) (bs : List Byte) : State :=
  if isSvc k then
    let n := (s.core k).ls.mends off bs.length
    (if inFirmware off && n != 0 then s.hostCount 5 n else s).modCore k fun c =>
      { (if inFirmware off then c else c.countEcc n) with ls := c.ls.putCells off bs false }
  else
    s.modCore (memberOf k off) fun c =>
      { c.countEcc (c.ls.mends (off % 0x20000) bs.length) with
        ls := c.ls.land s.fade (s.retn (memberOf k off)) false (off % 0x20000) bs false }

/-- The activation in slot `i` of core `k` has its side-effect flag set (R51). -/
def State.setSide (s : State) (k i : Nat) : State :=
  s.modCore k fun c => c.modSlot i fun a => { a with life := { a.life with side := true } }

/-- One store of a chunk of write signature `g` performed (R283, R284, R288). -/
def State.performStore (s : State) (k i : Nat) (g : BitVec 512) (e : Store) : State :=
  match e.dest with
  | .loc =>
    let p := !isSvc k && ((s.core (memberOf k e.va.toNat)).ls.persist (e.va.toNat % 0x20000))
    let s1 := s.drain k e.va.toNat e.data
    if p then s1.setSide k i else s1
  | d => (s.putSigned k (s.holding k) g d e.va.toNat e.pa e.home e.data).setSide k i

/-- The stores performed in order. -/
def State.performStores (s : State) (k i : Nat) (g : BitVec 512) : List Store → State
  | [] => s
  | e :: t => State.performStores (s.performStore k i g e) k i g t

/-- A store whose translation a `tlbinv` has removed, translated afresh when it is performed, with the state afterwards; none where it
does not translate any more, which the commit finds first (R101, R108; DEDUCED, log 80). -/
def State.freshStore (s : State) (k lvl : Nat) (e : Store) : Option Store × State :=
  if e.stale then
    match s.xlateOf k lvl .store e.va.toNat with
    | (.ok pa home d, s1) => (some { e with pa := pa, home := home, dest := d, stale := false }, s1)
    | (.fault .., s1) => (none, s1)
  else (some e, s)

/-- Stores translated afresh where that is needed; those that do not translate are left out. -/
def State.freshStores (s : State) (k lvl : Nat) : List Store → List Store × State
  | [] => ([], s)
  | e :: t =>
    let x := s.freshStore k lvl e
    let y := x.2.freshStores k lvl t
    (x.1.toList ++ y.1, y.2)

/-- A store of phase 2 that is refused (R155, R307): `frgrant` has given its frame away, which a home does not ask of level F (R366). -/
def State.refusedStore (s : State) (k lvl : Nat) (e : Store) : Bool :=
  match e.dest, s.holding k with
  | .loc, _ => false
  | _, some p =>
    match (s.freshStore k lvl e).1 with
    | some x => decide (lvl < 2) && s.notOwned p x.pa
    | none => true
  | _, none => false

/-- The level of the chunk's activation. -/
def State.chunkLevel (s : State) (k : Nat) (q : Chunk) : Nat := levelOf k ((s.core k).slot q.slot).chan

/-- Some store of the chunk is refused. -/
def State.refusesOf (s : State) (k : Nat) (q : Chunk) : Bool :=
  ((s.core k).ord.sb.filter fun x => x.chunk == q.id).any (s.refusedStore k (s.chunkLevel k q))

/-- The homes of a commit are released (R283, R284): a chunk of another core that waits for one of them checks the commit's write
signature against its own. -/
def State.releaseHomes (s : State) (k : Nat) (held : List Nat) (g : BitVec 512) : State :=
  { s with cores := s.cores.map fun x =>
      let waits : Bool := match x.2.ord.ended with
        | e :: _ => e.todo.head?.any held.contains
        | [] => x.2.ord.chunk.want.head?.any held.contains
      (x.1, if x.1 != k && waits then x.2.signature (s.missed x.1) g else x.2) }

/-- The first ended chunk of core `k`, all of whose homes are granted, takes its place and is performed: its cached stores,
then its local stores in program order, then its uncached stores (R283, R288); then its homes are released. Device-region
stores are handed to `dev`; they set the side-effect flag as every committed global store does (R51). -/
def State.perform (dev : State → Store → State) (s : State) (k : Nat) : State :=
  let c := s.core k
  match c.ord.ended with
  | ⟨q, [], held, _⟩ :: t =>
    let lvl := s.chunkLevel k q
    let g := sigOf (linesOf q.wr)
    let x := s.freshStores k lvl ((c.ord.sb.filter fun e => e.chunk == q.id).filter fun e => !s.refusedStore k lvl e)
    let mine := x.1
    let s0 := x.2.modCore k fun c => { c with ord := { c.ord with ended := t, sb := c.ord.sb.filter fun e => e.chunk != q.id } }
    let s1 := s0.performStores k q.slot g (mine.filter fun e => e.dest == .home)
    let s2 := s1.performStores k q.slot g (mine.filter fun e => e.dest == .loc)
    let s3 := s2.performStores k q.slot g (mine.filter fun e => e.dest == .edge || e.dest == .host)
    let ds := mine.filter fun e => e.dest == .dev
    let s4 := ds.foldl dev s3
    (if ds.isEmpty then s4 else s4.setSide k q.slot).releaseHomes k held g
  | _ => s

end Sys2Proof.Machine
end

