-- ==== Sys2Proof/Machine/Events.lean ====
section
/-! DEFINITION. Events and barrier records (R73 to R77, R255, R265, R337): their homes, the operations performed there, and
the waiters they make Ready. -/

namespace Sys2Proof.Machine

/-- The key of an event of a partition: names are private to it (R73). -/
def evKey (p name : Nat) : Nat := p * 65536 + name % 65536

/-- The event of partition `p`, if it exists. -/
def State.event (s : State) (p name : Nat) : Option Event := find s.events (evKey p name)

/-- hash(name) (R73). -/
def evHash (name : Nat) : Nat := (name * 0x9E37) % 0x10000

/-- The home tile of an event (R73). -/
def State.evHome (s : State) (p name : Nat) : Nat := s.partFirst p + evHash name % s.partTiles p

/-- The predicate of a `waitge` (R74): ((COUNTER − v) mod 2^32) < 2^31. -/
def reached (counter v : BitVec 32) : Bool := decide ((counter - v).toNat < 2 ^ 31)

/-- An activation whose wait is satisfied becomes Ready, with what the wait found (R53, R74). -/
def Act.wake (a : Act) (poison : Bool) : Act :=
  if a.st = .suspended then { a with st := .ready, sync := { a.sync with woken := some poison } } else a

/-- A waiter is made Ready: an activation, or a command-processor queue (R372). -/
def State.wakeWho (s : State) (p : Nat) (poison : Bool) : Who → State
  | .act k i => s.modCore k fun c => c.modSlot i (·.wake poison)
  | .queue q => s.modPart p fun x =>
      let u := Table.get {} x.queues q
      { x with queues := Table.set x.queues q { u with phase := 2, poisoned := poison } }

/-- The satisfied waiters of a record made Ready (R74). -/
def State.wakeList (s : State) (p : Nat) (poison : Bool) : List Who → State
  | [] => s
  | w :: t => State.wakeList (s.wakeWho p poison w) p poison t

/-- An addition to an event's counter at its home, poisoned or plain, with the waiters it satisfies (R69, R70, R74). A name
without a record is unchanged. -/
def State.signal (s : State) (p name n : Nat) (poison : Bool) : State :=
  match s.event p name with
  | none => s
  | some e =>
    let c := e.counter + BitVec.ofNat 32 n
    let po := e.poison || poison
    let sat := (e.waiters.filter fun w => reached c w.2).map (·.1)
    let e' : Event := { e with counter := c, poison := po, waiters := e.waiters.filter fun w => !reached c w.2 }
    State.wakeList { s with events := Table.set s.events (evKey p name) e' } p po sat

/-- The waiter is a newt's activation, which a slot of the record can hold (R73). -/
def Who.ofNewt : Who → Bool
  | .act k _ => !isSvc k
  | .queue _ => false

/-- A further waiter of the record goes to the overflow list of the home's service core: one that is no newt's, or a newt's where four
slots are taken (R73). -/
def Event.overflows (e : Event) (w : Who) : Bool := !w.ofNewt || decide (4 ≤ (e.waiters.filter (·.1.ofNewt)).length)

/-- A waiter, named: a core with its slot, or a queue. -/
def Who.word : Who → Word
  | .act k i => BitVec.ofNat 64 (fld 1 63 + fld i 32 + k % 2 ^ 32)
  | .queue q => BitVec.ofNat 64 q

/-- The waiters that the `n` free slots of an event record do not hold, in their order: those are on the overflow list (R73). -/
def overflowList : Nat → List (Who × BitVec 32) → List (Who × BitVec 32)
  | _, [] => []
  | n, w :: t => if w.1.ofNewt && n != 0 then overflowList (n - 1) t else w :: overflowList n t

/-- A waiter registered at the event's home (R74); one that the record's slots cannot hold is counted there (R398). -/
def State.registerEv (s : State) (p name : Nat) (w : Who) (v : BitVec 32) : State :=
  match s.event p name with
  | none => s
  | some e =>
    let s1 : State := { s with events := Table.set s.events (evKey p name) { e with waiters := e.waiters ++ [(w, v)] } }
    if e.overflows w then s1.tileCount (s.evHome p name) 6 else s1

/-! ## Barrier records -/

/-- A barrier record (R75). -/
structure Bar where
  poison : Bool
  valid : Bool
  rsv : BitVec 10
  rank : BitVec 20
  beats : BitVec 32
  arrived : BitVec 16
  expected : BitVec 16
  gen : BitVec 32
deriving DecidableEq, Repr

/-- The record a 128-bit number holds (R75). -/
def Bar.ofNat (x : Nat) : Bar :=
  { poison := bitOf x 127, valid := bitOf x 126, rsv := BitVec.ofNat 10 (bitsOf x 125 116),
    rank := BitVec.ofNat 20 (bitsOf x 115 96), beats := BitVec.ofNat 32 (bitsOf x 95 64),
    arrived := BitVec.ofNat 16 (bitsOf x 63 48), expected := BitVec.ofNat 16 (bitsOf x 47 32),
    gen := BitVec.ofNat 32 (bitsOf x 31 0) }

/-- The 128-bit number of a record (R75). -/
def Bar.toNat (b : Bar) : Nat :=
  b.gen.toNat + 2 ^ 32 * (b.expected.toNat + 2 ^ 16 * (b.arrived.toNat + 2 ^ 16 * (b.beats.toNat
    + 2 ^ 32 * (b.rank.toNat + 2 ^ 20 * (b.rsv.toNat + 2 ^ 10 * ((if b.valid then 1 else 0)
    + 2 * (if b.poison then 1 else 0)))))))

/-- The record at a translated address. -/
def State.barAt (s : State) (d : Dest) (pa : Nat) : Bar := Bar.ofNat (leNat (s.globalBytes d pa 16))

/-- Generation completes when ARRIVED = EXPECTED ≥ 1 and BEATS = 0 (R76). -/
def Bar.complete (b : Bar) : Bool := b.arrived == b.expected && b.expected != 0 && b.beats == 0

/-- The record after an operation: the generation completed in the same operation when it is complete (R76). -/
def Bar.finish (b : Bar) : Bar := if b.complete then { b with gen := b.gen + 1, arrived := 0 } else b

/-- The predicate of a `barw`: generation `c` has completed (R76). -/
def barDone (gen c : BitVec 32) : Bool := decide ((gen - c - 1).toNat < 2 ^ 31)

/-- The waiters of a record whose generation has completed are made Ready; pending departures of killed members are made
(R76, R337). -/
def State.barWake (s : State) (p pa : Nat) (b : Bar) : State :=
  let mine (w : BarWait) : Bool := w.part == p && w.pa == pa && barDone b.gen w.count
  let sat := (s.bars.filter fun w => mine w).filterMap (·.who)
  State.wakeList { s with bars := s.bars.filter fun w => !mine w } p b.poison (sat.map fun x => .act x.1 x.2)

/-- Departures due on a record: killed members whose generation has completed (R337). -/
def State.departures (s : State) (p pa : Nat) (gen : BitVec 32) : Nat :=
  (s.bars.filter fun w => w.part == p && w.pa == pa && w.who.isNone && barDone gen w.count).length

/-- A record written at its home after an operation, its waiters made Ready, and its due departures made (R76, R337). -/
def State.barPut (s : State) (k p : Nat) (va : Word) (d : Dest) (pa home : Nat) (b : Bar) : State :=
  let b1 := b.finish
  let b2 := { b1 with expected := b1.expected - BitVec.ofNat 16 (s.departures p pa b1.gen) }
  (s.putGlobal k (some p) d va.toNat pa home (leBytes 16 b2.toNat)).barWake p pa b2

/-- The operations at a record's home that change it (R76): what they do to the record. -/
def Bar.join (b : Bar) : Bar := { b with expected := b.expected + 1 }
def Bar.arrive (b : Bar) (k : BitVec 32) : Bar := { b with arrived := b.arrived + 1, beats := b.beats + k }
def Bar.leaveOwed (b : Bar) : Bar := { b with expected := b.expected - 1 }
def Bar.leaveArrived (b : Bar) (gen : BitVec 32) : Bar :=
  if barDone b.gen gen then { b with expected := b.expected - 1 }
  else { b with arrived := b.arrived - 1, expected := b.expected - 1 }
def Bar.decr (b : Bar) (n : Nat) : Bar := { b with beats := b.beats - BitVec.ofNat 32 n }

/-- Counted beats at a record's home, one decrement at a time: each is an operation of its own (R76, R255). -/
def State.decrEach (s : State) (k p : Nat) (va : Word) (d : Dest) (pa home : Nat) : Nat → State
  | 0 => s
  | n + 1 => State.decrEach (s.barPut k p va d pa home ((s.barAt d pa).decr 1)) k p va d pa home n

/-- Counted beats reach a record's home: dropped when the address does not translate or VALID = 0 (R75, R255); none while the home
delays them (R283). -/
def State.decrBeats (s : State) (p : Nat) (va : Word) (n : Nat) : Option State :=
  match s.xlate p (s.partFirst p) 2 .atomic va.toNat with
  | (.ok pa home d, s1) =>
    if s1.writeDelayed agentKey home (lineOf va.toNat) then none
    else some (if (s1.barAt d pa).valid then s1.decrEach agentKey p va d pa home n else s1)
  | (.fault .., s1) => some s1

/-! ## Obligations discharged poisoned -/

/-- An arrival obligation of partition `p` discharged poisoned at its home (R70, R337): the arrival still owed is made, and the membership
ends with the generation it counts toward. None while the home delays it (R283). -/
def State.arrivalKilled (s : State) (p : Nat) (o : Obl) : Option State :=
  match s.xlate p (s.partFirst p) 2 .atomic o.obj.toNat with
  | (.fault .., s1) => some s1
  | (.ok pa home d, s1) =>
    let b := s1.barAt d pa
    if s1.writeDelayed agentKey home (lineOf o.obj.toNat) then none
    else if !b.valid then some s1
    else
      let s2 := if o.arr then s1 else s1.barPut agentKey p o.obj d pa home { b.arrive 0 with poison := true }
      let b2 := s2.barAt d pa
      some (if barDone b2.gen o.count then s2.barPut agentKey p o.obj d pa home { b2 with expected := b2.expected - 1 }
        else { s2 with bars := s2.bars ++ [⟨p, o.obj, pa, o.count, none⟩] })

/-- The same, or as soon as the home allows it. -/
def State.killArrival (s : State) (p : Nat) (o : Obl) : State :=
  (s.arrivalKilled p o).getD { s with late := s.late ++ [⟨p, o.obj.toNat, [], some o⟩] }

/-- Obligations discharged poisoned (R70). -/
def State.dischargePoisoned (s : State) (p : Nat) : List Obl → State
  | [] => s
  | o :: t =>
    State.dischargePoisoned
      (if o.bar then s.killArrival p o else s.signal p (o.obj.toNat % 65536) o.count.toNat true) p t

/-! ## Local waits -/

/-- Complete messages and the words a q read of channel `ch` could take (R45). -/
def Inq.wordCount (i : Inq) : Nat := i.part.length + (i.q.map (·.words.length)).foldl (· + ·) 0

/-- FREE of a ring (R214). -/
def Ring.free (r : Ring) : Nat := r.count.toNat - r.filled.toNat

/-- A local predicate holds: words queued, a slot filled, a slot free, a monitor's flag (R127, R184, R216). Events and
barriers are tested at their homes. -/
def Core.holds (c : Core) (a : Act) : Pred → Bool
  | .words ch n => decide (n ≤ (c.inb ch).wordCount)
  | .filled h x => decide (x < (c.ring h).filled.toNat)
  | .room h x => decide (x < (c.ring h).free)
  | .mon => a.sync.mon.written || !a.sync.mon.armed || a.sync.mon.spurious
  | .event _ _ => false
  | .bar _ _ => false

/-- Suspended activations whose local waits are all satisfied become Ready (R53, R217). -/
def Core.wakeLocal (c : Core) : Core :=
  { c with slots := mapVals (fun a =>
      if a.st = .suspended ∧ a.sync.wait ≠ [] ∧ a.sync.wait.all (c.holds a) then { a with st := .ready } else a) c.slots }

end Sys2Proof.Machine
end

