-- ==== Sys2Proof/Machine/Agents.lean ====
section
/-! DEFINITION. Writes by agents outside the chunk order (R168, R287): firmware and hardware, the network engine and the host, line by
line, with what held homes delay. -/

namespace Sys2Proof.Machine

/-- A write at virtual address `va` of partition `p` performed line by line, each as a one-line commit, translated as a level-S store
(R287); a line that does not translate is dropped (R398). The bytes from the first line on that a held home delays (R283) are left,
with their address. `fuel` bounds the lines. -/
def State.agentPut (s : State) (p va : Nat) : Nat → List Byte → (Nat × List Byte) × State
  | 0, _ => ((va, []), s)
  | _, [] => ((va, []), s)
  | fuel + 1, bs =>
    let n := Nat.min bs.length (256 - va % 256)
    match s.xlate p (s.partFirst p) 1 .store va with
    | (.ok pa home d, s1) =>
      if s1.writeDelayed agentKey home (lineOf va) then ((va, bs), s1)
      else State.agentPut (s1.putGlobal agentKey (some p) d va pa home (bs.take n)) p (va + n) fuel (bs.drop n)
    | (.fault .., s1) => State.agentPut s1 p (va + n) fuel (bs.drop n)

/-- The line at a physical address is populated memory, and its station is ready (R26, R102). -/
def State.isMemory (s : State) (pa : Nat) : Bool :=
  (regionOf pa == .near || regionOf pa == .far) && s.addrUp pa

/-- A line of a write at a physical address, at the cistern that holds its half-line, else at the edge station (R104, R168). -/
def Phys.putPhys (p : Phys) (pa : Nat) (bs : List Byte) : Phys :=
  let m := Nat.min bs.length (128 - pa % 128)
  let one (p : Phys) (pa : Nat) (bs : List Byte) : Phys :=
    match find p.cis (pa / 128) with
    | some h => p.writeHome h.home pa bs
    | none => p.writeEdge pa bs
  one (one p pa (bs.take m)) (pa + m) (bs.drop m)

/-- The same at a physical address (R168): a line outside populated memory, or of a station that is not ready, takes nothing. -/
def State.physPut (s : State) (pa : Nat) : Nat → List Byte → (Nat × List Byte) × State
  | 0, _ => ((pa, []), s)
  | _, [] => ((pa, []), s)
  | fuel + 1, bs =>
    let n := Nat.min bs.length (256 - pa % 256)
    let here (x : Nat) : Bool := x / 256 == pa / 256
    if !s.isMemory pa then State.physPut s (pa + n) fuel (bs.drop n)
    else if s.physDelayed agentKey here then ((pa, bs), s)
    else
      let s1 := (s.wroteAt agentKey here).halvesCheck pa n
      let ph := s1.phys.putPhys pa (bs.take n)
      State.physPut { s1 with phys := { ph with dir := drop ph.dir (pa / 256) } } (pa + n) fuel (bs.drop n)

/-- A write by an agent as far as held homes allow, and what is left of it. -/
def State.tryLate (s : State) (w : Late) : Option Late × State :=
  let fuel := w.data.length / 256 + 2
  match w.arr with
  | some o =>
    match s.arrivalKilled w.part o with
    | some s1 => (none, s1)
    | none => (some w, s)
  | none =>
  let x := if 4096 ≤ w.part then s.physPut w.va fuel w.data else s.agentPut w.part w.va fuel w.data
  (if x.1.2.isEmpty then none else some { w with va := x.1.1, data := x.1.2 }, x.2)

/-- Delayed writes tried again, those of one partition in their order (R287); `keep` are those that stay. -/
def State.settleLate (s : State) (keep : List Late) : List Late → State
  | [] => { s with late := keep }
  | w :: t =>
    if keep.any fun x => x.part == w.part then State.settleLate s (keep ++ [w]) t
    else
      match s.tryLate w with
      | (none, s1) => State.settleLate s1 keep t
      | (some x, s1) => State.settleLate s1 (keep ++ [x]) t

/-- A write by an agent outside the chunk order (R287): what a held home delays is performed later, and what comes after it too. -/
def State.agentWrite (s : State) (p va : Nat) (bs : List Byte) : State :=
  if bs.isEmpty then s else s.settleLate [] (s.late ++ [{ part := p, va := va, data := bs }])

/-- A held home delays a write of `n` bytes at virtual address `va` of partition `p`, or an earlier write of the partition still waits
(R283, R287). `fuel` bounds the lines. -/
def State.agentDelayed (s : State) (p va : Nat) : Nat → Nat → Bool
  | 0, _ => false
  | _, 0 => false
  | fuel + 1, n =>
    let m := Nat.min n (256 - va % 256)
    s.late.any (·.part == p) || (match s.xlate p (s.partFirst p) 1 .store va with
      | (.ok _ home _, s1) => s1.writeDelayed agentKey home (lineOf va)
      | (.fault .., _) => false) || State.agentDelayed s p (va + m) fuel (n - m)

/-- Little-endian words as bytes. -/
def wordBytes (ws : List Word) : List Byte := ws.flatMap fun w => leBytes 8 w.toNat

end Sys2Proof.Machine
end

