-- ==== Sys2Proof/Machine/Net.lean ====
section
/-! DEFINITION. The network interfaces (R35 to R39, R45, R55, R56, R246 to R255): arrival, diversion and reinjection of
messages, stream landings, and the landing of pour beats. -/

namespace Sys2Proof.Machine

/-! ## Route words (R246) -/

def routeDest (r : Nat) : Nat := bitsOf r 19 0
def routeChan (r : Nat) : Nat := bitsOf r 24 20 + (if bitOf r 26 && bitOf r 27 then 32 else 0)
def routeEos (r : Nat) : Bool := bitOf r 25
def routeSvc (r : Nat) : Bool := bitOf r 26
def routeOwed (r : Nat) : Bool := bitOf r 48
def routeReply (r : Nat) : Nat := bitsOf r 47 32

/-- The key of the core a route word addresses. -/
def routeCore (r : Nat) : Nat := if routeSvc r then 0x100000 + routeDest r else routeDest r

/-- Words of a payload of `len` bytes: whole words, the last zero-extended (R45). -/
def wordsFor (len : Nat) : Nat := (len + 7) / 8

/-- A message as its words arrive: word 58 is the first payload word when the length is 8 bytes or more (R44, R45). -/
def Msg.make (route : Word) (len : Nat) (words : List Word) (src : Nat) (carry : List OUnit) (tag : Option QTag) : Msg :=
  { route := route, len := len, words := words, src := src, carry := carry, tag := tag }

/-- The frame word 58 and the words left for the q operand, when the message starts an activation (R44, R45). -/
def Msg.start (m : Msg) : Msg :=
  if 8 ≤ m.len then { m with first := m.words.headD 0, words := m.words.tail } else { m with first := 0 }

/-! ## The inbox (R35, R36) -/

/-- Bytes of an inbox: 8 KiB on a newt, 16 KiB on a service core (R35, R365). -/
def inboxBytes (k : Nat) : Nat := if isSvc k then 0x4000 else 0x2000

/-- Bytes a message occupies: 16 of header and its payload words not yet dequeued (R35). -/
def Msg.size (m : Msg) : Nat := 16 + 8 * m.words.length

/-- A total over a list. -/
def sumBy {α : Type} (f : α → Nat) : List α → Nat
  | [] => 0
  | x :: t => f x + sumBy f t

/-- The bytes of a triggering message that an activation has left unread (R35, R36). -/
def Act.unread (a : Act) : Nat := if a.st = .free ∨ a.msg.words.isEmpty then 0 else a.msg.size

/-- Bytes of the inbox in use: queued messages, words left of messages already reached, and the unread words of live
activations' triggering messages, one that a notice has moved out of its slot too (R35, R36, R347). The space of a message's header is
freed with its last payload word, and that of a message without payload when it leaves the queue (DESIGN CHOICE, log 102). -/
def Core.inboxUsed (c : Core) : Nat :=
  sumBy (fun e => sumBy Msg.size e.2.q + (if e.2.part.isEmpty then 0 else 16 + 8 * e.2.part.length)) c.inq
    + sumBy (fun e => e.2.unread) c.slots + sumBy (fun m => m.2.unread) c.moved.toList

/-- A place that is not in the ring: a word with it is held beside the ring (log 36). -/
def besideRing : Nat := 0x1000

/-- The places of a message's header and words after `n` of its payload words have been dequeued. -/
def placesAfter (n : Nat) (l : List Nat) : List Nat := l.take 2 ++ l.drop (2 + n)

/-- The places of the inbox ring that are taken (R35): of queued messages, of messages already reached, and of unread words of triggering
messages. -/
def Core.placesTaken (c : Core) : List Nat :=
  c.inq.flatMap (fun e => e.2.q.flatMap (·.place) ++ (if e.2.part.isEmpty then [] else e.2.pend))
    ++ (c.slots.map (·.2) ++ (c.moved.map (·.2)).toList).flatMap fun a =>
      if a.st = .free ∨ a.msg.words.isEmpty then [] else a.msg.place

/-- The granules of the inbox ring that hold undequeued words, by number from granule 240 on (R35). -/
def Core.inboxHeld (c : Core) : List Nat := ((c.placesTaken.filter fun x => decide (x < 0x400)).map (· / 64)).eraseDups

/-- `n` free places of a ring of `w` words, from place `x` on, and where the search ends; `fuel` bounds it. -/
def freePlaces (taken : List Nat) (w x : Nat) : Nat → Nat → List Nat × Nat
  | 0, _ => ([], x % w)
  | _, 0 => ([], x % w)
  | fuel + 1, n + 1 =>
    if taken.contains (x % w) then freePlaces taken w (x + 1) fuel (n + 1)
    else
      let r := freePlaces taken w (x + 1) fuel n
      (x % w :: r.1, r.2)

/-- The places that a message of `n` words with its header takes in core `k`'s ring, and where the next one begins: the free places that
follow the message before it, skipping those that hold undequeued words (R35; DESIGN CHOICE, log 36). -/
def Core.placesFor (c : Core) (k n : Nat) : List Nat × Nat :=
  let w := inboxBytes k / 8
  let r := freePlaces c.placesTaken w (c.ctl.inw / 8) w n
  (r.1 ++ List.replicate (n - r.1.length) besideRing, 8 * r.2)

/-- QLIMIT in messages; 0 means 256 (R31). -/
def Chan.limit (e : Chan) : Nat := if e.qlimit = 0 then 256 else e.qlimit.toNat

/-- DIV(c): messages for the channel are held at the service core (R31, R36). -/
def Inq.diverted (i : Inq) : Bool := !i.div.isEmpty || !i.ovf.isEmpty

/-- The partition of the core is saved under SWAP, or being saved: its messages wait in the save area (R352). -/
def State.swapped (s : State) (k : Nat) : Bool :=
  match s.owner k with
  | some p => let x := (s.part p).pre; x.mode && (x.state == 3 || x.state == 4 || x.state == 5)
  | none => false

/-- An arriving message for channel `ch` of core `k` is diverted (R36, R156, R352). -/
def State.diverts (s : State) (k ch : Nat) (m : Msg) : Bool :=
  let c := s.core k
  let i := c.inb ch
  i.diverted || decide ((c.chan ch).limit ≤ i.q.length) || decide (inboxBytes k < c.inboxUsed + m.size)
    || (c.ctl.pair.isSome && !c.ctl.leader) || s.swapped k

/-- Bytes of the divert region of a tile that are in use (R55): the divert lists of its newts. A diverted message takes there what it
takes of an inbox (R35; DESIGN CHOICE, log 85). -/
def State.divertUsed (s : State) (t : Nat) : Nat :=
  sumBy (fun x => if x.1 / 32 = t then sumBy (fun e => sumBy Msg.size e.2.div) x.2.inq else 0) s.cores

/-- The words of a message as they lie in the inbox ring or a divert list: two of header, whose layout the manual does not give,
and the payload (R35; DESIGN CHOICE, log 36). -/
def Msg.imageWords (m : Msg) : List Word :=
  m.route :: BitVec.ofNat 64 (m.len % 2 ^ 32 + m.src % 2 ^ 32 * 2 ^ 32) :: m.words

/-- Their bytes. -/
def Msg.image (m : Msg) : List Byte := m.imageWords.flatMap fun w => leBytes 8 w.toNat

/-- Words at their places put in granule `g` of the inbox ring of core `k` (R35, R85, R86): each on its own where the granule holds
undequeued words; otherwise the granule is written whole, zeros around them (DESIGN CHOICE, log 36). The sectors of a poisoned message
take its mark (R390). -/
def State.putGranule (s : State) (k : Nat) (held : Bool) (ws : Table Word) (pois : Bool) (g : Nat) : State :=
  let s1 :=
    if held then ws.foldl (fun s x => s.modLs k fun l =>
      l.land s.fade (s.retn k) false (0x1E000 + 8 * x.1) (leBytes 8 x.2.toNat) false) s
    else s.modLs k fun l => l.land s.fade (s.retn k) true (0x1E000 + 512 * g)
      ((List.range 64).flatMap fun j => leBytes 8 (Table.get (0 : Word) ws (64 * g + j)).toNat) false
  if pois then s1.modLs k fun l => l.poisonAll (ws.map fun x => 0x1E000 / 32 + x.1 / 4) else s1

/-- Words at their places put in the inbox ring of core `k`; `held` are the granules that hold undequeued words. A service core's SRAM has
no tags (R365). -/
def State.putInbox (s : State) (k : Nat) (held : List Nat) (ws : Table Word) (pois : Bool) : State :=
  let ws := ws.filter fun x => decide (x.1 < inboxBytes k / 8)
  if isSvc k then
    let s1 := ws.foldl (fun s x => s.modLs k fun l => l.putCells (0x7C000 + 8 * x.1) (leBytes 8 x.2.toNat) false) s
    if pois then s1.modLs k fun l => l.poisonAll (ws.map fun x => 0x7C000 / 32 + x.1 / 4) else s1
  else (ws.map (·.1 / 64)).eraseDups.foldl (fun s g =>
    s.putGranule k (held.contains g) (ws.filter fun x => x.1 / 64 == g) pois g) s

/-- A message's words placed in the ring of core `k`: the state, and the message with its places (R35). -/
def State.placeMsg (s : State) (k : Nat) (m : Msg) : State × Msg :=
  let c := s.core k
  let r := c.placesFor k (2 + m.words.length)
  ((s.putInbox k c.inboxHeld (r.1.zip m.imageWords) m.poison).modCore k fun c => c.modCtl fun x => { x with inw := r.2 },
    { m with place := r.1 })

/-- A message queued in the inbox, complete (R35 to R37). -/
def State.enqueue (s : State) (k ch : Nat) (m : Msg) : State :=
  let x := s.placeMsg k m
  x.1.modCore k fun c => (c.modInb ch fun i => { i with q := i.q ++ [x.2] }).wakeLocal

/-- A message for channel 31 of core `k` from hardware or firmware (R90, R374), queued or diverted without notice. -/
def notice31 (k : Nat) (w : Word) : Msg :=
  { route := BitVec.ofNat 64 (k % 0x100000 + 31 * 2 ^ 20), len := 8, words := [w], src := svcOf (tileOf k) }

/-- Bytes of the partition's save area above its tile entries take what overflows from a tile's service core (R55, R63, R373): one after
another, and their space is not used again (DESIGN CHOICE, log 103). -/
def State.putOver (s : State) (p : Nat) (bs : List Byte) : State :=
  let x := s.part p
  (s.agentWrite p (x.savebase.toNat + 0xE0000 * s.partTiles p + x.above) bs).modPart p fun x => { x with above := x.above + bs.length }

/-- A message appended to the overflow queue of a channel, in the save area (R55, R373). -/
def State.overflow (s : State) (k ch : Nat) (m : Msg) : State :=
  (match s.owner k with
    | some p => s.putOver p m.image
    | none => s).modCore k fun c => c.modInb ch fun i => { i with ovf := i.ovf ++ [m] }

/-- A message taken onto the divert list of its channel, or, when the 128 KiB region is full, onto the overflow queue in the save area,
which is counted (R55, R56). The lists of the tile's newts fill the region; a service core's own are held beside it and overflow with
them (DESIGN CHOICE, log 86). What is appended because the partition is swapped (R352) is no overflow of the region and is not counted;
what is appended behind older messages of its channel that wait there is counted, though the region may have room (DESIGN CHOICE,
log 87). -/
def State.divertOne (s : State) (k ch : Nat) (m : Msg) : State :=
  let t := tileOf k
  let i := (s.core k).inb ch
  if i.ovf.isEmpty ∧ s.divertUsed t + m.size ≤ 0x20000 ∧ !s.swapped k then
    s.modCore k fun c => c.modInb ch fun i => { i with div := i.div ++ [m] }
  else if s.swapped k then s.overflow k ch m
  else (s.overflow k ch m).tileCount t 4

/-- The notice of a tile's first overflow on channel 31 of each of the newts listed whose channel 31 is bound, queued or diverted (R56). -/
def State.postOverflow (s : State) (w : Word) : List Nat → State
  | [] => s
  | k :: t =>
    State.postOverflow (if !((s.core k).chan 31).valid then s
      else if s.diverts k 31 (notice31 k w) then s.divertOne k 31 (notice31 k w)
      else s.enqueue k 31 (notice31 k w)) w t

/-- The newts of a tile. -/
def newtsOf (t : Nat) : List Nat := (List.range 32).map (t * 32 + ·)

/-- The keys of tile `t`'s cores: its newts and its service core (R15). -/
def tileCores (t : Nat) : List Nat := newtsOf t ++ [svcOf t]

/-- A message diverted (R36, R55); the first overflow of a tile posts a notice (R56). -/
def State.divert (s : State) (k ch : Nat) (m : Msg) : State :=
  let t := tileOf k
  let s1 := s.divertOne k ch m
  if Table.get 0 (s.tile t).cnt 4 = 0 ∧ Table.get 0 (s1.tile t).cnt 4 ≠ 0 then
    s1.postOverflow (BitVec.ofNat 64 (6 * 2 ^ 56)) (newtsOf t)
  else s1

/-- A notice of firmware or hardware, queued or diverted as any message is (R36). -/
def State.post (s : State) (k ch : Nat) (m : Msg) : State :=
  if s.diverts k ch m then s.divert k ch m else s.enqueue k ch m

/-- A notice on channel 31 of each of the newts listed whose channel 31 is bound (R82, R374). -/
def State.post31 (s : State) (w : Word) : List Nat → State
  | [] => s
  | k :: t => State.post31 (if ((s.core k).chan 31).valid then s.post k 31 (notice31 k w) else s) w t

/-- The partition that SWAP has saved and to whose core `k` the message was sent (R352): the message's own; a notice's is that of the
tile, while the tile serves nobody (DESIGN CHOICE, log 23). -/
def State.savedOwner (s : State) (k : Nat) (m : Msg) : Option Nat :=
  (s.parts.find? fun x => !x.2.pre.given && s.inPart x.1 (tileOf k) &&
    (match m.part with
      | some p => p == x.1
      | none => (s.owner k).isNone)).map (·.1)

/-- What is sent in partition `p` to core `k` cannot be delivered: the tile is not ready, or is no longer the partition's (R27, R70). -/
def State.lost (s : State) (k : Nat) (p : Option Nat) : Bool :=
  !(s.tile (tileOf k)).ready || p.any fun p => s.owner k != some p

/-- The units of a message become HOLDER 11 entries of its destination, or leave a holder (R68, R252). -/
def Core.takeUnits (c : Core) (h : Nat) : List OUnit → Core
  | [] => c
  | u :: t => Core.takeUnits (c.takeUnit h u) h t
def Core.dropUnits (c : Core) (h : Nat) : List OUnit → Core
  | [] => c
  | u :: t => Core.dropUnits (c.dropUnit h u) h t

/-- The units a message carries pass from the network interface to holder `h` (R43 step 5, R45). -/
def Core.passUnits (c : Core) (h : Nat) (us : List OUnit) : Core := (c.dropUnits holderNet us).takeUnits h us

/-- The entry that a unit is while holder `h` has it. -/
def OUnit.entry (u : OUnit) (h : Nat) : Obl := ⟨u.bar, false, u.rank, h, if u.bar then u.gen else 1, u.obj, 0⟩

/-- Units in transit to core `k` that can no longer be delivered are discharged poisoned (R70, R71). -/
def State.loseUnits (s : State) (k p : Nat) (us : List OUnit) : State :=
  (s.modCore k fun c => c.dropUnits holderNet us).dischargePoisoned p (us.map (·.entry holderNet))

/-- The router of a tile that is not ready answers with an error response (R27). -/
def State.notReadyResponse (s : State) (t : Nat) : State :=
  if (s.tile t).ready then s else s.modTile t fun x => { x with refused := x.refused + 1 }

/-- A message of a stream-mode channel (R38, R251). -/
def Core.isStream (c : Core) (ch : Nat) : Bool := (c.chan ch).valid && (c.chan ch).mode

/-- A message arrives complete at core `k` (R36, R37, R251), or a stream segment's beats are diverted (R39). -/
def State.arrive (s : State) (k : Nat) (m : Msg) : State :=
  let ch := routeChan m.route.toNat
  match s.savedOwner k m with
  | some p => (s.putOver p m.image).modPart p fun x =>
      { x with saved := Table.set x.saved k ((Table.get {} x.saved k).modInb ch fun i => { i with ovf := i.ovf ++ [m] }) }
  | none =>
    if s.lost k m.part then (s.loseUnits k (m.part.getD 4096) m.carry).notReadyResponse (tileOf k)
    else if (s.core k).isStream ch || s.diverts k ch m then s.divert k ch m
    else s.enqueue k ch m

/-! ## Reinjection -/

/-- The first message held for channel `ch` of core `k`, with the lists after it: SRAM first, then the overflow queue
(R55). -/
def Inq.first (i : Inq) : Option (Msg × Inq) :=
  match i.div with
  | m :: t => some (m, { i with div := t })
  | [] =>
    match i.ovf with
    | m :: t => some (m, { i with ovf := t })
    | [] => none

/-- What is diverted for channel `ch` of core `k` waits: while its partition is being saved or resumed, STATE 0 comes first (R352, R354);
but a diverted evict notice goes in while newts evict (DEDUCED, log 36). -/
def State.heldBack (s : State) (k ch : Nat) : Bool :=
  s.swapped k || (!isSvc k && (match s.owner k with
    | some p => let st := (s.part p).pre.state.toNat; st != 0 && !(ch == 30 && decide (st ≤ 2))
    | none => false))

/-- A diverted message of channel `ch` is reinjected when the inbox and QLIMIT have room for it (R36). -/
def State.reinject (s : State) (k ch : Nat) : Option State :=
  let c := s.core k
  let i := c.inb ch
  if c.isStream ch || (c.ctl.pair.isSome && !c.ctl.leader) || s.heldBack k ch then none
  else
    match i.first with
    | none => none
    | some (m, i') =>
      if i.q.length < (c.chan ch).limit ∧ c.inboxUsed + m.size ≤ inboxBytes k then
        some ((s.setCore k (c.modInb ch fun _ => i')).enqueue k ch m)
      else none

/-- The first channel of a list for which something can be done, done. -/
def firstDone (f : Nat → Option State) : List Nat → Option State
  | [] => none
  | x :: t =>
    match f x with
    | some s => some s
    | none => firstDone f t

/-! ## Streams (R38, R39, R251) -/

/-- A ring advanced by `n` slots at its head, as `advp` does (R217). -/
def Ring.advp (r : Ring) (n : Nat) : Ring :=
  { r with
    head := BitVec.ofNat 6 ((r.head.toNat + n) % r.count.toNat)
    filled := r.filled + BitVec.ofNat 7 n
    wcur := 0 }

/-- A ring consumed by `n` slots at its tail, as `advc` does (R217). -/
def Ring.advc (r : Ring) (n : Nat) : Ring :=
  { r with
    tail := BitVec.ofNat 6 ((r.tail.toNat + n) % r.count.toNat)
    filled := r.filled - BitVec.ofNat 7 n
    rcur := 0 }

/-- The offset of a slot of a ring. -/
def Ring.slotOff (r : Ring) (i : Nat) : Nat := r.base.toNat + (i % r.count.toNat) * 2 ^ r.slog.toNat

/-- A message of the held list and the list without it. -/
def pickMsg (f : Msg → Bool) : List Msg → Option (Msg × List Msg)
  | [] => none
  | m :: t =>
    if f m then some (m, t)
    else
      match pickMsg f t with
      | some (x, r) => some (x, m :: r)
      | none => none

/-- Bytes `lo` to `hi − 1` of a payload. -/
def payloadBytes (m : Msg) (lo n : Nat) : List Byte := ((m.words.flatMap fun w => leBytes 8 w.toNat).drop lo).take n

/-- Word 58 of a stream handler's frame: the first payload word of the end-of-stream flit (R38). -/
def eosWord (m : Msg) : Word :=
  if m.len = 0 then 0
  else
    let lo := 32 * ((m.len - 1) / 32)
    BitVec.ofNat 64 (leNat (payloadBytes m lo (Nat.min 8 (m.len - lo))))

/-- The stale-landing counter of core `k` one higher (R87). -/
def Core.staleLanding (c : Core) : Core :=
  { c with cnt := { c.cnt with stale := if c.cnt.stale = 0xFFFFFFFF then c.cnt.stale else c.cnt.stale + 1 } }

/-- A landing on core `k` renews what it covers (R85, R86): in STATE 1 to 6 of its partition only one of a channel 30 activation does
(R358). -/
def State.landingRenews (s : State) (k : Nat) (by30 : Bool) : Bool :=
  by30 || (match s.owner k with
    | some p => (s.part p).pre.state == 0
    | none => true)

/-- Bytes written by the network interface within one granule (R85 to R87): discarded and counted when it is expired. -/
def State.netLand (s : State) (k off : Nat) (data : List Byte) (pois renews : Bool) : State :=
  if isSvc k then s.modLs k fun l => l.putCells off data pois
  else if ((s.core k).ls.tag (off / 512)).expired s.fade then s.modCore k Core.staleLanding
  else s.modLs k fun l => if renews then l.land s.fade (s.retn k) false off data pois else l.landStill s.fade off data pois

/-- A stream is open on the channel: its end-of-stream flit has not landed (R39). -/
def Inq.streamOpen (i : Inq) : Bool := i.stream.any (·.eos.isNone)

/-- The next beat of segment `m` may land on channel `ch` of core `c` (R38, R39): no stream awaits its dispatch, an open one is its own
source's, and the ring is configured and has a free slot; a segment all of whose beats have landed needs none. -/
def Core.canLand (c : Core) (ch : Nat) (m : Msg) : Bool :=
  let r := c.ring (c.chan ch).ring.toNat
  c.isStream ch && !(c.ctl.pair.isSome && !c.ctl.leader) && (match (c.inb ch).stream with
    | none => true
    | some st => st.eos.isNone && st.src == m.src)
  && (decide (m.len ≤ m.done) || (r.count != 0 && r.free != 0))

/-- One beat of segment `m` lands on channel `ch` of core `k`, in the free bytes of the ring's head slot; the slot advances when it fills
(R38, R251). The segment has the beat's bytes landed. -/
def State.landBeat (s : State) (k ch : Nat) (m : Msg) : State × Msg :=
  let c := s.core k
  let e := c.chan ch
  let r := c.ring e.ring.toNat
  let st := (c.inb ch).stream.getD ⟨m.src, 0, 0, [], none⟩
  let slotSize := 2 ^ r.slog.toNat
  let at_ := r.slotOff r.head.toNat + st.off
  let n := Nat.min (Nat.min 32 (m.len - m.done)) (Nat.min (slotSize - st.off) (512 - at_ % 512))
  let full := st.off + n = slotSize
  ((s.netLand k at_ (payloadBytes m m.done n) m.poison (s.landingRenews k false)).modCore k fun c =>
    ((if full then c.setRing e.ring.toNat (r.advp 1) else c).modInb ch fun i =>
      { i with stream := some { st with bytes := st.bytes + n, off := if full then 0 else st.off + n } }).wakeLocal,
    { m with done := m.done + n })

/-- Segment `m` has landed whole on channel `ch` of core `k`; one with EOS ends the stream, and the last slot is advanced even if it is
only partly filled (R38). -/
def State.endSegment (s : State) (k ch : Nat) (m : Msg) : State :=
  let c := s.core k
  let h := (c.chan ch).ring.toNat
  let r := c.ring h
  let st := (c.inb ch).stream.getD ⟨m.src, 0, 0, [], none⟩
  let st1 : Stream := { st with carry := st.carry ++ m.carry }
  if routeEos m.route.toNat then
    let c1 := if st.off ≠ 0 ∧ r.count ≠ 0 ∧ r.free ≠ 0 then c.setRing h (r.advp 1) else c
    s.setCore k ((c1.modInb ch fun i =>
      { i with stream := some { st1 with off := 0, eos := some { m with first := eosWord m } } }).wakeLocal)
  else s.setCore k (c.modInb ch fun i => { i with stream := some st1 })

/-- The diverted segment whose beat lands next on a stream-mode channel, and the lists around it: while a stream is open its own
source's (R39; DEDUCED, log 14), SRAM first, then the overflow queue (R55). -/
def Inq.nextSegment (i : Inq) : Option (Msg × Inq) :=
  let want (m : Msg) : Bool := i.stream.all fun st => st.src == m.src
  match pickMsg want i.div, pickMsg want i.ovf with
  | some (m, t), _ => some (m, { i with div := t })
  | none, some (m, t) => some (m, { i with ovf := t })
  | none, none => none

/-- A diverted segment put back, first in its list. -/
def Inq.putBack (i : Inq) (m : Msg) (ov : Bool) : Inq := if ov then { i with ovf := m :: i.ovf } else { i with div := m :: i.div }

/-- One beat of a diverted segment of channel `ch` of core `k` lands, if one can (R38, R39, R251). -/
def State.streamBeat (s : State) (k ch : Nat) : Option State :=
  let c := s.core k
  match (c.inb ch).nextSegment with
  | none => none
  | some (m, i) =>
    if !c.canLand ch m ∨ m.len ≤ m.done ∨ s.heldBack k ch then none
    else
      let ov := decide (i.ovf.length < (c.inb ch).ovf.length)
      let x := State.landBeat (s.setCore k (c.modInb ch fun _ => i)) k ch m
      some (x.1.modCore k fun c => c.modInb ch fun i => i.putBack x.2 ov)

/-- A diverted segment of channel `ch` of core `k` all of whose bytes have landed leaves its list (R38). -/
def State.segmentEnd (s : State) (k ch : Nat) : Option State :=
  let c := s.core k
  match (c.inb ch).nextSegment with
  | none => none
  | some (m, i) =>
    if !c.canLand ch m ∨ m.done < m.len ∨ s.heldBack k ch then none
    else some (State.endSegment (s.setCore k (c.modInb ch fun _ => i)) k ch m)

/-! ## Pours (R255) -/

/-- The live activation numbered `q` on core `c` changed by `f`, in its slot or moved out of it; none if it has gone. -/
def Core.modSeq (c : Core) (q : Nat) (f : Act → Act) : Core :=
  let g (a : Act) : Act := if a.st ≠ .free ∧ a.uid.toNat = q then f a else a
  { c with slots := mapVals g c.slots, moved := c.moved.map fun x => (x.1, g x.2) }

/-- An acknowledgement of `n` beats reaches the activation that poured them (R250, R255). -/
def State.ackBeats (s : State) (n : Nat) : Option (Nat × Nat) → State
  | none => s
  | some (k, q) => s.modCore k fun c => c.modSeq q fun a => { a with life := { a.life with beats := a.life.beats - n } }

/-- An acknowledgement of remote pump beats reaches their pump (R211, R239). -/
def State.ackPump (s : State) (n : Nat) : Option Nat → State
  | none => s
  | some k => s.modCore k fun c =>
      { c with eng := { c.eng with pump := { c.eng.pump with remote := c.eng.pump.remote - n } } }

/-- Beats landed one sector at a time, in ascending order. -/
def State.landEach (s : State) (k off : Nat) (renews : Bool) : List Byte → List Bool → State
  | _, [] => s
  | data, b :: bs => State.landEach (s.netLand k off (data.take 32) b renews) k (off + 32) renews (data.drop 32) bs

/-- The beats of one landing written (R255): as one landing when they cover the granule, else each on its own. A landing that covers a
granule renews it, but not where R358 leaves renewing to others: there its beats are taken one by one, and none renews (DEDUCED,
log 88). -/
def State.landBeats (s : State) (k off : Nat) (data : List Byte) (pois : List Bool) (renews : Bool) : State :=
  if data.length = 512 ∧ off % 512 = 0 ∧ !isSvc k ∧ renews then
    if ((s.core k).ls.tag (off / 512)).expired s.fade then
      (List.range 16).foldl (fun s _ => s.modCore k Core.staleLanding) s
    else
      s.modLs k fun l =>
        let l1 := l.land s.fade (s.retn k) true off data false
        { l1 with poison := (List.range 16).foldl (fun t j => mark t (off / 32 + j) (pois.getD j false)) l1.poison }
  else s.landEach k off renews data pois

/-- The sender and the destination core of something in transit to a core's network interface. -/
def Flight.ends : Flight → Option (Nat × Nat)
  | .msg d m _ => some (m.src, d)
  | .beats src d .. => some (src, d)
  | .decr .. => none

/-- The first thing in transit to core `k` that satisfies `want` and is not behind another of its own sender to `k`, and the
rest: what one sender sends to one destination arrives in order (R18, R250, R255). -/
def takeOrd (want : Flight → Bool) (k : Nat) : List Nat → List Flight → Option (Flight × List Flight)
  | _, [] => none
  | blocked, f :: t =>
    match f.ends with
    | some (src, d) =>
      if d = k ∧ want f ∧ !blocked.contains src then some (f, t)
      else
        match takeOrd want k (if d = k then src :: blocked else blocked) t with
        | some (y, r) => some (y, f :: r)
        | none => none
    | none =>
      match takeOrd want k blocked t with
      | some (y, r) => some (y, f :: r)
      | none => none

/-- The first counted beats' decrement in transit for partition `p` that is not lost (R392), and the rest. -/
def takeDecr (p : Nat) : List Flight → Option (Flight × List Flight)
  | [] => none
  | f :: t =>
    match f with
    | .decr q _ _ _ _ _ lost =>
      if q = p ∧ !lost then some (f, t)
      else
        match takeDecr p t with
        | some (y, r) => some (y, f :: r)
        | none => none
    | _ =>
      match takeDecr p t with
      | some (y, r) => some (y, f :: r)
      | none => none

/-- The beats of segment `m` land on core `k` as they come, undiverted (R38, R39). -/
def State.streams (s : State) (k : Nat) (m : Msg) : Bool :=
  let ch := routeChan m.route.toNat
  (s.savedOwner k m).isNone && !s.lost k m.part && !((s.core k).inb ch).diverted && !s.swapped k && (s.core k).canLand ch m

/-- The message has been lost, and waits to be resent (R392). -/
def Msg.isLost (m : Msg) : Bool := m.sys.any (·.lost)

/-- What is in transit to core `k` is a message that arrives or is diverted whole; a segment whose next beat lands; a segment that has
landed whole. -/
def State.arrives (s : State) (k : Nat) : Flight → Bool
  | .msg _ m _ => !m.isLost && !s.streams k m
  | _ => false
def State.landsBeat (s : State) (k : Nat) : Flight → Bool
  | .msg _ m _ => !m.isLost && s.streams k m && decide (m.done < m.len)
  | _ => false
def State.landedWhole (s : State) (k : Nat) : Flight → Bool
  | .msg _ m _ => !m.isLost && s.streams k m && decide (m.len ≤ m.done)
  | _ => false

/-- A `sendw` that waits for its message to be accepted is told that it was (R250). -/
def State.accepted (s : State) : Option (Nat × Nat) → State
  | some (src, q) => s.modCore src fun c => c.modSeq q fun a => { a with life := { a.life with sendw := false } }
  | none => s

/-- A message in transit to core `k` arrives; a `sendw` that waits for it is told that it was accepted (R250). -/
def State.deliverMsg (s : State) (k : Nat) : Option State :=
  match takeOrd (s.arrives k) k [] s.flight with
  | some (.msg _ m w, rest) => some ((State.arrive { s with flight := rest } k m).accepted w)
  | _ => none

/-- A beat of a segment in transit to core `k` lands (R38, R251). -/
def State.deliverBeat (s : State) (k : Nat) : Option State :=
  match takeOrd (s.landsBeat k) k [] s.flight with
  | some (.msg d m w, rest) =>
    let x := State.landBeat { s with flight := rest } k (routeChan m.route.toNat) m
    some { x.1 with flight := .msg d x.2 w :: x.1.flight }
  | _ => none

/-- A segment in transit to core `k` has landed whole (R38, R250). -/
def State.deliverEnd (s : State) (k : Nat) : Option State :=
  match takeOrd (s.landedWhole k) k [] s.flight with
  | some (.msg _ m w, rest) => some ((State.endSegment { s with flight := rest } k (routeChan m.route.toNat) m).accepted w)
  | _ => none

/-- Beats of partition `p` in transit to core `k` wait while a SWAP holds the partition saved (R352; DEDUCED, log 88). -/
def State.beatsWait (s : State) (k p : Nat) : Bool := (s.savedOwner k { part := some p }).isSome
def State.beatsLand (s : State) (k : Nat) : Flight → Bool
  | .beats _ _ _ _ _ _ p .. => !s.beatsWait k p
  | _ => false

/-- Beats in transit to core `k` land; counted beats then send their decrement, and their acknowledgement follows it;
others are acknowledged at once (R255). A tile that is not ready, or is no longer the partition's, takes nothing and answers (R27). -/
def State.deliverBeats (s : State) (k : Nat) : Option State :=
  match takeOrd (s.beatsLand k) k [] s.flight with
  | some (.beats _ _ off data pois target p ack pump by30, rest) =>
    let s0 : State := { s with flight := rest }
    let s1 := if s.lost k (some p) then s0.notReadyResponse (tileOf k) else s0.landBeats k off data pois (s.landingRenews k by30)
    some (match target with
      | some va => { s1 with flight := s1.flight ++ [.decr p va pois.length ack (tileOf k) 0 false] }
      | none => (s1.ackBeats pois.length ack).ackPump pois.length pump)
  | _ => none

/-- A counted beats' decrement in transit reaches its record's home (R75, R255); not while the home delays it (R283). -/
def State.deliverDecr (s : State) (p : Nat) : Option State :=
  match takeDecr p s.flight with
  | some (.decr _ va n ack _ _ _, rest) => (State.decrBeats { s with flight := rest } p va n).map fun s1 => s1.ackBeats n ack
  | _ => none

/-! ## Spilled entries (R63, R373) -/

/-- Entries spilled beyond the 4,096 of tile `t` go to the save area (R63, R373). -/
def State.placeSpilt (s : State) (t : Nat) : State :=
  let os := ((tileCores t).flatMap fun j => (s.core j).spilt).drop 4096
  let new := os.drop (s.tile t).placed
  if os.length = (s.tile t).placed then s
  else
    (match (s.tile t).owner with
      | some p => s.putOver p (new.flatMap Obl.image)
      | none => s).modTile t fun x => { x with placed := os.length }

end Sys2Proof.Machine
end

