-- ==== Sys2Proof/Machine/Dev.lean ====
section
/-! DEFINITION. Registers that stores and the host reach: writing a debug module's registers (R400), device-region stores
(R168, R381, R382), and the triggers of the trace stations (R402). -/

namespace Sys2Proof.Machine

/-- A trace station takes its trigger (R402): armed on the tile with the TRIG given, it starts capturing. -/
def Trace.fire (t : Trace) (tile trig cycle : Nat) : Trace :=
  if t.state = 1 ∧ t.tile = tile ∧ t.trig.toNat = trig then { t with state := 2, tcyc := BitVec.ofNat 64 cycle } else t

/-- Every station offered a trigger. -/
def State.fireTraces (s : State) (tile trig : Nat) : State :=
  { s with trace := mapVals (fun t => t.fire tile trig s.cycle) s.trace }

/-- The members of the lizard of core `k`, head first; `k` alone when it is in none (R268). -/
def State.lizardOf (s : State) (k : Nat) : List Nat :=
  let h := (s.core k).ctl.lizhead.getD k
  if (s.core h).ctl.lizn = 0 then [k] else (List.range (s.core h).ctl.lizn).map (h + ·)

/-- A core halted, with DSTAT.WHY, IDX and IMM. -/
def Core.halt (c : Core) (why idx : Nat) (imm : BitVec 16) : Core :=
  { c with dbg := { c.dbg with halted := true, why := why, idx := idx, imm := imm } }

/-- Cores halted with WHY = 6 (R401). -/
def State.haltOthers (s : State) (k : Nat) : List Nat → State
  | [] => s
  | j :: t => State.haltOthers (if j = k then s else s.modCore j fun c => c.halt 6 0 0) k t

/-- A debug halt of core `k` at an instruction boundary: its pair partner and its lizard halt with it (R401), and trace
stations on its tile with TRIG 2 fire (R402). -/
def State.debugHalt (s : State) (k why idx : Nat) (imm : BitVec 16) : State :=
  let s1 := s.modCore k fun c => c.halt why idx imm
  let s2 := s1.haltOthers k ((s.lizardOf k) ++ ((s.core k).ctl.pair.map ([·])).getD [])
  s2.fireTraces (tileOf k) 2

/-- A core leaves its halt: execution continues at DPC (R400); the breakpoint or watchpoint that stopped it is passed once, unless the
debugger has set another PC. The manual does not say what FROM (R114) is at a PC that the debugger has set: it stays that of the earlier
transfer (DESIGN CHOICE, log 90). -/
def Core.leaveHalt (c : Core) : Core :=
  let c1 := match c.dbg.dpc, c.ctl.run with
    | some p, some i => c.modSlot i fun a => { a with pc := p }
    | _, _ => c
  let met := (c.dbg.why == 4 || c.dbg.why == 5) && c.ctl.run.isSome && c.dbg.dpc.isNone
  { c1 with dbg := { c1.dbg with
      halted := false, why := 0, dpc := none, skip := if met then some (c.act.uid, c.act.pc) else none } }

/-- Cores that leave their halt. -/
def State.unhalt (s : State) : List Nat → State
  | [] => s
  | j :: t => State.unhalt (s.modCore j Core.leaveHalt) t

/-- The halt of core `k` left, with its lizard and its partner. -/
def State.debugRun (s : State) (k : Nat) : State :=
  s.unhalt ((s.lizardOf k) ++ ((s.core k).ctl.pair.map ([·])).getD [])

/-- DCTL written (R400): RW bits [6:3] are stored, and a drain under way goes on; while ENABLE is 0, HALT, RUN and STEP are ignored; STEP
leaves a halt for one instruction, or lets a newt that runs execute one more, which bit 2 of the stored register remembers; bits 8 and 9
tell how far that step has come. -/
def State.dctlWrite (s : State) (k : Nat) (v : Word) : State :=
  let s1 := s.modCore k fun c => { c with dbg := { c.dbg with
    ctl := (v &&& 0xF8#64) ||| (c.dbg.ctl &&& 0x384#64) } }
  let on := v.getLsbD 3
  let s2 := if on && v.getLsbD 0 && !(s1.core k).dbg.halted then s1.debugHalt k 1 0 0 else s1
  let s3 := if on && v.getLsbD 1 && (s2.core k).dbg.halted then s2.debugRun k else s2
  if on && v.getLsbD 2 then
    (if (s3.core k).dbg.halted then s3.debugRun k else s3).modCore k fun c =>
      { c with dbg := { c.dbg with ctl := c.dbg.ctl ||| 4#64 } }
  else s3

/-- A debug register written at an offset of the module's 256 bytes (R400); refused for a confidential partition (R379). -/
def State.dbgWrite (s : State) (k off : Nat) (v : Word) : State :=
  let set (f : Dbg → Dbg) : State := s.modCore k fun c => { c with dbg := f c.dbg }
  if s.dbgRefused k then s
  else match off with
  | 0x00 => s.dctlWrite k v
  | 0x10 => set fun d => { d with dbp := Table.set d.dbp 0 v }
  | 0x18 => set fun d => { d with dbp := Table.set d.dbp 1 v }
  | 0x20 => set fun d => { d with dbp := Table.set d.dbp 2 v }
  | 0x28 => set fun d => { d with dbp := Table.set d.dbp 3 v }
  | 0x30 => set fun d => { d with dwa := Table.set d.dwa 0 v }
  | 0x38 => set fun d => { d with dwa := Table.set d.dwa 1 v }
  | 0x40 => set fun d => { d with dwc := Table.set d.dwc 0 (v.setWidth 7) }
  | 0x48 => set fun d => { d with dwc := Table.set d.dwc 1 (v.setWidth 7) }
  | 0x50 => set fun d => { d with acc := v }
  | 0x58 => if (s.core k).dbg.halted then s.putDdata k v else s
  | 0x60 => if (s.core k).dbg.halted then set fun d => { d with dpc := some v } else s
  | _ => s

/-- The tail writes of a ring whose entries from `head` on are not taken yet, each with its cycle, after one of `v` at cycle `now`: one that
covers entries which no earlier one covers is their own; one that takes entries back takes them from those that covered them. The first
`k` entries are taken already (R376). -/
def ringBells (bells : List (BitVec 16 × Nat)) (head : BitVec 16) (k : Nat) (v : BitVec 16) (now : Nat) : List (BitVec 16 × Nat) :=
  let n (t : BitVec 16) : Nat := (t - head).toNat
  if n v ≤ k then []
  else
    match bells.find? fun b => decide (n v ≤ n b.1) with
    | some b => (bells.filter fun b => decide (n b.1 < n v)) ++ [(v, b.2)]
    | none => bells ++ [(v, now)]

/-- Queue pair `n`: one that nothing has used yet has the partition and the rings that the host has assigned it (R381; log 46). -/
def State.qp (s : State) (n : Nat) : QPair :=
  match find s.net n with
  | some x => x
  | none =>
    let h := Config.qpHome n
    { part := h.1 % 4096, sbase := h.2.1, rbase := h.2.2 }

/-- The tail index of a queue pair written (R382); the cycle of the write is that of the entries which it covers (R376). -/
def QPair.ring (x : QPair) (v : BitVec 16) (now : Nat) : QPair := { x with tail := v, bells := ringBells x.bells x.head 0 v now }

/-- A store to the device region performed (R168, R288): a debug register of 64 bits, or the tail register at offset 0 of a
queue pair's page (R382); the manual gives no other device register, and other stores change nothing of the module's. -/
def State.devStore (s : State) (e : Store) : State :=
  if isDebugPa e.pa then
    if e.pa % 8 = 0 ∧ e.data.length = 8 then
      s.dbgWrite (debugNewt e.pa) (e.pa % 256) (BitVec.ofNat 64 (leNat e.data))
    else s
  else
    let n := (e.pa - 0x4000000000000) / 0x1000
    if n < 65536 ∧ e.pa % 0x1000 = 0 ∧ 2 ≤ e.data.length then
      { s with net := Table.set s.net n ((s.qp n).ring (BitVec.ofNat 16 (leNat (e.data.take 2))) s.cycle) }
    else s

end Sys2Proof.Machine
end

