-- ==== Sys2Proof/Machine/Ops.lean ====
section
/-! DEFINITION. How an instruction runs: the ways it can stop, faults (R326 to R332) taken by one shared operation and the
return from one (R153), commits and commit points (R48, R405), and the named operations over registers, local store and
global memory (R126, R129, R130). -/

namespace Sys2Proof.Machine

/-- What an instruction works on: the state, the state R10 returns to when it faults or stalls, the next PC, the cycles it
takes beyond the free stall, and whether it has formed a chunk of its own (R173, R209, R48) or ends its chunk (R157). -/
structure Ctx where
  st : State
  base : State
  npc : Word
  cost : Nat := 1
  own : Bool := false
  last : Bool := false

/-- The ways an instruction stops before it completes: a fault, a stall in which it is tried again, and a suspension (or the
end of its activation), each with the state it leaves. -/
inductive Stop where
  | fault (r : FaultRec) (s : State)
  | stall (s : State)
  | leave (s : State)

/-- The meaning of an instruction as it runs. -/
abbrev M := StateT Ctx (Except Stop)

/-- The state. -/
def getS : M State := fun c => .ok (c.st, c)

/-- The state replaced. -/
def putS (s : State) : M PUnit := fun c => .ok ((), { c with st := s })

/-- The state changed. -/
def modS (f : State → State) : M PUnit := fun c => .ok ((), { c with st := f c.st })

/-- The state changed in a way that a later fault of the same instruction does not undo: counters, corrections (R91, R398). -/
def modBoth (f : State → State) : M PUnit := fun c => .ok ((), { c with st := f c.st, base := f c.base })

/-- A change that stays where the instruction faults or stalls. -/
def modBase (f : State → State) : M PUnit := fun c => .ok ((), { c with base := f c.base })

/-- What has been done so far stays done (R10, R48). -/
def keep : M PUnit := fun c => .ok ((), { c with base := c.st })

/-- Fault(code, info): the instruction's own effects are undone (R10, R126). -/
def fault {α : Type} (r : FaultRec) : M α := fun c => .error (.fault r c.base)

/-- The instruction stalls and is tried again; its own effects are undone. -/
def stall {α : Type} : M α := fun c => .error (.stall c.base)

/-- The activation leaves the core: it suspends, retires, or halts. -/
def leave {α : Type} (s : State) : M α := fun _ => .error (.leave s)

/-- The executing core's key. -/
def me : M Nat := fun c => .ok (c.st.turn, c)

/-- The executing core. -/
def myCore : M Core := fun c => .ok (c.st.core c.st.turn, c)

/-- The executing core changed. -/
def modMe (f : Core → Core) : M PUnit := modS fun s => s.modCore s.turn f

/-- The core with the running activation changed. -/
def Core.modAct (c : Core) (f : Act → Act) : Core := c.modSlot c.runSlot f

/-- The current level of core `k`. -/
def State.level (s : State) (k : Nat) : Nat := levelOf k (s.core k).act.chan

/-- The FLOOR of the running activity (R57). -/
def Core.myFloor (c : Core) : Nat := c.floor (holderOf c.runSlot)

/-! ## Time (R2, R50) -/

/-- The watchdog count of the running activation of core `k` falls by `d` cycles. -/
def Core.charge (c : Core) (d : Nat) : Core :=
  match c.ctl.run with
  | some i => c.modSlot i fun a => { a with count := a.count - d }
  | none => c

/-- `base` cycles and a free stall pass, charged to the running activation of core `k` (R50; the free part is
notes/assumptions/5.md); the other cores' are charged when the step ends. -/
def State.spend (s : State) (k base : Nat) : State :=
  let d := base + Config.stall s.freeCount
  State.modCore { s with
    cycle := s.cycle + d
    freeCount := s.freeCount + 1
    paid := Table.set s.paid k (Table.get 0 s.paid k + d) } k fun c => c.charge d

/-- The same charged to the activation in slot `i`, which has left the core or still runs there: the attempt in which a wait suspends counts
(R50). -/
def State.spendSlot (s : State) (k i base : Nat) : State :=
  let d := base + Config.stall s.freeCount
  State.modCore { s with
    cycle := s.cycle + d
    freeCount := s.freeCount + 1
    paid := Table.set s.paid k (Table.get 0 s.paid k + d) } k fun c =>
      if (c.slot i).st = .free then c else c.modSlot i fun a => { a with count := a.count - d }

/-- When a step ends, every activation that runs has been charged every cycle that has passed, but for a halted core's (R50, R401). A
follower's count is its leader's. -/
def State.chargeAll (s : State) : State :=
  let d := s.cycle - s.clock
  { s with
    clock := s.cycle
    paid := []
    cores := s.cores.map fun x =>
      (x.1, if x.2.dbg.halted || (x.2.ctl.pair.isSome && !x.2.ctl.leader) then x.2
        else x.2.charge (d - Table.get 0 s.paid x.1)) }

/-! ## Faults -/

/-- Class codes (R327). -/
def classOf (r : FaultRec) (replay : Bool) : Nat :=
  match r.code with
  | 0x05 => 0
  | 0x0A => 0
  | 0x0B => 0
  | 0x0C => 0
  | 0x11 => 0
  | 0x13 => 0
  | 0x07 => 1
  | 0x15 => if r.sub = 5 then 1 else 3
  | 0x06 => if replay then 2 else 3
  | _ => 3

/-- The conditions of R51 for a poison replay, judged on the faulted activation after the squash. An activation of channel 29, or of an
evict or resume notice, is killed whatever its fault (R334, R348, R354; DEDUCED, log 9). -/
def Core.replayable (c : Core) (a : Act) : Bool :=
  (c.chan a.chan).replay && a.chan != 29 && a.life.kind != .evict && a.life.kind != .resume && !a.life.past && !a.life.side
    && decide (a.msg.replays < 2)

/-- The barrier that counted pours count against (R152, R159). -/
def Act.barSel (a : Act) : Word := a.sync.barsel ++ 0#4

/-- The context numbered `q` in slot `i`, or moved out of it by a notice (R347). -/
def Core.context (c : Core) (i : Nat) (q : BitVec 32) : Act :=
  match c.moved with
  | some (j, a) => if j = i ∧ a.uid = q then a else c.slot i
  | none => c.slot i

/-- The class of a held context's fault: on a service core it is handled as a fatal one (R327, R339). -/
def State.heldClass (s : State) (h : Held) : Nat :=
  if isSvc h.core then 3 else classOf h.frec ((s.core h.core).replayable ((s.core h.core).context h.slot h.act))

/-- The class of the fault with which an activation of core `k` stopped; a kill without a fault is a fatal one (DESIGN CHOICE, log 120). -/
def Core.faultClass (c : Core) (k : Nat) (a : Act) : Nat :=
  match a.life.fault with
  | some r => if isSvc k then 3 else classOf r (c.replayable a)
  | none => 3

/-- Word 4 of the record (R331). -/
def FaultRec.w4 (r : FaultRec) : Word :=
  BitVec.ofNat 64 (r.orank * 2 ^ 32 + r.floor.getD Config.noRank)

/-- Word 0 of the record (R331). -/
def FaultRec.w0 (r : FaultRec) (k slot cls : Nat) (seq : BitVec 32) : Word :=
  BitVec.ofNat 64 (seq.toNat % 2 ^ 23 * 2 ^ 41 + slot * 2 ^ 37 + (if r.liz then 2 ^ 36 else 0)
    + k % 0x100000 * 2 ^ 16 + (if isSvc k then 2 ^ 15 else 0) + cls * 256 + r.code)

/-- The 64-byte fault record (R331). -/
def FaultRec.words (r : FaultRec) (k slot cls : Nat) (seq : BitVec 32) : List Word :=
  [r.w0 k slot cls seq, r.pc, r.addr, r.w3, r.w4, r.w5, r.w6, r.w7]

/-- A held context: where it is from, its state of service, its record and its image (R329). -/
def Held.savedWords (h : Held) : List Word :=
  [BitVec.ofNat 64 (fld (h.seq % 2 ^ 32) 32 + fld (bnat h.waiting) 29 + fld (bnat h.parked) 28 + fld (h.slot % 16) 24 + h.core % 2 ^ 24),
    h.act.setWidth 64] ++ h.frec.words h.core h.slot 0 h.act ++ (List.range 60).map fun i => Table.get 0 h.image i

/-- A lizard whose head is core `k` released: its members take dispatch again, and their register caches are cleared, but for one in
which a notice runs (R268, R272, R274). -/
def State.unbind (s : State) (k : Nat) : State :=
  let ms := (s.lizardOf k).filter (· != k)
  (ms.foldl (fun s m => s.modCore m fun c =>
    { c with ctl := { c.ctl with lizhead := none }, regs := if c.ctl.run.isSome then c.regs else [] }) s).modCore k
    fun c => c.modCtl fun x => { x with lizn := 0 }

/-- The rank of the object that word 3 of a record names; none for an object that does not exist or has no rank (R331). -/
def State.objRank (s : State) (k : Nat) (w3 : Word) : Nat :=
  let o := bitsOf w3.toNat 59 0
  let c := s.core k
  match bitsOf w3.toNat 63 60 with
  | 1 => ((s.event ((s.owner k).getD 4096) o).map (·.rank.toNat)).getD Config.noRank
  | 2 =>
    match (s.xlateOf k (s.level k) .atomic (o * 16)).1 with
    | .ok pa _ d => if (d = .home ∨ d = .edge) ∧ (s.barAt d pa).valid then (s.barAt d pa).rank.toNat else Config.noRank
    | .fault .. => Config.noRank
  | 3 => if (c.ring (o % 16)).count = 0 then Config.noRank else (c.ring (o % 16)).rank.toNat
  | 4 => if (c.chan (o % 64)).valid then (c.chan (o % 64)).rank.toNat else Config.noRank
  | _ => Config.noRank

/-- Taking a fault (R328, R329): the one operation by which every fault of an instruction is taken. The chunk has been
committed or squashed; a lizard is released; the activation enters Faulted with its record; its register image goes to the
service core of its own tile, or for a newt's fault 0x07 of the home tile, to be migrated (R339); trace stations with TRIG 1 fire. -/
def State.raise (s : State) (k : Nat) (r : FaultRec) : State :=
  let c := s.core k
  let i := c.runSlot
  let inLiz := c.inLiz
  let liz := inLiz || c.act.life.liz
  let r1 : FaultRec := { r with
    liz := liz
    orank := if r.orank = Config.noRank then s.objRank k r.w3 else r.orank
    floor := some (r.floor.getD c.myFloor) }
  let dst := if isSvc k then tileOf k else r.home.getD (tileOf k)
  let keepPc := r.code == 0x07 || r.code == 0x06
  let s1 := if inLiz then s.unbind k else s
  let s2 := s1.modCore k fun c =>
    (c.modSlot i fun a => { a with
      st := .faulted
      pc := if keepPc then a.pc else (if r.code = 0x15 then r.w6 else r.pc)
      sync := { a.sync with wait := [], woken := none }
      life := { a.life with fault := some r1, atPoint := false, deferred := if r.code = 0x15 then none else a.life.deferred } }).modCtl
      fun x => { x with run := none }
  let s3 := s2.modSvc dst fun v =>
    { v with held := v.held ++ [{ core := k, slot := i, act := (c.slot i).uid, image := c.regs, frec := r1,
                                  liz := if inLiz then s.lizardOf k else [] }] }
  s3.fireTraces (tileOf k) 1

/-- The context numbered `q` in slot `i`, or moved out of it by a notice (R347), changed by `f`; one that is moved out stays
Saved. -/
def Core.modContext (c : Core) (i : Nat) (q : BitVec 32) (f : Act → Act) : Core :=
  match c.moved with
  | some (j, a) => if j = i ∧ a.uid = q then { c with moved := some (j, { f a with st := .saved }) } else c.modSlot i f
  | none => c.modSlot i f

/-- The return of a held context to its newt (R153): the activation in its slot becomes Ready, to resume at `pc` with the
image the service core holds; `src` is the PC of the `rte` that passes control to it (R114), or 0 where firmware's own steps do. -/
def State.returnContext (s : State) (h : Held) (pc src : Word) : State :=
  s.modCore h.core fun c => c.modContext h.slot h.act fun a => { a with
    st := .ready
    pc := pc
    src := src
    image := some h.image
    life := { a.life with fault := none, parked := false, liz := false } }

/-- The KIND of R107 for an access. -/
def Acc.code : Acc → Nat
  | .read => 0
  | .bare => 0
  | .store => 1
  | .atomic => 2
  | .fetch => 3

/-- The record of a translation fault (R160, R106). -/
def xlFault (a : Acc) (va : Nat) (code info home : Nat) : FaultRec :=
  { code := code, addr := BitVec.ofNat 64 va, finfo := BitVec.ofNat 64 info,
    home := if code = 0x07 then some home else none, kind := a.code }

/-- What a chunk commit attempt comes to. -/
inductive Commit where
  | done (s : State)
  | blocked (s : State)
  | refused (pc : Word) (s : State)
  | stale (r : FaultRec) (s : State)
  | squashed (s : State)
  | mismatch (s : State)

/-- The pair-retry counter of core `k` one higher (R395). -/
def Core.retried (c : Core) : Core :=
  { c with cnt := { c.cnt with retries := if c.cnt.retries = 0xFFFFFFFF then c.cnt.retries else c.cnt.retries + 1 } }

/-- The fault of an ended chunk's first store that a `tlbinv` has made to be translated afresh and that does not translate any more: R100's
outcome, at the instruction that ended the chunk (R101, R108; DEDUCED, log 80). -/
def State.staleFault (s : State) (k : Nat) (e : Ended) : Option FaultRec :=
  ((s.core k).ord.sb.filter fun x => x.chunk == e.c.id && x.stale && x.dest != .loc).findSome? fun x =>
    match (s.xlateOf k (s.chunkLevel k e.c) .store x.va.toNat).1 with
    | .ok .. => none
    | .fault code info home => some { xlFault .store x.va.toNat code info home with pc := e.pc }

/-- The ended chunks of core `k` acquire their homes in order and are performed (R283), as far as other cores' held homes
allow; `fuel` bounds the steps. -/
def State.commitAll (s : State) (k : Nat) : Nat → Commit
  | 0 => .blocked s
  | fuel + 1 =>
    let c := s.core k
    match c.ord.ended with
    | [] => .done s
    | e :: t =>
      if s.missed k e.c then
        if e.c.retry then .mismatch s
        else
          let s1 := s.setCore k (c.squashFrom { e.c with retry := true } (t.map (·.c) ++ [c.ord.chunk]))
          .squashed (match c.ctl.pair with
            | some f => s1.modCore f Core.retried
            | none => s1)
      else match e.todo with
        | h :: _ => if s.ungranted k h then .blocked s else State.commitAll (s.acquire k) k fuel
        | [] =>
          match s.staleFault k e with
          | some r => .stale r s
          | none =>
            if s.refusesOf k e.c then .refused e.pc (s.perform State.devStore k)
            else State.commitAll (s.perform State.devStore k) k fuel

/-- Steps enough to commit every ended chunk of core `k`. -/
def Core.commitFuel (c : Core) : Nat := 1 + sumBy (fun e => 2 + e.todo.length) c.ord.ended

/-- The current chunk of core `k` ends at the running activation's instruction, and every ended chunk commits. -/
def State.commitNow (s : State) (k : Nat) : Commit :=
  let s1 := s.modCore k fun c => c.endChunk c.act.pc
  s1.commitAll k (s1.core k).commitFuel

/-- The earlier chunks of core `k` commit; the current one stays open. -/
def State.commitEarlier (s : State) (k : Nat) : Commit := s.commitAll k (s.core k).commitFuel

/-- The ended chunks of core `k` that have taken their place are performed (R283); `fuel` bounds their number. -/
def State.performPlaced (s : State) (k : Nat) : Nat → State
  | 0 => s
  | fuel + 1 =>
    match (s.core k).ord.ended with
    | e :: _ =>
      if e.todo.isEmpty ∧ !s.missed k e.c then State.performPlaced (s.perform State.devStore k) k fuel else s
    | [] => s

/-- Every chunk of core `c` that is still in its order squashed: the ended ones and the current one. -/
def Core.squashAll (c : Core) : Core :=
  match c.ord.ended with
  | e :: t => c.squashFrom e.c (t.map (·.c) ++ [c.ord.chunk])
  | [] => c.squashCurrent

/-- A fault's record for a code and an address. -/
def faultAt (code : Nat) (addr : Word) : FaultRec := { code := code, addr := addr }

/-- A permission fault 0x08 at the instruction that ended a chunk, some store of which was refused (R307). -/
def refusedFault (pc : Word) : FaultRec := { code := 0x08, pc := pc }

/-- The fault of a pair that mismatched twice (R395, R332). -/
def State.mismatchFault (s : State) (k : Nat) : FaultRec :=
  let x := (((s.core k).ord.ended.head?).bind fun e => s.missOf k e.c).getD (0, 0)
  { code := 0x0F, pc := (s.core k).act.pc, w5 := x.1, w6 := x.2 }

/-- The chunks of core `k` that come after one with a refused store are squashed, and fault 0x08 is raised at the instruction that
ended that chunk (R155, R307). -/
def State.refuse (s : State) (k : Nat) (pc : Word) : State :=
  (s.modCore k fun c =>
    match c.ord.ended with
    | e :: t => c.squashFrom e.c (t.map (·.c) ++ [c.ord.chunk])
    | [] => (c.checkpoint c.runSlot).squashCurrent).raise k (refusedFault pc)

/-- The first ended chunk of core `k`, with a store that does not translate any more, and every later one are squashed, and the store's fault
is raised: a page fault is resumed where the chunk begins (R100, R106, R285; log 80). -/
def State.refuseStale (s : State) (k : Nat) (r : FaultRec) : State :=
  (s.modCore k fun c =>
    match c.ord.ended with
    | e :: t => c.squashFrom e.c (t.map (·.c) ++ [c.ord.chunk])
    | [] => c).raise k r

/-- A chunk of core `k` whose fingerprints mismatched twice: it and every later chunk are squashed, and fault 0x0F is raised (R395). -/
def State.mismatched (s : State) (k : Nat) : State :=
  let c := s.core k
  let c1 := match c.ord.ended with
    | e :: t => c.squashFrom e.c (t.map (·.c) ++ [c.ord.chunk])
    | [] => c
  (s.setCore k c1).raise k (s.mismatchFault k)

/-- An instruction that stalls, or whose fault waits, has not issued: a debug step goes on (R244). -/
def Core.unissued (c : Core) : Core := { c with dbg := { c.dbg with ctl := c.dbg.ctl &&& ~~~0x200#64 } }

/-- A fault of the running instruction of core `k` is taken (R328): the instructions before it commit, or for 0x06 and 0x07
the chunk is squashed, after every earlier chunk of the newt has committed; while a home is held by another chunk the newt
waits. -/
def State.takeFault (s : State) (k : Nat) (r : FaultRec) : State :=
  let squash := r.code == 0x06 || r.code == 0x07
  match (if squash then s.commitEarlier k else s.commitNow k) with
  | .done s1 => (if squash then s1.modCore k Core.squashCurrent else s1).raise k r
  | .blocked _ => (s.modCore k Core.unissued).spend k 1
  | .refused pc s1 => s1.refuse k pc
  | .stale r s1 => s1.refuseStale k r
  | .squashed s1 => s1.modCore k Core.unissued
  | .mismatch s1 => s1.mismatched k

/-- The core after an instruction retires: the PC moves on, and its chunk counts it and ends at its bounds (R131, R164,
R167); an instruction that formed a chunk of its own leaves a fresh one. -/
def Core.retire (c : Core) (npc : Word) (own last : Bool) : Core :=
  match c.ctl.run with
  | none => c
  | some i =>
    let pc := (c.slot i).pc
    let c1 := c.modSlot i fun a => { a with pc := npc, src := pc }
    let q := c1.ord.chunk
    let n := (c1.ord.sb.filter fun e => e.chunk == q.id).length
    if own then (if n = 0 ∧ q.rd.isEmpty ∧ q.wr.isEmpty ∧ q.pops.isEmpty then c1 else c1.endChunk pc)
    else
      let c2 := { c1 with ord := { c1.ord with chunk := { q with retired := q.retired + 1 } } }
      if last ∨ 256 ≤ q.retired + 1 ∨ 32 ≤ q.rd.length ∨ 16 ≤ q.wr.length ∨ 32 ≤ n then c2.endChunk pc else c2

/-- The follower of a pair runs with its leader (R156, R394): it has the same activation, handler table and ring descriptors. Its
registers and cells are its own (`State.alongside`). -/
def State.mirror (s : State) (k : Nat) : State :=
  let c := s.core k
  match c.ctl.pair with
  | some f =>
    if c.ctl.leader then
      s.modCore f fun d => { d with
        slots := c.slots
        vec := { d.vec with ring := c.vec.ring }
        chans := c.chans
        ctl := { d.ctl with run := c.ctl.run, last := c.ctl.last, seq := c.ctl.seq, nact := c.ctl.nact, guard := c.ctl.guard,
                            guardWas := c.ctl.guardWas, bfmt := c.ctl.bfmt } }
    else s
  | none => s

/-- What the meaning of an instruction starts from on core `s.turn`: the chunk's checkpoint taken, and the sequential successor as
the next PC (R111, R131). -/
def State.begin (s : State) : Ctx :=
  let s0 := s.modCore s.turn fun c => c.checkpoint c.runSlot
  let a := (s.core s.turn).act
  { st := s0, base := s0, npc := if bitsOf a.pc.toNat 5 0 < a.hdr then a.pc + 1 else (a.pc &&& ~~~63#64) + 65 }

/-- What retiring an instruction of core `k` leaves (R125, R50). -/
def Ctx.finish (c : Ctx) (k : Nat) : State :=
  ((c.st.modCore k fun x => x.retire c.npc c.own c.last).mirror k).spend k c.cost

/-- The meaning of an instruction run on core `s.turn`: the next state (R125, R328, R50). -/
def run (m : M PUnit) (s : State) : Host.Outcome State Fault Refusal :=
  let k := s.turn
  let a := (s.core k).act
  match m s.begin with
  | .ok ((), c) => .next (c.finish k)
  | .error (.fault r s1) => .next ((s1.takeFault k { r with pc := if r.pc = 0 then a.pc else r.pc }).mirror k)
  | .error (.stall s1) => .next (((s1.modCore k Core.unissued).mirror k).spend k 1)
  | .error (.leave s1) => .next ((s1.mirror k).spendSlot k (s.core k).runSlot 1)

/-! ## Registers -/

/-- The record of a register write in a pair's fingerprint, or of a store (R395): the bytes given, by CRC-64. -/
def crcBit (r : BitVec 64) : BitVec 64 := if r.msb then (r <<< 1) ^^^ 0x42F0E1EBA9EA3693#64 else r <<< 1

/-- CRC-64 over one byte. -/
def crcByte (r : BitVec 64) (b : Byte) : BitVec 64 :=
  crcBit (crcBit (crcBit (crcBit (crcBit (crcBit (crcBit (crcBit (r ^^^ (b.setWidth 64 <<< 56)))))))))

/-- CRC-64 over bytes. -/
def crcBytes (r : BitVec 64) : List Byte → BitVec 64
  | [] => r
  | b :: t => crcBytes (crcByte r b) t

/-- The fingerprint of the running chunk of a paired core updated (R395). -/
def Core.print (c : Core) (bs : List Byte) : Core :=
  if c.ctl.pair.isSome ∧ c.ctl.leader then
    { c with ord := { c.ord with chunk := { c.ord.chunk with fp := crcBytes c.ord.chunk.fp bs } } }
  else c

/-- Register word `i` of the register cache (R44). -/
def Core.reg (c : Core) (i : Nat) : Word := Table.get 0 c.regs i

/-- WriteOp in the scalar context (R126): w0 discards; w1–w55 write the register cache. -/
def Core.setReg (c : Core) (i : Nat) (x : Word) : Core :=
  if i = 0 then c else Core.print { c with regs := Table.set c.regs i x } (leBytes 8 i ++ leBytes 8 x.toNat)

/-- Word 59 of the frame (R44): SEQ, SLOT and CHAN. -/
def actWord (seq : BitVec 32) (slot chan : Nat) : Word := BitVec.ofNat 64 (seq.toNat * 65536 + slot * 256 + chan)

/-! ## Local store (R129) -/

/-- The limit of local offsets of core `k` (R79, R129, R365); a lizard's offsets reach every member (R271). -/
def Core.limit (c : Core) (k : Nat) : Nat :=
  if isSvc k then 0x80000 else if c.inLiz then c.ctl.lizn * 0x20000 else 0x20000

/-- The range [off, off + n) meets the inbox of a member (R35, R271). -/
def meetsInbox (off n : Nat) : Bool :=
  n != 0 && (decide (off / 0x20000 ≠ (off + n - 1) / 0x20000) || decide (0x1E000 ≤ (off + n - 1) % 0x20000))

/-- A local range that the level may not touch: an inbox at level U (R35), or at level S an offset outside
0x4_0000–0x7_BFFF (R365). -/
def localDenied (lvl off n : Nat) : Bool :=
  match lvl with
  | 0 => meetsInbox off n
  | 1 => n != 0 && (decide (off < 0x40000) || decide (0x7C000 < off + n))
  | _ => false

/-- Two ranges overlap. -/
def overlaps (a n b m : Nat) : Bool := decide (a < b + m) && decide (b < a + n)

/-- The bytes of an image of `mst` and `mld` (R196) in format FMT of a bank: 64 elements. -/
def imageSize (fmt : Nat) : Nat :=
  match fmt with
  | 0 => 256
  | 1 => 128
  | 2 => 128
  | 3 => 64
  | 4 => 64
  | 5 => 72
  | 6 => 72
  | _ => 0

/-- FMT of a BFMT value (R93). -/
def fmtOf (b : BitVec 7) : Nat := b.toNat % 16

/-- The local range that a queued or running matrix operation has reserved since issue (R291). -/
def MOp.range (o : MOp) : Option (Nat × Nat) :=
  match o.kind with
  | .mst _ off => some (off, imageSize (fmtOf (Table.get 0 o.bfmt (off / 0x4000))))
  | .mld _ off => some (off, imageSize (fmtOf (Table.get 0 o.bfmt (off / 0x4000))))
  | _ => none

/-- A range, if there is one, meets [off, off + n). -/
def rangeMeets (r : Option (Nat × Nat)) (off n : Nat) : Bool :=
  match r with
  | some (b, m) => overlaps off n b m
  | none => false

/-- A core access to [off, off + n) must wait for a reservation or a held write range of the range scoreboard (R129, R212,
R291). -/
def Core.reserved (c : Core) (off n : Nat) : Bool :=
  c.eng.mq.any (fun o => rangeMeets o.range off n) || rangeMeets c.eng.pump.wr off n

/-- The workspace offset of an activation (R44). -/
def Act.wspOff (a : Act) : Nat := a.wsp.toNat * 512

/-- The range lies in the running activation's workspace granule (R45). -/
def Act.inWorkspace (a : Act) (off n : Nat) : Bool := off / 512 == a.wsp.toNat && decide (off % 512 + n ≤ 512)

/-- The register cache as bytes: words 60–63 read zero (R45). -/
def Core.regBytes (c : Core) (o n : Nat) : List Byte :=
  (((List.range 64).flatMap fun i => leBytes 8 (if 60 ≤ i then 0 else (c.reg i).toNat)).drop o).take n

/-- Bytes written into the register cache; words 60–63 discard them (R45). -/
def Core.putRegBytes (c : Core) (o : Nat) : List Byte → Core
  | [] => c
  | b :: t =>
    let i := o / 8
    let w := c.reg i
    let sh := 8 * (o % 8)
    let w' := (w &&& ~~~(0xFF#64 <<< sh)) ||| (b.setWidth 64 <<< sh)
    Core.putRegBytes (if 60 ≤ i then c else { c with regs := Table.set c.regs i w' }) (o + 1) t

/-- A store over the whole of word 58 replaces a poisoned payload word (R390); a paired newt's fingerprint takes the record of a store to
the workspace as of any other (R395). -/
def Core.freshWord (c : Core) (o : Nat) (data : List Byte) : Core :=
  Core.print (if o ≤ 464 ∧ 472 ≤ o + data.length then c.modSlot c.runSlot fun a => { a with life := { a.life with bad58 := false } } else c)
    (leBytes 8 (c.act.wspOff + o) ++ leBytes 8 data.length ++ leBytes 8 (leNat data))

/-- The youngest byte for an address in the store buffer (R164, R166): of local stores, or of global ones. -/
def sbByte (loc : Bool) (a : Nat) : List Store → Option Byte
  | [] => none
  | e :: t =>
    match sbByte loc a t with
    | some b => some b
    | none =>
      if (e.dest == .loc) == loc ∧ e.va.toNat ≤ a ∧ a < e.va.toNat + e.data.length then
        some (e.data.getD (a - e.va.toNat) 0)
      else none

/-- The tag of the granule at a wide offset. -/
def State.tagAt (s : State) (k off : Nat) : Tag := (s.core (memberOf k off)).ls.tag (off % 0x20000 / 512)

/-- A granule of core `k` is expired; a service core's SRAM never is (R365). -/
def State.expiredAt (s : State) (k off : Nat) : Bool := !isSvc k && (s.tagAt k off).expired s.fade

/-- The granule at an offset reads zeros (R88). -/
def State.zeroAt (s : State) (k off : Nat) : Bool := !isSvc k && (s.tagAt k off).z && !(s.tagAt k off).x

/-! ## The firmware ranges of a service core's SRAM (R55, R63, R365) -/

/-- The waiters of events homed at tile `t` that are on its overflow lists, each list with its event's key (R73). -/
def State.holdingLists (s : State) (t : Nat) : List Word :=
  (s.events.filter fun e => s.evHome (e.1 / 65536) (e.1 % 65536) == t).flatMap fun e =>
    match overflowList 4 e.2.waiters with
    | [] => []
    | l => BitVec.ofNat 64 e.1 :: BitVec.ofNat 64 l.length :: l.flatMap fun w => [w.1.word, w.2.setWidth 64]

/-- What the service core of tile `t` holds of its tile lies in its SRAM: the spilled obligation entries from offset 0 (R63), the held
fault contexts and after them the holding lists from 0x1_0000, the divert lists from 0x2_0000 (R55). The manual gives the ranges and no
layout (DESIGN CHOICE, log 89). -/
def State.heldBytes (s : State) (t : Nat) : List Byte × List Byte × List Byte :=
  (((tileCores t).flatMap fun j => (s.core j).spilt.flatMap Obl.image).take 0x10000,
   ((s.tile t).svc.held.flatMap Held.savedWords ++ s.holdingLists t).flatMap fun w => leBytes 8 w.toNat,
   (newtsOf t).flatMap fun j => (List.range 32).flatMap fun ch => ((s.core j).inb ch).div.flatMap Msg.image)

/-- A byte of the firmware ranges of the SRAM, where something that is held lies on it. -/
def State.sramByte (s : State) (k off : Nat) : Option Byte :=
  if !isSvc k ∨ 0x40000 ≤ off then none
  else if off < 0x10000 then (s.heldBytes (tileOf k)).1[off]?
  else if off < 0x20000 then (s.heldBytes (tileOf k)).2.1[off - 0x10000]?
  else (s.heldBytes (tileOf k)).2.2[off - 0x20000]?

/-- A cell byte as a reader sees it: zero in a granule with Z = 1. On a service core the member is the core itself. -/
def State.cellAt (s : State) (k off : Nat) : Byte :=
  if isSvc k then (s.sramByte k off).getD ((s.core k).ls.cells.read off)
  else if s.zeroAt k off then 0
  else (s.core (memberOf k off)).ls.cells.read (off % 0x20000)

/-- `n` cell bytes. -/
def State.cellsAt (s : State) (k off : Nat) : Nat → List Byte
  | 0 => []
  | n + 1 => s.cellAt k off :: State.cellsAt s k (off + 1) n

/-- The core that holds an offset, and the offset in its store. -/
def placeOf (k off : Nat) : Nat × Nat := if isSvc k then (k, off) else (memberOf k off, off % 0x20000)

/-- An uncorrectable word among the words of a range marks its sector poisoned; correctable ones are corrected, rewritten and
counted (R91). -/
def Local.scrubRead (l : Local) (off n : Nat) : Local :=
  let hit (x : Nat × Nat) : Bool := decide (x.1 * 8 < off + n) && decide (off < x.1 * 8 + 8)
  { l with
    poison := markAll l.poison true ((l.ecc.filter fun x => hit x && x.2 == 2).map fun x => x.1 / 4)
    ecc := l.ecc.filter fun x => !hit x }

/-- Correctable words among the words of a range. -/
def Local.corrected (l : Local) (off n : Nat) : Nat :=
  (l.ecc.filter fun x => x.2 == 1 && decide (x.1 * 8 < off + n) && decide (off < x.1 * 8 + 8)).length

/-- A sector of the range is poisoned. -/
def Local.poisonedIn (l : Local) (off n : Nat) : Bool := (sectorsOf off n).any fun x => Table.get false l.poison x

/-- SECDED over a range that is read (R91). What is found in the firmware region of a service core's SRAM is charged to none (R396). -/
def State.secded (s : State) (k off n : Nat) : State :=
  let p := placeOf k off
  let m := (s.core p.1).ls.corrected p.2 n
  if isSvc k && inFirmware off then
    (if m = 0 then s else s.hostCount 5 m).modCore k fun c => { c with ls := c.ls.scrubRead off n }
  else s.modCore p.1 fun c => { c.countEcc m with ls := c.ls.scrubRead p.2 n }

/-- Poison consumed from the local store of core `k`, or from its SRAM, counted (R396, R398). -/
def State.poisonUsed (s : State) (k off : Nat) : State :=
  if isSvc k && inFirmware off then s.hostCount 7 1 else s.tileCount (tileOf k) 7

/-- A sector of a local range is poisoned and not covered by zeros. -/
def State.poisonAt (s : State) (k off n : Nat) : Bool :=
  let p := placeOf k off
  !s.zeroAt k off && (s.core p.1).ls.poisonedIn p.2 n

/-- A count of a tile one higher, from within an instruction. -/
def countTile (i : Nat) : M PUnit := modBoth fun s => s.tileCount (tileOf s.turn) i

/-- The checks that LocalRead and LocalWrite share, in order (R129): alignment, bounds, the level's range, the scoreboard. -/
def localCheck (off n : Nat) : M PUnit := do
  let c ← myCore
  let k ← me
  let s ← getS
  if off % n ≠ 0 then fault (faultAt 0x03 (BitVec.ofNat 64 off))
  if c.limit k < off + n then fault (faultAt 0x04 (BitVec.ofNat 64 off))
  if localDenied (s.level k) off n then fault (faultAt 0x04 (BitVec.ofNat 64 off))
  if c.reserved off n then stall

/-- The local store that holds a wide offset changed by `f`, which is given the granule there. -/
def State.modStore (s : State) (k off : Nat) (f : Nat → Local → Local) : State :=
  s.modLs (memberOf k off) (f (off % 0x20000 / 512))

/-- LocalRead(off, n) (R129): the bytes, least significant first. FADDR is `off`. -/
def localRead (off n : Nat) : M (List Byte) := do
  localCheck off n
  let c ← myCore
  let k ← me
  if c.act.inWorkspace off n then
    if c.act.life.bad58 ∧ overlaps (off % 512) n 464 8 then
      countTile 7
      fault (faultAt 0x06 (BitVec.ofNat 64 off))
    return c.regBytes (off % 512) n
  let s ← getS
  if s.expiredAt k off then fault (faultAt 0x05 (BitVec.ofNat 64 off))
  let fw := (List.range n).map fun i => sbByte true (off + i) c.ord.sb
  if fw.all (·.isSome) then
    return fw.map (·.getD 0)
  modBoth fun s => s.secded k off n
  let s ← getS
  if s.poisonAt k off n then
    modBoth fun s => s.poisonUsed k off
    fault (faultAt 0x06 (BitVec.ofNat 64 off))
  return (fw.zip (s.cellsAt k off n)).map fun x => x.1.getD x.2

/-- LocalWrite(off, n, x) (R129): the bytes go to the register cache within the workspace granule, else to the store
buffer, which stalls while it is full (R164, R405). -/
def localWrite (off : Nat) (data : List Byte) : M PUnit := do
  localCheck off data.length
  let c ← myCore
  let k ← me
  if c.act.inWorkspace off data.length then
    modMe fun c => (c.putRegBytes (off % 512) data).freshWord (off % 512) data
  else
    let s ← getS
    if s.expiredAt k off then fault (faultAt 0x05 (BitVec.ofNat 64 off))
    if 32 ≤ c.ord.sb.length then stall
    modMe fun c => Core.print { c with ord := { c.ord with
      sb := c.ord.sb ++ [⟨c.ord.chunk.id, .loc, BitVec.ofNat 64 off, 0, 0, data, false⟩] } }
      (leBytes 8 off ++ leBytes 8 data.length ++ leBytes 8 (leNat data))

/-! ## Global memory (R130) -/

/-- Translation at the home, faults raised (R97 to R100): physical address, home and destination. What the home does in it, the walk with
its fill of the TLB, the fill of the half-line, and what integrity checks found there, stays done where the instruction then faults or
stalls (R97, R104, R391). -/
def translate (a : Acc) (va : Nat) : M (Nat × Nat × Dest) := do
  let s ← getS
  let k ← me
  let x := (s.xlateOf k (s.level k) a va).1
  modBoth fun s => (s.xlateOf k (s.level k) a va).2
  match x with
  | .ok pa home d => return (pa, home, d)
  | .fault code info home => fault (xlFault a va code info home)

/-- The checks of a global access before translation (R130). -/
def globalCheck (va n : Nat) : M PUnit := do
  if va % n ≠ 0 then fault (faultAt 0x03 (BitVec.ofNat 64 va))
  if bitsOf va 63 57 ≠ 0 then fault (faultAt 0x08 (BitVec.ofNat 64 va))

/-- The line of an access enters the chunk's read signature (R167). -/
def touchRead (va home : Nat) : M PUnit := modMe fun c =>
  { c with ord := { c.ord with chunk := { c.ord.chunk with rd := addLine c.ord.chunk.rd (lineOf va) home } } }

/-- The line of a store enters the chunk's write signature (R167). -/
def touchWrite (va home : Nat) : M PUnit := modMe fun c =>
  { c with ord := { c.ord with chunk := { c.ord.chunk with wr := addLine c.ord.chunk.wr (lineOf va) home } } }

/-- A poisoned sector was read (R130, R390). -/
def consumePoison {α : Type} (va : Nat) : M α := do
  countTile 7
  fault (faultAt 0x06 (BitVec.ofNat 64 va))

/-- A newt's load checks the parity of the line in its global data cache: parity corrects nothing, so the sectors in error are poisoned
there, which is counted when it is found (R391, R396). -/
def parityCheck (d : Dest) (va pa n : Nat) : M PUnit := do
  let bad := (sectorsOf pa n).filter (has (← myCore).par ·)
  if d = .home ∧ !bad.isEmpty then
    modBoth fun s =>
      let new := bad.filter fun x => !Table.get false (s.core s.turn).par x
      (s.modTile (tileOf s.turn) fun t => { t with cnt := countUp t.cnt 1 new.length }).modCore s.turn fun c =>
        { c with par := new.foldl (fun t x => Table.set t x true) c.par }
    consumePoison va

/-- Earlier host-window stores of the core that have not been sent (R168). -/
def Core.hostPending (c : Core) : Bool := c.ord.sb.any fun e => e.dest == .host

/-- Such a store lies in the current chunk, so it is sent only once that chunk has ended. -/
def Core.hostOpen (c : Core) : Bool := c.ord.sb.any fun e => e.dest == .host && e.chunk == c.ord.chunk.id

/-- GlobalRead(va, n, read) (R130, R166): store-buffer bytes first, then the home or edge station; the line enters the read
signature. A read of a held line waits for its release (R283, R307). A host-window load waits for earlier host-window
stores of the newt (R168); one of its own chunk would never be sent while the load waits, so the chunk ends there, which depends on
the instruction stream alone (R281; DEDUCED, log 82). -/
def globalRead (va n : Nat) : M (List Byte) := do
  globalCheck va n
  let (pa, home, d) ← translate .read va
  let k ← me
  let s ← getS
  if s.readDelayed k home (lineOf va) then stall
  touchRead va home
  let c ← myCore
  if d = .host ∧ c.hostPending then
    if c.hostOpen then
      fun c => match s.commitNow k with
        | .done s1 => .error (.stall s1)
        | .blocked _ => .error (.stall c.base)
        | .squashed s1 => .error (.stall s1)
        | .refused pc s1 => .error (.leave (s1.refuse k pc))
        | .stale r s1 => .error (.leave (s1.refuseStale k r))
        | .mismatch s1 => .error (.leave (s1.mismatched k))
    else stall
  let fw := (List.range n).map fun i => sbByte false (va + i) c.ord.sb
  if fw.all (·.isSome) then
    return fw.map (·.getD 0)
  if (d = .home ∨ d = .edge) ∧ s.phys.poisoned d pa n then consumePoison va
  parityCheck d va pa n
  let bs := s.globalBytes d pa n
  modS fun s => s.drew d n
  return (fw.zip bs).map fun x => x.1.getD x.2

/-- GlobalWrite(va, n, x) (R130, R166): a write-permission probe at issue, and an entry of the store buffer. -/
def globalWrite (va : Nat) (data : List Byte) : M PUnit := do
  globalCheck va data.length
  let (pa, home, d) ← translate .store va
  touchWrite va home
  let c ← myCore
  if 32 ≤ c.ord.sb.length then stall
  modMe fun c => Core.print { c with ord := { c.ord with
    sb := c.ord.sb ++ [⟨c.ord.chunk.id, d, BitVec.ofNat 64 va, pa, home, data, false⟩] } }
    (leBytes 8 va ++ leBytes 8 data.length ++ leBytes 8 (leNat data))

/-! ## Commits -/

/-- An instruction that commits the current chunk before it acts, acts only once the chunk has taken its place, and forms a
chunk of its own (R173, R209, R267, R405). -/
def commitFirst : M PUnit := fun c =>
  let k := c.st.turn
  let fresh (s : State) : State := s.modCore k fun x => x.checkpoint x.runSlot
  match c.base.commitNow k with
  | .done b =>
    match c.st.commitNow k with
    | .done s1 => .ok ((), { c with st := fresh s1, base := fresh b, own := true })
    | _ => .error (.stall b)
  | .blocked b => .error (.stall b)
  | .squashed b => .error (.stall b)
  | .refused pc b => .error (.leave (b.refuse k pc))
  | .stale r b => .error (.leave (b.refuseStale k r))
  | .mismatch b => .error (.leave (b.mismatched k))

end Sys2Proof.Machine
end

