-- ==== Sys2Proof/Machine/Wait.lean ====
section
/-! DEFINITION. Commit points and waits (R46, R48, R65, R128), the release of the output buffer (R250 to R255), and the
rank checks. -/

namespace Sys2Proof.Machine

/-! ## Objects of waits and of records (R331) -/

/-- Word 3 of the record: KIND and OBJ (R331). -/
def objWord (kind obj : Nat) : Word := BitVec.ofNat 64 (kind * 2 ^ 60 + obj % 2 ^ 60)
def evW3 (name : Nat) : Word := objWord 1 (name % 65536)
def barW3 (va : Nat) : Word := objWord 2 (va / 16)
def ringW3 (h : Nat) : Word := objWord 3 h
def chanW3 (ch : Nat) : Word := objWord 4 ch
def memW3 : Word := objWord 5 0

/-- An object fault 0x0C that names an object in word 3 (R331). -/
def objFault (w3 : Word) : FaultRec := { code := 0x0C, w3 := w3 }

/-- A ring fault 0x11 that names a ring (R331). -/
def ringFault (h : Nat) : FaultRec := { code := 0x11, w3 := ringW3 h }

/-- A rank violation 0x0A (R65, R160, R331). -/
def rankFault (w3 : Word) (orank floor : Nat) : FaultRec :=
  { code := 0x0A, w3 := w3, orank := orank, floor := some floor,
    finfo := BitVec.ofNat 64 (orank * 2 ^ 32 + floor) }

/-- RankCheck (R128): legal only if the rank is strictly below FLOOR; unranked only with FLOOR none. -/
def rankCheck (w3 : Word) (rank : Option Nat) : M PUnit := do
  let c ← myCore
  match rank with
  | none => if c.myFloor ≠ Config.noRank then fault (rankFault w3 Config.noRank c.myFloor)
  | some r => if c.myFloor ≤ r then fault (rankFault w3 r c.myFloor)

/-- The partition of the executing core. A core whose tile has no owner runs nothing of a partition: partition 4096, which
names none (DESIGN CHOICE, log 16). -/
def State.myPart (s : State) : Nat := (s.owner s.turn).getD 4096

/-! ## Release (R250) -/

/-- What the release of an entry comes to: released, waiting, or failed with a fault. -/
inductive Rel where
  | done (s : State)
  | wait (s : State)
  | fail (r : FaultRec) (s : State)

/-- The entry removed from the output buffer of core `k`. -/
def State.popEntry (s : State) (k : Nat) (e : OEntry) : State :=
  s.modCore k fun c => { c with ord := { c.ord with ob := c.ord.ob.erase e } }

/-- The entry of a `sendw` marked as injected: the first of those that equal it (R250). -/
def markSent (e : OEntry) : List OEntry → List OEntry
  | [] => []
  | x :: t => if x = e then { x with sent := true } :: t else x :: markSent e t

/-- A release that fails (R250, R332): the entry is dropped; for a fault 0x05, 0x06, 0x08 or 0x0C word 5 names the instruction that made
it, and word 6 is 1. -/
def relFail (s : State) (k : Nat) (e : OEntry) (r : FaultRec) : Rel :=
  let named : Bool := r.code == 0x05 || r.code == 0x06 || r.code == 0x08 || r.code == 0x0C
  .fail (if named then { r with w5 := e.pc, w6 := 1 } else r) ((if r.code = 0x06 then s.tileCount (tileOf k) 7 else s).popEntry k e)

/-- A message injected for its destination, with the units it carries held there as HOLDER 11 (R68, R252). -/
def State.inject (s : State) (dst : Nat) (m : Msg) (wait : Option (Nat × Nat)) : State :=
  let s1 := s.modCore dst fun c => c.takeUnits holderNet m.carry
  { s1 with flight := s1.flight ++ [.msg dst m wait] }

/-- The unit a reply-owed route word gives its receiver (R252), if the reply event exists. -/
def State.replyUnit (s : State) (p route : Nat) : Option (List OUnit) :=
  if routeOwed route then
    match s.event p (routeReply route) with
    | some e => some [⟨false, evObj (routeReply route), e.rank, 0⟩]
    | none => none
  else some []

/-- The beats of a pour, cut at the destination's granules (R255). -/
def cutBeats (src t : Nat) (target : Option Word) (p : Nat) (ack : Option (Nat × Nat)) (pump : Option Nat) (by30 : Bool) :
    Nat → Nat → List Byte → List Bool → List Flight
  | 0, _, _, _ => []
  | _, _, [], _ => []
  | fuel + 1, off, data, pois =>
    let n := Nat.min data.length (512 - off % 512)
    .beats src t off (data.take n) (pois.take (n / 32)) target p ack pump by30 ::
      cutBeats src t target p ack pump by30 fuel (off + n) (data.drop n) (pois.drop (n / 32))

/-- The first expired granule of a source range, by the offset of its first sector in the range. -/
def State.firstExpired (s : State) (k off : Nat) : Nat → Option Nat
  | 0 => none
  | n + 1 => if s.expiredAt k off then some off else State.firstExpired s k (off + 32) n

/-- The poison marks of `n` sectors from `off`. -/
def State.poisonMarks (s : State) (k off : Nat) : Nat → List Bool
  | 0 => []
  | n + 1 => s.poisonAt k off 32 :: State.poisonMarks s k (off + 32) n

/-- A barrier operation of slot `i` at its record's home: translated as an atomic, refused in a host window or the device
region as an atomic is (R171; PRESUMED, log 28), consuming poison (R390), and delayed while the home delays writes of the line
(R75, R283). -/
def State.barHome (s : State) (k i : Nat) (va : Word) : Except FaultRec (Option (Nat × Nat × Dest × Bar) × State) :=
  if va.toNat % 16 ≠ 0 then .error (faultAt 0x03 va)
  else
    match s.xlateOf k (levelOf k ((s.core k).slot i).chan) .atomic va.toNat with
    | (.fault code info home, _) => .error (xlFault .atomic va.toNat code info home)
    | (.ok pa home d, s1) =>
      if d = .host ∨ d = .dev then .error (faultAt 0x08 va)
      else if s1.writeDelayed k home (lineOf va.toNat) then .ok (none, s1)
      else if s1.phys.poisoned d pa 16 then .error (faultAt 0x06 va)
      else
        let b := s1.barAt d pa
        if b.valid then .ok (some (pa, home, d, b), s1) else .error (objFault (barW3 va.toNat))

/-- A message that slot `i` of core `k` sends: what firmware sends goes on the system channel, as a control message (R17, R392; DEDUCED,
log 99). -/
def State.outMsg (s : State) (k i : Nat) (route : Word) (len : Nat) (data : List Word) (us : List OUnit) : Msg :=
  let a := (s.core k).slot i
  { Msg.make route len data k us a.life.tag with
    part := some ((s.owner k).getD 4096)
    sys := if levelOf k a.chan = 2 then some { core := k, act := a.uid.toNat } else none }

/-- The release of one entry of slot `i` of core `k` (R250); one whose control message has been lost waits to be resent (R392). -/
def State.release1 (s : State) (k i : Nat) (e : OEntry) : Rel :=
  let c := s.core k
  let a := c.slot i
  let h := holderOf i
  let p := (s.owner k).getD 4096
  if e.lost then .wait s
  else match e.kind with
  | .send wait route len data =>
    if e.sent then (if a.life.sendw then .wait s else .done (s.popEntry k e))
    else
      match s.replyUnit p route.toNat with
      | none => relFail s k e (objFault (evW3 (routeReply route.toNat)))
      | some us =>
        let m := s.outMsg k i route len data us
        match (s.core (routeCore route.toNat)).unitOverflow holderNet us with
        | some ev => relFail s k e (objFault (evW3 ev))
        | none =>
          if wait then
            .wait ((s.modCore k fun c =>
              ({ c with ord := { c.ord with ob := markSent e c.ord.ob } } : Core).modSlot i fun a =>
                { a with life := { a.life with sendw := true } }).inject (routeCore route.toNat) m (some (k, a.uid.toNat)))
          else .done ((s.popEntry k e).inject (routeCore route.toNat) m none)
  | .sendo bar route len data obj =>
    match (if bar then (c.owedArrivals h obj).head? else c.oblOf h false obj) with
    | none => relFail s k e (objFault (if bar then barW3 obj.toNat else evW3 obj.toNat))
    | some o =>
      match s.replyUnit p route.toNat with
      | none => relFail s k e (objFault (evW3 (routeReply route.toNat)))
      | some us =>
        let u : OUnit := ⟨bar, obj, o.rank, o.count⟩
        match (s.core (routeCore route.toNat)).unitOverflow holderNet (u :: us) with
        | some ev => relFail s k e (objFault (evW3 ev))
        | none =>
          let s1 := (s.popEntry k e).modCore k fun c => c.dropUnit h u
          .done (s1.inject (routeCore route.toNat) (s.outMsg k i route len data (u :: us)) none)
  | .pour t src off n target =>
    match s.firstExpired k src (n / 32) with
    | some x => relFail s k e (faultAt 0x05 (BitVec.ofNat 64 x))
    | none =>
      let s1 := s.secded k src n
      let bs := s1.cellsAt k src n
      let ps := s1.poisonMarks k src (n / 32)
      let s2 := (s1.popEntry k e).modCore k fun c =>
        c.modSlot i fun a => { a with life := { a.life with beats := a.life.beats + n / 32 } }
      let by30 : Bool := !isSvc k && a.chan == 30
      .done { s2 with flight := s2.flight ++ cutBeats k t target p (some (k, a.uid.toNat)) none by30 (n / 32 + 1) off bs ps }
  | .sig name n =>
    if a.life.beats ≠ 0 then .wait s
    else
      match s.event p name.toNat with
      | none => relFail s k e (objFault (evW3 name.toNat))
      | some _ =>
        .done (((s.popEntry k e).signal p name.toNat n.toNat false).modCore k fun c =>
          c.discharge h name.toNat n.toNat)
  | .bara va n =>
    match s.barHome k i va with
    | .error r => relFail s k e r
    | .ok (none, s1) => .wait s1
    | .ok (some (pa, home, d, b), s1) =>
      match c.owedArrivals h va with
      | o :: _ =>
        .done (((s1.popEntry k e).modCore k fun c => c.putObl o { o with arr := true }).barPut k p va d pa home (b.arrive n))
      | [] => relFail s1 k e (objFault (barW3 va.toNat))
  | .join va =>
    match s.barHome k i va with
    | .error r => relFail s k e r
    | .ok (none, s1) => .wait s1
    | .ok (some (pa, home, d, b), s1) =>
      match c.oblOf h true va with
      | some _ => relFail s1 k e (objFault (barW3 va.toNat))
      | none =>
        .done (((s1.popEntry k e).modCore k fun c => c.newObl ⟨true, false, b.rank, h, b.gen, va, 0⟩).barPut
          k p va d pa home b.join)
  | .leave va =>
    match s.barHome k i va with
    | .error r => relFail s k e r
    | .ok (none, s1) => .wait s1
    | .ok (some (pa, home, d, b), s1) =>
      match c.oblOf h true va with
      | none => relFail s1 k e (objFault (barW3 va.toNat))
      | some o =>
        .done (((s1.popEntry k e).modCore k fun c => c.dropObl h true va).barPut k p va d pa home
          (if o.arr then b.leaveArrived o.count else b.leaveOwed))

/-- The first entry of slot `i` in the output buffer (R330). -/
def Core.firstEntry (c : Core) (i : Nat) : Option OEntry := c.ord.ob.find? fun e => e.slot == i

/-- The entries of slot `i` released in program order, as far as they go (R250). -/
def State.releaseAll (s : State) (k i : Nat) : Nat → Rel
  | 0 => .wait s
  | fuel + 1 =>
    match (s.core k).firstEntry i with
    | none => .done s
    | some e =>
      match s.release1 k i e with
      | .done s1 => State.releaseAll s1 k i fuel
      | x => x

/-- The running activation has passed a commit point (R51). -/
def Core.pastPoint (c : Core) : Core := c.modAct fun a => { a with life := { a.life with past := true } }

/-- The activation in slot `i` is at a commit point whose release waits, or no longer is. -/
def State.atPoint (s : State) (k i : Nat) (b : Bool) : State :=
  s.modCore k fun c => c.modSlot i fun a => { a with life := { a.life with atPoint := b } }

/-- Steps 1 and 2 of a commit point (R48): the chunk commits, and the output buffer is released in program order. What has
been released stays released. -/
def commitPoint : M PUnit := do
  commitFirst
  modBoth fun s => s.modCore s.turn Core.pastPoint
  fun c =>
    let k := c.st.turn
    let i := (c.st.core k).runSlot
    let fresh (s : State) : State := s.modCore k fun x => x.checkpoint x.runSlot
    match c.base.releaseAll k i ((c.base.core k).ord.ob.length + 2) with
    | .done b =>
      match c.st.releaseAll k i ((c.st.core k).ord.ob.length + 2) with
      | .done s1 => .ok ((), { c with st := (fresh s1).atPoint k i false, base := (fresh b).atPoint k i false })
      | _ => .error (.stall b)
    | .wait b => .error (.stall (b.atPoint k i true))
    | .fail r b => .error (.fault r b)

/-! ## Suspension (R46) -/

/-- A workspace granule of core `k` written whole: renewed, with its K bit set (R46). -/
def State.putWorkspace (s : State) (k : Nat) (wsp : BitVec 8) (bs : List Byte) : State :=
  if isSvc k then s.modLs k fun l => l.putCells (wsp.toNat * 512) bs false
  else
    s.modLs k fun l =>
      let l1 := l.land s.fade (s.retn k) true (wsp.toNat * 512) bs false
      l1.setTag wsp.toNat { l1.tag wsp.toNat with k := true }

/-- The register cache of core `k` written back whole to the workspace granule of slot `i`, with the saved PC in word 0 (R46). -/
def State.writeBack (s : State) (k i : Nat) : State :=
  let c := s.core k
  let a := c.slot i
  s.putWorkspace k a.wsp (leBytes 8 a.pc.toNat ++ c.regBytes 8 504)

/-- The running activation of core `k` suspends in a wait (R46, R53). -/
def State.suspend (s : State) (k : Nat) (ps : List Pred) : State :=
  let i := (s.core k).runSlot
  let s1 := s.writeBack k i
  s1.modCore k fun c => ((c.modSlot i fun a => { a with
      st := .suspended
      sync := { a.sync with wait := ps, woken := none } }).modCtl fun x => { x with run := none }).wakeLocal

/-- The running activation is a resumption of this wait: its commit point and rank check are past (R128). -/
def resumed : M Bool := do return !((← myCore).act.sync.wait.isEmpty)

/-- The wait is over. -/
def waitDone : M PUnit := modMe fun c => c.modAct fun a => { a with sync := { a.sync with wait := [], woken := none } }

/-- WaitOn for local objects (R128, R216): one commit point, RankCheck for each object in operand order, then all predicates at
once, or the activation suspends. A resumption tests the predicates again and nothing else. `own` says whether the
instruction forms a chunk of its own (R209) or opens the next chunk (R131). -/
def waitLocal (own : Bool) (checks : List (Word × Option Nat)) (ps : List Pred) : M PUnit := do
  if !(← resumed) then
    commitPoint
    checks.forM fun x => rankCheck x.1 x.2
  fun c => .ok ((), { c with own := own })
  let c ← myCore
  if ps.all (c.holds c.act) then
    waitDone
    keep
  else
    let s ← getS
    let k ← me
    leave (s.suspend k ps)

/-- A deferred engine fault pending for the activation is raised at this instruction, before it has any effect (R210). -/
def checkDeferred : M PUnit := do
  let c ← myCore
  match c.act.life.deferred with
  | some r => fault { r with w6 := c.act.pc }
  | none => pure ()

end Sys2Proof.Machine
end

