-- ==== Sys2Proof/Machine/Operands.lean ====
section
/-! DEFINITION. Operand forms (R117, R126, R127, R216, R219): scalar selectors with q operands, and vector operands with
registers, ring slots and q beats. -/

namespace Sys2Proof.Machine

/-! ## Messages as operands (R45) -/

/-- Messages with no payload at the head of a channel's queue are consumed; what they carry passes to holder `h` (R45). -/
def Core.skipEmpty (c : Core) (ch h : Nat) : Nat → Core
  | 0 => c
  | n + 1 =>
    let i := c.inb ch
    match i.q with
    | m :: t =>
      if i.part.isEmpty ∧ m.words.isEmpty then
        Core.skipEmpty ((c.modInb ch fun _ => { i with q := t }).passUnits h m.carry) ch h n
      else c
    | [] => c

/-- The next word queued for a foreign channel, across message boundaries; a message first reached leaves QCOUNT and gives
its obligations to holder `h` (R45). -/
def Core.popWord (c : Core) (ch h : Nat) : Word × Core :=
  let c1 := c.skipEmpty ch h (c.inb ch).q.length
  let i := c1.inb ch
  match i.part with
  | w :: t => (w, c1.modInb ch fun _ => { i with part := t, pend := placesAfter 1 i.pend })
  | [] =>
    match i.q with
    | m :: t =>
      let c2 := c1.modInb ch fun _ => { i with q := t, part := m.words.tail, pend := placesAfter 1 m.place }
      (m.words.headD 0, c2.passUnits h m.carry)
    | [] => (0, c1)

/-- `n` words queued for a foreign channel. -/
def Core.popWords (c : Core) (ch h : Nat) : Nat → List Word × Core
  | 0 => ([], c)
  | n + 1 =>
    let (w, c1) := c.popWord ch h
    let (ws, c2) := Core.popWords c1 ch h n
    (w :: ws, c2)

/-- The place in the inbox ring of the next word queued for a foreign channel, and whether it is a word of a poisoned message that is
held beside the ring. -/
def Core.nextPlace (c : Core) (ch h : Nat) : Nat × Bool :=
  let i := (c.skipEmpty ch h (c.inb ch).q.length).inb ch
  if i.part.isEmpty then
    match i.q with
    | m :: _ => let x := (m.place.drop 2).headD besideRing; (x, m.poison && x == besideRing)
    | [] => (besideRing, false)
  else ((i.pend.drop 2).headD besideRing, false)

/-- Those of the next `n` words. -/
def Core.nextPlaces (c : Core) (ch h : Nat) : Nat → List (Nat × Bool)
  | 0 => []
  | n + 1 => c.nextPlace ch h :: Core.nextPlaces (c.popWord ch h).2 ch h n

/-- The units of the messages that the next `n` words of a foreign channel reach first. -/
def Core.reachedUnits (c : Core) (ch h n : Nat) : List OUnit :=
  let q := (c.inb ch).q
  (q.take (q.length - (((c.popWords ch h n).2).inb ch).q.length)).flatMap (·.carry)

/-- The object on which holder `h` cannot take one of some units, were it to take them one after another (R62): an event whose COUNT would
pass 2^32 − 1, or a barrier record on which it has an arrival entry already, to whose COUNT, a generation, nothing adds (R335; DEDUCED,
log 84). -/
def Core.takesOver (c : Core) (h : Nat) : List OUnit → Option Word
  | [] => none
  | u :: t =>
    if u.bar && (c.oblOf h true u.obj).isSome then some (barW3 u.obj.toNat)
    else
      match c.unitOverflow h [u] with
      | some e => some (evW3 e)
      | none => Core.takesOver (c.takeUnit h u) h t

/-- A word at an offset of the inbox is read under the rules of local store: an expired granule raises 0x05 and a poisoned sector 0x06
(R35, R88, R390). -/
def inboxWord (off : Nat) : M PUnit := do
  let s ← getS
  let k ← me
  if s.expiredAt k off then fault (faultAt 0x05 (BitVec.ofNat 64 off))
  modBoth fun s => s.secded k off 8
  let s ← getS
  if s.poisonAt k off 8 then
    modBoth fun s => s.poisonUsed k off
    fault (faultAt 0x06 (BitVec.ofNat 64 off))

/-- A word of a message is read at its place in the inbox. One held beside the ring (`true`: of a poisoned message, R392) is in no
granule. -/
def readPlace (x : Nat × Bool) : M PUnit := do
  let k ← me
  if x.1 < inboxBytes k / 8 then inboxWord ((if isSvc k then 0x7C000 else 0x1E000) + 8 * x.1)
  else if x.2 then
    countTile 7
    fault (faultAt 0x06 0)

/-- The places of the next `n` words of the running activation's own triggering message. -/
def Core.ownPlaces (c : Core) (n : Nat) : List (Nat × Bool) :=
  (List.range (Nat.min n c.act.msg.words.length)).map fun i =>
    let x := c.act.msg.place.getD (2 + i) besideRing
    (x, c.act.msg.poison && x == besideRing)

/-- `n` words of the running activation's own triggering message; beyond its end zero (R45). -/
def Core.popOwn (c : Core) (n : Nat) : List Word × Core :=
  let ws := c.act.msg.words
  ((List.range n).map fun i => ws.getD i 0,
    c.modAct fun a => { a with msg := { a.msg with words := ws.drop n, place := placesAfter n a.msg.place } })

/-- The words a q read dequeues are noted in the chunk with their places, so that a squash queues them again. -/
def Core.notePop (c : Core) (ch : Nat) (ws : List Word) (ps : List (Nat × Bool)) : Core :=
  { c with ord := { c.ord with chunk := { c.ord.chunk with pops := (ch, ws, ps.map (·.1)) :: c.ord.chunk.pops } } }

/-- The channel that q selector `i` is bound to (R248). -/
def Act.qBound (a : Act) (i : Nat) : Option Nat := find a.sync.qb i

/-- What a q operand of `n` words waits for: its rank check and predicate; none on the activation's own channel, and fault
0x0C while unbound (R127, R219). -/
def qWait (i n : Nat) : M (List (Word × Option Nat) × List Pred) := do
  let c ← myCore
  match c.act.qBound i with
  | none => fault (objFault 0)
  | some ch =>
    if ch = c.act.chan then return ([], [])
    return ([(chanW3 ch, some (c.chan ch).rank.toNat)], [.words ch n])

/-- The words of a q operand dequeued, after its wait (R127), as reads of the inbox (R88, R392); what the messages reached carry must fit
the reader's obligations, else 0x0C (R62). -/
def qTake (i n : Nat) : M (List Word) := do
  let c ← myCore
  match c.act.qBound i with
  | none => fault (objFault 0)
  | some ch =>
    let h := holderOf c.runSlot
    if ch = c.act.chan then
      (c.ownPlaces n).forM readPlace
      modMe fun c => (c.popOwn n).2.notePop ch (c.act.msg.words.take n) (c.ownPlaces n)
      return (c.popOwn n).1
    else
      (c.nextPlaces ch h n).forM readPlace
      match c.takesOver h (c.reachedUnits ch h n) with
      | some w3 => fault (objFault w3)
      | none => pure ()
      modMe fun c => (c.popWords ch h n).2.notePop ch (c.popWords ch h n).1 (c.nextPlaces ch h n)
      return (c.popWords ch h n).1

/-- ReadOp(sel, scalar) (R127). -/
def readOp (sel : Sel) : M Word := do
  let n := sel.toNat
  if n = 0 then return 0
  if n ≤ 55 then return (← myCore).reg n
  let (cs, ps) ← qWait (n - 56) 1
  waitLocal false cs ps
  return (← qTake (n - 56) 1).headD 0

/-- WriteOp(sel, scalar, x) (R126). -/
def writeOp (sel : Sel) (x : Word) : M PUnit := modMe fun c => c.setReg sel.toNat x

/-- The next PC of the instruction. -/
def jump (pc : Word) : M PUnit := fun c => .ok ((), { c with npc := pc })

/-- The sequential successor of the instruction (R111), before any jump. -/
def nextPc : M Word := fun c => .ok (c.npc, c)

/-- The cycles the instruction takes, where the manual gives an exact figure. -/
def takes (n : Nat) : M PUnit := fun c => .ok ((), { c with cost := n })

/-! ## Vector operands (R216, R219) -/

/-- A vector operand is a ring slot; a q beat. -/
def vIsRing (o : VOp) : Bool := decide (16 ≤ o.sel.toNat) && decide (o.sel.toNat < 32)
def vIsQ (o : VOp) : Bool := decide (32 ≤ o.sel.toNat)

/-- The ring handle of a ring operand. -/
def vHandle (o : VOp) : Nat := o.sel.toNat - 16

/-- The fault 0x15 of a vector instruction at its own PC (R210, R219). -/
def vecFault (c : Core) (sub slot ring off : Nat) : FaultRec :=
  { code := 0x15, sub := sub, pc := c.act.pc, addr := BitVec.ofNat 64 off,
    w5 := BitVec.ofNat 64 (slot * 2 ^ 26 + ring * 2 ^ 22 + 2 ^ 16 + sub), w6 := c.act.pc, w7 := BitVec.ofNat 64 off }

/-- The offset of the beat that a ring source reads; of the beat that a ring destination writes (R216). -/
def Ring.readOff (r : Ring) (s : Nat) : Nat := r.slotOff (r.tail.toNat + s) + 64 * r.rcur.toNat
def Ring.writeOff (r : Ring) (s : Nat) : Nat := r.slotOff (r.head.toNat + s) + 64 * r.wcur.toNat

/-- The next cursor value: (x + 1) mod 2^(SLOG − 6) (R216). -/
def Ring.bump (r : Ring) (x : BitVec 6) : BitVec 6 := BitVec.ofNat 6 ((x.toNat + 1) % 2 ^ (r.slog.toNat - 6))

/-- A ring operand is configured and its slot exists, else 0x11 (R216). -/
def ringCheck (o : VOp) : M PUnit := do
  if vIsRing o then
    let r := (← myCore).ring (vHandle o)
    if r.count = 0 ∨ r.count.toNat ≤ o.slot.toNat then fault (ringFault (vHandle o))

/-- What a source operand waits for. -/
def srcWait (o : VOp) : M (List (Word × Option Nat) × List Pred) := do
  if vIsRing o then
    let r := (← myCore).ring (vHandle o)
    return ([(ringW3 (vHandle o), some r.rank.toNat)], [.filled (vHandle o) o.slot.toNat])
  if vIsQ o then qWait (o.sel.toNat - 32) 8
  else return ([], [])

/-- What a destination operand waits for. -/
def dstWait (o : VOp) : M (List (Word × Option Nat) × List Pred) := do
  if vIsRing o then
    let r := (← myCore).ring (vHandle o)
    return ([(ringW3 (vHandle o), some r.rank.toNat)], [.room (vHandle o) o.slot.toNat])
  else return ([], [])

/-- The leader of a gang mask: its lowest column (R230). -/
def leaderCol (mask : BitVec 8) : Nat := ((List.range 8).find? fun i => mask.getLsbD i).getD 0

/-- The rings that a matrix operation of newt `k` reads: a member of a gang other than its leader ignores its A ring (R229, R230). -/
def MKind.rings (c : Core) (k : Nat) : MKind → List Nat
  | .mma _ _ hb hc => [hb, hc]
  | .gmma _ _ hb hc _ => if leaderCol c.ctl.gangm = k % 8 then [hb, hc] else [hc]
  | _ => []

/-- The image that a matrix operation reads (R233). -/
def MOp.imageRead (o : MOp) : List (Nat × Nat) :=
  match o.kind with
  | .mld _ _ => o.range.toList
  | _ => []

/-- The local ranges that a running matrix operation of newt `k` reads (R212). -/
def MOp.reads (c : Core) (k : Nat) (o : MOp) : List (Nat × Nat) :=
  if o.started then
    ((o.kind.rings c k).map fun h => ((c.ring h).slotOff (c.ring h).tail.toNat, 4096)) ++ o.imageRead
  else []

/-- The ranges that the engines of newt `k` are reading: a running matrix operation's, and those of the COPY that the pump has reached. -/
def Core.readRanges (c : Core) (k : Nat) : List (Nat × Nat) := c.eng.mq.flatMap (·.reads c k) ++ c.eng.pump.rd.toList

/-- The local range of a ring. -/
def Ring.span (r : Ring) : Nat × Nat := (r.base.toNat, r.count.toNat * 2 ^ r.slog.toNat)

/-- The ranges that queued matrix operations of newt `k` are still to read: any slot of their rings, or their image (R217; DEDUCED,
log 61). -/
def Core.queuedReads (c : Core) (k : Nat) : List (Nat × Nat) :=
  (c.eng.mq.filter (!·.started)).flatMap fun o => ((o.kind.rings c k).map fun h => (c.ring h).span) ++ o.imageRead

/-- A stale or poisoned operand beat raises 0x15 at the instruction, word 7 naming the failing sector (R219, R88, R210). An access that
meets a reserved range, or a write that meets a range an engine reads, waits (R212, R291). -/
def beatCheck (o : VOp) (off : Nat) (wr : Bool) : M PUnit := do
  let c ← myCore
  let k ← me
  let s ← getS
  let at_ (sub x : Nat) : FaultRec :=
    vecFault c sub ((off - (c.ring (vHandle o)).base.toNat) / 2 ^ (c.ring (vHandle o)).slog.toNat) (vHandle o) x
  if c.reserved off 64 ∨ (wr ∧ (c.readRanges k).any fun x => overlaps x.1 x.2 off 64) then stall
  if s.expiredAt k off then fault (at_ 3 off)
  if !wr then
    modBoth fun s => s.secded k off 64
    let s ← getS
    if s.poisonAt k off 64 then
      countTile 7
      fault (at_ 4 (if s.poisonAt k off 32 then off else off + 32))

/-- The 64 bytes of a source operand (R219). -/
def readV (o : VOp) : M (BitVec 512) := do
  let c ← myCore
  if vIsRing o then
    let off := (c.ring (vHandle o)).readOff o.slot.toNat
    beatCheck o off false
    let s ← getS
    return BitVec.ofNat 512 (leNat (s.cellsAt s.turn off 64))
  if vIsQ o then
    let ws ← qTake (o.sel.toNat - 32) 8
    return BitVec.ofNat 512 (leNat (ws.flatMap fun w => leBytes 8 w.toNat))
  return Table.get 0 c.vec.v o.sel.toNat

/-- The sources read in operand order. -/
def readVs : List VOp → M (List (BitVec 512))
  | [] => return []
  | o :: t => do
    let x ← readV o
    let xs ← readVs t
    return x :: xs

/-- The rings of a list of operands, without repeats. -/
def ringsOf : List VOp → List Nat
  | [] => []
  | o :: t => if vIsRing o then insertNat (vHandle o) (ringsOf t) else ringsOf t

/-- The read cursors of the rings read advance once (R216). -/
def Core.bumpRead (c : Core) : List Nat → Core
  | [] => c
  | h :: t => Core.bumpRead (c.setRing h { c.ring h with rcur := (c.ring h).bump (c.ring h).rcur }) t

/-- WriteOp in the vector context (R216, R219): a register, or the beat of a ring slot as a 64-byte engine write, whose
cursor advances. A write into a granule with P = 1 sets the side-effect flag (R209). -/
def writeV (o : VOp) (x : BitVec 512) : M PUnit := do
  if vIsRing o then
    let k ← me
    let r := (← myCore).ring (vHandle o)
    let off := r.writeOff o.slot.toNat
    modS fun s =>
      let s1 := if (s.core k).ls.persist off then s.setSide k (s.core k).runSlot else s
      s1.modStore k off fun _ l => l.land s.fade (s.retn k) false off (leBytes 64 x.toNat) false
    modMe fun c => c.setRing (vHandle o) { c.ring (vHandle o) with wcur := r.bump r.wcur }
  else
    modMe fun c => { c with vec := { c.vec with v := Table.set c.vec.v o.sel.toNat x } }

/-- The gathering of a vector instruction's operands (R208, R216, R219): the deferred fault first, then the ring checks, one
commit point for all ring and q operands with the rank checks in the order A, B, C, D, and the reads together. `dst` is the
destination where it is a vector operand. -/
def gather (dst : Option VOp) (srcs : List VOp) : M (List (BitVec 512)) := do
  checkDeferred
  let d := dst.toList
  (d ++ srcs).forM ringCheck
  let w0 ← d.mapM dstWait
  let w1 ← srcs.mapM srcWait
  let ws := w0 ++ w1
  if (d ++ srcs).any fun o => vIsRing o || vIsQ o then
    waitLocal true (ws.flatMap (·.1)) (ws.flatMap (·.2))
  let c ← myCore
  d.forM fun o => if vIsRing o then beatCheck o ((c.ring (vHandle o)).writeOff o.slot.toNat) true else pure ()
  let xs ← readVs srcs
  modMe fun c => c.bumpRead (ringsOf srcs)
  return xs

/-- A scalar selector names a q operand. -/
def isQSel (b : Sel) : Bool := decide (56 ≤ b.toNat)

/-- The gathering of `vbcast`: a vector destination and a scalar source, which may be a q operand, at one commit point (R216,
R226). -/
def gatherScalar (d : VOp) (b : Sel) : M Word := do
  checkDeferred
  ringCheck d
  let w0 ← dstWait d
  let w1 ← if isQSel b then qWait (b.toNat - 56) 1 else pure ([], [])
  if vIsRing d || isQSel b then waitLocal true (w0.1 ++ w1.1) (w0.2 ++ w1.2)
  let c ← myCore
  if vIsRing d then beatCheck d ((c.ring (vHandle d)).writeOff d.slot.toNat) true
  if isQSel b then return (← qTake (b.toNat - 56) 1).headD 0
  else return if b = 0 then 0 else c.reg b.toNat

end Sys2Proof.Machine
end

