-- ==== Sys2Proof/Machine/Fetch.lean ====
section
/-! DEFINITION. Fetching the next instruction of a running activation (R109 to R114, R123, R181): the checks of R113 in
their order, with the fault record words of R114. -/

namespace Sys2Proof.Machine

/-- The halfwords of a code line from its bytes (R109). -/
def lineOfBytes : List Byte → Line
  | b0 :: b1 :: t => (b0.toNat + 256 * b1.toNat) :: lineOfBytes t
  | _ => []

/-- The fault 0x01 of a reason, at the activation's PC, with the head and tail where the reason is 1 to 5 (R114). -/
def illegalFault (a : Act) (reason : Nat) (p : Parts) : FaultRec :=
  { code := 0x01, sub := reason, pc := a.pc
    w5 := BitVec.ofNat 64 (reason * 65536 + (if reason = 6 then 0 else p.head.toNat))
    w6 := if reason = 6 then 0 else p.tail.setWidth 64
    w7 := a.src }

/-- The fault 0x02 at the activation's PC (R114). -/
def slotFault (a : Act) : FaultRec := { code := 0x02, pc := a.pc, w7 := a.src }

/-- An opcode that a service core does not have: 0x80 to 0xA7, since its only engine is the pump (R207, R365). -/
def noEngineOp (k : Nat) (p : Parts) : Bool := isSvc k && decide (0x80 ≤ p.op.toNat) && decide (p.op.toNat < 0xA8)

/-- What a fetch comes to: an instruction with H of its line, a fault, or a wait for a held home, each with the state it leaves. -/
inductive Fetched where
  | instr (i : Instr) (hdr : Nat) (s : State)
  | fault (r : FaultRec) (s : State)
  | wait (s : State)

/-- The core that fetches and caches line number `n` of core `k`'s activation: `k`, or the lizard's member (n xor (n >> 6)) mod its
size, counted from the head (R269). -/
def State.fetcher (s : State) (k n : Nat) : Nat :=
  let c := s.core k
  if c.inLiz then k + Nat.xor n (n / 64) % c.ctl.lizn else k

/-- The place of code line number `n` in the instruction cache: a level-F line of a service core, which other tables map, has another than a
level-S line (R366). -/
def State.lineKey (s : State) (k n : Nat) : Nat := if s.level k = 2 then n + 2 ^ 58 else n

/-- The code line number `n` leaves the instruction cache that holds it: it is fetched afresh (R123). -/
def State.dropLine (s : State) (k n : Nat) : State :=
  s.modCore (s.fetcher k n) fun c => { c with icache := drop c.icache (s.lineKey k n) }

/-- The bytes of the code line of core `k` at line number `n`: those of the instruction cache that serves it (R269) or those at the
line's home, with the state afterwards; none while a held home delays the read (R283). Where the two differ, which version is decoded
is a free choice, until a `fence` of kind i discards the cache (R123, R181). -/
def State.codeLine (s : State) (k n : Nat) (d : Dest) (home pa : Nat) : Option (List Byte) × State :=
  let m := s.fetcher k n
  let cur := s.globalBytes d pa 64
  let held := s.readDelayed k home (n / 4)
  let fill (s : State) : State := s.modCore m fun c => { c with icache := Table.set c.icache (s.lineKey k n) cur }
  match find (s.core m).icache (s.lineKey k n) with
  | none => if held then (none, s) else (some cur, fill (s.drew d 64))
  | some old =>
    if old = cur then (some cur, s)
    else
      let s1 : State := { s with freeCount := s.freeCount + 1 }
      if held ∨ Config.freeNat s.freeCount % 2 = 0 then (some old, s1) else (some cur, fill s1)

/-- Checks 3 to 10 of R113 on a line's bytes: the instruction of slot `slot`, or the fault. -/
def decodeSlot (k : Nat) (a : Act) (l : Line) (slot : Nat) : Except FaultRec Instr :=
  if slot = 0 ∨ 31 < slot then .error (slotFault a)
  else if !Line.wellFormed l then .error (illegalFault a 6 (Line.parts l slot))
  else if Line.count l < slot then .error (slotFault a)
  else if noEngineOp k (Line.parts l slot) then .error (illegalFault a 1 (Line.parts l slot))
  else
    match decodeParts (Line.parts l slot) with
    | .error n => .error (illegalFault a n (Line.parts l slot))
    | .ok i => .ok i

/-- The fetch of the next instruction of core `k`'s running activation (R113). R113 does not place the check of a poisoned code line: it
is made once the line's address has translated, before the line is read (DESIGN CHOICE, log 53). -/
def State.fetch (s : State) (k : Nat) : Fetched :=
  let a := (s.core k).act
  let p := a.pc.toNat
  let la := p / 64 * 64
  if bitsOf p 63 57 ≠ 0 then .fault { faultAt 0x08 (BitVec.ofNat 64 la) with pc := a.pc } s
  else
    match s.xlateOf k (s.level k) .fetch la with
    | (.fault code info home, s1) => .fault { xlFault .fetch la code info home with pc := a.pc } s1
    | (.ok pa home d, s1) =>
      if (d = .home ∨ d = .edge) ∧ s1.phys.poisoned d pa 64 then .fault { faultAt 0x06 (BitVec.ofNat 64 la) with pc := a.pc } s1
      else
        match s1.codeLine k (p / 64) d home pa with
        | (none, s2) => .wait s2
        | (some bs, s2) =>
          let l := lineOfBytes bs
          match decodeSlot k a l (p % 64) with
          | .ok i => .instr i (Line.count l) s2
          | .error r => .fault r s2

/-- The slot of the next PC of core `k` is one of its line's: not above the line's H (R123). A line that cannot be fetched has no H. -/
def State.slotOfLine (s : State) (k : Nat) : Bool :=
  let p := (s.core k).act.pc.toNat
  match s.xlateOf k (s.level k) .fetch (p / 64 * 64) with
  | (.ok pa home d, s1) =>
    match (s1.codeLine k (p / 64) d home pa).1 with
    | some bs => decide (1 ≤ p % 64) && decide (p % 64 ≤ Line.count (lineOfBytes bs))
    | none => true
  | (.fault .., _) => true

end Sys2Proof.Machine
end

