-- ==== Sys2Proof/Machine/Sched.lean ====
section
/-! DEFINITION. Activations (R40 to R53): selection, dispatch and resumption. -/

namespace Sys2Proof.Machine

/-- Channels of core `k` (R30, R365). -/
def chanCount (k : Nat) : Nat := if isSvc k then 64 else 32

/-- Channel `ch` exists on core `k` (R30, R365): channels 0 to 31 of a service core only on its partition's first tile. -/
def State.hasChan (s : State) (k ch : Nat) : Bool :=
  decide (ch < chanCount k) &&
    (!isSvc k || decide (32 ≤ ch) || (match s.owner k with
      | some p => s.partFirst p == tileOf k
      | none => false))

/-- Pre-empt pending of the newt's partition (R345, R346): set from STATE 1 to 6. A service core is not drained. -/
def State.pending (s : State) (k : Nat) : Bool :=
  !isSvc k && (match s.owner k with
    | some p => (s.part p).pre.state != 0
    | none => false)

/-- STATE of the partition of core `k`; 0 without one. -/
def State.preState (s : State) (k : Nat) : Nat :=
  match s.owner k with
  | some p => (s.part p).pre.state.toNat
  | none => 0

/-- Nothing of the core runs: its tile is not ready (R26, R27), or the newt is being saved, held or restored (STATE 3 to 5; R349 to R353). -/
def State.frozen (s : State) (k : Nat) : Bool :=
  !(s.tile (tileOf k)).ready || (!isSvc k && decide (3 ≤ s.preState k) && decide (s.preState k ≤ 5))

/-- The first free slot of a list. -/
def Core.firstFree (c : Core) (l : List Nat) : Option Nat := l.find? fun i => (c.slot i).st == .free

/-- The slot available to a new activation of channel `ch` (R40, R365): on a newt slots 0 to 6, for channels 29 to 31 slot 7
first; the notice that brings a moved activation back runs in its slot (R354). Which of several free slots is claimed is the
lowest (DESIGN CHOICE, log 18). -/
def Core.slotFor (c : Core) (k ch : Nat) : Option Nat :=
  match (if ch = 30 then c.moved else none) with
  | some (i, _) => c.firstFree [i]
  | none =>
    if isSvc k then c.firstFree (List.range 16)
    else if ch < 29 then c.firstFree (List.range 7)
    else c.firstFree (7 :: List.range 7)

/-- Channel `ch` is bound to a q operand of a live activation (R41). -/
def Core.boundQ (c : Core) (ch : Nat) : Bool :=
  let binds (a : Act) : Bool := a.sync.qb.any fun b => b.2 == ch
  c.slots.any (fun e => e.2.st != .free && binds e.2) || c.moved.any fun m => binds m.2

/-- The message at the head of channel 30 is an evict or resume notice: MASK is ignored for it (R32). A software message before it holds
a notice back while the channel is masked (DESIGN CHOICE, log 104). -/
def Inq.headNotice (i : Inq) : Bool :=
  match i.q with
  | m :: _ => m.note == .evict || m.note == .resume
  | [] => false

/-- Channel `ch` is runnable as a resumption (R41). -/
def Core.readyChan (c : Core) (ch : Nat) : Bool :=
  match (c.inb ch).live with
  | some i => (c.slot i).st == .ready
  | none => false

/-- Channel `ch` is runnable as a new activation (R41). -/
def Core.newChan (c : Core) (k ch : Nat) : Bool :=
  let e := c.chan ch
  let i := c.inb ch
  i.live.isNone && e.valid && (!e.mask || (ch == 30 && i.headNotice)) && (c.slotFor k ch).isSome
    && !c.boundQ ch && (if e.mode then i.again.isSome || i.stream.any (·.eos.isSome) else !i.q.isEmpty)

/-- The head of core `k`'s lizard is running it. -/
def State.lizRunning (s : State) (k : Nat) : Bool :=
  match (s.core k).ctl.lizhead with
  | some h => (s.core h).inLiz
  | none => (s.core k).inLiz

/-- Channel 30 of core `c` has an evict or resume notice to dispatch, or its activation to go on (R268). -/
def Core.notice30Next (c : Core) : Bool :=
  match (c.inb 30).live with
  | some i => (c.slot i).life.kind == .evict || (c.slot i).life.kind == .resume
  | none => (c.inb 30).headNotice

/-- What keeps a channel of core `k` from being picked: lizard members pick channel 30 alone, for the notices of R268, the head also its
lizard; the follower of a pair runs with its leader; a halted core, and one of a tile that is not ready, runs nothing (R27, R42, R156,
R268, R401). -/
def State.mayPick (s : State) (k ch : Nat) : Bool :=
  let c := s.core k
  if c.dbg.halted || !(s.tile (tileOf k)).ready || (c.ctl.pair.isSome && !c.ctl.leader) then false
  else if c.ctl.lizhead.isSome then ch == 30 && s.pending k && !s.lizRunning k && c.notice30Next
  else if c.ctl.lizn ≠ 0 then
    (ch == 30 && s.pending k && c.notice30Next) || c.slots.any fun e => e.2.uid == c.ctl.lizact && e.2.chan == ch && c.readyChan ch
  else true

/-- Runnable (R41), and not kept from it; a channel that the core does not have starts nothing (R365). -/
def State.runnable (s : State) (k ch : Nat) : Bool :=
  s.mayPick k ch && ((s.core k).readyChan ch || (s.hasChan k ch && (s.core k).newChan k ch))

/-- One priority level of the round robin: the first runnable channel after the pointer (R42). -/
def State.scanLevel (s : State) (k pri : Nat) : Option Nat :=
  let n := chanCount k
  let last := Table.get 31 (s.core k).ctl.last pri
  ((List.range n).map fun i => (last + i + 1) % n).find? fun ch =>
    ch != 31 && ((s.core k).chan ch).pri.toNat == pri && s.runnable k ch

/-- Selection (R42): the channel, and the priority level whose pointer moves. -/
def State.select (s : State) (k : Nat) : Option (Nat × Option Nat) :=
  if (s.core k).ctl.run.isSome || s.frozen k then none
  else if s.pending k then (if s.runnable k 30 then some (30, none) else none)
  else if s.runnable k 31 then some (31, none)
  else
    match [3, 2, 1, 0].findSome? fun p => (s.scanLevel k p).map fun ch => (ch, some p) with
    | some x => some x
    | none => none

/-- The round-robin pointer moved (R42). -/
def Core.moveLast (c : Core) (ch : Nat) : Option Nat → Core
  | some p => c.modCtl fun x => { x with last := Table.set x.last p ch }
  | none => c

/-- A fresh chunk for an activation that begins or resumes (R281). -/
def Core.freshChunk (c : Core) : Core :=
  { c with
    ord := { c.ord with chunk := c.ord.chunk.next c.ctl.nchunk }
    ctl := { c.ctl with nchunk := c.ctl.nchunk + 1 } }

/-- The frame of a new activation (R44). -/
def frameOf (m : Msg) (len : Nat) (seq : BitVec 32) (slot ch : Nat) : Table Word :=
  [(56, m.route), (57, BitVec.ofNat 64 len), (58, m.first), (59, actWord seq slot ch)]

/-- The context a notice handler acts on (R279). -/
def Note.target : Note → Option (Nat × Nat × Nat × BitVec 32)
  | .context t k i q => some (t, k, i, q)
  | _ => none

/-- The fault CSRs loaded from a held context's record (R160). -/
def Held.csrs (h : Held) : FCsr :=
  let r := h.frec
  let sub := if r.code = 0x01 ∨ r.code = 0x15 then r.sub else 0
  { cause := BitVec.ofNat 17 ((if r.liz then 0x10000 else 0) + sub * 256 + r.code)
    pc := r.pc
    addr := r.addr
    newt := BitVec.ofNat 25 (0x1000000 + h.slot * 0x100000 + h.core % 0x100000)
    info := r.finfo }

/-- The name of a held context. -/
def Held.ctx (h : Held) : Nat × Nat × BitVec 32 := (h.core, h.slot, h.act)

/-- The context that a new activation of channel `ch` of a service core is dispatched to handle (R160, R329): at level F, the oldest one
its tile holds that no activation handles (DESIGN CHOICE, log 92). -/
def State.toHandle (s : State) (k ch : Nat) : Option Held :=
  if isSvc k && decide (32 ≤ ch) then
    (s.tile (tileOf k)).svc.held.find? fun h => !(s.core k).slots.any fun e => e.2.life.ctx == some h.ctx
  else none

/-- The end-of-stream message of a stream (R38). -/
def Stream.eosMsg (st : Stream) : Msg := st.eos.getD {}

/-- The triggering message or stream as the network interface keeps it for a replay (R51). -/
def Inq.kept (i : Inq) (mode : Bool) : Option Msg × Option Stream :=
  if mode then (none, match i.again with
    | some st => some st
    | none => i.stream)
  else (i.q.head?, none)

/-- What a channel gives a new activation, and the interface without it: in message mode the message at the head of the
queue; in stream mode the stream (R38, R41): message, length word, units, inbox. -/
def Inq.takeNew (i : Inq) (mode : Bool) : Option (Msg × Nat × List OUnit × Inq) :=
  if mode then
    match i.again, i.stream with
    | some st, _ => some ({ st.eosMsg with words := [] }, st.bytes, st.carry, { i with again := none })
    | none, some st =>
      if st.eos.isSome then some ({ st.eosMsg with words := [] }, st.bytes, st.carry, { i with stream := none }) else none
    | none, none => none
  else
    match i.q with
    | m :: t => some (m.start, m.len, m.carry, { i with q := t })
    | [] => none

/-- A new activation of channel `ch` begins in slot `i` on message `m` of length word `len` (R43, R44, R50). -/
def Core.startAct (c : Core) (ch i : Nat) (m : Msg) (len : Nat) (life : ActLife) : Core :=
  let e := c.chan ch
  let seq := c.ctl.seq
  let a : Act :=
    { st := .running
      chan := ch
      uid := c.ctl.nact
      seq := seq
      pc := e.hpc.setWidth 64
      count := (if e.budget = 0 then 1 else e.budget.toNat) * 32
      budget := e.budget
      wsp := e.wsp
      msg := m
      sync := { qb := [(0, ch)] }
      life := life }
  { c with slots := Table.set c.slots i a, regs := frameOf m len seq i ch }.modCtl
    fun x => { x with seq := x.seq + 1, nact := x.nact + 1, run := some i }

/-- What a new activation keeps of its message, and of the held context that it is dispatched to handle (R51, R160, R329, R340). -/
def Held.life (h : Option Held) (m : Msg) (kept : Option Msg × Option Stream) : ActLife :=
  { tag := m.tag, notice := m.note.target, kind := m.note, whole := kept.1, flow := kept.2, bad58 := m.poison && decide (8 ≤ m.len),
    ctx := h.map Held.ctx, fcsr := (h.map Held.csrs).getD {} }

/-- Dispatch of a new activation of channel `ch` in slot `i` (R43, R44, R50). -/
def State.dispatch (s : State) (k ch i : Nat) (pri : Option Nat) : State :=
  let c := s.core k
  let e := c.chan ch
  match (c.inb ch).takeNew e.mode with
  | none => s
  | some (m, len, us, inb) =>
    let c1 := (c.modInb ch fun _ => { inb with live := some i }).startAct ch i m len
      (Held.life (s.toHandle k ch) m ((c.inb ch).kept e.mode))
    s.setCore k (((c1.passUnits (holderOf i) us).moveLast ch pri).freshChunk)

/-- Words 0 to 59 of a workspace as a register table: word 0 holds the saved PC of a suspended activation (R43, R44, R46). -/
def regsOfBytes (bs : List Byte) : Table Word :=
  ((List.range 60).map fun j => (j, BitVec.ofNat 64 (leNat ((bs.drop (8 * j)).take 8)))).filter fun e => e.2 != 0

/-- Resumption of the ready activation in slot `i` (R43, R46): its workspace granule, or the image that the service core
returns (R153), is read back, and it issues at the saved PC. An expired or poisoned workspace granule raises its fault
there (R46, R88), with no registers read back (DESIGN CHOICE, log 100). The line it resumes at is fetched afresh (R123). -/
def State.resumeSlot (s : State) (k ch i : Nat) (pri : Option Nat) : State :=
  let c := s.core k
  let a := c.slot i
  let c1 := (((c.modSlot i fun a => { a with
    st := .running, src := if a.image.isSome then a.src else 0, image := none }).modCtl
    fun x => { x with run := some i }).moveLast ch pri).freshChunk
  let s1 := s.setCore k { c1 with regs := [] }
  let s1 := s1.dropLine k (a.pc.toNat / 64)
  let off := a.wspOff
  match a.image with
  | some img => s1.modCore k fun c => { c with regs := img }
  | none =>
    if s1.expiredAt k off then s1.raise k { faultAt 0x05 (BitVec.ofNat 64 off) with pc := a.pc }
    else
      let s2 := s1.secded k off 512
      if s2.poisonAt k off 512 then (s2.poisonUsed k off).raise k { faultAt 0x06 (BitVec.ofNat 64 off) with pc := a.pc }
      else s2.modCore k fun c => { c with regs := regsOfBytes (s2.cellsAt k off 512) }

/-- `n` cycles and a free stall pass in which no instruction of the stepping core is executed. -/
def State.elapse (s : State) (n : Nat) : State :=
  { s with cycle := s.cycle + n + Config.stall s.freeCount, freeCount := s.freeCount + 1 }

/-- Time in which core `k` begins or resumes an activation: it is not charged to that activation, which issues nothing yet (R50). -/
def State.elapseFor (s : State) (k n : Nat) : State :=
  let s1 := s.elapse n
  { s1 with paid := Table.set s1.paid k (Table.get 0 s1.paid k + (s1.cycle - s.cycle)) }

/-- Some core of a ready tile that is not halted and follows no leader runs an activation. -/
def State.anyRuns (s : State) : Bool :=
  s.cores.any fun e => e.2.ctl.run.isSome && !e.2.dbg.halted && !(e.2.ctl.pair.isSome && !e.2.ctl.leader) && (s.tile (tileOf e.1)).ready

/-- The turn of a core that has nothing to run: time passes with the running activations, if there are any (R50; DESIGN CHOICE, log 5). -/
def State.idle (s : State) : State := if s.anyRuns then s else s.elapse 1

/-- DISPATCH_NEW_ACTIVATION: with no activation running, core `k` selects a runnable channel and starts a new activation of it
(R42, R43). Nothing changes where selection gives no new activation. -/
def execDispatchNewActivation (k : Nat) (s : State) : Host.Outcome State Fault Refusal :=
  match s.select k with
  | some (ch, pri) =>
    if (s.core k).readyChan ch then .next s
    else
      match (s.core k).slotFor k ch with
      | some i => .next (((s.dispatch k ch i pri).mirror k).elapseFor k 1)
      | none => .next s
  | none => .next s

/-- RESUMPTION: the ready activation that core `k` selects runs on (R42, R43, R46). Nothing changes where selection gives
none. -/
def execResumption (k : Nat) (s : State) : Host.Outcome State Fault Refusal :=
  match s.select k with
  | some (ch, pri) =>
    match (s.core k).readyChan ch, ((s.core k).inb ch).live with
    | true, some i => .next (((s.resumeSlot k ch i pri).mirror k).elapseFor k 1)
    | _, _ => .next s
  | none => .next s

end Sys2Proof.Machine
end

