-- ==== Sys2Proof/Machine/Life.lean ====
section
/-! DEFINITION. The end of activations: retirement (R49), re-evaluation of waits (R353), activations moved out of their slot
(R347, R354), and kills (R70, R213, R336, R337). -/

namespace Sys2Proof.Machine

/-! ## Records of kills -/

/-- What of a record reaches the host administrator (R379): for a confidential partition code and class alone; words 1 to 7 are zero. -/
def adminView (conf : Bool) (ws : List Word) : List Word :=
  if conf then (ws.headD 0 &&& 0xFFF#64) :: List.replicate 7 0 else ws

/-- The record of a kill on tile `tl` appended to the partition's fault log (R333, R399); TELBASE = 0 disables the log (R397). The host
administrator has its view of it, with the tile and the time (R379). -/
def State.logKill (s : State) (p tl : Nat) (ws : List Word) : State :=
  let t := (s.part p).tel
  let note : AdminFault := ⟨p, tl, s.cycle, adminView (s.part p).conf ws⟩
  let s := { s with host := { s.host with faults := s.host.faults ++ [note] } }
  if t.base = 0 then s
  else
    (s.agentWrite p (t.base.toNat + 0x1000 + 64 * (t.flog.toNat % 256)) (wordBytes ws)).modPart p fun x =>
      { x with tel := { x.tel with flog := x.tel.flog + 1 } }

/-! ## Waits re-evaluated (R353) -/

/-- The wait of the suspended activation in slot `i` tested again, and registered again at its home (R74, R353 step 5). -/
def State.reeval (s : State) (k i : Nat) : State :=
  let a := (s.core k).slot i
  let p := (s.owner k).getD 4096
  let wake (b : Bool) (s : State) : State := s.modCore k fun c => c.modSlot i (·.wake b)
  let again (s : State) : State := s.modCore k fun c => c.modSlot i fun a => { a with st := .ready }
  match a.sync.wait with
  | [.event n v] =>
    match s.event p n.toNat with
    | some e => if reached e.counter v then wake e.poison s else s.registerEv p n.toNat (.act k i) v
    | none => again s
  | [.bar va c] =>
    match s.xlateOf k (levelOf k a.chan) .atomic va.toNat with
    | (.ok pa _ d, s1) =>
      let b := s1.barAt d pa
      if barDone b.gen c then wake b.poison s1
      else { s1 with bars := s1.bars ++ [⟨p, va, pa, c, some (k, i)⟩] }
    | (.fault .., s1) => again s1
  | _ => s.modCore k Core.wakeLocal

/-! ## Activations moved out of their slot (R347, R354) -/

/-- The HOLDER and the output-buffer slot number under which a moved activation's entries are kept while a notice uses its
slot (DESIGN CHOICE, log 21). -/
def movedAs (i : Nat) : Nat := 32 + i

/-- The obligations of holder `h` given to holder `h'`, and the output-buffer entries of slot `i` to `i'`. -/
def Core.rehold (c : Core) (h h' i i' : Nat) : Core :=
  let f (o : Obl) : Obl := if o.holder = h then { o with holder := h' } else o
  { c with
    obl := c.obl.map f
    spilt := c.spilt.map f
    ord := { c.ord with ob := c.ord.ob.map fun e => if e.slot = i then { e with slot := i' } else e } }

/-- The activation in slot `i` leaves it for a notice (R347). -/
def Core.moveOut (c : Core) (i : Nat) : Core :=
  let c1 := c.rehold (holderOf i) (movedAs i) i (movedAs i)
  { c1 with moved := some (i, { c1.slot i with st := .saved }), slots := drop c1.slots i }

/-- A moved activation returns to its slot: Faulted if it was, else Suspended with its wait re-evaluated (R354). -/
def State.moveBack (s : State) (k : Nat) : State :=
  match (s.core k).moved with
  | none => s
  | some (i, a) =>
    let s1 := s.modCore k fun c =>
      let c1 := c.rehold (movedAs i) (holderOf i) (movedAs i) i
      { c1 with
        moved := none
        slots := Table.set c1.slots i { a with
          st := if a.life.fault.isSome then .faulted else if a.sync.wait.isEmpty then .ready else .suspended } }
    if a.life.fault.isSome ∨ a.sync.wait.isEmpty then s1 else s1.reeval k i

/-- The end of a newt's resume notice: the newt has left STATE 6 and its moved activation returns (R354). -/
def State.endResume (s : State) (k : Nat) : State :=
  (s.modCore k fun c => c.modCtl fun x => { x with resuming := false }).moveBack k

/-! ## Slots freed -/

/-- The slot of an activation freed: LIVE := 0, and the unread words of its message freed (R45, R49, R336). -/
def State.freeSlot (s : State) (k i : Nat) : State :=
  let a := (s.core k).slot i
  let s1 := s.modCore k fun c =>
    let c1 := c.modInb a.chan fun x => { x with live := none }
    { c1 with slots := drop c1.slots i }
  if a.life.kind = .resume then s1.endResume k else s1

/-- The progress counter of a queue one higher; its stall period starts again (R340, R341). -/
def State.progress (s : State) (t : Option QTag) : State :=
  match t with
  | none => s
  | some t => s.modPart t.part fun x =>
      let w := Table.get {} x.wd t.q
      { x with wd := Table.set x.wd t.q { w with prog := w.prog + 1, since := if w.stage = 0 then s.cycle else w.since } }

/-- A context of a queue's command in service killed: the command will end faulted (R388). -/
def State.tagKilled (s : State) (t : Option QTag) : State :=
  match t with
  | none => s
  | some t => s.modPart t.part fun x =>
      let u := Table.get {} x.queues t.q
      if u.ncmd = t.cmd ∧ u.cmd.isSome then { x with queues := Table.set x.queues t.q { u with faulted := true } } else x

/-- Retirement of the running activation (R49): a lizard is released, the slot freed, its queue's progress counted. -/
def State.retireAct (s : State) (k : Nat) : State :=
  let c := s.core k
  let i := c.runSlot
  let s1 := if c.inLiz then s.unbind k else s
  ((s1.modCore k fun c => c.modCtl fun x => { x with run := none }).progress (c.slot i).life.tag).freeSlot k i

/-! ## Kills (R336) -/

/-- A completion event owed by a cancelled engine operation, signalled poisoned and discharged (R70, R210, R213). -/
def State.cancelEvent (s : State) (k p h : Nat) (ev : BitVec 16) : State :=
  if ev.toNat = Config.noEvent then s
  else (s.signal p ev.toNat 1 true).modCore k fun c => c.discharge h ev.toNat 1

/-- Several of them. -/
def State.cancelEvents (s : State) (k p h : Nat) : List (BitVec 16) → State
  | [] => s
  | e :: t => State.cancelEvents (s.cancelEvent k p h e) k p h t

/-- The accumulator of an operation, for those that may be interrupted (R235). -/
def MKind.acc : MKind → Option Nat
  | .mma _ a _ _ => some a
  | .gmma _ a _ _ _ => some a
  | _ => none

/-- The accumulator pre-image restored (R235). -/
def Core.restoreAcc (c : Core) (o : MOp) : Core :=
  match o.started, o.kind.acc with
  | true, some a => { c with vec := { c.vec with a := Table.set c.vec.a a o.pre } }
  | _, _ => c

/-- The join that an operation belongs to, if it is a `gmma`. -/
def MKind.joinNo : MKind → List Nat
  | .gmma _ _ _ _ n => [n]
  | _ => []

/-- The joins that the matrix operations of core `k` which satisfy `f` belong to are broken in every member of its gang: each member's
operation of such a join ends without effect when it comes to its head (R243). -/
def State.breakJoins (s : State) (k : Nat) (f : MOp → Bool) : State :=
  let c := s.core k
  let ns := (c.eng.mq.filter f).flatMap (·.kind.joinNo)
  let ms := ((List.range 8).filter fun i => c.ctl.gangm.getLsbD i).map (k / 8 * 8 + ·)
  if ns.isEmpty then s
  else (ms.filter fun m => (s.core m).ctl.gangm == c.ctl.gangm).foldl
    (fun s m => s.modCore m fun d => { d with eng := { d.eng with lost := d.eng.lost ++ ns } }) s

/-- Matrix operations removed from the queue; the joins they belonged to are broken (R243). -/
def State.dropM (s : State) (k : Nat) (f : MOp → Bool) : State :=
  (s.breakJoins k f).modCore k fun c => { c with eng := { c.eng with mq := c.eng.mq.filter fun o => !f o } }

/-- The engine operations of one activation cancelled (R213): a running matrix operation restores its accumulator, a running
chain stops, queued operations never start, and every completion event is discharged poisoned. -/
def State.cancelEngines (s : State) (k p slot : Nat) (seq : BitVec 32) : State :=
  let e := (s.core k).eng
  let m := e.mq.filter fun o => o.slot == slot && o.seq == seq
  let q := e.pq.filter fun o => o.slot == slot && o.seq == seq
  let s0 := (s.modCore k fun c => m.foldl Core.restoreAcc c).dropM k fun o => o.slot == slot && o.seq == seq
  let s1 := s0.modCore k fun c1 =>
    { c1 with eng := { c1.eng with
        pq := c1.eng.pq.filter fun o => !(o.slot == slot && o.seq == seq)
        pump := if q.any (·.started) then { c1.eng.pump with state := 0, ent := [], rd := none, wr := none, going := false }
          else c1.eng.pump } }
  (s1.cancelEvents k p holderMx (m.map (·.ev))).cancelEvents k p holderCx
    ((q.filter fun o => !(o.started && e.pump.paid)).map (·.ev))

/-- The waiter registrations of an activation removed. -/
def State.unwait (s : State) (k i : Nat) : State :=
  { s with
    events := mapVals (fun e => { e with waiters := e.waiters.filter fun w => w.1 != .act k i }) s.events
    bars := s.bars.filter fun w => w.who != some (k, i) }

/-- The image of a context held by a service core dropped (R336). -/
def Svc.forget (v : Svc) (k i : Nat) (q : BitVec 32) : Svc :=
  { v with held := v.held.filter fun h => !(h.core == k && h.slot == i && h.act == q) }

/-- An activation that handles context `q` of slot `i` of core `k` handles it no more: HELD is cleared, and a notice handler is the
handler of nothing (R153, R160, R280). -/
def Act.letGo (a : Act) (k i : Nat) (q : BitVec 32) : Act :=
  let a1 := if a.life.ctx = some (k, i, q) then
      { a with life := { a.life with ctx := none, fcsr := { a.life.fcsr with newt := a.life.fcsr.newt &&& 0xFFFFFF } } }
    else a
  match a1.life.notice with
  | some (_, k', i', q') => if k' = k ∧ i' = i ∧ q' = q then { a1 with life := { a1.life with notice := none } } else a1
  | none => a1

/-- A notice about the context is no notice about it any more. -/
def Msg.letGo (m : Msg) (k i : Nat) (q : BitVec 32) : Msg :=
  match m.note with
  | .context _ k' i' q' => if k' = k ∧ i' = i ∧ q' = q then { m with note := .plain } else m
  | _ => m

/-- What a core keeps of a context let go. -/
def Core.letGo (c : Core) (k i : Nat) (q : BitVec 32) : Core :=
  { c with
    slots := mapVals (·.letGo k i q) c.slots
    moved := c.moved.map fun x => (x.1, x.2.letGo k i q)
    inq := mapVals (fun x => { x with
      q := x.q.map (·.letGo k i q), div := x.div.map (·.letGo k i q), ovf := x.ovf.map (·.letGo k i q) }) c.inq }

/-- A context resumed, replayed or killed is held nowhere any more, and no handler acts on it (R153, R280, R336). -/
def State.forgetHeld (s : State) (k i : Nat) (q : BitVec 32) : State :=
  { s with
    tiles := mapVals (fun t => { t with svc := t.svc.forget k i q }) s.tiles
    cores := mapVals (·.letGo k i q) s.cores }

/-- A deferred engine fault of an activation that is killed is counted (R210). -/
def State.countDeferred (s : State) (p : Nat) (a : Act) : State :=
  if a.life.deferred.isSome then s.partCount p 0 else s

/-- Killing the context in slot `i` of core `k` (R336, R337). Of a running one's chunks, those that have taken their place in the commit
order are performed at the kill, so that no store of a command's is performed after its SIGEV (R386); the others are squashed with the
current one (DEDUCED, log 119). -/
def State.killContext (s : State) (k i : Nat) : State :=
  let c := s.core k
  let p := (s.holding k).getD 4096
  let running := c.ctl.run == some i
  let s0 := if c.ctl.lizn ≠ 0 ∧ (c.slot i).uid = c.ctl.lizact then s.unbind k else s
  let s1 := if running then
      (s0.performPlaced k c.ord.ended.length).modCore k fun c => (c.squashAll).modCtl fun x => { x with run := none }
    else s0
  let a := (s1.core k).slot i
  let h := holderOf i
  let s2 := (s1.modCore k fun c => { c with ord := { c.ord with ob := c.ord.ob.filter fun e => e.slot != i } }).unwait k i
  let s3 := (s2.cancelEngines k p i a.uid).countDeferred p a
  let os := (s3.core k).oblsOf h
  let s4 := (s3.modCore k fun c => c.dropHolder h).dischargePoisoned p os
  ((s4.forgetHeld k i a.uid).tagKilled a.life.tag).freeSlot k i

/-- Killing an activation that a notice has moved out of its slot: it is put back first, beside the notice's, which keeps the
slot afterwards. -/
def State.killMoved (s : State) (k : Nat) : State :=
  match (s.core k).moved with
  | none => s
  | some (i, a) =>
    let p := (s.holding k).getD 4096
    let h := movedAs i
    let c := s.core k
    let s1 := ((State.modCore (if c.ctl.lizn ≠ 0 ∧ a.uid = c.ctl.lizact then s.unbind k else s) k fun c => { c with
        moved := none
        ord := { c.ord with ob := c.ord.ob.filter fun e => e.slot != movedAs i } }).cancelEngines k p i a.uid).countDeferred p a
    let os := (s1.core k).oblsOf h
    let s2 := (s1.modCore k fun c =>
      (c.modInb a.chan fun x => { x with live := none }).dropHolder h).dischargePoisoned p os
    (s2.forgetHeld k i a.uid).tagKilled a.life.tag

/-- The record of a kill: that of the fault with which the context stopped, or, where it had none, one of code 0 at its PC (DESIGN CHOICE,
log 120). -/
def Act.killRec (a : Act) (floor : Nat) : FaultRec := a.life.fault.getD { code := 0, pc := a.pc, floor := some floor }

/-- The kill of context `a` of slot `i` of core `k` counted, and its record logged (R333, R398, R399); `s` is the state before the kill,
`h` the HOLDER of the context's obligations, and `t` the state after it. -/
def State.noteKill (t s : State) (k i h : Nat) (a : Act) : State :=
  let c := s.core k
  let p := (s.holding k).getD 4096
  (t.partCount p 1).logKill p (tileOf k) ((a.killRec (c.floor h)).words k i (c.faultClass k a) a.seq)

/-- A kill by firmware (R333, R336, R399). -/
def State.killLogged (s : State) (k i : Nat) : State := (s.killContext k i).noteKill s k i (holderOf i) ((s.core k).slot i)

/-- A kill by firmware of the activation that a notice has moved out of its slot. -/
def State.killMovedLogged (s : State) (k : Nat) : State :=
  match (s.core k).moved with
  | some (i, a) => (s.killMoved k).noteKill s k i (movedAs i) a
  | none => s

/-- A context of core `k` killed, in its slot or moved out of it: the one numbered `q` in slot `i`. -/
def State.killNumbered (s : State) (k i : Nat) (q : BitVec 32) : State :=
  if (s.core k).moved.any fun m => m.1 == i && m.2.uid == q then s.killMovedLogged k else s.killLogged k i

/-- A held context killed by firmware. -/
def State.killHeld (s : State) (h : Held) : State := s.killNumbered h.core h.slot h.act

/-- The context that a notice names, where it is held still. -/
def State.heldFor (s : State) : Option (Nat × Nat × Nat × BitVec 32) → Option Held
  | some (t, k, i, q) => (s.tile t).svc.held.find? fun h => h.core == k && h.slot == i && h.act == q
  | none => none

/-- The contexts of discarded notices killed, those that are held still (R334). -/
def State.killNoticed (s : State) : List (Nat × Nat × Nat × BitVec 32) → State
  | [] => s
  | n :: t =>
    State.killNoticed (match s.heldFor (some n) with
      | some h => s.killHeld h
      | none => s) t

/-- A held context resumed at a PC (R153, R106): it returns to its newt and is no longer held. -/
def State.resumeHeld (s : State) (h : Held) (pc : Word) : State :=
  (s.returnContext h pc 0).forgetHeld h.core h.slot h.act

/-- `q` lies in an inclusive range of sequence numbers modulo 2^32 (R371). -/
def seqIn (first last q : Nat) : Bool :=
  decide ((q + 2 ^ 32 - first % 2 ^ 32) % 2 ^ 32 ≤ (last + 2 ^ 32 - first % 2 ^ 32) % 2 ^ 32)

/-- Parked contexts resumed at their own PC (R106 step 5), or killed (R106 step 6). -/
def State.serveParked (s : State) (kill : Bool) : List Held → State
  | [] => s
  | h :: t =>
    State.serveParked (if kill then s.killHeld h
      else s.resumeHeld h ((s.core h.core).context h.slot h.act).pc) kill t

/-- A REPLAY command on the records of tile `t` in a range (R107, R371). -/
def State.replayRange (s : State) (p t first last : Nat) (kill : Bool) : State :=
  let hs := (s.tile t).svc.held.filter fun h => h.parked && s.holding h.core == some p && seqIn first last h.seq
  let s1 := { s with host := { s.host with
    faultq := s.host.faultq.filter fun r => !(r.tile == t && r.part == p && seqIn first last r.seq.toNat) } }
  s1.serveParked kill hs

/-- REPLAY commands that came while the partition was saved, applied at the resume (R357). -/
def State.replayLate (s : State) (p : Nat) : List (Nat × Nat × Nat × Bool) → State
  | [] => s
  | (t, a, b, kill) :: r => State.replayLate (s.replayRange p t a b kill) p r

/-- Contexts killed one after another. -/
def State.killAll (s : State) : List (Nat × Nat) → State
  | [] => s
  | (k, i) :: t => State.killAll (s.killLogged k i) t

end Sys2Proof.Machine
end

