-- ==== Sys2Proof/Machine/Commits.lean ====
section
/-! DEFINITION. The steps of the commit order (R283, R284, R287, R395) and of the fade clock (R35, R81, R84, R89, R90). A step that
is not due changes nothing. -/

namespace Sys2Proof.Machine

/-! ## Chunks -/

/-- The first ended chunk of a pair's leader, whose fingerprints differ (R395): squashed and run again, or fault 0x0F. -/
def State.fingerprints (s : State) (k : Nat) (e : Ended) (t : List Ended) : State :=
  let c := s.core k
  if e.c.retry then s.mismatched k
  else
    let s1 := s.setCore k (c.squashFrom { e.c with retry := true } (t.map (·.c) ++ [c.ord.chunk]))
    match c.ctl.pair with
    | some f => s1.modCore f Core.retried
    | none => s1

/-- CHUNK_ACQUIRE: the next home in order receives the signatures of core `k`'s first ended chunk, or of its isolated attempt, and
grants or holds it (R283, R284); a pair exchanges its fingerprints before (R395). -/
def execChunkAcquire (k : Nat) (s : State) : Host.Outcome State Fault Refusal :=
  match (s.core k).ord.ended with
  | e :: t =>
    if s.missed k e.c then .next ((s.fingerprints k e t).mirror k) else .next (s.acquire k)
  | [] => .next (s.acquire k)

/-- CHUNK_PERFORM: the first ended chunk of core `k`, all of whose homes are granted, takes its place and is performed (R283, R288);
one with a store that its frame's owner check refuses ends in fault 0x08 (R155, R307), and one with a store that does not translate any
more in R100's fault (R101). -/
def execChunkPerform (k : Nat) (s : State) : Host.Outcome State Fault Refusal :=
  match (s.core k).ord.ended with
  | e :: _ =>
    if !e.todo.isEmpty ∨ s.missed k e.c then .next s
    else
      match s.staleFault k e with
      | some r => .next ((s.refuseStale k r).mirror k)
      | none =>
        if s.refusesOf k e.c then .next (((s.perform State.devStore k).refuse k e.pc).mirror k)
        else .next (s.perform State.devStore k)
  | [] => .next s

/-- WRITE_SIGNATURE_ARRIVAL: a write signature reaches core `k`, and a chunk of it that has not taken its place and meets it is
squashed (R282, R284). -/
def execWriteSignatureArrival (k : Nat) (g : BitVec 512) (s : State) : Host.Outcome State Fault Refusal :=
  .next ((s.modCore k fun c => c.signature (s.missed k) g).mirror k)

/-- EXTERNAL_AGENT_WRITE: a write of an agent outside the chunk order at an address of partition `p`, performed at the homes line by
line, each as a one-line commit; what a held home delays is performed later (R287). With `p` from 4096 on the address is physical: a
write by the host (R168), through a host port that is ready (R26). -/
def execExternalAgentWrite (p : Nat) (va : Word) (data : List Byte) (s : State) : Host.Outcome State Fault Refusal :=
  if 4096 ≤ p ∧ s.hostUp = false then .next s else .next (s.agentWrite (Nat.min p 4096) va.toNat data)

/-! ## The fade clock -/

/-- A granule that the sweep visits has passed its expiry (R89). -/
def Tag.sweeps (t : Tag) (fade : Nat) : Bool := !t.x && !t.z && decide (t.age fade < 2048)

/-- The sweep raises an alarm for a granule (R89). -/
def Tag.alarms (t : Tag) (fade guard : Nat) (alarm : Bool) : Bool :=
  !t.expired fade && t.k && guard != 0 && !alarm && !t.z && decide (t.remaining fade < guard + 256)

/-- The word of a sweep alarm (R90). -/
def alarmWord (t : Tag) (fade g : Nat) : Word :=
  BitVec.ofNat 64 (1 * 2 ^ 56 + t.expiry.toNat * 2 ^ 32 + t.remaining fade * 2 ^ 8 + g)

/-- An alarm queued for channel 31 of core `k`; dropped while that is unbound (R32, R89). -/
def State.alarm (s : State) (k g : Nat) (w : Word) : State :=
  let s1 := s.modLs k fun l => { l with alarm := Table.set l.alarm g true }
  if ((s1.core k).chan 31).valid then s1.arrive k (notice31 k w) else s1

/-- GUARD of a core as it stood when a tick began: a write made later acts at the next tick's sweep (R152, R161). -/
def CoreCtl.guardAt (x : CoreCtl) (tick : Nat) : BitVec 11 :=
  match x.guardWas.find? fun e => decide (tick ≤ e.1) with
  | some e => e.2
  | none => x.guard

/-- The sweep of core `k` at a tick (R89, R346). The follower of a pair sends no alarms of its own. -/
def State.sweepNewt (s : State) (tick k : Nat) : State :=
  let c := s.core k
  let g := tick % 256
  let t := c.ls.tag g
  if t.sweeps tick then s.modLs k fun l => l.setTag g { t with x := true }
  else if t.alarms tick (c.ctl.guardAt tick).toNat (Table.get false c.ls.alarm g) ∧ !s.pending k
      ∧ !(c.ctl.pair.isSome ∧ !c.ctl.leader) then
    s.alarm k g (alarmWord t tick g)
  else s

/-- The network interface renews the inbox granules of a newt that hold undequeued words before they come within GUARD ticks of expiry
(R35); `gs` are their numbers from granule 240 on. As every operation of R85 it clears the granule's poison marks (R92). -/
def State.renewInbox (s : State) (tick k : Nat) : List Nat → State
  | [] => s
  | g :: t =>
    let c := s.core k
    let x := c.ls.tag (240 + g)
    State.renewInbox (if !x.z ∧ !x.expired tick ∧ x.remaining tick ≤ (c.ctl.guardAt tick).toNat + 1 then
      s.modLs k fun l => (l.renew (240 + g) tick (s.retn k)).unmark (240 + g) else s) tick k t

/-- One newt at a tick. -/
def State.tickNewt (s : State) (tick k : Nat) : State :=
  ((s.renewInbox tick k (s.core k).inboxHeld).sweepNewt tick k).modCore k fun c =>
    c.modCtl fun x => { x with guardWas := x.guardWas.filter fun e => decide (tick < e.1) }

/-- Every newt at a tick. -/
def State.tickNewts (s : State) (tick : Nat) : List Nat → State
  | [] => s
  | k :: t => State.tickNewts (s.tickNewt tick k) tick t

/-- The newts that the state lists. -/
def State.allNewts (s : State) : List Nat := (s.cores.filter fun e => !isSvc e.1).map (·.1)

/-- Time passes until the fade clock shows at least a tick. -/
def State.untilTick (s : State) (tick : Nat) : State :=
  if s.cycle / 4096 < tick then { s with cycle := tick * 4096 } else s

/-- FADE_TICK: the fade clock advances one tick, and every newt's sweep visits one granule (R81, R89). -/
def execFadeTick (s : State) : Host.Outcome State Fault Refusal :=
  let tick := s.swept + 1
  let s1 := { s.untilTick tick with swept := tick }
  .next (s1.tickNewts tick s1.allNewts)

/-- GRANULE_EXPIRY: the clock reaches the expiry tick of a live granule of core `k`, which then reads as expired (R84). -/
def execGranuleExpiry (k g : Nat) (s : State) : Host.Outcome State Fault Refusal :=
  let t := (s.core k).ls.tag (g % 256)
  if t.z ∨ t.expired s.fade then .next s else .next (s.untilTick (s.fade + t.remaining s.fade))

end Sys2Proof.Machine
end

