-- ==== Sys2Proof/Machine/Images.lean ====
section
/-! DEFINITION. Images of hardware tables as words (R31, R61, R83, R214): what `bind` and `ringset` read and the save records
hold. -/

namespace Sys2Proof.Machine

/-- The four words of channel entry `ch` of core `c` (R31). -/
def Core.chanWords (c : Core) (ch : Nat) : List Word :=
  let e := c.chan ch
  let i := c.inb ch
  [e.hpc.setWidth 64,
   BitVec.ofNat 64 (fld e.rank.toNat 32 + fld e.ring.toNat 24 + fld (bnat e.valid) 22 + fld (bnat e.replay) 21
     + fld (bnat e.mode) 20 + fld (bnat e.mask) 19 + fld e.pri.toNat 17 + fld e.wsp.toNat 9),
   BitVec.ofNat 64 (fld (i.q.length % 65536) 32 + fld e.qlimit.toNat 16 + e.budget.toNat),
   BitVec.ofNat 64 (fld (bnat i.live.isSome) 4 + fld (bnat i.diverted) 3 + i.live.getD 0 % 8)]

/-- The RW fields of a channel entry from words 0 to 2 of an image (R31). -/
def Chan.ofWords (w0 w1 w2 : Word) : Chan :=
  { hpc := w0.extractLsb' 0 57
    rank := w1.extractLsb' 32 20
    ring := w1.extractLsb' 24 4
    valid := w1.getLsbD 22
    replay := w1.getLsbD 21
    mode := w1.getLsbD 20
    mask := w1.getLsbD 19
    pri := w1.extractLsb' 17 2
    wsp := w1.extractLsb' 9 8
    qlimit := w2.extractLsb' 16 8
    budget := w2.extractLsb' 0 16 }

/-- The two words of a ring descriptor (R214). -/
def Ring.words (r : Ring) : List Word :=
  [BitVec.ofNat 64 (fld r.rank.toNat 32 + fld r.count.toNat 21 + fld r.slog.toNat 17 + r.base.toNat),
   BitVec.ofNat 64 (fld r.wcur.toNat 32 + fld r.rcur.toNat 24 + fld r.filled.toNat 16 + fld r.tail.toNat 8 + r.head.toNat)]

/-- A ring descriptor from an image, with both cursors zero (R214, R215). -/
def Ring.ofWords (w0 w1 : Word) : Ring :=
  { rank := w0.extractLsb' 32 20
    count := w0.extractLsb' 21 7
    slog := w0.extractLsb' 17 4
    base := w0.extractLsb' 0 17
    filled := w1.extractLsb' 16 7
    tail := w1.extractLsb' 8 6
    head := w1.extractLsb' 0 6 }

/-- A granule tag as 16 bits (R83). -/
def Tag.bits (t : Tag) : Nat :=
  fld (bnat t.p) 15 + fld (bnat t.k) 14 + fld (bnat t.x) 13 + fld (bnat t.z) 12 + t.expiry.toNat

end Sys2Proof.Machine
end

