-- ==== Sys2Proof/Machine/Messages.lean ====
section
/-! DEFINITION. Messages, pours and the handler table (R246 to R257): `send`, `sendw`, `sendo`, `pour`, `bind`, `chmask`. -/

namespace Sys2Proof.Machine

/-- An entry placed in the output buffer (R47). -/
def buffer (kind : OKind) : M PUnit := modMe fun c =>
  { c with ord := { c.ord with ob := c.ord.ob ++ [⟨kind, c.act.pc, c.ord.chunk.id, c.runSlot, false, 0, false⟩] } }

/-- A newt or service core that a destination field names lies in the sender's partition. -/
def State.destOk (s : State) (dest : Nat) : Bool := s.inPart s.myPart (tileOf dest)

/-- The checks of a route word, in their order (R247). CH5 without SVC names no other channel (R246). -/
def routeCheck (rw : Nat) : M PUnit := do
  let s ← getS
  let k ← me
  let lvl := s.level k
  if bitsOf rw 63 49 ≠ 0 ∨ bitsOf rw 31 28 ≠ 0 ∨ (routeSvc rw ∧ routeDest rw % 32 ≠ 0) then fault (faultAt 0x08 0)
  if lvl = 0 ∧ (routeSvc rw ∨ bitOf rw 27) then fault (faultAt 0x08 0)
  if !s.destOk (routeDest rw) then fault (faultAt 0x08 0)
  if lvl = 0 ∧ !routeSvc rw ∧ (bitsOf rw 24 20 = 29 ∨ bitsOf rw 24 20 = 30) then fault (faultAt 0x08 0)
  if routeOwed rw ∧ routeReply rw = Config.noEvent then fault (objFault (evW3 Config.noEvent))

/-- `n` payload words read from local store (R249). -/
def readPayload (off : Nat) : Nat → M (List Word)
  | 0 => return []
  | n + 1 => do
    let bs ← localRead off 8
    let ws ← readPayload (off + 8) n
    return BitVec.ofNat 64 (leNat bs) :: ws

/-- The bytes of the last word of a payload at and above `len` set to zero (R249). -/
def trimLast (len : Nat) : List Word → List Word
  | [] => []
  | [w] => [if len % 8 = 0 then w else w &&& ((1 <<< (8 * (len % 8))) - 1)]
  | w :: t => w :: trimLast len t

/-- The checks of a send at issue, and its payload (R249). -/
def sendPayload (rw : Word) (off len : Nat) : M (List Word) := do
  routeCheck rw.toNat
  if 2048 < len then fault (faultAt 0x04 (BitVec.ofNat 64 off))
  if off % 8 ≠ 0 then fault (faultAt 0x03 (BitVec.ofNat 64 off))
  return trimLast len (← readPayload off (wordsFor len))

/-- `send` and `sendw` (R249): the payload is copied at issue. -/
def sendForm (wait : Bool) (a b c : Sel) : M PUnit := do
  let rw ← readOp a
  let off ← readOp b
  let len ← readOp c
  let ws ← sendPayload rw off.toNat len.toNat
  buffer (.send wait rw len.toNat ws)

/-- `send` (R249). -/
def execSend (a b c : Sel) (s : State) : Host.Outcome State Fault Refusal := run (sendForm false a b c) s

/-- `sendw` (R249, R250): its acceptance is waited for when the entry is released. -/
def execSendw (a b c : Sel) (s : State) : Host.Outcome State Fault Refusal := run (sendForm true a b c) s

/-- What is left of `n` units on an event after the claims of earlier entries (R253). -/
def unitsLeft (name : Nat) : Nat → List OEntry → Nat
  | n, [] => n
  | n, e :: t =>
    match e.kind with
    | .sig x k => unitsLeft name (if x.toNat = name then n - k.toNat else n) t
    | .sendo false _ _ _ o => unitsLeft name (if o = evObj name then n - 1 else n) t
    | _ => unitsLeft name n t

/-- An entry that moves or makes the arrival on a record (R253). -/
def OEntry.movesBar (e : OEntry) (va : Word) : Bool :=
  match e.kind with
  | .bara v _ => v == va
  | .leave v => v == va
  | .sendo true _ _ _ o => o == va
  | _ => false

/-- The entries of slot `i` in the output buffer. -/
def Core.entriesOf (c : Core) (i : Nat) : List OEntry := c.ord.ob.filter fun e => e.slot == i

/-- The check of R253: the running activation holds a unit on the object that its own earlier entries have not claimed. -/
def Core.holdsUnit (c : Core) (bar : Bool) (d : Word) : Bool :=
  if bar then !(c.owedArrivals (holderOf c.runSlot) d).isEmpty && !(c.entriesOf c.runSlot).any (·.movesBar d)
  else
    match c.oblOf (holderOf c.runSlot) false d with
    | none => false
    | some o => decide (1 ≤ unitsLeft d.toNat o.count.toNat (c.entriesOf c.runSlot))

/-- `sendo` (R253): a send that carries one unit. -/
def execSendo (bar : Bool) (a b c d : Sel) (s : State) : Host.Outcome State Fault Refusal :=
  run (do
    let rw ← readOp a
    let off ← readOp b
    let len ← readOp c
    let x ← readOp d
    let ws ← sendPayload rw off.toNat len.toNat
    let w3 := if bar then barW3 x.toNat else evW3 x.toNat
    if (bar ∧ x.toNat % 16 ≠ 0) ∨ (!bar ∧ bitsOf x.toNat 63 16 ≠ 0) then fault (objFault w3)
    if !(← myCore).holdsUnit bar x then fault (objFault w3)
    buffer (.sendo bar rw len.toNat ws x)) s

/-- The checks of a pour at issue, in their order (R254), and its counting target. -/
def pourCheck (counted : Bool) (t s c n : Word) : M (Option Word) := do
  let st ← getS
  let k ← me
  let cr ← myCore
  if bitsOf t.toNat 63 20 ≠ 0 ∨ !st.destOk t.toNat then fault (faultAt 0x08 0)
  if s.toNat % 32 ≠ 0 then fault (faultAt 0x03 s)
  if c.toNat % 32 ≠ 0 then fault (faultAt 0x03 c)
  if n.toNat % 32 ≠ 0 then fault (faultAt 0x03 s)
  if n.toNat < 32 ∨ 0x1E000 < n.toNat then fault (faultAt 0x04 s)
  if 0x1E000 < c.toNat + n.toNat then fault (faultAt 0x04 c)
  if cr.limit k < s.toNat + n.toNat ∨ localDenied (st.level k) s.toNat n.toNat then fault (faultAt 0x04 s)
  if counted then
    let va := cr.act.barSel
    if va = 0 then fault (objFault 0)
    let _ ← translate .atomic va.toNat
    return some va
  else return none

/-- `pour` (R254): the entry records the ranges and the counting target; the source is read at release (R165). -/
def execPour (counted : Bool) (a b c d : Sel) (s : State) : Host.Outcome State Fault Refusal :=
  run (do
    let t ← readOp a
    let x ← readOp b
    let y ← readOp c
    let n ← readOp d
    let target ← pourCheck counted t x y n
    buffer (.pour t.toNat x.toNat y.toNat n.toNat target)) s

/-! ## The handler table -/

/-- Another live activation of the newt binds channel `ch` as a foreign channel (R248). -/
def Core.boundByOther (c : Core) (ch : Nat) : Bool :=
  let hit (a : Act) : Bool := a.st != .free && a.chan != ch && a.sync.qb.any fun b => b.2 == ch
  c.slots.any (fun e => e.1 != c.runSlot && hit e.2) || c.moved.any fun m => hit m.2

/-- A q selector bound to a channel, or unbound (R248, R256). -/
def bindQ (q ch : Nat) (unb : Bool) : M PUnit := do
  let c ← myCore
  if unb then modMe fun c => c.modAct fun a => { a with sync := { a.sync with qb := drop a.sync.qb q } }
  else
    if ch ≠ c.act.chan ∧ c.boundByOther ch then fault (objFault (chanW3 ch))
    modMe fun c => c.modAct fun a => { a with sync := { a.sync with qb := Table.set a.sync.qb q ch } }

/-- An activation waits on the words of channel `ch`. -/
def Act.waitsWords (a : Act) (ch : Nat) : Bool :=
  a.sync.wait.any fun p =>
    match p with
    | .words x _ => x == ch
    | _ => false

/-- An activation of the core is suspended on the words of channel `ch` (R60), in its slot or moved out of it by a notice (R347). -/
def Core.waitsWords (c : Core) (ch : Nat) : Bool :=
  c.slots.any (fun e => e.2.st == .suspended && e.2.waitsWords ch) || c.moved.any fun m => m.2.waitsWords ch

/-- The image of a channel entry is rejected (R256). -/
def Core.imageBad (c : Core) (ch : Nat) (w0 w1 w2 w3 : Word) : Bool :=
  let e := Chan.ofWords w0 w1 w2
  bitsOf w0.toNat 63 57 != 0 || bitsOf w1.toNat 63 52 != 0 || bitsOf w1.toNat 31 28 != 0 || bitOf w1.toNat 23
    || bitsOf w1.toNat 8 0 != 0 || bitsOf w2.toNat 63 24 != 0 || w3 != 0
    || e.hpc.toNat % 64 == 0 || e.rank.toNat == Config.noRank
    || (e.rank != (c.chan ch).rank && c.waitsWords ch)
    || decide (240 ≤ e.wsp.toNat)
    || (e.mode && (c.inb ch).streamOpen)

/-- The contexts that notices queued for channel 29 are about (R334). -/
def Core.noticed (c : Core) : List (Nat × Nat × Nat × BitVec 32) :=
  ((c.inb 29).q ++ (c.inb 29).div ++ (c.inb 29).ovf).filterMap fun m => m.note.target

/-- Notices about contexts discarded from channel 29 (R334). -/
def Core.dropNotices (c : Core) : Core :=
  let keepIt (m : Msg) : Bool := m.note.target.isNone
  c.modInb 29 fun i => { i with q := i.q.filter keepIt, div := i.div.filter keepIt, ovf := i.ovf.filter keepIt }

/-- After a write of channel `ch`'s entry: while channel 29 is unbound or masked, the notices that wait for it are discarded
and their contexts killed (R334). -/
def State.killUnbound (s : State) (k ch : Nat) : State :=
  let e := (s.core k).chan 29
  if ch = 29 ∧ !isSvc k ∧ (!e.valid ∨ e.mask) then (s.modCore k Core.dropNotices).killNoticed (s.core k).noticed else s

/-- Channel 31 stores PRI 3 (R31, R256). -/
def Chan.stored (e : Chan) (ch : Nat) : Chan := if ch = 31 then { e with pri := 3 } else e

/-- `bind` (R256): it acts at issue and a squash does not undo it (R285). -/
def execBind (a b : Sel) (s : State) : Host.Outcome State Fault Refusal :=
  run (do
    let x := (← readOp a).toNat
    let k ← me
    let ch := x % 64
    let qb := bitOf x 8
    if bitsOf x 63 10 ≠ 0 ∨ (!qb ∧ bitsOf x 9 6 ≠ 0) ∨ !(← getS).hasChan k ch then fault (objFault (chanW3 ch))
    if qb then bindQ (bitsOf x 7 6) ch (bitOf x 9)
    else
      let y ← readOp b
      let ws ← readPayload y.toNat 4
      let w (i : Nat) : Word := ws.getD i 0
      if (← myCore).imageBad ch (w 0) (w 1) (w 2) (w 3) then fault (objFault (chanW3 ch))
      modMe fun c => c.setChan ch ((Chan.ofWords (w 0) (w 1) (w 2)).stored ch)
      modS fun s => s.killUnbound s.turn ch) s

/-- `chmask` (R257). -/
def execChmask (a b : Sel) (s : State) : Host.Outcome State Fault Refusal :=
  run (do
    let x := (← readOp a).toNat
    let y ← readOp b
    let k ← me
    if !(← getS).hasChan k x then fault (objFault (chanW3 x))
    modMe fun c =>
      let e := Table.get {} c.chans x
      let c1 := c.setChan x { e with mask := y != 0 }
      { c1 with ord := { c1.ord with chunk := { c1.ord.chunk with masks := (x, e.mask) :: c1.ord.chunk.masks } } }
    modS fun s => s.killUnbound s.turn x) s

end Sys2Proof.Machine
end

