-- ==== Sys2Proof/Machine/Flags.lean ====
section
/-! DEFINITION. The conditions (R119, R144, R150): the machine has no flags; every comparison is computed here. -/

namespace Sys2Proof.Machine

/-- The condition holds for two words (R119). -/
def condHolds (c : Cond) (a b : Word) : Bool :=
  match c with
  | .eq => a == b
  | .ne => a != b
  | .lt => a.slt b
  | .ge => b.sle a
  | .le => a.sle b
  | .gt => b.slt a
  | .ltn => a.ult b
  | .gen => b.ule a
  | .len => a.ule b
  | .gtn => b.ult a
  | .always => true

/-- The word a comparison writes: 1 if it holds, else 0 (R144). -/
def flagWord (b : Bool) : Word := if b then 1 else 0

end Sys2Proof.Machine
end

