-- ==== Sys2Proof/Machine/Scalar.lean ====
section
/-! DEFINITION. Integer instructions (R142 to R150). -/

namespace Sys2Proof.Machine

/-! ## Results -/

/-- The high half of the signed product (R142). -/
def mulhW (x y : Word) : Word := (x.signExtend 128 * y.signExtend 128).extractLsb' 64 64

/-- The high half of the unsigned product (R142). -/
def mulhnW (x y : Word) : Word := (x.setWidth 128 * y.setWidth 128).extractLsb' 64 64

/-- k, the shift amount (R142). -/
def shiftOf (y : Word) : Nat := (y.extractLsb' 0 6).toNat

/-- The quotients and remainders of R143; a zero divisor gives all ones, and the dividend. -/
def divW (x y : Word) : Word := if y = 0 then 0xFFFFFFFFFFFFFFFF else x.sdiv y
def divnW (x y : Word) : Word := if y = 0 then 0xFFFFFFFFFFFFFFFF else x.udiv y
def remW (x y : Word) : Word := if y = 0 then x else x.srem y
def remnW (x y : Word) : Word := if y = 0 then x else x.umod y

/-- Zero bits of `x` below bit `n`, counted from bit n − 1 down to the first one. -/
def zerosDown (x : Word) : Nat → Nat
  | 0 => 0
  | n + 1 => if x.getLsbD n then 0 else 1 + zerosDown x n

/-- Zero bits of `x` from bit 64 − n upward to the first one. -/
def zerosUp (x : Word) : Nat → Nat
  | 0 => 0
  | n + 1 => if x.getLsbD (63 - n) then 0 else 1 + zerosUp x n

/-- `len` one bits (R146). -/
def onesW (len : Nat) : Word := (1 <<< len) - 1

/-- The results of `ext` and `ins` (R146). -/
def extW (x : Word) (pos len : Nat) : Word := (x >>> pos) &&& onesW len
def insW (a x : Word) (pos len : Nat) : Word :=
  (a &&& ~~~(onesW len <<< pos)) ||| ((x <<< pos) &&& (onesW len <<< pos))

/-! ## Forms -/

/-- A := f of one source. -/
def scalar1 (f : Word → Word) (a b : Sel) : M PUnit := do
  let x ← readOp b
  writeOp a (f x)

/-- A := f of two sources, read in the order B, C. -/
def scalar2 (f : Word → Word → Word) (a b c : Sel) : M PUnit := do
  let x ← readOp b
  let y ← readOp c
  writeOp a (f x y)

/-- A := f of three sources, read in the order B, C, D. -/
def scalar3 (f : Word → Word → Word → Word) (a b c d : Sel) : M PUnit := do
  let x ← readOp b
  let y ← readOp c
  let z ← readOp d
  writeOp a (f x y z)

/-- A division: 34 cycles, in which the newt stalls (R143). -/
def division (f : Word → Word → Word) (a b c : Sel) : M PUnit := do
  scalar2 f a b c
  takes 34

/-! ## Instructions -/

/-- `add` (R142: b + c). -/
def execAdd (a b c : Sel) (s : State) : Host.Outcome State Fault Refusal :=
  run (scalar2 (fun x y => x + y) a b c) s

/-- `sub` (R142: b − c). -/
def execSub (a b c : Sel) (s : State) : Host.Outcome State Fault Refusal :=
  run (scalar2 (fun x y => x - y) a b c) s

/-- `mul` (R142: the low half of the product). -/
def execMul (a b c : Sel) (s : State) : Host.Outcome State Fault Refusal :=
  run (scalar2 (fun x y => x * y) a b c) s

/-- `mulh` (R142: the high half of the signed product). -/
def execMulh (a b c : Sel) (s : State) : Host.Outcome State Fault Refusal :=
  run (scalar2 (fun x y => mulhW x y) a b c) s

/-- `mulhn` (R142: the high half of the unsigned product). -/
def execMulhn (a b c : Sel) (s : State) : Host.Outcome State Fault Refusal :=
  run (scalar2 (fun x y => mulhnW x y) a b c) s

/-- `and` (R142: bitwise and). -/
def execAnd (a b c : Sel) (s : State) : Host.Outcome State Fault Refusal :=
  run (scalar2 (fun x y => x &&& y) a b c) s

/-- `or` (R142: bitwise or). -/
def execOr (a b c : Sel) (s : State) : Host.Outcome State Fault Refusal :=
  run (scalar2 (fun x y => x ||| y) a b c) s

/-- `xor` (R142: bitwise exclusive or). -/
def execXor (a b c : Sel) (s : State) : Host.Outcome State Fault Refusal :=
  run (scalar2 (fun x y => x ^^^ y) a b c) s

/-- `andn` (R142: b and not c). -/
def execAndn (a b c : Sel) (s : State) : Host.Outcome State Fault Refusal :=
  run (scalar2 (fun x y => x &&& ~~~y) a b c) s

/-- `shl` (R142: left shift). -/
def execShl (a b c : Sel) (s : State) : Host.Outcome State Fault Refusal :=
  run (scalar2 (fun x y => x <<< shiftOf y) a b c) s

/-- `shr` (R142: logical right shift). -/
def execShr (a b c : Sel) (s : State) : Host.Outcome State Fault Refusal :=
  run (scalar2 (fun x y => x >>> shiftOf y) a b c) s

/-- `sar` (R142: arithmetic right shift). -/
def execSar (a b c : Sel) (s : State) : Host.Outcome State Fault Refusal :=
  run (scalar2 (fun x y => x.sshiftRight (shiftOf y)) a b c) s

/-- `rol` (R142: rotation). -/
def execRol (a b c : Sel) (s : State) : Host.Outcome State Fault Refusal :=
  run (scalar2 (fun x y => x.rotateLeft (shiftOf y)) a b c) s

/-- `min` (R142: the lesser, signed). -/
def execMin (a b c : Sel) (s : State) : Host.Outcome State Fault Refusal :=
  run (scalar2 (fun x y => if y.slt x then y else x) a b c) s

/-- `minn` (R142: the lesser, unsigned). -/
def execMinn (a b c : Sel) (s : State) : Host.Outcome State Fault Refusal :=
  run (scalar2 (fun x y => if y.ult x then y else x) a b c) s

/-- `max` (R142: the greater, signed). -/
def execMax (a b c : Sel) (s : State) : Host.Outcome State Fault Refusal :=
  run (scalar2 (fun x y => if x.slt y then y else x) a b c) s

/-- `maxn` (R142: the greater, unsigned). -/
def execMaxn (a b c : Sel) (s : State) : Host.Outcome State Fault Refusal :=
  run (scalar2 (fun x y => if x.ult y then y else x) a b c) s

/-- `div` (R143: the signed quotient). -/
def execDiv (a b c : Sel) (s : State) : Host.Outcome State Fault Refusal :=
  run (division (fun x y => divW x y) a b c) s

/-- `divn` (R143: the unsigned quotient). -/
def execDivn (a b c : Sel) (s : State) : Host.Outcome State Fault Refusal :=
  run (division (fun x y => divnW x y) a b c) s

/-- `rem` (R143: the signed remainder). -/
def execRem (a b c : Sel) (s : State) : Host.Outcome State Fault Refusal :=
  run (division (fun x y => remW x y) a b c) s

/-- `remn` (R143: the unsigned remainder). -/
def execRemn (a b c : Sel) (s : State) : Host.Outcome State Fault Refusal :=
  run (division (fun x y => remnW x y) a b c) s

/-- `cmp` (R144): 1 if the condition holds, else 0. -/
def execCmp (cond : Cond) (a b c : Sel) (s : State) : Host.Outcome State Fault Refusal :=
  run (scalar2 (fun x y => flagWord (condHolds cond x y)) a b c) s

/-- `sel` (R145): all three sources are read. -/
def execSel (a b c d : Sel) (s : State) : Host.Outcome State Fault Refusal :=
  run (scalar3 (fun x y z => if z ≠ 0 then x else y) a b c d) s

/-- `clz` (R142). -/
def execClz (a b : Sel) (s : State) : Host.Outcome State Fault Refusal :=
  run (scalar1 (fun x => BitVec.ofNat 64 (zerosDown x 64)) a b) s

/-- `ctz` (R142). -/
def execCtz (a b : Sel) (s : State) : Host.Outcome State Fault Refusal :=
  run (scalar1 (fun x => BitVec.ofNat 64 (zerosUp x 64)) a b) s

/-- `popc` (R142). -/
def execPopc (a b : Sel) (s : State) : Host.Outcome State Fault Refusal :=
  run (scalar1 (fun x => BitVec.ofNat 64 (popCount 64 x.toNat)) a b) s

/-- `ext` (R146). -/
def execExt (a b : Sel) (pos : BitVec 6) (len : BitVec 7) (s : State) : Host.Outcome State Fault Refusal :=
  run (scalar1 (fun x => extW x pos.toNat len.toNat) a b) s

/-- `ins` (R146): A is read and written. -/
def execIns (a b : Sel) (pos : BitVec 6) (len : BitVec 7) (s : State) : Host.Outcome State Fault Refusal :=
  run (scalar2 (fun x y => insW x y pos.toNat len.toNat) a a b) s

/-- `movi` (R147). -/
def execMovi (a : Sel) (imm : BitVec 32) (s : State) : Host.Outcome State Fault Refusal :=
  run (writeOp a (imm.signExtend 64)) s

/-- `movhi` (R147): A is read and written. -/
def execMovhi (a : Sel) (imm : BitVec 32) (s : State) : Host.Outcome State Fault Refusal :=
  run (scalar1 (fun x => imm ++ x.extractLsb' 0 32) a a) s

/-- `shladd` (R148). -/
def execShladd (a b c : Sel) (sh : BitVec 4) (s : State) : Host.Outcome State Fault Refusal :=
  run (scalar2 (fun x y => (x <<< sh.toNat) + y) a b c) s

/-- `cmpi` (R149, R150): the immediate is sign-extended, for unsigned conditions too. -/
def execCmpi (cond : Cond) (a b : Sel) (imm : BitVec 22) (s : State) : Host.Outcome State Fault Refusal :=
  run (scalar1 (fun x => flagWord (condHolds cond x (imm.signExtend 64))) a b) s

/-- `andi` (R149). -/
def execAndi (a b : Sel) (imm : BitVec 22) (s : State) : Host.Outcome State Fault Refusal :=
  run (scalar1 (fun x => x &&& imm.signExtend 64) a b) s

/-- `ori` (R149). -/
def execOri (a b : Sel) (imm : BitVec 22) (s : State) : Host.Outcome State Fault Refusal :=
  run (scalar1 (fun x => x ||| imm.signExtend 64) a b) s

/-- `xori` (R149). -/
def execXori (a b : Sel) (imm : BitVec 22) (s : State) : Host.Outcome State Fault Refusal :=
  run (scalar1 (fun x => x ^^^ imm.signExtend 64) a b) s

/-- `muli` (R149). -/
def execMuli (a b : Sel) (imm : BitVec 22) (s : State) : Host.Outcome State Fault Refusal :=
  run (scalar1 (fun x => x * imm.signExtend 64) a b) s

/-- `addi` (R147). -/
def execAddi (a b : Sel) (imm : BitVec 22) (s : State) : Host.Outcome State Fault Refusal :=
  run (scalar1 (fun x => x + imm.signExtend 64) a b) s

/-- `shli` (R149). -/
def execShli (a b : Sel) (imm : BitVec 22) (s : State) : Host.Outcome State Fault Refusal :=
  run (scalar1 (fun x => x <<< imm.toNat) a b) s

/-- `shri` (R149). -/
def execShri (a b : Sel) (imm : BitVec 22) (s : State) : Host.Outcome State Fault Refusal :=
  run (scalar1 (fun x => x >>> imm.toNat) a b) s

/-- `sari` (R149). -/
def execSari (a b : Sel) (imm : BitVec 22) (s : State) : Host.Outcome State Fault Refusal :=
  run (scalar1 (fun x => x.sshiftRight imm.toNat) a b) s

end Sys2Proof.Machine
end

