-- ==== Sys2Proof/Machine/Control.lean ====
section
/-! DEFINITION. Control instructions (R133 to R140, R157): branches, links, `loop`, `end`, `trap`, `brk` and `chunk`. -/

namespace Sys2Proof.Machine

/-- A line-relative target (R112): the line `disp` lines from the branch's own, at `slot`. -/
def lineTarget (pc : Word) (slot : BitVec 6) (disp : Word) : Word :=
  ((pc &&& ~~~63#64) + (disp <<< 6)) ||| slot.setWidth 64

/-- The PC of the running instruction. -/
def thisPc : M Word := do return (← myCore).act.pc

/-- A jump to a line-relative target. -/
def jumpLine (slot : BitVec 6) (disp : Word) : M PUnit := do
  jump (lineTarget (← thisPc) slot disp)

/-- The link register, w55 (R44). -/
def linkSel : Sel := 55

/-- `nop` (R133). -/
def execNop (s : State) : Host.Outcome State Fault Refusal := run (pure ()) s

/-- `br` (R134). -/
def execBr (slot : BitVec 6) (disp : BitVec 26) (s : State) : Host.Outcome State Fault Refusal :=
  run (jumpLine slot (disp.signExtend 64)) s

/-- `bcc` (R135); `bcc.always` reads nothing. -/
def execBcc (cond : Cond) (a b : Sel) (slot : BitVec 6) (disp : BitVec 32) (s : State) :
    Host.Outcome State Fault Refusal :=
  run (do
    let x ← readOp a
    let y ← readOp b
    if condHolds cond x y then jumpLine slot (disp.signExtend 64)) s

/-- `call` (R134): the link, then the jump. -/
def execCall (slot : BitVec 6) (disp : BitVec 26) (s : State) : Host.Outcome State Fault Refusal :=
  run (do
    writeOp linkSel (← nextPc)
    jumpLine slot (disp.signExtend 64)) s

/-- `jr` (R136). -/
def execJr (b : Sel) (s : State) : Host.Outcome State Fault Refusal :=
  run (do jump (← readOp b)) s

/-- `callr` (R136): the target is read before the link is written. -/
def execCallr (b : Sel) (s : State) : Host.Outcome State Fault Refusal :=
  run (do
    let t ← readOp b
    writeOp linkSel (← nextPc)
    jump t) s

/-- `loop` (R137). -/
def execLoop (a : Sel) (slot : BitVec 6) (disp : BitVec 26) (s : State) : Host.Outcome State Fault Refusal :=
  run (do
    let x ← readOp a
    writeOp a (x - 1)
    if x - 1 ≠ 0 then jumpLine slot (disp.signExtend 64)) s

/-- The instruction ends its chunk when it retires (R157, R281). -/
def endsChunk : M PUnit := fun c => .ok ((), { c with last := true })

/-- `chunk` (R157): the chunk ends; it is not a commit point. -/
def execChunk (s : State) : Host.Outcome State Fault Refusal := run endsChunk s

/-- At `end` an arrival made becomes the owed arrival of the next generation (R77). -/
def Core.convertArrivals (c : Core) (h : Nat) : Core :=
  let f (o : Obl) : Obl := if o.holder = h ∧ o.bar ∧ o.arr then { o with count := o.count + 1, arr := false } else o
  { c with obl := c.obl.map f, spilt := c.spilt.map f }

/-- The obligation that word 3 of a fault 0x0B names (R331): of those with rank FLOOR, an event before a barrier, then the
lowest name or address. -/
def floorObject : List Obl → Nat → Option Obl
  | [], _ => none
  | o :: t, fl =>
    match floorObject t fl with
    | none => if !o.arr ∧ o.rank.toNat = fl then some o else none
    | some m =>
      if !o.arr ∧ o.rank.toNat = fl ∧ ((!o.bar ∧ m.bar) ∨ (o.bar = m.bar ∧ o.obj.toNat < m.obj.toNat)) then some o
      else some m

/-- The record of a fault 0x0B (R331). -/
def owedFault (c : Core) : FaultRec :=
  let fl := c.myFloor
  match floorObject (c.oblsOf (holderOf c.runSlot)) fl with
  | some o => { code := 0x0B, w3 := if o.bar then barW3 o.obj.toNat else evW3 o.obj.toNat, orank := fl }
  | none => { code := 0x0B, orank := fl }

/-- The release that `end` implies inside a lizard, before its first step (R49, R274); the record of a fault 0x0B at that `end` still
says that it was a lizard's (R272). -/
def endRelease : M PUnit := do
  if (← myCore).inLiz then
    commitFirst
    modBoth fun s => (s.unbind s.turn).modCore s.turn fun c => c.modAct fun a => { a with life := { a.life with liz := true } }

/-- `end` (R49, R77, R138): a deferred engine fault first, and in a lizard the release; then a commit point; then fault 0x0B while
anything is owed, or retirement. The conversion of R77 stands where the fault is raised (DEDUCED, log 22). -/
def execEndAct (s : State) : Host.Outcome State Fault Refusal :=
  run (do
    checkDeferred
    endRelease
    commitPoint
    modMe fun c => c.convertArrivals (holderOf c.runSlot)
    keep
    let c ← myCore
    if c.myFloor ≠ Config.noRank then fault (owedFault c)
    let k ← me
    leave ((← getS).retireAct k)) s

/-- The record of a fault 0x13 or 0x14 with its immediate (R160, R332). -/
def immFault (code : Nat) (imm : BitVec 16) : FaultRec :=
  { code := code, w5 := imm.setWidth 64, finfo := imm.setWidth 64 }

/-- `trap` (R139): fault 0x13. The four codes that firmware recognises are instructions of their own. -/
def execTrap (imm : BitVec 16) (s : State) : Host.Outcome State Fault Refusal := run (fault (immFault 0x13 imm)) s

/-- `brk` (R140): with ENABLE and SWBRK set in DCTL the core halts before any effect; else fault 0x14. -/
def execBrk (imm : BitVec 16) (s : State) : Host.Outcome State Fault Refusal :=
  run (do
    let c ← myCore
    let k ← me
    if c.dbg.ctl.getLsbD 3 && c.dbg.ctl.getLsbD 5 then leave ((← getS).debugHalt k 3 0 imm)
    else fault (immFault 0x14 imm)) s

end Sys2Proof.Machine
end

