-- ==== Sys2Proof/Machine/Debug.lean ====
section
/-! DEFINITION. Debug modules and trace stations at work (R244, R400 to R403): halts, steps, breakpoints, watchpoints, the
DDATA window and the trace triggers. -/

namespace Sys2Proof.Machine

/-- Bytes of a load or store size (R162); of an atomic size (R171). -/
def sizeBytes : MemSize → Nat
  | .b | .bs => 1
  | .h | .hs => 2
  | .w | .ws => 4
  | .d => 8
def asizeBytes : ASize → Nat
  | .w => 4
  | .d => 8

/-- What an operand would read, leaving the state alone; none where the instruction would wait or fault first. -/
def peek {α : Type} (m : M α) (s : State) : Option α :=
  match m { st := s, base := s, npc := 0 } with
  | .ok (x, _) => some x
  | .error _ => none

/-- An effective address (R162). -/
def effAddr (b : Word) (imm : BitVec 22) : Nat := (b + imm.signExtend 64).toNat

/-- The access range of a core instruction: global or local, address, length, and whether it reads and writes (R401).
Stores and atomics count as writes. -/
def accessOf (s : State) : Instr → Option (Bool × Nat × Nat × Bool × Bool)
  | .ld z _ b imm => (peek (readOp b) s).map fun x => (false, effAddr x imm, sizeBytes z, true, false)
  | .st z _ b imm => (peek (readOp b) s).map fun x => (false, effAddr x imm, sizeBytes z, false, true)
  | .ldg z _ b imm | .ldc z _ b imm => (peek (readOp b) s).map fun x => (true, effAddr x imm, sizeBytes z, true, false)
  | .stg z _ b imm => (peek (readOp b) s).map fun x => (true, effAddr x imm, sizeBytes z, false, true)
  | .vld _ b imm => (peek (readOp b) s).map fun x => (false, effAddr x imm, 64, true, false)
  | .vst _ b imm => (peek (readOp b) s).map fun x => (false, effAddr x imm, 64, false, true)
  | .aadd z _ b _ | .amin z _ b _ | .amax z _ b _ | .aminn z _ b _ | .amaxn z _ b _ | .aand z _ b _ | .aor z _ b _
  | .axor z _ b _ | .axchg z _ b _ | .acas z _ b _ _ =>
    (peek (readOp b) s).map fun x => (true, x.toNat, asizeBytes z, false, true)
  | .ladd z _ b _ | .lcas z _ b _ _ => (peek (readOp b) s).map fun x => (false, x.toNat, asizeBytes z, false, true)
  | .send _ b n | .sendw _ b n | .sendo _ _ b n _ =>
    match peek (readOp b) s, peek (readOp n) s with
    | some x, some y => some (false, x.toNat, y.toNat, true, false)
    | _, _ => none
  | .wzero b n =>
    match peek (readOp b) s, peek (readOp n) s with
    | some x, some y => some (false, x.toNat, y.toNat, false, true)
    | _, _ => none
  | .bind a b =>
    match peek (readOp a) s, peek (readOp b) s with
    | some x, some y => if x.getLsbD 8 then none else some (false, y.toNat, 32, true, false)
    | _, _ => none
  | .ringset _ b => (peek (readOp b) s).map fun x => (false, x.toNat, 16, true, false)
  | .mkbar b _ | .bara b _ | .join b | .leave b => (peek (readOp b) s).map fun x => (true, x.toNat, 16, false, true)
  | .barw _ b | .rank .bar _ b => (peek (readOp b) s).map fun x => (true, x.toNat, 16, true, false)
  | .pour _ _ b _ n =>
    match peek (readOp b) s, peek (readOp n) s with
    | some x, some y => some (false, x.toNat, y.toNat, true, false)
    | _, _ => none
  | .renew b n =>
    match peek (readOp b) s, peek (readOp n) s with
    | some x, some y => some (false, x.toNat, y.toNat, true, true)
    | _, _ => none
  | _ => none

/-- Watchpoint `i` of a debug module meets an access (R400, R401). -/
def watchMeets (d : Dbg) (i : Nat) (a : Bool × Nat × Nat × Bool × Bool) : Bool :=
  let w := Table.get 0 d.dwc i
  let len := 2 ^ (w.toNat % 8)
  let base := (Table.get 0 d.dwa i).toNat / len * len
  w.getLsbD 6 && (w.getLsbD 5 == a.1) && overlaps base len a.2.1 a.2.2.1
    && ((w.getLsbD 4 && a.2.2.2.1) || (w.getLsbD 3 && a.2.2.2.2))

/-- ENABLE and BPEN, for a match that has not just been passed (R401). -/
def Core.bpArmed (c : Core) : Bool := c.dbg.ctl.getLsbD 3 && c.dbg.ctl.getLsbD 4 && c.dbg.skip != some (c.act.uid, c.act.pc)

/-- The breakpoint that the next PC equals (R400, R401). -/
def Core.bpHit (c : Core) : Option Nat :=
  if c.bpArmed then
    (List.range 4).find? fun i =>
      let b := Table.get 0 c.dbg.dbp i
      b.toNat % 64 != 0 && b == c.act.pc
  else none

/-- The watchpoint that an instruction of core `k` meets. -/
def State.watchHit (s : State) (k : Nat) (i : Instr) : Option Nat :=
  let c := s.core k
  if c.bpArmed then
    match accessOf { s with turn := k } i with
    | some a => [0, 1].find? fun j => watchMeets c.dbg j a
    | none => none
  else none

/-- A step is under way: the instruction is still to issue; it is issuing; it has issued and its engine operation is awaited
(R244). -/
def Core.stepping (c : Core) : Bool := c.dbg.ctl.getLsbD 2
def Core.stepIssues (c : Core) : Bool := c.dbg.ctl.getLsbD 9
def Core.stepWaits (c : Core) : Bool := c.dbg.ctl.getLsbD 8

/-- The end of a debug step (R244, R400): WHY 2. -/
def State.endStep (s : State) (k : Nat) : State :=
  (s.modCore k fun c => { c with dbg := { c.dbg with ctl := c.dbg.ctl &&& ~~~0x304#64 } }).debugHalt k 2 0 0

/-- The engine operation that the stepped instruction forked is in flight: no other was forked since its issue (R244). -/
def Core.stepBusy (c : Core) : Bool :=
  c.eng.mq.any (fun o => decide (c.dbg.mark ≤ o.ord)) || c.eng.pq.any fun o => decide (c.dbg.mark ≤ o.ord)

/-- After an instruction of core `k` that was stepped: the step ends, or in step-sync mode waits for the operation that it forked
(R244). A stall goes on with the step; a suspension ends it, though the instruction has still to complete (DESIGN CHOICE, log 112). -/
def State.afterStep (s : State) (k : Nat) : State :=
  let c := s.core k
  if c.stepIssues then
    if c.dbg.ctl.getLsbD 6 && c.stepBusy then
      s.modCore k fun c => { c with dbg := { c.dbg with ctl := (c.dbg.ctl &&& ~~~0x204#64) ||| 0x100#64 } }
    else s.endStep k
  else s

/-- DCTL_HALT: HALT written to DCTL of newt `k`, with its other bits as they stand (R400, R401). -/
def execDctlHalt (k : Nat) (s : State) : Host.Outcome State Fault Refusal :=
  .next (s.dbgWrite k 0x00 ((s.core k).dctlReg &&& 0x78#64 ||| 1#64))

/-- DCTL_RUN: RUN written to DCTL of newt `k` (R400, R401). -/
def execDctlRun (k : Nat) (s : State) : Host.Outcome State Fault Refusal :=
  .next (s.dbgWrite k 0x00 ((s.core k).dctlReg &&& 0x78#64 ||| 2#64))

/-- DCTL_STEP: STEP written to DCTL of newt `k` (R244, R400). -/
def execDctlStep (k : Nat) (s : State) : Host.Outcome State Fault Refusal :=
  .next (s.dbgWrite k 0x00 ((s.core k).dctlReg &&& 0x78#64 ||| 4#64))

/-- DCTL_DRAIN: DRAIN written to DCTL of newt `k`; it reads 1 until no engine operation is left (R244, R400). -/
def execDctlDrain (k : Nat) (s : State) : Host.Outcome State Fault Refusal :=
  .next (s.dbgWrite k 0x00 ((s.core k).dctlReg &&& 0x78#64 ||| 0x80#64))

/-- DDATA_ACCESS: DDATA of newt `k` written, or read, which leaves the state as it is (R400). -/
def execDdataAccess (k : Nat) (wr : Option Word) (s : State) : Host.Outcome State Fault Refusal :=
  match wr with
  | some v => .next (s.dbgWrite k 0x58 v)
  | none => .next s

/-- BREAKPOINT_MATCH: the next PC of newt `k` equals a breakpoint, and the newt halts before the instruction (R401); a slot above its
line's H never matches (R123). -/
def execBreakpointMatch (k : Nat) (s : State) : Host.Outcome State Fault Refusal :=
  match (s.core k).ctl.run, (s.core k).bpHit with
  | some _, some i => if s.slotOfLine k then .next (s.debugHalt k 4 i 0) else .next s
  | _, _ => .next s

/-- WATCHPOINT_MATCH: the next instruction of newt `k` meets a watchpoint, and the newt halts before it issues (R401). -/
def execWatchpointMatch (k : Nat) (s : State) : Host.Outcome State Fault Refusal :=
  match (s.core k).ctl.run with
  | none => .next s
  | some _ =>
    match s.fetch k with
    | .fault _ _ | .wait _ => .next s
    | .instr i _ _ =>
      match s.watchHit k i with
      | some j => .next (s.debugHalt k 5 j 0)
      | none => .next s

/-! ## Trace stations (R402, R403) -/

/-- The tile lies in the quadrant of station `q` (R402). -/
def inQuadrant (q t : Nat) : Bool :=
  let x := t % 256
  let y := t / 256
  decide (x / 128 = q % 2) && decide (y / 64 = q / 2 % 2)

/-- STATE of a trace station: a capture that has filled its window of 65,536 cycles is draining (R402, R403). -/
def Trace.now (t : Trace) (cycle : Nat) : Nat :=
  if t.state = 2 ∧ t.tcyc.toNat + (65536 - t.pre.toNat) ≤ cycle then 3 else t.state.toNat

/-- The tile of a trace belongs to a confidential partition (R403). -/
def State.traceDenied (s : State) (t : Nat) : Bool :=
  match (s.tile t).owner with
  | some p => (s.part p).conf
  | none => false

/-- Word 0 of a trace station written (R402): TILE, PRE, TRIG and ARM. -/
def State.traceWrite (s : State) (q : Nat) (v : Word) : State :=
  let old := Table.get {} s.trace q
  let tile := bitsOf v.toNat 48 34
  let t : Trace := { old with tile := tile, pre := v.extractLsb' 18 16, trig := v.extractLsb' 16 2 }
  let t1 : Trace :=
    if v.getLsbD 0 ∧ t.state = 0 ∧ inQuadrant q tile ∧ !s.traceDenied tile then
      if t.trig = 0 then { t with state := 2, tcyc := BitVec.ofNat 64 s.cycle } else { t with state := 1 }
    else t
  { s with trace := Table.set s.trace q t1 }

/-- TRACE_ARM: word 0 of station `q` is written with ARM (R402). -/
def execTraceArm (q : Nat) (v : Word) (s : State) : Host.Outcome State Fault Refusal :=
  .next (s.traceWrite (q % 4) (v ||| 1#64))

/-- TRACE_TRIGGER: the external trigger of a station; triggers 1 and 2 fire where their cause stands (R402). -/
def execTraceTrigger (q : Nat) (s : State) : Host.Outcome State Fault Refusal :=
  let t := Table.get {} s.trace (q % 4)
  if t.state = 1 ∧ t.trig = 3 then
    .next { s with trace := Table.set s.trace (q % 4) { t with state := 2, tcyc := BitVec.ofNat 64 s.cycle } }
  else .next s

/-- TRACE_DRAIN_DONE: a filled window has left over the lanes; the station is idle again and DONE is set (R402, R403). -/
def execTraceDrainDone (q : Nat) (s : State) : Host.Outcome State Fault Refusal :=
  let t := Table.get {} s.trace (q % 4)
  if t.now s.cycle = 3 then .next { s with trace := Table.set s.trace (q % 4) { t with state := 0, done := true } }
  else .next s

/-- Captures of a tile stop, without draining, when it changes owner (R403). -/
def State.stopTrace (s : State) (tile : Nat) : State :=
  { s with trace := mapVals (fun t => if t.tile = tile then { t with state := 0 } else t) s.trace }

end Sys2Proof.Machine
end

