-- ==== Sys2Proof/Machine/Budgets.lean ====
section
/-! DEFINITION. Draw budgets (R24, R25, R29): what each tile's is, what a launch boundary makes of it, and the module's limit. -/

namespace Sys2Proof.Machine

/-- The budgets of the tiles that partitions hold, together, and the number of the other tiles. -/
def State.heldBudgets (s : State) : Nat := sumBy (fun e => if e.2.owner.isSome then e.2.budget else 0) s.tiles
def State.freeTiles (s : State) : Nat := Config.tiles - (s.tiles.filter fun e => e.2.owner.isSome).length

/-- The budget that firmware wants for a tile: the limit last accepted spread over the tiles, or less where it has throttled the tile
(R25, R29; DESIGN CHOICE, log 42). -/
def State.wantBudget (s : State) (t : Nat) : Nat := Nat.min (s.tile t).want (s.host.asked / Config.tiles)

/-- The budget of a tile that no partition holds: no launch boundary holds it back, and the limit in force leaves room for it (R25;
DESIGN CHOICE, log 42). -/
def State.freeBudget (s : State) (t : Nat) : Nat :=
  Nat.min (s.wantBudget t) ((s.host.limit - s.heldBudgets) / s.freeTiles)

/-- The budget of a tile. -/
def State.budgetOf (s : State) (t : Nat) : Nat :=
  if (s.tile t).owner.isSome then (s.tile t).budget else s.freeBudget t

/-- What the limit in force leaves beside the held budgets and 8 tokens for every other tile (R24, R25). -/
def State.budgetRoom (s : State) : Nat := s.host.limit - (s.heldBudgets + 8 * s.freeTiles)

/-- The budget that a launch boundary gives a held tile (R25): less at once, more as far as the limit in force has room. -/
def State.nextBudget (s : State) (t : Nat) : Nat :=
  Nat.min (s.wantBudget t) ((s.tile t).budget + s.budgetRoom)

/-- The limit last accepted comes into force as soon as the budgets of held tiles leave 8 tokens for every other tile (R24, R25). -/
def State.settleLimit (s : State) : State :=
  if s.host.asked ≠ s.host.limit ∧ s.heldBudgets + 8 * s.freeTiles ≤ s.host.asked then
    { s with host := { s.host with limit := s.host.asked } }
  else s

/-- A tile given to a partition, with the budget it has (R25); a capture that was armed while it had no owner stops (R403). -/
def State.giveTile (s : State) (p t : Nat) : State :=
  let b := s.budgetOf t
  (s.stopTrace t).modTile t fun x => { x with owner := some p, budget := b }

end Sys2Proof.Machine
end

