-- ==== Sys2Proof/Machine/Numbers.lean ====
section
/-! DEFINITION. Number formats and exact arithmetic (R187 to R202): values, formats, decoding, RoundTo, and the functions of the
vector engine. Everything is computed exactly on numbers m × 2^e and narrowed once. -/

namespace Sys2Proof.Machine

/-- A value: NaN, an infinity, or (−1)^neg × m × 2^e; a zero keeps its sign (R188). -/
inductive FVal where
  | nan
  | inf (neg : Bool)
  | fin (neg : Bool) (m : Nat) (e : Int)
deriving DecidableEq, Repr

/-- A floating format (R187): exponent and mantissa widths, bias, infinities, and the largest finite code without sign. -/
structure Fmt where
  eb : Nat
  mb : Nat
  bias : Int
  infs : Bool
  maxc : Nat
deriving DecidableEq, Repr

def fF32 : Fmt := ⟨8, 23, 127, true, 0x7F7FFFFF⟩
def fBf16 : Fmt := ⟨8, 7, 127, true, 0x7F7F⟩
def fF16 : Fmt := ⟨5, 10, 15, true, 0x7BFF⟩
def fE5m2 : Fmt := ⟨5, 2, 15, true, 0x7B⟩
def fE4m3 : Fmt := ⟨4, 3, 7, false, 0x7E⟩

/-- The width in bits of a format. -/
def Fmt.width (f : Fmt) : Nat := f.eb + f.mb + 1

/-- The canonical NaN (R187). -/
def Fmt.nan (f : Fmt) : Nat := if f.infs then f.maxc + 1 + 2 ^ (f.mb - 1) else 0x7F

/-- The sign bit of a format, or 0. -/
def Fmt.sign (f : Fmt) (neg : Bool) : Nat := if neg then 2 ^ (f.eb + f.mb) else 0

/-- The value of a code (R187). -/
def Fmt.decode (f : Fmt) (x : Nat) : FVal :=
  let neg := bitOf x (f.eb + f.mb)
  let c := x % 2 ^ (f.eb + f.mb)
  let e := c / 2 ^ f.mb
  let m := c % 2 ^ f.mb
  if f.maxc < c then (if f.infs ∧ c = f.maxc + 1 then .inf neg else .nan)
  else if e = 0 then .fin neg m (1 - f.bias - f.mb)
  else .fin neg (2 ^ f.mb + m) (e - f.bias - f.mb)

/-- Whether rounding away from zero is called for: `odd` is the kept low bit, `half` and `rest` say how the remainder compares
with half a unit and whether it is nonzero (R197 step 4). -/
def roundUp (mode : Rnd) (neg odd : Bool) (rem unit : Nat) : Bool :=
  match mode with
  | .rne => decide (unit < 2 * rem) || (decide (2 * rem = unit) && odd)
  | .rtz => false
  | .rdn => neg && rem != 0
  | .rup => !neg && rem != 0

/-- m × 2^e in units of 2^q, rounded to an integer by mode. -/
def roundUnits (mode : Rnd) (neg : Bool) (m : Nat) (e q : Int) : Nat :=
  if q ≤ e then m * 2 ^ (e - q).toNat
  else
    let unit := 2 ^ (q - e).toNat
    let n := m / unit
    if roundUp mode neg (n % 2 == 1) (m % unit) unit then n + 1 else n

/-- The code of an overflow (R197 step 5). -/
def Fmt.overflow (f : Fmt) (mode : Rnd) (sat neg : Bool) : Nat :=
  let toInf :=
    match mode with
    | .rne => true
    | .rtz => false
    | .rdn => neg
    | .rup => !neg
  if toInf && !sat then (if f.infs then f.sign neg + f.maxc + 1 else f.nan) else f.sign neg + f.maxc

/-- The code without sign of n × 2^q on a format's grid, where q is the spacing that belongs to n: past the largest finite code
when it overflows. -/
def Fmt.gridCode (f : Fmt) (n : Nat) (q : Int) : Nat :=
  if n < 2 ^ f.mb then n
  else (q + f.mb + f.bias).toNat * 2 ^ f.mb + (n - 2 ^ f.mb)

/-- RoundTo(fmt, x, mode, sat) (R197). A rounding that carries into the next power of two has n = 2^(M+1), whose code the sum
below gives. -/
def roundTo (f : Fmt) (mode : Rnd) (sat : Bool) : FVal → Nat
  | .nan => f.nan
  | .inf neg => if sat then f.sign neg + f.maxc else if f.infs then f.sign neg + f.maxc + 1 else f.nan
  | .fin neg m e =>
    if m = 0 then f.sign neg
    else
      let top : Int := Nat.log2 m + e
      let emin : Int := 1 - f.bias
      let q : Int := (if emin ≤ top then top else emin) - f.mb
      let n := roundUnits mode neg m e q
      let c := f.gridCode n q
      if f.maxc < c then f.overflow mode sat neg else f.sign neg + c

/-! ## Exact arithmetic (R188, R201) -/

/-- The signed numerator of a value in units of 2^q, for q at most its exponent. -/
def unitsOf (neg : Bool) (m : Nat) (e q : Int) : Int :=
  let n : Int := (m * 2 ^ (e - q).toNat : Nat)
  if neg then -n else n

/-- The lesser of two exponents. -/
def minExp (a b : Int) : Int := if a ≤ b then a else b

/-- The exact sum (R188); an exact zero sum is +0 unless both operands are −0. -/
def FVal.add : FVal → FVal → FVal
  | .nan, _ => .nan
  | _, .nan => .nan
  | .inf a, .inf b => if a = b then .inf a else .nan
  | .inf a, .fin .. => .inf a
  | .fin .., .inf b => .inf b
  | .fin na ma ea, .fin nb mb eb =>
    let q := minExp ea eb
    let s := unitsOf na ma ea q + unitsOf nb mb eb q
    if s = 0 then .fin (na && nb && ma == 0 && mb == 0) 0 0 else .fin (decide (s < 0)) s.natAbs q

/-- The value with its sign inverted. -/
def FVal.neg : FVal → FVal
  | .nan => .nan
  | .inf a => .inf (!a)
  | .fin n m e => .fin (!n) m e

/-- The exact product (R201). -/
def FVal.mul : FVal → FVal → FVal
  | .nan, _ => .nan
  | _, .nan => .nan
  | .inf a, .inf b => .inf (a != b)
  | .inf a, .fin n m _ => if m = 0 then .nan else .inf (a != n)
  | .fin n m _, .inf b => if m = 0 then .nan else .inf (n != b)
  | .fin na ma ea, .fin nb mb eb => .fin (na != nb) (ma * mb) (ea + eb)

/-- The order of two values that are not NaN: less, equal, greater; −0 equals +0 (R201). -/
def FVal.cmp : FVal → FVal → Option Ordering
  | .nan, _ => none
  | _, .nan => none
  | .inf a, .inf b => some (if a = b then .eq else if a then .lt else .gt)
  | .inf a, .fin .. => some (if a then .lt else .gt)
  | .fin .., .inf b => some (if b then .gt else .lt)
  | .fin na ma ea, .fin nb mb eb =>
    let q := minExp ea eb
    let x := unitsOf na ma ea q
    let y := unitsOf nb mb eb q
    some (if x < y then .lt else if y < x then .gt else .eq)

/-- The sign of a value. -/
def FVal.isNeg : FVal → Bool
  | .nan => false
  | .inf a => a
  | .fin n _ _ => n

/-- The magnitude. -/
def FVal.abs : FVal → FVal
  | .nan => .nan
  | .inf _ => .inf false
  | .fin _ m e => .fin false m e

/-- A value is zero. -/
def FVal.isZero : FVal → Bool
  | .fin _ 0 _ => true
  | _ => false

/-- a ≤ b, for values that are not NaN. -/
def FVal.le (a b : FVal) : Bool :=
  match a.cmp b with
  | some .gt => false
  | some _ => true
  | none => false

/-- An integer as a value. -/
def FVal.ofInt (x : Int) : FVal := .fin (decide (x < 0)) x.natAbs 0

/-- A value rounded to an integer and clamped to a range (R198). -/
def toIntClamp (mode : Rnd) (lo hi : Int) : FVal → Int
  | .nan => 0
  | .inf neg => if neg then lo else hi
  | .fin neg m e =>
    let n : Int := (roundUnits mode neg m e 0 : Nat)
    let x := if neg then -n else n
    if x < lo then lo else if hi < x then hi else x

/-! ## Scales and nq4 (R189, R191, R192) -/

/-- e8m0 (R189). -/
def e8m0 (x : Nat) : FVal := if x = 255 then .nan else .fin false 1 (x - 127)

/-- e5m3 (R189). -/
def e5m3 (x : Nat) : FVal :=
  if x / 8 = 0 then .fin false (x % 8) (-17) else .fin false (8 + x % 8) ((x / 8 : Nat) - 18)

/-- The magnitude table K (R191). -/
def nq4K : List Nat := [11, 33, 55, 80, 107, 139, 181, 256]

/-- The value of an nq4 code (R191). -/
def nq4 (c : Nat) : FVal :=
  if c = 8 then .fin false 0 0 else .fin (decide (8 ≤ c)) (nq4K.getD (c % 8) 0) (-8)

/-! ## Functions of the vector engine (R202) -/

/-- A quotient n / d × 2^e with a sticky bit below it: enough bits for one correct rounding to f32. -/
def quotient (neg : Bool) (n d : Nat) (e : Int) : FVal :=
  let x := n * 2 ^ 320
  .fin neg (2 * (x / d) + (if x % d = 0 then 0 else 1)) (e - 321)

/-- 1 / x (R202). -/
def FVal.rcp : FVal → FVal
  | .nan => .nan
  | .inf a => .fin a 0 0
  | .fin n m e => if m = 0 then .inf n else quotient n 1 m (-e)

/-- The integer square root by bits, from bit `k − 1` down. -/
def isqrtBits (x r : Nat) : Nat → Nat
  | 0 => r
  | k + 1 => isqrtBits x (if (r + 2 ^ k) * (r + 2 ^ k) ≤ x then r + 2 ^ k else r) k

/-- 1 / sqrt x (R202): the root of 2^320 / m taken with a sticky bit. -/
def FVal.rsqrt : FVal → FVal
  | .nan => .nan
  | .inf a => if a then .nan else .fin false 0 0
  | .fin n m e =>
    if m = 0 then .inf n
    else if n then .nan
    else
      let odd := e % 2 != 0
      let m1 := if odd then 2 * m else m
      let e1 := if odd then e - 1 else e
      let r := isqrtBits (2 ^ 320 / m1) 0 161
      .fin false (2 * r + (if r * r * m1 = 2 ^ 320 then 0 else 1)) (-(e1 / 2) - 161)

/-- floor(ln 2 × 2^256). -/
def ln2 : Nat := 0xb17217f7d1cf79abc9e3b39803f2f6af40f343267298b62d8a0d175b8baafa2b

/-- 2^256 × Σ y^n / n! from term `n`, for y in units of 2^−256; `t` is the term before. -/
def expSeries (y t n : Nat) : Nat → Nat
  | 0 => 0
  | k + 1 =>
    let u := t * y / 2 ^ 256 / n
    u + expSeries y u (n + 1) k

/-- 2^(f / 2^256) in units of 2^−256, for f below 2^256. -/
def exp2Frac (f : Nat) : Nat := 2 ^ 256 + expSeries (f * ln2 / 2 ^ 256) (2 ^ 256) 1 80

/-- 2^x (R202). Past ±1,024 the result overflows, or rounds to zero. A result that is not a power of two is irrational, and its
256 fraction bits with a sticky bit round as it does (DEDUCED, log 30). -/
def FVal.exp2 : FVal → FVal
  | .nan => .nan
  | .inf a => if a then .fin false 0 0 else .inf false
  | .fin neg m e =>
    if m = 0 then .fin false 1 0
    else if 10 ≤ Nat.log2 m + e then (if neg then .fin false 1 (-1024) else .fin false 1 1024)
    else if Nat.log2 m + e < -200 then .fin false (2 ^ 201 + 1) (-201)
    else
      let x := unitsOf neg m (e + 256) (minExp (e + 256) 0) / (2 ^ (-(minExp (e + 256) 0)).toNat : Nat)
      let i := x / (2 ^ 256 : Nat)
      let f := (x % (2 ^ 256 : Nat)).toNat
      if f = 0 then .fin false 1 i else .fin false (2 * exp2Frac f + 1) (i - 257)

/-- 2^256 × Σ z^(2n+1) / (2n+1) from term `n`; `t` is z^(2n+1) in units of 2^−256, `z2` is z². -/
def atanhSeries (z2 t n : Nat) : Nat → Nat
  | 0 => 0
  | k + 1 => t / (2 * n + 1) + atanhSeries z2 (t * z2 / 2 ^ 256) (n + 1) k

/-- log2(m / 2^k) in units of 2^−256, for 2^k ≤ m < 2^(k+1). -/
def log2Frac (m k : Nat) : Nat :=
  let z := (m - 2 ^ k) * 2 ^ 256 / (m + 2 ^ k)
  2 * atanhSeries (z * z / 2 ^ 256) z 0 90 * 2 ^ 256 / ln2

/-- log2 x (R202). A result that is not an integer is irrational; 256 fraction bits and a sticky bit (DEDUCED, log 30). -/
def FVal.log2 : FVal → FVal
  | .nan => .nan
  | .inf a => if a then .nan else .inf false
  | .fin neg m e =>
    if m = 0 then .inf true
    else if neg then .nan
    else
      let k := Nat.log2 m
      if m = 2 ^ k then FVal.ofInt (k + e)
      else
        let x : Int := (k + e) * (2 ^ 256 : Nat) + (log2Frac m k : Nat)
        .fin (decide (x < 0)) (2 * x.natAbs + 1) (-257)

end Sys2Proof.Machine
end

