-- ==== Sys2Proof/Machine/MatrixCalc.lean ====
section
/-! DEFINITION. What matrix operations compute (R192, R195, R196, R200, R232): operand slots, dot products in groups, images. -/

namespace Sys2Proof.Machine

/-- The FMT code that a matrix format's bank must have (R194, R229). -/
def mfmtCode : MFmt → Nat
  | .bf16 => 1
  | .f16 => 2
  | .e4m3 => 3
  | .e5m2 => 4
  | .e4m3s => 5
  | .e5m2s => 6
  | .nq4 => 7

/-- The bytes of a slot that a format uses (R195). -/
def usedBytes : MFmt → Nat
  | .bf16 | .f16 | .e4m3 | .e5m2 => 3072
  | .e4m3s | .e5m2s => 3456
  | .nq4 => 3936

/-- Elements of a group along K (R200). -/
def groupSize : MFmt → Nat
  | .bf16 | .f16 => 16
  | .e4m3 | .e5m2 | .e4m3s | .e5m2s => 32
  | .nq4 => 64

/-- Byte `i` of a slot held as a number. -/
def slotByte (x i : Nat) : Nat := (x >>> (8 * i)) % 256

/-- `n` bytes of a slot from byte `i`, as a number. -/
def slotField (x i n : Nat) : Nat := (x >>> (8 * i)) % 2 ^ (8 * n)

/-- value(element k of row r), with its e8m0 or block scale (R192, R195, R200). -/
def slotValue (fmt : MFmt) (x r k : Nat) : FVal :=
  match fmt with
  | .bf16 => fBf16.decode (slotField x (384 * r + 2 * k) 2)
  | .f16 => fF16.decode (slotField x (384 * r + 2 * k) 2)
  | .e4m3 => fE4m3.decode (slotByte x (384 * r + k))
  | .e5m2 => fE5m2.decode (slotByte x (384 * r + k))
  | .e4m3s => (fE4m3.decode (slotByte x (384 * r + k))).mul (e8m0 (slotByte x (3072 + 48 * r + k / 8)))
  | .e5m2s => (fE5m2.decode (slotByte x (384 * r + k))).mul (e8m0 (slotByte x (3072 + 48 * r + k / 8)))
  | .nq4 =>
    (nq4 (slotByte x (384 * r + k / 2) / (if k % 2 = 0 then 1 else 16) % 16)).mul (e5m3 (slotByte x (3072 + 96 * r + k / 8)))

/-- Superscale `t` of row r (R195). -/
def superScale (x r t : Nat) : FVal := fF32.decode (slotField x (3840 + 12 * r + 4 * t) 4)

/-- Some value of a list satisfies a test. -/
def anyInf (neg : Bool) (ps : List FVal) : Bool := ps.any fun p => p == .inf neg

/-- floor(log2) of the greatest magnitude of a list with a nonzero value. -/
def topExp : List FVal → Option Int
  | [] => none
  | p :: t =>
    match p, topExp t with
    | .fin _ m e, none => if m = 0 then none else some (Nat.log2 m + e)
    | .fin _ m e, some x => if m = 0 then some x else (if x < Nat.log2 m + e then some (Nat.log2 m + e) else some x)
    | _, r => r

/-- The sum in units of 2^q of magnitudes truncated to those units. -/
def truncSum (q : Int) : List FVal → Int
  | [] => 0
  | p :: t =>
    (match p with
      | .fin n m e =>
        let u : Int := (roundUnits .rtz n m e q : Nat)
        if n then -u else u
      | _ => 0) + truncSum q t

/-- The rounded sum of a group's products (R200). -/
def groupSum (ps : List FVal) : FVal :=
  if ps.any (· == .nan) || (anyInf true ps && anyInf false ps) then .nan
  else if anyInf false ps then .inf false
  else if anyInf true ps then .inf true
  else
    match topExp ps with
    | none => .fin (ps.all (·.isNeg)) 0 0
    | some top =>
      let q := top - 60
      let s := truncSum q ps
      fF32.decode (roundTo fF32 .rne false (.fin (decide (s < 0)) s.natAbs q))

/-- A value rounded to f32 (R200, R201). -/
def f32Of (v : FVal) : FVal := fF32.decode (roundTo fF32 .rne false v)

/-- What group g adds to output (i, j) (R200). -/
def groupTerm (fmt : MFmt) (xa xb i j g : Nat) : FVal :=
  let n := groupSize fmt
  let t := groupSum ((List.range n).map fun k => (slotValue fmt xa i (g * n + k)).mul (slotValue fmt xb j (g * n + k)))
  if fmt = .nq4 then f32Of ((f32Of (t.mul (superScale xa i (g / 4)))).mul (superScale xb j (g / 4))) else t

/-- Element n of an accumulator. -/
def accElem (a : BitVec 2048) (n : Nat) : Nat := (a.toNat >>> (32 * n)) % 2 ^ 32

/-- 32-bit fields packed, the first lowest. -/
def pack32 : List Nat → Nat
  | [] => 0
  | x :: t => x % 2 ^ 32 + 2 ^ 32 * pack32 t

/-- An accumulator from its 64 elements. -/
def accOf (l : List Nat) : BitVec 2048 := BitVec.ofNat 2048 (pack32 l)

/-- An accumulator with a function applied to every element. -/
def mapAcc (f : Nat → Nat → Nat) (a : BitVec 2048) : BitVec 2048 := accOf ((List.range 64).map fun n => f n (accElem a n))

/-- One group added into the accumulator (R200). -/
def addGroup (fmt : MFmt) (xa xb g : Nat) (a : BitVec 2048) : BitVec 2048 :=
  mapAcc (fun n x => roundTo fF32 .rne false ((fF32.decode x).add (groupTerm fmt xa xb (n / 8) (n % 8) g))) a

/-- `n` groups from group g. -/
def addGroups (fmt : MFmt) (xa xb g : Nat) (a : BitVec 2048) : Nat → BitVec 2048
  | 0 => a
  | n + 1 => addGroups fmt xa xb (g + 1) (addGroup fmt xa xb g a) n

/-- `mscale` (R232). -/
def scaleAcc (s : BitVec 32) (a : BitVec 2048) : BitVec 2048 :=
  mapAcc (fun _ x => roundTo fF32 .rne false ((fF32.decode x).mul (fF32.decode s.toNat))) a

/-! ## Images (R196) -/

/-- The element format of an FMT code that names a floating format (R194). -/
def fmtFloat (code : Nat) : Option Fmt :=
  match code with
  | 0 => some fF32
  | 1 => some fBf16
  | 2 => some fF16
  | 3 => some fE4m3
  | 4 => some fE5m2
  | 5 => some fE4m3
  | 6 => some fE5m2
  | _ => none

/-- RND and SAT of a BFMT value (R93). -/
def rndOf (b : BitVec 7) : Rnd :=
  match bitsOf b.toNat 5 4 with
  | 0 => .rne
  | 1 => .rtz
  | 2 => .rdn
  | _ => .rup
def satOf (b : BitVec 7) : Bool := b.getLsbD 6

/-- The greatest finite magnitude of a row, if it has a finite nonzero element. -/
def rowMax : List FVal → Option FVal
  | [] => none
  | x :: t =>
    match x, rowMax t with
    | .fin _ m e, none => if m = 0 then none else some (.fin false m e)
    | .fin _ m e, some y => if y.le (.fin false m e) then some (.fin false m e) else some y
    | _, r => r

/-- The scale exponent of a row (R196): the least q from −127 with max / 2^q at most the format's largest finite value. -/
def rowScale (f : Fmt) (row : List FVal) : Int :=
  match rowMax row with
  | none => -127
  | some mx =>
    match (List.range 255).find? fun (i : Nat) => (mx.mul (.fin false 1 (127 - (i : Int)))).le (f.decode f.maxc) with
    | some i => (i : Int) - 127
    | none => 127

/-- The image that `mst` writes (R196): element n by element n, then for formats 5 and 6 the eight row scales. -/
def imageOf (b : BitVec 7) (a : BitVec 2048) : List Byte :=
  let code := fmtOf b
  match fmtFloat code with
  | none => []
  | some f =>
    let vals := (List.range 64).map fun n => fF32.decode (accElem a n)
    if code = 5 ∨ code = 6 then
      let qs := (List.range 8).map fun i => rowScale f ((vals.drop (8 * i)).take 8)
      ((List.range 64).flatMap fun n =>
        leBytes 1 (roundTo f (rndOf b) (satOf b) ((vals.getD n .nan).mul (.fin false 1 (-(qs.getD (n / 8) 0)))))) ++
        qs.flatMap fun q => leBytes 1 (q + 127).toNat
    else vals.flatMap fun v => leBytes (f.width / 8) (roundTo f (rndOf b) (satOf b) v)

/-- The accumulator that `mld` reads from an image held as a number (R196). -/
def accOfImage (code x : Nat) : BitVec 2048 :=
  match fmtFloat code with
  | none => 0
  | some f =>
    let n8 := f.width / 8
    accOf ((List.range 64).map fun n =>
      let v := f.decode (slotField x (n8 * n) n8)
      roundTo fF32 .rne false (if code = 5 ∨ code = 6 then v.mul (e8m0 (slotByte x (64 + n / 8))) else v))

end Sys2Proof.Machine
end

