-- ==== Sys2Proof/Machine/Engines.lean ====
section
/-! DEFINITION. What the engines of a newt share (R206 to R213, R235): reads of operands, deferred faults, completion events,
the scoreboard between engines, and the interruption of a `gmma` (R355). -/

namespace Sys2Proof.Machine

/-- The first failing sector of `n` sectors from `off` that an engine reads: sub-cause 3 stale, 4 poisoned, and its offset (R88,
R210). -/
def State.badSector (s : State) (k off : Nat) : Nat → Option (Nat × Nat)
  | 0 => none
  | n + 1 =>
    if s.expiredAt k off then some (3, off)
    else if s.poisonAt k off 32 then some (4, off)
    else State.badSector s k (off + 32) n

/-- The record of a deferred engine fault (R210, R331): `eng` 0 matrix, 2 pump. -/
def engFault (eng sub slot ring : Nat) (pc : Word) (addr whr : Nat) : FaultRec :=
  { code := 0x15, sub := sub, pc := pc, addr := BitVec.ofNat 64 addr, kind := 4
    w5 := BitVec.ofNat 64 (slot * 2 ^ 26 + ring * 2 ^ 22 + eng * 2 ^ 16 + sub)
    w7 := BitVec.ofNat 64 whr }

/-- An activation of SEQ `q` is live on the core, in its slot or moved out of it. -/
def Core.liveSeq (c : Core) (slot : Nat) (q : BitVec 32) : Bool :=
  ((c.slot slot).st != .free && (c.slot slot).uid == q)
    || c.moved.any fun m => m.1 == slot && m.2.uid == q

/-- The activation of SEQ `q` that issued an operation from `slot` is a channel 30 activation, live still (R358). -/
def Core.from30 (c : Core) (slot : Nat) (q : BitVec 32) : Bool :=
  ((c.slot slot).uid == q && (c.slot slot).chan == 30 && (c.slot slot).st != .free)
    || c.moved.any fun m => m.2.uid == q && m.2.chan == 30

/-- A deferred fault recorded against its activation, the first one kept; once the activation has gone the partition's
engine-fault counter counts it (R210). -/
def State.charge (s : State) (k p slot : Nat) (q : BitVec 32) (r : FaultRec) : State :=
  if (s.core k).liveSeq slot q then
    s.modCore k fun c => c.modSeq q.toNat fun a =>
      { a with life := { a.life with deferred := some (a.life.deferred.getD r) } }
  else s.partCount p 0

/-- A completion event signalled plain, its obligation discharged (R69). -/
def State.signalDone (s : State) (k p h : Nat) (ev : BitVec 16) : State :=
  if ev.toNat = Config.noEvent then s
  else (s.signal p ev.toNat 1 false).modCore k fun c => c.discharge h ev.toNat 1

/-- The partition whose events core `k` uses. -/
def State.partId (s : State) (k : Nat) : Nat := (s.owner k).getD 4096

/-- A poisoned operand consumed by an engine is counted (R398). -/
def State.countBad (s : State) (k sub : Nat) : State := if sub = 4 then s.tileCount (tileOf k) 7 else s

/-- Later operations of the same activation on the matrix engine cancelled, their events poisoned (R210 step 3). -/
def State.cancelLaterM (s : State) (k p slot : Nat) (q : BitVec 32) : State :=
  let m := (s.core k).eng.mq.filter fun o => o.slot == slot && o.seq == q
  (s.dropM k fun o => o.slot == slot && o.seq == q).cancelEvents k p holderMx (m.map (·.ev))

/-- An engine's bytes written within one granule of core `k` under the tag they meet (R86); `renews` says that they may renew it (R358). -/
def State.engineLand (s : State) (k off : Nat) (renews whole : Bool) (bs : List Byte) : State :=
  s.modStore k off fun _ l =>
    if renews then l.land s.fade (s.retn k) whole off bs false else l.landStill s.fade off bs false

/-- The head of the matrix queue removed. -/
def Core.popM (c : Core) : Core := { c with eng := { c.eng with mq := c.eng.mq.tail, spill := [] } }

/-- A matrix operation ends poisoned (R210, R235): its accumulator is as it was, its event is signalled poisoned, and where it is
charged with a fault, its activation's later operations are cancelled. -/
def State.endPoisonedM (s : State) (k : Nat) (o : MOp) (r : Option FaultRec) : State :=
  let p := s.partId k
  let s1 := s.modCore k fun c => (c.restoreAcc o).popM
  match r with
  | some f => ((s1.charge k p o.slot o.seq f).cancelEvent k p holderMx o.ev).cancelLaterM k p o.slot o.seq
  | none => s1.cancelEvent k p holderMx o.ev

/-- A matrix operation completes: it leaves the queue and signals its event (R206, R229). -/
def State.endM (s : State) (k : Nat) (o : MOp) : State :=
  (s.modCore k fun c => c.popM.wakeLocal).signalDone k (s.partId k) holderMx o.ev

/-- A COPY of the pump's whose access has started holds a range that a matrix operation would access (R212). -/
def Core.pumpHolds (c : Core) (off len : Nat) (wr : Bool) : Bool :=
  c.eng.pump.going && (rangeMeets c.eng.pump.wr off len || (wr && rangeMeets c.eng.pump.rd off len))

/-- The slot at TAIL of a ring. -/
def Core.tailOff (c : Core) (h : Nat) : Nat := (c.ring h).slotOff (c.ring h).tail.toNat

/-- Bytes of a slot read by an engine, as a number (R88). -/
def State.slotNat (s : State) (k off n : Nat) : Nat := leNat (s.cellsAt k off n)

/-- The gang of newt `k`: the newts of its row that GANGM names, from the leader on (R230, R231). -/
def State.gangOf (s : State) (k : Nat) : List Nat :=
  ((List.range 8).filter fun i => (s.core k).ctl.gangm.getLsbD i).map (k / 8 * 8 + ·)

/-- The last K group that uses byte `b` of an operand slot: of its elements, e8m0 or block scales, or superscales (R195, R200). -/
def lastUse (fmt : MFmt) (b : Nat) : Nat :=
  if b < 3072 then b % 384 / 32
  else if fmt = .nq4 then (if b < 3840 then (b - 3072) % 96 / 8 else 4 * ((b - 3840) % 12 / 4) + 3)
  else (b - 3072) % 48 / 4

/-- The bytes of a slot, from byte `b` on, as they are used after `n` groups: those still to be used come from `caught` as far as it
goes (R355). -/
def mergeCaught (fmt : MFmt) (n b : Nat) : List Byte → List Byte → List Byte
  | _, [] => []
  | [], live => live
  | c :: cs, x :: xs =>
    if n ≤ lastUse fmt b then c :: mergeCaught fmt n (b + 1) cs xs else x :: mergeCaught fmt n (b + 1) (c :: cs) xs

/-- The A operand of a running `gmma` as member `m` has it: the bytes that an interruption caught, and the rest from the leader's slot
(R355). -/
def State.gangA (s : State) (m lead : Nat) (o lo : MOp) : Nat :=
  match o.kind, lo.kind with
  | .gmma fmt _ _ _ _, .gmma _ _ hb _ _ =>
    leNat (mergeCaught fmt o.group 0 (s.core m).eng.spill (s.cellsAt lead ((s.core lead).tailOff hb) (usedBytes fmt)))
  | _, _ => 0

/-- The sectors of an operand slot that a `gmma` reads after `n` groups, `caught` of the bytes still to be used apart, by number (R355). -/
def liveSectors (fmt : MFmt) (n caught : Nat) : List Nat :=
  if n = 0 then List.range (usedBytes fmt / 32)
  else ((((List.range (usedBytes fmt)).filter fun b => decide (n ≤ lastUse fmt b)).drop caught).map (· / 32)).eraseDups

/-- The first of some sectors of a slot at `off` that fails (R88, R210). -/
def State.badAmong (s : State) (k off : Nat) (js : List Nat) : Option (Nat × Nat) :=
  js.findSome? fun j => s.badSector k (off + 32 * j) 1

/-! ## Interruption of a running `gmma` at pre-emption (R349, R355) -/

/-- A running `gmma` of newt `m` stops after its first `n` K groups: its accumulator as it stands, and the first `x` bytes, modulo their
number, of what is left of the leader's A slot, which were broadcast and are caught in the spill ring. What is wrong with an operand is
found when the `gmma` is resumed (R355). -/
def State.interrupt1 (s : State) (m n x : Nat) : State :=
  let c := s.core m
  let lead := (s.gangOf m).headD m
  match c.eng.mq, (s.core lead).eng.mq.head?.map MOp.kind with
  | o :: t, some (.gmma _ _ hb _ _) =>
    match o.started, o.kind with
    | true, .gmma fmt a _ hc _ =>
      let used := usedBytes fmt
      let oa := (s.core lead).tailOff hb
      let s1 := (s.secded lead oa used).secded m (c.tailOff hc) used
      if o.group = 0 then
        let bs := s1.cellsAt lead oa used
        let left := ((List.range used).filter fun b => decide (n ≤ lastUse fmt b)).map fun b => bs.getD b 0
        let acc := addGroups fmt (leNat bs) (s1.slotNat m (c.tailOff hc) used) 0 o.pre n
        s1.modCore m fun c => { c with
          vec := { c.vec with a := Table.set c.vec.a a acc }
          eng := { c.eng with
            mq := { o with group := n } :: t
            spill := left.take (x % (left.length + 1)) } }
      else s1
    | _, _ => s
  | _, _ => s

/-- Every running `gmma` of some newts stops at the end of the same K group g, 0 to 11, with the same part of A caught: free choices
(R355). -/
def State.interruptGangs (s : State) (ks : List Nat) : State :=
  let g := Config.freeNat s.freeCount % 12
  let x := Config.freeNat (s.freeCount + 1)
  ks.foldl (fun s m => s.interrupt1 m (g + 1) x) { s with freeCount := s.freeCount + 2 }

end Sys2Proof.Machine
end

