-- ==== Sys2Proof/Machine/Telemetry.lean ====
section
/-! DEFINITION. Telemetry (R397 to R399): the counters of a partition as a sweep writes them into its area. -/

namespace Sys2Proof.Machine

/-- The tiles of partition `p`, ascending. -/
def State.tilesOf (s : State) (p : Nat) : List Nat := (List.range (s.partTiles p)).map (s.partFirst p + ·)

/-- Counters 0 to 15 of a table as 32-bit words (R398). -/
def counters (t : Table Nat) : List Byte := (List.range 16).flatMap fun i => leBytes 4 (Table.get 0 t i)

/-- The counters of a newt (R398). -/
def Cnt.bytes (c : Cnt) : List Byte :=
  leBytes 4 c.ecc.toNat ++ leBytes 4 c.replays.toNat ++ leBytes 4 c.stale.toNat ++ leBytes 4 c.retries.toNat

/-- The neighbour of tile `t` at a port: 0 N, 1 E, 2 S, 3 W (R14, R398); none at the edge of the mesh. -/
def neighbour (t port : Nat) : Option Nat :=
  match port with
  | 0 => if t < 256 then none else some (t - 256)
  | 1 => if t % 256 = 255 then none else some (t + 1)
  | 2 => if Config.tiles ≤ t + 256 then none else some (t + 256)
  | _ => if t % 256 = 0 then none else some (t - 1)

/-- The port of tile `t` lies on the boundary of partition `p` (R398). -/
def State.boundaryPort (s : State) (p t port : Nat) : Bool :=
  match neighbour t port with
  | some u => !s.inPart p u
  | none => false

/-- The counters of output link `i` of a tile, 4 × port + vc: flits sent and stall cycles, each wrapping and zero when the tile was last
reset (R398). How many there were in all by a cycle is not the model's to know (free values, log 4). -/
def State.linkCount (s : State) (t i : Nat) : List Byte :=
  let now := Config.link s.cycle (16 * t + i)
  let was := Config.link (s.tile t).linked (16 * t + i)
  leBytes 4 (now.extractLsb' 0 32 - was.extractLsb' 0 32).toNat ++ leBytes 4 (now.extractLsb' 32 32 - was.extractLsb' 32 32).toNat

/-- The link counters of a tile of partition `p`: zero at a boundary port (R398). -/
def State.linkBytes (s : State) (p t : Nat) : List Byte :=
  (List.range 16).flatMap fun i => if s.boundaryPort p t (i / 4) then List.replicate 8 0 else s.linkCount t i

/-- BOUND of a tile block (R398). -/
def State.boundBits (s : State) (p t : Nat) : Nat :=
  sumBy (fun i => if s.boundaryPort p t i then 2 ^ i else 0) (List.range 4)

/-- The block of tile `t` (R398). -/
def State.tileBlock (s : State) (p t : Nat) : List Byte :=
  counters (s.tile t).cnt ++ ((List.range 32).flatMap fun l => (s.core (t * 32 + l)).cnt.bytes)
    ++ s.linkBytes p t ++ leBytes 8 (s.boundBits p t)

/-- The blocks of tiles written, each as one snapshot (R398). -/
def State.sweepTiles (s : State) (p : Nat) : List Nat → State
  | [] => s
  | t :: ts =>
    let va := (s.part p).tel.base.toNat + 0x5000 + 0x400 * (t - s.partFirst p)
    State.sweepTiles (s.agentWrite p va (s.tileBlock p t)) p ts

/-- A sweep of partition `p` (R398): its words, its counters, its tiles' blocks, and SEQ last. -/
def State.sweep (s : State) (p : Nat) : State :=
  let x := s.part p
  let base := x.tel.base.toNat
  let s1 := s.agentWrite p (base + 8)
    (wordBytes [BitVec.ofNat 64 s.cycle, x.tel.flog.setWidth 64, BitVec.ofNat 64 (s.partTiles p)])
  let s2 := (s1.agentWrite p (base + 0x40) (counters x.tel.cnt)).sweepTiles p (s.tilesOf p)
  (s2.agentWrite p base (leBytes 8 (x.tel.seq + 1))).modPart p fun x => { x with tel := { x.tel with seq := x.tel.seq + 1 } }

/-- The final sweep into the old owner's area before an ownership change (R398). -/
def State.lastSweep (s : State) (p : Nat) : State := if (s.part p).tel.base = 0 then s else s.sweep p

/-- A sweep of partition `p` is due: 2^K cycles have passed since the last one, or since TELCTL was written (R397, R398; DESIGN CHOICE,
log 98). -/
def State.sweepDue (s : State) (p : Nat) : Bool :=
  let t := (s.part p).tel
  t.en && t.base != 0 && decide (t.since + 2 ^ t.k.toNat ≤ s.cycle)

/-- A sweep of partition `p` is still writing: a held home delays writes to its area outside the fault log (R287, R398). -/
def State.sweeping (s : State) (p : Nat) : Bool :=
  let base := (s.part p).tel.base.toNat
  let size := 0x5000 + 0x400 * s.partTiles p
  s.late.any fun w => w.part == p && decide (base ≤ w.va) && decide (w.va < base + size)
    && !(decide (base + 0x1000 ≤ w.va) && decide (w.va < base + 0x5000))

/-- TELEMETRY_SWEEP: the periodic sweep of partition `p`, while it is enabled, each 2^K cycles; one that is due while the one before it is
still writing is skipped (R397, R398). -/
def execTelemetrySweep (p : Nat) (s : State) : Host.Outcome State Fault Refusal :=
  if s.sweepDue p then
    .next ((if s.sweeping p then s else s.sweep p).modPart p fun x => { x with tel := { x.tel with since := s.cycle } })
  else .next s

end Sys2Proof.Machine
end

