-- ==== Sys2Proof/Machine/SaveRecord.lean ====
section
/-! DEFINITION. The save records of pre-emption (R351): what a newt record and a tile record hold. The manual gives the offsets of a newt
record's parts and lists the contents of the rest; the layout within those parts, and that of a tile record, is the model's (DESIGN
CHOICE, log 24). -/

namespace Sys2Proof.Machine

/-- Bytes brought to length `n` with zeros. -/
def padTo (n : Nat) (bs : List Byte) : List Byte := (bs ++ List.replicate (n - bs.length) 0).take n

/-- The code of a slot's state. -/
def ActSt.code : ActSt → Nat
  | .free => 0
  | .running => 1
  | .suspended => 2
  | .ready => 3
  | .faulted => 4
  | .saved => 5

/-- The activation that a save record shows in slot `i`: one that a notice has moved out of it stands there Saved (R347). -/
def Core.shownSlot (c : Core) (i : Nat) : Act :=
  match c.moved with
  | some (j, a) => if j = i then { a with st := .saved } else c.slot i
  | none => c.slot i

/-- The output-buffer entries of slot `i` before which its own stand: the reference of a slot entry. -/
def Core.obRef (c : Core) (i : Nat) : Nat := (c.ord.ob.takeWhile fun e => e.slot != i && e.slot != movedAs i).length

/-- What words 0 and 5 of a deferred fault's record say beyond its context and its code, which is 0x15 (R210): a valid bit, SLOT and RING,
ENG, and SUB. -/
def deferredBits : Option FaultRec → Nat
  | some r => fld 1 15 + fld (bitsOf r.w5.toNat 31 22) 5 + fld (bitsOf r.w5.toNat 17 16) 3 + r.sub % 8
  | none => 0

/-- The 256-byte line of a monitor, by its virtual address, with its armed, written and spurious flags (R182). -/
def Mon.lineWord (m : Mon) : Word := BitVec.ofNat 64 (m.line.toNat * 256 + fld (bnat m.spurious) 2 + fld (bnat m.written) 1 + bnat m.armed)

/-- A slot entry (R351): state, channel, reference to its output-buffer entries and SEQ; the saved PC; a pending deferred fault's kind, the
q bindings and the watchdog count; the monitor; PC, BARSEL; words 1, 2 and 7 of the deferred fault (word 6 is the PC at which it is
raised). -/
def Act.entryWords (a : Act) (ref : Nat) : List Word :=
  let q (i : Nat) : Nat := match find a.sync.qb i with
    | some ch => fld 1 5 + ch % 32
    | none => 0
  let d : FaultRec := a.life.deferred.getD { code := 0 }
  [BitVec.ofNat 64 (fld a.seq.toNat 32 + fld (ref % 65536) 16 + fld (a.chan % 64) 4 + a.st.code),
   a.pc,
   BitVec.ofNat 64 (fld (deferredBits a.life.deferred) 45 + fld (q 3) 39 + fld (q 2) 33 + fld (q 1) 27 + fld (q 0) 21 + a.count % 2 ^ 21),
   a.sync.mon.lineWord,
   d.pc,
   a.barSel,
   d.addr,
   d.w7]

/-- The workspace granule of a Saved slot as a save writes it (R351): the cells, or the image kept when a notice took the slot (R347);
a Faulted activation's image is the service core's. -/
def State.savedWorkspace (s : State) (k : Nat) (a : Act) : List Byte :=
  if a.st ≠ .saved ∨ a.life.fault.isSome then List.replicate 512 0
  else
    match a.image with
    | some r => leBytes 8 a.pc.toNat ++ Core.regBytes { regs := r } 8 504
    | none => s.cellsAt k a.wspOff 512

/-- The restart state of the pump as a save keeps it (R241, R349): of the chain it runs, else of one that stopped. -/
def Core.restart (c : Core) : Option Pump := if c.eng.pq.any (·.started) then some c.eng.pump else c.eng.rest

/-- Its words: head and entry index, bytes done, SOFF, DOFF, and up to four loop counters. -/
def restartWords (r : Option Pump) : List Word :=
  match r with
  | none => List.replicate 8 0
  | some p =>
    let cnt (j : Nat) : Word := match p.cnt[j]? with
      | some e => BitVec.ofNat 64 (fld (e.1 % 2 ^ 32) 32 + e.2 % 2 ^ 32)
      | none => 0
    [BitVec.ofNat 64 (fld 1 63 + fld (p.idx % 2 ^ 16) 32 + p.head % 2 ^ 32), BitVec.ofNat 64 p.done, p.soff, p.doff,
      cnt 0, cnt 1, cnt 2, cnt 3]

/-- The eight BFMT values, seven bits each, in one word (R93). -/
def bfmtWord (t : Table (BitVec 7)) : Word :=
  BitVec.ofNat 64 (sumBy (fun i => fld (Table.get (0 : BitVec 7) t i).toNat (7 * i)) (List.range 8))

/-- The code, the three operand fields and the operand word of a matrix operation. -/
def MKind.codeWords : MKind → Nat × Word
  | .mma f a b c => (fld (mfmtCode f) 24 + fld c 16 + fld b 12 + fld a 8 + 1, 0)
  | .gmma f a b c n => (fld (mfmtCode f) 24 + fld c 16 + fld b 12 + fld a 8 + 2, BitVec.ofNat 64 n)
  | .mzero a => (fld a 8 + 3, 0)
  | .mscale a x => (fld a 8 + 4, x.setWidth 64)
  | .mst a off => (fld a 8 + 5, BitVec.ofNat 64 off)
  | .mld a off => (fld a 8 + 6, BitVec.ofNat 64 off)

/-- An entry of an engine's queue: what it is, with its event and slot; its PC; its operand; its issue-time BFMT (R349). -/
def MOp.entryWords (o : MOp) : List Word :=
  [BitVec.ofNat 64 (fld o.ev.toNat 48 + fld (o.slot % 16) 36 + fld (bnat o.started) 32 + o.kind.codeWords.1), o.pc, o.kind.codeWords.2,
    bfmtWord o.bfmt]
def COp.entryWords (o : COp) : List Word :=
  [BitVec.ofNat 64 (fld o.ev.toNat 48 + fld (o.slot % 16) 36 + fld (bnat o.started) 32 + fld (o.lvl % 4) 8 + 7), o.pc,
    BitVec.ofNat 64 o.head, bfmtWord o.bfmt]

/-- The engine part of a newt record: both queues, up to three entries each, and the group index and accumulator pre-image of an
interrupted `gmma` (R351, R355). -/
def Core.engineBytes (c : Core) : List Byte :=
  let g := c.eng.mq.head?.filter fun o => o.started && o.group != 0
  padTo 96 (wordBytes ((c.eng.mq.take 3).flatMap MOp.entryWords)) ++ padTo 96 (wordBytes ((c.eng.pq.take 3).flatMap COp.entryWords))
    ++ leBytes 8 ((g.map (·.group - 1)).getD 0) ++ leBytes 256 ((g.map (·.pre.toNat)).getD 0)

/-- Where the undequeued words of the inbox ring begin (R35). -/
def Core.inboxRead (c : Core) : Nat := (c.ctl.inw + 0x2000 - c.inboxUsed % 0x2000) % 0x2000

/-- The header of a newt record (R351): the newt, FADE, the slot states with the ring pointers of the network interface, and the gang
flag. -/
def State.headerWords (s : State) (k : Nat) : List Word :=
  let c := s.core k
  [BitVec.ofNat 64 k, BitVec.ofNat 64 s.fade,
    BitVec.ofNat 64 (fld (c.inboxRead % 65536) 48 + fld (c.ctl.inw % 65536) 32
      + sumBy (fun i => fld (c.shownSlot i).st.code (4 * i)) (List.range 8)),
    if c.ctl.gangm = 0 then 0 else 1]

/-- The parts of a newt's save record, by offset, ascending (R351). -/
def State.newtRecord (s : State) (k : Nat) : List (Nat × List Byte) :=
  let c := s.core k
  [(0x0000, padTo 64 (wordBytes (s.headerWords k))),
   (0x0040, wordBytes ((List.range 8).flatMap fun i => (c.shownSlot i).entryWords (c.obRef i))),
   (0x0240, wordBytes ((List.range 32).flatMap c.chanWords)),
   (0x0640, padTo 1024 (wordBytes ((c.obl.take 64).flatMap Obl.words))),
   (0x0A40, wordBytes ((List.range 16).flatMap fun h => (c.ring h).words)),
   (0x0B40, (List.range 256).flatMap fun g => leBytes 2 (c.ls.tag g).bits),
   (0x0D40, padTo 192 (wordBytes ((List.range 8).map (fun i => (Table.get (0 : BitVec 7) c.ctl.bfmt i).setWidth 64)
      ++ [c.ctl.guard.setWidth 64, c.ctl.gangm.setWidth 64, BitVec.ofNat 64 c.ctl.draw] ++ restartWords c.restart))),
   (0x0E00, padTo 512 c.engineBytes),
   (0x1000, (List.range 16).flatMap fun i => leBytes 64 (Table.get (0 : BitVec 512) c.vec.v i).toNat),
   (0x1400, (List.range 4).flatMap fun i => leBytes 256 (Table.get (0 : BitVec 2048) c.vec.a i).toNat),
   (0x1800, (List.range 8).flatMap fun i => s.savedWorkspace k (c.shownSlot i)),
   (0x2800, s.cellsAt k 0x1E000 0x2000)]
  ++ (if c.ctl.gangm = 0 then [] else [(0x4800, padTo 4096 c.eng.spill)])

/-- The six words of an event record of partition `p`, its waiter slots cleared (R73, R351). -/
def Event.savedWords (e : Event) (p name : Nat) : List Word :=
  [BitVec.ofNat 64 (fld name 48 + fld p 32 + fld (bnat e.poison) 21 + fld 1 20 + e.rank.toNat), e.counter.setWidth 64, 0, 0, 0, 0]

/-- A list as a part of a tile record: its length, then its items. -/
def listPart {α : Type} (f : α → List Word) (l : List α) : List Word := BitVec.ofNat 64 l.length :: l.flatMap f

/-- A message of a divert list or of an output buffer: route, length and source, number of words and units, words, units. -/
def Msg.savedWords (m : Msg) : List Word :=
  [m.route, BitVec.ofNat 64 (fld (m.src % 2 ^ 32) 32 + m.len % 2 ^ 32),
    BitVec.ofNat 64 (fld m.carry.length 32 + m.words.length)] ++ m.words
    ++ m.carry.flatMap fun u => [u.obj, BitVec.ofNat 64 (fld (bnat u.bar) 63 + fld u.rank.toNat 32 + u.gen.toNat)]

/-- An output-buffer entry: its kind with its slot, its PC and its operands (R47). -/
def OEntry.savedWords (e : OEntry) : List Word :=
  let head (code : Nat) : Word := BitVec.ofNat 64 (fld (e.slot % 256) 8 + fld (bnat e.sent) 4 + code)
  match e.kind with
  | .send w r n d => [head (if w then 2 else 1), e.pc, r, BitVec.ofNat 64 n, BitVec.ofNat 64 d.length] ++ d
  | .sendo b r n d obj => [head (if b then 4 else 3), e.pc, r, BitVec.ofNat 64 n, obj, BitVec.ofNat 64 d.length] ++ d
  | .pour t src c n target => [head 5, e.pc, BitVec.ofNat 64 t, BitVec.ofNat 64 src, BitVec.ofNat 64 c, BitVec.ofNat 64 n, target.getD 0]
  | .sig ev n => [head 6, e.pc, ev.setWidth 64, n.setWidth 64]
  | .bara va n => [head 7, e.pc, va, n.setWidth 64]
  | .join va => [head 8, e.pc, va]
  | .leave va => [head 9, e.pc, va]

/-- The listed cores of partition `p`, its service cores among them. -/
def State.coresOfPart (s : State) (p : Nat) : List Nat := (s.cores.filter fun e => s.holding e.1 == some p).map (·.1)

/-- The armed monitors of partition `p` that are registered at tile `t`, with their newts and slots; the table of its cistern holds 256
(R182). -/
def State.monitorsAt (s : State) (p t : Nat) : List (Nat × Nat × Mon) :=
  (s.coresOfPart p).flatMap fun k =>
    (((s.core k).slots ++ (s.core k).moved.toList).filter fun e =>
      e.2.st != .free && e.2.sync.mon.armed && s.vaHome p t (e.2.sync.mon.line.toNat * 256) == t).map fun e => (k, e.1, e.2.sync.mon)

/-- The tile record of tile `t` of partition `p` (R351): the VALID event records homed there; spilled obligation entries; divert lists;
waiters of barriers, and of events beyond the waiter slots; monitors beyond the monitor table; pending barrier departures; held contexts;
output-buffer entries. -/
def State.tileRecord (s : State) (p t : Nat) : List Byte :=
  let cores := (s.cores.filter fun e => tileOf e.1 == t)
  let evs := s.events.filter fun e => e.1 / 65536 == p && s.evHome p (e.1 % 65536) == t
  let bars := s.bars.filter fun w => w.part == p && s.vaHome p t w.va.toNat == t
  let wait (w : BarWait) : List Word := [w.va, w.count.setWidth 64, BitVec.ofNat 64 ((w.who.map fun x => x.1 * 16 + x.2 + 1).getD 0)]
  padTo 0x20000 (wordBytes (
    listPart (fun e => e.2.savedWords p (e.1 % 65536)) evs
    ++ listPart (fun e => BitVec.ofNat 64 e.1 :: listPart Obl.words e.2.spilt) cores
    ++ listPart (fun e => BitVec.ofNat 64 e.1 :: listPart (fun i => BitVec.ofNat 64 i.1 :: listPart Msg.savedWords i.2.div) e.2.inq) cores
    ++ listPart wait (bars.filter (·.who.isSome))
    ++ listPart (fun e => BitVec.ofNat 64 (e.1 % 65536) :: listPart (fun w => [w.1.word, w.2.setWidth 64]) (overflowList 4 e.2.waiters)) evs
    ++ listPart (fun m => [(Who.act m.1 m.2.1).word, m.2.2.lineWord]) ((s.monitorsAt p t).drop 256)
    ++ listPart wait (bars.filter (·.who.isNone))
    ++ listPart Held.savedWords (s.tile t).svc.held
    ++ listPart (fun e => BitVec.ofNat 64 e.1 :: listPart OEntry.savedWords e.2.ord.ob) cores))

/-- Parts of a record written in ascending offset order. -/
def State.putRecord (s : State) (p base : Nat) : List (Nat × List Byte) → State
  | [] => s
  | (o, bs) :: t => State.putRecord (s.agentWrite p (base + o) bs) p base t

/-- The save entry of a tile: at SAVEBASE + position × 0xE_0000 (R351). -/
def State.saveEntry (s : State) (p t : Nat) : Nat := (s.part p).savebase.toNat + (t - s.partFirst p) * 0xE0000

/-- Where the record of a newt begins in it. -/
def State.newtEntry (s : State) (p k : Nat) : Nat := s.saveEntry p (tileOf k) + 0x20000 + k % 32 * 0x6000

/-- Newts' records written. -/
def State.saveNewts (s : State) (p : Nat) : List Nat → State
  | [] => s
  | k :: ks => State.saveNewts (s.putRecord p (s.newtEntry p k) (s.newtRecord k)) p ks

/-- Tiles saved one after another: the records of their newts, then their own (R351). -/
def State.saveTiles (s : State) (p : Nat) : List Nat → State
  | [] => s
  | t :: ts =>
    let s1 := s.saveNewts p (newtsOf t)
    State.saveTiles (s1.putRecord p (s1.saveEntry p t) [(0, s1.tileRecord p t)]) p ts

/-- The record of an activation that a notice has moved out of slot `i` of newt `k`, written under SWAP when it is moved (R347). -/
def State.saveMoved (s : State) (p k i : Nat) : State :=
  let a := (s.core k).shownSlot i
  s.putRecord p (s.newtEntry p k)
    [(0x0040 + 64 * i, wordBytes (a.entryWords ((s.core k).obRef i))), (0x1800 + 512 * i, s.savedWorkspace k a)]

end Sys2Proof.Machine
end

