-- ==== Sys2Proof/Machine/Preempt.lean ====
section
/-! DEFINITION. Partitions' tiles and pre-emption (R94, R345 to R357, R360, R361): the buddy tree, the reset of a tile, the
STATEs of PRECTL, the notices, saving and restoring. -/

namespace Sys2Proof.Machine

/-! ## The buddy tree (R360, R361) -/

/-- The ancestors of node `n`, from node 1 down. -/
def ancestors (n : Nat) : List Nat := (List.range (nodeDepth n)).map fun i => n / 2 ^ (nodeDepth n - i)

/-- Every tile of a node is ready: it is not BLOCKED (R27, R361). -/
def State.nodeReady (s : State) (n : Nat) : Bool :=
  ((List.range (nodeTiles n)).map (nodeFirst n + ·)).all fun t => (s.tile t).ready

/-- The node is FREE and every ancestor FREE or SPLIT (R361): it or an ancestor of it is listed FREE. -/
def State.nodeFree (s : State) (n : Nat) : Bool :=
  decide (1 ≤ n) && decide (n < 8192) && ((ancestors n) ++ [n]).any (fun a => find s.nodes a == some .free) && s.nodeReady n

/-- FREE ancestors on the path to a node split (R361). -/
def splitPath (t : Table Node) : List Nat → Table Node
  | [] => t
  | a :: as =>
    splitPath (if find t a = some .free then
      Table.set (Table.set (Table.set t a .split) (2 * a) .free) (2 * a + 1) .free else t) as

/-- A node made OWNED by a partition (R361). -/
def State.ownNode (s : State) (n p : Nat) : State :=
  { s with nodes := Table.set (splitPath s.nodes (ancestors n)) n (.owned p) }

/-- A node made FREE; two FREE siblings merge into a FREE parent at once (R361). `fuel` is the depth. -/
def mergeFree (t : Table Node) (n : Nat) : Nat → Table Node
  | 0 => Table.set t n .free
  | fuel + 1 =>
    let sib := if n % 2 = 0 then n + 1 else n - 1
    if 2 ≤ n ∧ find t sib = some .free then mergeFree (drop (drop t n) sib) (n / 2) fuel
    else Table.set t n .free

/-- A node freed. -/
def State.freeNode (s : State) (n : Nat) : State := { s with nodes := mergeFree s.nodes n 13 }

/-! ## Ownership change (R94) -/

/-- A core as R94 leaves it: everything zero, each tag with Z = 1; its debug module keeps its registers. -/
def Core.cleared (c : Core) : Core := { dbg := c.dbg }

/-- Things in transit to a tile. -/
def Flight.toTile (t : Nat) : Flight → Bool
  | .msg d _ _ => tileOf d == t
  | .beats _ d .. => tileOf d == t
  | .decr .. => false

/-- The partition in which a thing in transit was sent; none of firmware's and hardware's own notices. -/
def Flight.part : Flight → Option Nat
  | .msg _ m _ => m.part
  | .beats _ _ _ _ _ _ p _ _ _ => some p
  | .decr p .. => some p

/-- An image slot of the module. -/
def State.image (s : State) (slotB : Bool) : Image := Table.get {} s.host.images (if slotB then 1 else 0)

/-- The image slot from which a tile's firmware starts: that of the newest image, or the other where that one is not accepted (R380). -/
def State.bootSlot (s : State) : Option Bool :=
  if (s.image s.host.newSlot).accepted then some s.host.newSlot
  else if (s.image !s.host.newSlot).accepted then some !s.host.newSlot
  else none

/-- Firmware starts on a tile from an image slot: its first heartbeat comes at a moment that is a free value (R380; log 35). -/
def State.startFirmware (s : State) (t : Nat) (slotB : Bool) : State :=
  State.modSvc { s with freeCount := s.freeCount + 1 } t fun v =>
    { v with slotB := slotB, bad := false, started := s.cycle, beat := s.cycle + Config.freeNat s.freeCount }

/-- The caches that a reset of tile `t` empties: the lines of its cistern, written back where they are dirty (DESIGN CHOICE, log 117), and
its newts' global data caches (R94). -/
def State.emptyCaches (s : State) (t : Nat) : State :=
  let s1 := s.writeBackHalves (s.phys.cis.filter fun e => e.2.home == t)
  { s1 with phys := { s1.phys with
    dir := (s1.phys.dir.map fun e => (e.1, e.2.filter fun k => tileOf k != t)).filter fun e => !e.2.isEmpty } }

/-- A tile reset before it serves another owner (R94, R398, R403); a new firmware image takes effect on it (R380). -/
def State.resetTile (s : State) (t : Nat) : State :=
  let ks := (s.cores.filter fun e => tileOf e.1 == t).map (·.1)
  let s1 := ks.foldl (fun s k => s.modCore k Core.cleared) (s.emptyCaches t)
  let s2 := (s1.modTile t fun x => { x with
    owner := none
    tlb := []
    ro := []
    cnt := []
    linked := s.cycle
    placed := 0
    svc := { x.svc with held := [], mmu := [] } }).stopTrace t
  match s.bootSlot with
  | some b => if (s.tile t).svc.slotB = b then s2 else s2.startFirmware t b
  | none => s2

/-- Tiles reset one after another. -/
def State.resetTiles (s : State) : List Nat → State
  | [] => s
  | t :: ts => State.resetTiles (s.resetTile t) ts

/-- The listed newts of partition `p`. -/
def State.newtsOfPart (s : State) (p : Nat) : List Nat :=
  (s.cores.filter fun e => !isSvc e.1 && s.owner e.1 == some p).map (·.1)

/-! ## STATE (R345) -/

/-- An MSI-X vector of a function raised at the port that holds the lease: function 0 is the PF, PARTID + 1 a partition's VF (R367,
R368). -/
def State.msi (s : State) (fn vec : Nat) : State :=
  { s with host := { s.host with msix := s.host.msix ++ [(fn, vec, s.host.owner)] } }

/-- A STATE change, which raises the partition's pre-emption vector (R345). -/
def State.setPre (s : State) (p : Nat) (n : BitVec 4) : State :=
  (s.modPart p fun x => { x with pre := { x.pre with state := n } }).msi (p + 1) (s.ct p).prevec.toNat

/-- PEND written: in STATE 0 pre-empt pending is set, and SWAP is sampled (R345). -/
def State.pend (s : State) (p : Nat) : State :=
  if (s.part p).pre.state = 0 then
    (s.modPart p fun x => { x with pre := { x.pre with mode := x.pre.swap } }).setPre p 1
  else s

/-! ## Draining and evicting (R346 to R348) -/

/-- The word of an evict notice (R347). -/
def State.evictWord (s : State) (p : Nat) : Word :=
  let x := (s.part p).pre
  BitVec.ofNat 64 (fld 2 56 + fld (bnat x.mode) 48 + fld x.holdt.toNat 32 + s.fade % 2 ^ 32)

/-- The word of a resume notice (R354). -/
def State.resumeWord (s : State) (p : Nat) : Word :=
  let x := (s.part p).pre
  BitVec.ofNat 64 (fld 3 56 + fld (bnat x.mode) 48 + Nat.min x.span 0xFFFFFFFF)

/-- A notice of firmware for channel 30 of core `k`. -/
def notice30 (k : Nat) (w : Word) (n : Note) : Msg :=
  { route := BitVec.ofNat 64 (k % 0x100000 + 30 * 2 ^ 20), len := 8, words := [w], src := svcOf (tileOf k), note := n }

/-- The slot that the newt empties for an evict notice when none is free (R347): the highest-numbered suspended or ready
one, else the highest-numbered faulted one. -/
def Core.evictSlot (c : Core) (k : Nat) : Option Nat :=
  if (c.slotFor k 30).isSome then none
  else
    match [7, 6, 5, 4, 3, 2, 1, 0].find? fun i => (c.slot i).st == .suspended || (c.slot i).st == .ready with
    | some i => some i
    | none => [7, 6, 5, 4, 3, 2, 1, 0].find? fun i => (c.slot i).st == .faulted

/-- The image that the save record of an activation moved out of its slot takes under SWAP, when it is moved (R347). -/
def Core.keepImage (c : Core) (img : Table Word) : Core :=
  match c.moved with
  | some (i, a) =>
    if a.life.fault.isSome ∨ a.image.isSome then c else { c with moved := some (i, { a with image := some img }) }
  | none => c

/-- One newt receives its evict notice (R347). -/
def State.evictNewt (s : State) (p k : Nat) : State :=
  let c := s.core k
  if !(c.chan 30).valid ∨ (c.ctl.pair.isSome ∧ !c.ctl.leader) then s
  else
    let s1 := match c.evictSlot k with
      | some i =>
        if (s.part p).pre.mode then
          ((s.unwait k i).modCore k fun d => (d.moveOut i).keepImage (regsOfBytes (s.cellsAt k (d.slot i).wspOff 512))).saveMoved p k i
        else (s.unwait k i).modCore k fun d => d.moveOut i
      | none => s
    s1.post k 30 (notice30 k (s1.evictWord p) .evict)

/-- Newts receive their evict notices. -/
def State.evictNewts (s : State) (p : Nat) : List Nat → State
  | [] => s
  | k :: t => State.evictNewts (s.evictNewt p k) p t

/-- EVICT_PHASE: STATE 1 ends when no activation of the partition runs on any newt; STATE 2 begins and every newt with channel
30 bound receives an evict notice (R346, R347). -/
def execEvictPhase (p : Nat) (s : State) : Host.Outcome State Fault Refusal :=
  let ks := s.newtsOfPart p
  if (s.part p).pre.state = 1 ∧ ks.all fun k => (s.core k).ctl.run.isNone then
    let s1 := (s.modPart p fun x => { x with pre := { x.pre with tick := s.fade, began := s.cycle } }).setPre p 2
    .next (s1.evictNewts p ks)
  else .next s

/-- Slots of core `k` with an evict handler. -/
def Core.evictors (c : Core) : List Nat :=
  (c.slots.filter fun e => e.2.st != .free && e.2.life.kind == .evict).map (·.1)

/-- An evict notice waits in channel 30's queue or lists. -/
def Core.evictQueued (c : Core) : Bool := ((c.inb 30).q ++ (c.inb 30).div ++ (c.inb 30).ovf).any fun m => m.note == .evict

/-- Undelivered evict notices discarded. -/
def Core.dropEvict (c : Core) : Core :=
  c.modInb 30 fun i => { i with
    q := i.q.filter fun m => m.note != .evict
    div := i.div.filter fun m => m.note != .evict
    ovf := i.ovf.filter fun m => m.note != .evict }

/-- A live activation takes fault 0x0D at a moment firmware chooses, and is killed (R348). -/
def State.killBudget (s : State) (k i : Nat) : State :=
  let a := (s.core k).slot i
  let r : FaultRec := { code := 0x0D, pc := a.pc, w5 := a.budget.setWidth 64, floor := some ((s.core k).floor (holderOf i)) }
  if (s.core k).ctl.run = some i then
    let s1 := s.takeFault k r
    if ((s1.core k).slot i).st = .faulted then s1.killLogged k i else s1
  else
    (s.modCore k fun c => c.modSlot i fun a => { a with life := { a.life with fault := some r } }).fireTraces (tileOf k) 1 |>.killLogged k i

/-- Several of them. -/
def State.killBudgets (s : State) (k : Nat) : List Nat → State
  | [] => s
  | i :: t => State.killBudgets (s.killBudget k i) k t

/-- The evict phase of newts cut short (R348). -/
def State.evlimNewts (s : State) : List Nat → State
  | [] => s
  | k :: t => State.evlimNewts ((s.killBudgets k (s.core k).evictors).modCore k Core.dropEvict) t

/-- Every evict handler of the partition has retired or been killed (R348). -/
def State.evictDone (s : State) (p : Nat) : Bool :=
  (s.newtsOfPart p).all fun k => (s.core k).evictors.isEmpty && !(s.core k).evictQueued

/-- EVLIM_EXPIRY: EVLIM × 4,096 cycles have passed since STATE 2 began; every evict handler still live takes 0x0D, and STATE 3
begins (R348). -/
def execEvlimExpiry (p : Nat) (s : State) : Host.Outcome State Fault Refusal :=
  let x := (s.part p).pre
  let lim := (if x.evlim = 0 then 1 else x.evlim.toNat) * 4096
  if x.state = 2 ∧ x.began + lim ≤ s.cycle then
    let s1 := s.evlimNewts (s.newtsOfPart p)
    .next (if s1.evictDone p then (s1.interruptGangs (s1.newtsOfPart p)).setPre p 3 else s1)
  else .next s

/-! ## Saving (R349 to R352) -/

/-- A matrix operation that a save lets run to completion (R349). -/
def MOp.mustFinish (o : MOp) : Bool :=
  o.started && (match o.kind with
    | .gmma .. => false
    | _ => true)

/-- SAVE_PHASE: every evict handler has gone; STATE 3 begins and engines stop where R349 says: no further operation starts, and
pumps stop between sectors, and a running `gmma` stops at the end of a K group (R355). -/
def execSavePhase (p : Nat) (s : State) : Host.Outcome State Fault Refusal :=
  if (s.part p).pre.state = 2 ∧ s.evictDone p then
    .next ((s.interruptGangs (s.newtsOfPart p)).setPre p 3)
  else .next s

/-- Activations saved in place (R350). -/
def Core.saveAll (c : Core) : Core :=
  { c with slots := mapVals (fun a => if a.st = .suspended ∨ a.st = .ready then { a with st := .saved } else a) c.slots }

/-- The lines of a partition's frames leave their cisterns, dirty ones written back to the edge stations (R351, R361). -/
def State.writeBackAll (s : State) (p : Nat) : State :=
  s.writeBackHalves (s.phys.cis.filter fun e => Table.get 0 s.phys.owner (e.1 * 128 / 65536) == p + 1)

/-- The registrations of a partition's activations removed (R351). -/
def State.clearWaiters (s : State) (ks : List Nat) : State :=
  { s with
    events := mapVals (fun e => { e with waiters := e.waiters.filter fun w =>
      match w.1 with
      | .act k _ => !ks.contains k
      | .queue _ => true }) s.events
    bars := s.bars.filter fun w =>
      match w.who with
      | some (k, _) => !ks.contains k
      | none => true }

/-- PTMO in cycles; 0 is treated as 1 (R340). -/
def QWd.ptmoCycles (w : QWd) : Nat := (if w.ptmo = 0 then 1 else w.ptmo.toNat) * 4096

/-- The watchdogs of queues whose save has completed in time reach stage 2, and raise their queue's vector (R341). -/
def State.savedStages (s : State) (p : Nat) : List (Nat × QWd) → State
  | [] => s
  | (q, w) :: t =>
    State.savedStages (if w.stage = 1 ∧ (Table.get {} (s.part p).queues q).phase ≠ 0 ∧ s.cycle ≤ w.since + w.ptmoCycles then
        (s.modPart p fun x => { x with wd := Table.set x.wd q { w with stage := 2, saved := true } }).msi (p + 1)
          (Table.get {} (s.part p).queues q).vec.toNat
      else s) p t

/-- STATE 4 is reached (R341, R350, R351). -/
def State.saveDone (s : State) (p : Nat) : State := (s.setPre p 4).savedStages p (s.part p).wd

/-- SAVE_COMPLETE: every newt's engines have stopped. Under HOLD every activation is Saved in place; under SWAP the records are
written, cisterns write back, the tiles are cleared and released; STATE 4 is reached (R350, R351). -/
def execSaveComplete (p : Nat) (s : State) : Host.Outcome State Fault Refusal :=
  let ks := s.newtsOfPart p
  if (s.part p).pre.state = 3 ∧ ks.all fun k => !(s.core k).eng.mq.any MOp.mustFinish then
    let s1 := ks.foldl (fun s k => s.modCore k Core.saveAll) s
    if (s.part p).pre.mode then
      let ts := s1.tilesOf p
      let all := s1.coresOfPart p
      let s2 := ((s1.saveTiles p ts).writeBackAll p).lastSweep p
      let s3 := s2.modPart p fun x => { x with
        saved := all.map fun k => (k, s1.core k)
        savedHeld := ts.map fun t => (t, (s1.tile t).svc.held)
        pre := { x.pre with given := false } }
      .next ((((s3.clearWaiters ks).resetTiles ts).freeNode (s.part p).node).saveDone p)
    else .next (s1.saveDone p)
  else .next s

/-! ## Resuming (R353, R354) -/

/-- The local store of a restored newt: every tag with its saved K and P, Z = 1 and X = 0; alarm flags cleared (R353). -/
def Local.restored (l : Local) : Local :=
  { tags := mapVals (fun t => { p := t.p, k := t.k }) l.tags }

/-- A granule written whole with the bytes of an earlier store and the marks of its sectors, which renews it (R353 step 1, R390). -/
def Local.reload (l old : Local) (fade retn g : Nat) : Local :=
  (l.land fade retn true (g * 512) (old.cells.bytes (g * 512) 512) false).poisonAll
    (((List.range 16).map (16 * g + ·)).filter fun x => Table.get false old.poison x)

/-- Granules of a newt restored so. -/
def State.restoreGranules (s : State) (k : Nat) (old : Local) : List Nat → State
  | [] => s
  | g :: t => State.restoreGranules (s.modLs k fun l => l.reload old s.fade (s.retn k) g) k old t

/-- The workspaces of Saved slots written back whole (R353 step 1). -/
def State.restoreWorkspaces (s : State) (k : Nat) (old : Core) : List Nat → State
  | [] => s
  | i :: t =>
    let a := old.slot i
    State.restoreWorkspaces
      (if a.st = .saved ∧ a.life.fault.isNone then
        s.modLs k fun l => l.reload old.ls s.fade (s.retn k) a.wsp.toNat
      else s) k old t

/-- The workspace of a Saved activation that was moved out of its slot written back whole (R353 step 1). -/
def State.restoreMoved (s : State) (k : Nat) (old : Core) : State :=
  match old.moved with
  | some (i, a) =>
    if a.life.fault.isSome then s
    else
      (s.modLs k fun l => match a.image with
        | some r => l.land s.fade (s.retn k) true a.wspOff (leBytes 8 a.pc.toNat ++ Core.regBytes { regs := r } 8 504) false
        | none => l.reload old.ls s.fade (s.retn k) a.wsp.toNat).modCore k fun c =>
        { c with moved := some (i, { a with image := none }) }
  | none => s

/-- A newt loaded from its record (R353 step 1): tags and structures, the workspaces of its Saved slots, and the inbox, granules 240 to
255. -/
def State.loadNewt (s : State) (k : Nat) (old : Core) : State :=
  let c : Core := { old with ls := old.ls.restored, icache := [], cnt := {}, dbg := (s.core k).dbg }
  (((s.setCore k c).restoreWorkspaces k old (List.range 8)).restoreMoved k old).restoreGranules k old.ls
    ((List.range 16).map (240 + ·))

/-- The newts of a saved partition's tiles loaded, whether or not anything was ever held by them, and its service cores. -/
def State.loadNewts (s : State) (saved : Table Core) : List Nat → State
  | [] => s
  | k :: t => State.loadNewts (s.loadNewt k (Table.get {} saved k)) saved t
def State.loadSvcs (s : State) (saved : Table Core) : List Nat → State
  | [] => s
  | t :: ts => State.loadSvcs (if has saved (svcOf t) then s.setCore (svcOf t) (Table.get {} saved (svcOf t)) else s) saved ts
def State.loadAll (s : State) (saved : Table Core) (ts : List Nat) : State :=
  (s.loadNewts saved (ts.flatMap newtsOf)).loadSvcs saved ts

/-- An armed monitor registered again, its written flag cleared and spurious pending (R353 step 3). -/
def Act.rearm (a : Act) : Act :=
  if a.sync.mon.armed then { a with sync := { a.sync with mon := { a.sync.mon with written := false, spurious := true } } } else a

/-- Steps 2 and 3 of R353 on one newt: alarm flags cleared, armed monitors registered again, that of a moved activation too. -/
def Core.rearm (c : Core) : Core :=
  { c with
    ls := { c.ls with alarm := [] }
    slots := mapVals Act.rearm c.slots
    moved := c.moved.map fun x => (x.1, x.2.rearm) }

/-- Step 5 of R353 on one slot: a Saved activation enters Suspended and its wait is re-evaluated; one that no wait holds is
Ready again. -/
def State.restoreSlot (s : State) (k i : Nat) : State :=
  let a := (s.core k).slot i
  if a.st ≠ .saved then s
  else if a.sync.wait.isEmpty then s.modCore k fun c => c.modSlot i fun a => { a with st := .ready }
  else ((s.unwait k i).modCore k fun c => c.modSlot i fun a => { a with st := .suspended }).reeval k i

/-- The slots of a newt restored. -/
def State.restoreSlots (s : State) (k : Nat) : List Nat → State
  | [] => s
  | i :: t => State.restoreSlots (s.restoreSlot k i) k t

/-- Newts restored; the follower of a pair with its leader. -/
def State.restoreNewts (s : State) : List Nat → State
  | [] => s
  | k :: t =>
    let c := s.core k
    let s1 := s.modCore k Core.rearm
    State.restoreNewts (if c.ctl.pair.isSome ∧ !c.ctl.leader then s1
      else (s1.restoreSlots k (List.range 8)).mirror k) t

/-- A saved partition's tiles taken again: owners set, held contexts and cores loaded. -/
def State.unswap (s : State) (p : Nat) : State :=
  let x := s.part p
  let s1 := (s.tilesOf p).foldl (fun s t => (s.giveTile p t).modSvc t fun v => { v with held := Table.get [] x.savedHeld t }) s
  (s1.loadAll x.saved (s.tilesOf p)).modPart p fun x => { x with saved := [], savedHeld := [] }

/-- RESUME written in STATE 4: STATE 5, and every newt is restored; under SWAP only when the partition has been given back its
tiles, else the vector is raised and nothing else happens (R353). -/
def State.resumeStart (s : State) (p : Nat) : State :=
  let x := (s.part p).pre
  if x.state ≠ 4 then s
  else if x.mode ∧ !x.given then s.msi (p + 1) (s.ct p).prevec.toNat
  else
    let s1 := (s.modPart p fun y => { y with pre := { y.pre with span := s.fade - y.pre.tick } }).setPre p 5
    let s2 := if x.mode then s1.unswap p else s1
    let s3 := (s2.replayLate p (s.part p).late).modPart p fun y => { y with late := [] }
    s3.restoreNewts (s3.newtsOfPart p)

/-- A resume notice goes before everything else that waits on channel 30 (R354). Where the inbox is full its words are held beside the
ring (DESIGN CHOICE, log 36). -/
def State.postFirst (s : State) (k : Nat) (m : Msg) : State :=
  let c := s.core k
  let x := if c.inboxUsed + m.size ≤ inboxBytes k then s.placeMsg k m else (s, m)
  x.1.modCore k fun c => c.modInb 30 fun i => { i with q := x.2 :: i.q }

/-- One newt receives its resume notice, or leaves STATE 6 at once where channel 30 is unbound (R354). -/
def State.resumeNewt (s : State) (p k : Nat) : State :=
  let c := s.core k
  if c.ctl.pair.isSome ∧ !c.ctl.leader then s
  else if (c.chan 30).valid then
    (s.modCore k fun c => c.modCtl fun x => { x with resuming := true }).postFirst k (notice30 k (s.resumeWord p) .resume)
  else s.endResume k

/-- Newts receive their resume notices. -/
def State.resumeNewts (s : State) (p : Nat) : List Nat → State
  | [] => s
  | k :: t => State.resumeNewts (s.resumeNewt p k) p t

/-- RESUME_NOTICE_PHASE: every newt has restored; STATE 6 begins with the resume notices (R353, R354). -/
def execResumeNoticePhase (p : Nat) (s : State) : Host.Outcome State Fault Refusal :=
  if (s.part p).pre.state = 5 then
    let s1 := s.setPre p 6
    .next (s1.resumeNewts p (s1.newtsOfPart p))
  else .next s

/-- RESUME_COMPLETE: every newt has left STATE 6; STATE returns to 0 and pre-empt pending clears (R354). -/
def execResumeComplete (p : Nat) (s : State) : Host.Outcome State Fault Refusal :=
  if (s.part p).pre.state = 6 ∧ (s.newtsOfPart p).all fun k => !(s.core k).ctl.resuming then
    .next ((s.setPre p 0).modPart p fun x => { x with pre := { x.pre with given := true } })
  else .next s

end Sys2Proof.Machine
end

