-- ==== Sys2Proof/Machine/System.lean ====
section
/-! DEFINITION. System instructions (R151 to R160, R340, R345, R364, R366, R397): the CSRs, `rte`, `tlbinv`, `frgrant` and
`pair`. -/

namespace Sys2Proof.Machine

/-! ## CSRs -/

/-- The read level of a CSR, and its write level where some level writes it (R158). -/
def csrLevels (n : Nat) : Nat × Option Nat :=
  if n = 0x002 then (0, some 2)
  else if n = 0x008 ∨ n = 0x00C ∨ (0x020 ≤ n ∧ n ≤ 0x027) then (0, some 0)
  else if n ≤ 0x00D then (0, none)
  else if n = 0x011 then (1, some 1)
  else if n ≤ 0x014 then (1, none)
  else if n = 0x10A then (2, some 2)
  else (1, some 1)

/-- The partition whose CSRs core `k` reaches, if its tile has an owner. -/
def State.partOf (s : State) (k : Nat) : Part :=
  match s.owner k with
  | some p => s.part p
  | none => {}

/-- QWCFG and QWSTAT of a queue (R340). -/
def QWd.cfg (w : QWd) : Word := BitVec.ofNat 64 (fld w.ptmo.toNat 16 + w.period.toNat)
def QWd.stat (w : QWd) : Word :=
  BitVec.ofNat 64 (fld w.prog.toNat 32 + fld (bnat w.killed) 3 + fld (bnat w.saved) 2 + w.stage.toNat)

/-- PRECTL (R345). -/
def Pre.reg (x : Pre) : Word :=
  BitVec.ofNat 64 (fld x.evlim.toNat 48 + fld x.holdt.toNat 32 + fld x.state.toNat 4 + fld (bnat x.swap) 3
    + bnat (x.state != 0))

/-- TELCTL (R397). -/
def Tel.ctl (t : Tel) : Word := BitVec.ofNat 64 (fld (bnat t.en) 7 + t.k.toNat)

/-- CSR `n` as core `k` reads it (R158 to R160). -/
def State.csr (s : State) (k n : Nat) : Word :=
  let c := s.core k
  let a := c.act
  let x := s.partOf k
  let f := a.life.fcsr
  if 0x020 ≤ n ∧ n ≤ 0x027 then (if isSvc k then 0 else (Table.get 0 c.ctl.bfmt (n - 0x020)).setWidth 64)
  else match n with
  | 0x000 => BitVec.ofNat 64 s.cycle
  | 0x001 => BitVec.ofNat 64 s.fade
  | 0x002 => BitVec.ofNat 64 (s.retn k)
  | 0x003 => BitVec.ofNat 64 c.myFloor
  | 0x004 => BitVec.ofNat 64 k
  | 0x005 => BitVec.ofNat 64 ((s.owner k).getD 0)
  | 0x006 => BitVec.ofNat 64 a.chan
  | 0x007 => (c.reg 57).setWidth 32 |>.setWidth 64
  | 0x008 => a.sync.barsel ++ 0#4
  | 0x009 => if isSvc k then 0 else c.ctl.gangm.setWidth 64
  | 0x00A => if isSvc k then 0 else BitVec.ofNat 64 c.ctl.draw
  | 0x00B => actWord a.seq c.runSlot a.chan
  | 0x00C => if isSvc k then 0 else c.ctl.guard.setWidth 64
  | 0x00D => BitVec.ofNat 64 a.wspOff
  | 0x010 => f.cause.setWidth 64
  | 0x011 => f.pc
  | 0x012 => f.addr
  | 0x013 => f.newt.setWidth 64
  | 0x014 => f.info
  | 0x100 => x.qwsel.setWidth 64
  | 0x101 => (Table.get {} x.wd x.qwsel.toNat).cfg
  | 0x102 => (Table.get {} x.wd x.qwsel.toNat).stat
  | 0x103 => x.pre.reg
  | 0x104 => x.savebase
  | 0x105 => x.ptroot
  | 0x106 => x.pwsel.setWidth 64
  | 0x107 => Table.get 0 x.win x.pwsel.toNat
  | 0x108 => x.tel.base
  | 0x109 => x.tel.ctl
  | 0x10A => (s.tile (tileOf k)).svc.fwroot
  | _ => 0

/-- The fields of a placement-window entry that are not reserved (R9, R95). -/
def windowMask : Word := 0xE0007FFF00007FFF

/-- The fields of PTROOT that are not reserved (R364). -/
def ptrootMask : Word := 0x000FFFFFFFFF0001

/-- Slice TLB entries of partition `p` flushed on every tile (R364). -/
def State.flushTlbs (s : State) (p : Nat) : State :=
  { s with tiles := mapVals (fun t => { t with tlb := drop t.tlb p }) s.tiles }

/-- TELCTL.K as stored (R397). -/
def clampK (k : BitVec 5) : BitVec 5 := if k.toNat < 16 then 16 else if 30 < k.toNat then 30 else k

/-- PRECTL written (R345): EVLIM, HOLDT and SWAP, then PEND and RESUME. -/
def State.writePrectl (s : State) (p : Nat) (v : Word) : State :=
  let s1 := s.modPart p fun x => { x with pre := { x.pre with
    evlim := v.extractLsb' 48 16
    holdt := v.extractLsb' 32 16
    swap := v.getLsbD 3 } }
  let s2 := if v.getLsbD 0 then s1.pend p else s1
  if v.getLsbD 1 ∧ (s1.part p).pre.state = 4 then s2.resumeStart p else s2

/-- QWCFG written (R340, R341): the watchdog returns to STAGE 0 and its period restarts. -/
def State.writeQwcfg (s : State) (p : Nat) (v : Word) : State :=
  s.modPart p fun x =>
    let q := x.qwsel.toNat
    let w := Table.get {} x.wd q
    { x with wd := Table.set x.wd q { w with
        ptmo := v.extractLsb' 16 16
        period := v.extractLsb' 0 16
        stage := 0
        since := s.cycle } }

/-- QWSTAT written: KILLED and SAVED are cleared by ones (R340). -/
def State.writeQwstat (s : State) (p : Nat) (v : Word) : State :=
  s.modPart p fun x =>
    let q := x.qwsel.toNat
    let w := Table.get {} x.wd q
    { x with wd := Table.set x.wd q { w with killed := w.killed && !v.getLsbD 3, saved := w.saved && !v.getLsbD 2 } }

/-- The CSRs of a partition that only its first tile writes (R345, R364, R397). -/
def State.writePartCsr (s : State) (p n : Nat) (v : Word) : State :=
  match n with
  | 0x103 => s.writePrectl p v
  | 0x104 => if (s.part p).pre.state = 0 then s.modPart p fun x => { x with savebase := v &&& ~~~0xFFF#64 } else s
  | 0x105 => (s.modPart p fun x => { x with ptroot := v &&& ptrootMask }).flushTlbs p
  | 0x106 => s.modPart p fun x => { x with pwsel := v.extractLsb' 0 5 }
  | 0x107 => s.modPart p fun x => { x with win := Table.set x.win x.pwsel.toNat (v &&& windowMask) }
  | 0x108 => s.modPart p fun x => { x with tel := { x.tel with base := v &&& ~~~0xFFF#64 } }
  | 0x109 => s.modPart p fun x => { x with tel := { x.tel with en := v.getLsbD 7, k := clampK (v.extractLsb' 0 5), since := s.cycle } }
  | _ => s

/-- CSR `n` written by core `k` (R151, R152, R158): a CSR that no level writes ignores it. -/
def State.csrWrite (s : State) (k n : Nat) (v : Word) : State :=
  if 0x020 ≤ n ∧ n ≤ 0x027 then
    (if isSvc k then s
     else s.modCore k fun c => c.modCtl fun x => { x with bfmt := Table.set x.bfmt (n - 0x020) (v.extractLsb' 0 7) })
  else match n with
  | 0x002 =>
    match s.owner k with
    | some p => s.modPart p fun x => { x with retn := v.extractLsb' 0 11 }
    | none => s
  | 0x008 => s.modCore k fun c => c.modAct fun a => { a with sync := { a.sync with barsel := v.extractLsb' 4 60 } }
  | 0x00C => if isSvc k then s else s.modCore k fun c => c.modCtl fun x =>
      { x with guard := v.extractLsb' 0 11, guardWas := x.guardWas ++ [(s.fade, x.guard)] }
  | 0x011 => s.modCore k fun c => c.modAct fun a => { a with life := { a.life with fcsr := { a.life.fcsr with pc := v } } }
  | 0x10A => s.modSvc (tileOf k) fun x => { x with fwroot := v &&& 0x000FFFFFFFFF0000#64, mmu := [] }
  | _ =>
    match s.owner k with
    | none => s
    | some p =>
      match n with
      | 0x100 => s.modPart p fun x => { x with qwsel := v.extractLsb' 0 12 }
      | 0x101 => s.writeQwcfg p v
      | 0x102 => s.writeQwstat p v
      | _ => if tileOf k = s.partFirst p then s.writePartCsr p n v else s

/-- The privileged fault (R113 check 11). -/
def privFault : FaultRec := { code := 0x12 }

/-- The level check of a CSR access (R151). -/
def csrCheck (n : Nat) (wr : Bool) : M PUnit := do
  let s ← getS
  let k ← me
  let (rd, w) := csrLevels n
  if s.level k < rd then fault privFault
  match wr, w with
  | true, some l => if s.level k < l then fault privFault
  | _, _ => pure ()

/-- `csrr` (R151). -/
def execCsrr (a : Sel) (csr : BitVec 12) (s : State) : Host.Outcome State Fault Refusal :=
  run (do
    csrCheck csr.toNat false
    writeOp a ((← getS).csr (← me) csr.toNat)) s

/-- `csrw` (R151). -/
def execCsrw (a : Sel) (csr : BitVec 12) (s : State) : Host.Outcome State Fault Refusal :=
  run (do
    csrCheck csr.toNat true
    let x ← readOp a
    modS fun s => s.csrWrite s.turn csr.toNat x) s

/-- `csrx` (R151): the old value is returned. -/
def execCsrx (a : Sel) (csr : BitVec 12) (s : State) : Host.Outcome State Fault Refusal :=
  run (do
    csrCheck csr.toNat true
    let x ← readOp a
    let old := (← getS).csr (← me) csr.toNat
    modS fun s => s.csrWrite s.turn csr.toNat x
    writeOp a old) s

/-! ## rte, tlbinv, frgrant -/

/-- A level below `lvl` takes the privileged fault (R113). -/
def needLevel (lvl : Nat) : M PUnit := do
  if (← getS).level (← me) < lvl then fault privFault

/-- The context that the running activation of service core `k` holds (R153, R160). -/
def State.currentHeld (s : State) (k : Nat) : Option Held :=
  match (s.core k).act.life.ctx with
  | some x => (s.tile (tileOf k)).svc.held.find? fun h => h.ctx == x
  | none => none

/-- `rte` (R153): the held context returns to its slot, Ready at FPC. It cannot be taken back, so the chunk before it takes its place
first (DEDUCED from R285, log 81). -/
def execRte (s : State) : Host.Outcome State Fault Refusal :=
  run (do
    needLevel 1
    let s ← getS
    let k ← me
    match s.currentHeld k with
    | none => fault (objFault 0)
    | some h =>
      if s.level k = 1 ∧ s.owner h.core ≠ s.owner k then fault (faultAt 0x08 0)
      commitFirst
      modS fun s => (s.returnContext h (s.core k).act.life.fcsr.pc (s.core k).act.pc).forgetHeld h.core h.slot h.act) s

/-- Entries that map an address removed from a TLB, of either page size (R154). -/
def tlbDrop (t : Table Leaf) (va : Nat) : Table Leaf := drop (drop t (tlbKey va false)) (tlbKey va true)

/-- A buffered store that tile `t` translated in the 32 MiB of an address. -/
def Store.under (e : Store) (t va : Nat) : Bool := e.dest != .loc && e.home == t && e.va.toNat / 2 ^ 25 == va / 2 ^ 25

/-- A store of an ended chunk of partition `p`'s cores that tile `t` translated there: it is on its way to its cistern, and a `tlbinv` waits
for it (R101, R154). -/
def State.tlbWaits (s : State) (p t va : Nat) : Bool :=
  s.cores.any fun x => s.holding x.1 == some p &&
    x.2.ord.sb.any fun e => e.under t va && x.2.ord.ended.any fun q => q.c.id == e.chunk

/-- Those of chunks that have not ended, whose data is not on its way yet, are translated afresh when they are performed (R108; DEDUCED,
log 80): those on the page are, and elsewhere the translation is the one they had. -/
def State.staleStores (s : State) (p t va : Nat) : State :=
  { s with cores := s.cores.map fun x =>
      if s.holding x.1 == some p then
        (x.1, { x.2 with ord := { x.2.ord with sb := x.2.ord.sb.map fun e => if e.under t va then { e with stale := true } else e } })
      else x }

/-- `tlbinv` (R154, R366): it stalls while an access that the old entry translated is on its way (R101). -/
def execTlbinv (b c : Sel) (s : State) : Host.Outcome State Fault Refusal :=
  run (do
    needLevel 1
    let x ← readOp b
    let y ← readOp c
    let s ← getS
    let k ← me
    if bitsOf x.toNat 63 57 ≠ 0 then fault (faultAt 0x08 x)
    if Config.tiles ≤ y.toNat then fault (faultAt 0x08 x)
    if s.level k = 1 ∧ !s.inPart s.myPart y.toNat then fault (faultAt 0x08 x)
    if s.tlbWaits s.myPart y.toNat x.toNat then stall
    modS fun s => (s.modTile y.toNat fun t =>
      { t with tlb := Table.set t.tlb s.myPart (tlbDrop (Table.get [] t.tlb s.myPart) x.toNat) }).staleStores s.myPart y.toNat x.toNat
    if s.level k = 2 ∧ y.toNat = tileOf k then
      modS fun s => s.modSvc (tileOf k) fun v => { v with mmu := tlbDrop v.mmu x.toNat }) s

/-- A frame given to a new owner (R155) by core `k` or, with `agentKey`, by an agent outside the cores: lines dropped everywhere,
the frame zeroed, with what a write does there (R183, R287), and the owner recorded; `own` is PARTID + 1, or 0 for the free pool. -/
def State.grantFrame (s : State) (k frame own : Nat) : State :=
  let s1 := s.wroteAt k fun pa => pa / 65536 == frame
  { s1 with
    tiles := mapVals (fun t => { t with ro := t.ro.filter fun e => e.1 / 256 != frame }) s1.tiles
    phys := { s1.phys with
      dram := s1.phys.dram.filter fun e => e.1 / 65536 != frame
      cis := s1.phys.cis.filter fun e => e.1 / 512 != frame
      dir := s1.phys.dir.filter fun e => e.1 / 256 != frame
      poison := s1.phys.poison.filter fun e => e.1 / 2048 != frame
      ecc := s1.phys.ecc.filter fun e => e.1 / 8192 != frame
      owner := if own = 0 then drop s1.phys.owner frame else Table.set s1.phys.owner frame own } }

/-- `frgrant` (R155). It cannot be taken back, so the chunk before it takes its place first (DEDUCED from R285, log 81); it waits for a
held home with a line in the frame (R287). A frame of a station that is not ready is never granted: nothing changes then (R27; DESIGN
CHOICE, log 93). Where both b and c fail, b's checks come first (DESIGN CHOICE, log 105). -/
def execFrgrant (b c : Sel) (s : State) : Host.Outcome State Fault Refusal :=
  run (do
    needLevel 2
    let x ← readOp b
    let y ← readOp c
    if x.toNat % 65536 ≠ 0 then fault (faultAt 0x03 x)
    match regionOf x.toNat with
    | .host _ => fault (faultAt 0x08 x)
    | .dev => fault (faultAt 0x08 x)
    | .hole => fault { faultAt 0x07 x with finfo := 2 }
    | _ => pure ()
    if bitsOf y.toNat 63 13 ≠ 0 ∨ (y.getLsbD 12 ∧ bitsOf y.toNat 11 0 ≠ 0) then fault (faultAt 0x08 x)
    commitFirst
    if (← getS).physDelayed (← me) fun pa => pa / 65536 == x.toNat / 65536 then stall
    if y.getLsbD 12 ∨ (← getS).stationsReady (x.toNat / 65536) then
      modS fun s => s.grantFrame s.turn (x.toNat / 65536) (if y.getLsbD 12 then 0 else bitsOf y.toNat 11 0 + 1)
    takes 800) s

/-! ## pair (R156, R394) -/

/-- The partner of newt `k`: local index xor 1 (R156). -/
def partnerOf (k : Nat) : Nat := if k % 2 = 0 then k + 1 else k - 1

/-- A newt that may not be coupled or uncoupled: in a lizard, in a gang, or halted (R156). -/
def Core.noPair (c : Core) : Bool :=
  c.ctl.lizn != 0 || c.ctl.lizhead.isSome || c.ctl.gangm != 0 || c.dbg.halted

/-- The partner has a live activation or a queued message (R156). -/
def Core.busyPartner (c : Core) : Bool :=
  c.slots.any (fun e => e.2.st != .free) || c.inq.any (fun e => !e.2.q.isEmpty || !e.2.part.isEmpty || e.2.diverted)

/-- The statuses of `pair` other than 0 whose conditions hold (R156); a service core is no newt, and only that counts there. Status 1 is
for couple alone: an uncoupling partner always has the pair's own live activation, and its diverted messages are reinjected (DESIGN
CHOICE, log 96). -/
def State.pairStatuses (s : State) (k : Nat) (mode : Bool) : List Nat :=
  let c := s.core k
  let f := s.core (partnerOf k)
  if isSvc k then [3]
  else (if mode ∧ (f.busyPartner ∨ c.slots.any fun e => e.1 != c.runSlot && e.2.st != .free) then [1] else [])
    ++ (if c.ctl.pair.isSome = mode then [2] else []) ++ (if c.noPair ∨ f.noPair then [3] else [])

/-- The status of `pair`: where several conditions hold the manual does not say which is written, and it is a free choice among
them (log 25). -/
def State.pairStatus (s : State) (k : Nat) (mode : Bool) : Nat :=
  let l := s.pairStatuses k mode
  l.getD (Config.freeNat s.freeCount % l.length) 0

/-- Coupling: the partner takes the leader's cells, tags and register cache (R156), and with them its activation, handler table, ring
descriptors, BFMT and GUARD (`State.mirror`). -/
def State.couple (s : State) (k : Nat) : State :=
  let f := partnerOf k
  let s1 := s.modCore k fun c => c.modCtl fun x => { x with pair := some f, leader := true }
  let c := s1.core k
  s1.modCore f fun d => { d with
    ls := c.ls
    regs := c.regs
    twin := {}
    ctl := { d.ctl with pair := some k, leader := false } }

/-- Uncoupling: the follower stops, keeps its cells, and masks every channel (R156). Of the leader's messages that nobody has dequeued it
keeps none (DESIGN CHOICE, log 106). -/
def State.uncouple (s : State) (k : Nat) : State :=
  let f := partnerOf k
  (s.modCore k fun c => c.modCtl fun x => { x with pair := none, leader := false }).modCore f fun d => { d with
    slots := []
    twin := {}
    chans := (List.range 32).map fun ch => (ch, { Table.get {} d.chans ch with mask := true })
    inq := mapVals (fun i => { i with live := none }) d.inq
    ctl := { d.ctl with pair := none, leader := false, run := none } }

/-- `pair` (R156, R281, R405): a status other than 0 has no other effect. -/
def execPair (a : Sel) (mode : Bool) (s : State) : Host.Outcome State Fault Refusal :=
  run (do
    let st := (← getS).pairStatus (← me) mode
    if st ≠ 0 then
      modS fun s => { s with freeCount := s.freeCount + 1 }
      writeOp a (BitVec.ofNat 64 st)
    else
      commitFirst
      writeOp a 0
      modS fun s => if mode then s.couple s.turn else (s.uncouple s.turn).modCore (partnerOf s.turn) fun d => d.setReg a.toNat 0
      if mode then takes 4100) s

end Sys2Proof.Machine
end

