-- ==== Sys2Proof/Machine/Firmware.lean ====
section
/-! DEFINITION. Firmware at work on faulted contexts: migration and the action of each class (R329, R333, R334, R339), demand-zero
pages (R106, R338), the replay of an activation (R51), and the service requests of notice handlers (R280, R335, R344). Firmware is
modelled by what the manual says it does; its own instructions are not. -/

namespace Sys2Proof.Machine

/-! ## Queues as firmware sees them -/

/-- Queue `q` of partition `p`; from partition 4096 on, the administrative queue (R370). -/
def State.queue (s : State) (p q : Nat) : Queue := if 4096 ≤ p then s.host.admin else Table.get {} (s.part p).queues q

/-- A queue changed by `f`. -/
def State.modQueue (s : State) (p q : Nat) (f : Queue → Queue) : State :=
  if 4096 ≤ p then { s with host := { s.host with admin := f s.host.admin } }
  else s.modPart p fun x => { x with queues := Table.set x.queues q (f (Table.get {} x.queues q)) }

/-- The command in service of a queue ends with a status (R339, R341): it is then to be completed. -/
def Queue.ended (u : Queue) (status : Nat) : Queue :=
  if u.phase = 3 then { u with phase := 4, status := status } else u

/-- The command that an activation of a service core serves ends faulted (R339). -/
def State.faultCommand (s : State) (t : Option QTag) : State :=
  match t with
  | some g => s.modQueue g.part g.q fun u => if u.ncmd = g.cmd then u.ended 1 else u
  | none => s

/-! ## Page faults (R106, R107, R338) -/

/-- A page fault among service faults: its address and KIND (R106, R107); of a pump's it is word 7's address (R338). -/
def FaultRec.page (r : FaultRec) : Option (Nat × Nat) :=
  if r.code = 0x07 then some (r.addr.toNat, r.kind)
  else if r.code = 0x15 ∧ r.sub = 5 then some (r.w7.toNat, 4)
  else none

/-- The physical address of a level-3 entry of 64 KiB blocks (R98). -/
def entryPa (p : Phys) (root va : Nat) : Option Nat :=
  let e1 := p.edge (root * 65536 + 8 * bitsOf va 51 40) 8
  let e2 := p.edge (pteFrame e1 * 65536 + 8 * bitsOf va 39 28) 8
  if bitOf e2 5 then none else some (pteFrame e2 * 65536 + 8 * bitsOf va 27 16)

/-- The leaf that firmware installs for a demand-zero page (R106 step 3). -/
def dzLeaf (w wi frame : Nat) : Nat :=
  let home := if bitOf w 62 then 2 ^ 48 + wi * 2 ^ 49 else bitsOf w 46 32 * 2 ^ 49
  home + frame * 1024 + 7

/-- Firmware resolves a page of partition `p` (R106 step 3): a zeroed frame of the pool is installed where the walk stopped at a
level-3 entry with V = 0. Where another context's fault has had the page installed meanwhile, nothing is left to do; `absent` says
that the context's own access found no page. A large block takes no single frame (DEDUCED, log 34). A frame of a station that is not
ready is not granted (R27), and a monitor of the table's line sees the write (R183). -/
def State.resolvePage (s : State) (p va kind : Nat) (absent : Bool) : Option State :=
  let x := s.part p
  let root := bitsOf x.ptroot.toNat 51 16
  let wi := bitsOf va 56 52
  let w := (Table.get 0 x.win wi).toNat
  if !bitOf w 63 then none
  else
    match (s.walk root va).1 with
    | .leaf .. => if absent ∧ x.ptroot.getLsbD 0 ∧ kind ≠ 3 then some s else none
    | .stop lvl info =>
      match x.pool, entryPa s.phys root va with
      | f :: rest, some pa =>
        if x.ptroot.getLsbD 0 ∧ lvl = 3 ∧ info = 0 ∧ kind ≠ 3 ∧ s.stationsReady f then
          let s1 := ((s.grantFrame agentKey f (p + 1)).modPart p fun x => { x with pool := rest }).wroteAt agentKey fun a => a / 256 == pa / 256
          some { s1 with phys := s1.phys.edgePut pa (leBytes 8 (dzLeaf w wi f)) }
        else none
      | _, _ => none

/-- A context parked on a record of the host's batched fault queue (R106 step 4, R107): contexts of one tile on one page share the
record. -/
def State.park (s : State) (t p : Nat) (h : Held) (va kind : Nat) : State :=
  let page : Word := BitVec.ofNat 64 (va / 65536 * 65536)
  match s.host.faultq.find? fun r => r.tile == t && r.part == p && r.vpage == page with
  | some r => s.modSvc t fun v => { v with
      held := v.held.map fun x => if x == h then { x with parked := true, waiting := true, seq := r.seq.toNat } else x }
  | none =>
    let q := (s.tile t).seq
    let r : PageRec := ⟨page, kind, q, t, p, h.core % 0x100000⟩
    let s1 := { s with host := { s.host with faultq := s.host.faultq ++ [r] } }
    (s1.modTile t fun x => { x with seq := x.seq + 1 }).modSvc t fun v => { v with
      held := v.held.map fun x => if x == h then { x with parked := true, waiting := true, seq := q.toNat } else x }

/-- Firmware's answer to a page fault (R106, R338). -/
def State.servePage (s : State) (t p : Nat) (h : Held) (va kind : Nat) : State :=
  match s.resolvePage p va kind (h.frec.code == 0x07) with
  | some s1 => s1.resumeHeld h ((s1.core h.core).context h.slot h.act).pc
  | none => s.park t p h va kind

/-! ## Migration and the action of each class (R329, R333) -/

/-- The notice of a faulted context (R279): its record, for channel 29 of its newt. -/
def noticeMsg (t : Nat) (h : Held) (cls : Nat) (a : Act) : Msg :=
  { route := BitVec.ofNat 64 (h.core % 0x100000 + 29 * 2 ^ 20), len := 64, words := h.frec.words h.core h.slot cls a.seq,
    src := svcOf t, tag := a.life.tag, note := .context t h.core h.slot h.act }

/-- Channel 29 of a core takes notices (R32, R333). -/
def Core.takesNotices (c : Core) : Bool := (c.chan 29).valid && !(c.chan 29).mask

/-- The kill of a context; where it is a channel 29 activation, the context whose notice it was handling is killed too, unless it has been
resumed or killed (R334). -/
def State.killFaulted (s : State) (h : Held) (a : Act) : State :=
  let s1 := s.killHeld h
  match (if a.chan = 29 then s.heldFor a.life.notice else none) with
  | some x => s1.killHeld x
  | none => s1

/-- A pair whose fingerprints mismatched twice: the context is killed and the pair is uncoupled (R395). -/
def State.killPair (s : State) (h : Held) (a : Act) : State :=
  let s1 := s.killFaulted h a
  if (s1.core h.core).ctl.pair.isSome ∧ (s1.core h.core).ctl.leader then s1.uncouple h.core else s1

/-- A context waits, faulted, for the requests of its notice handler. -/
def State.awaitHandler (s : State) (t : Nat) (h : Held) : State :=
  s.modSvc t fun v => { v with held := v.held.map fun x => if x == h then { x with waiting := true } else x }

/-- What firmware of tile `t` does with a context of a newt (R333, R334, R348, R354). -/
def State.actOn (s : State) (t : Nat) (h : Held) : State :=
  let c := s.core h.core
  let a := c.context h.slot h.act
  let own : Bool := a.chan == 29 || a.life.kind == .evict || a.life.kind == .resume
  match s.heldClass h, h.frec.page with
  | 0, _ => if !own ∧ c.takesNotices then (s.awaitHandler t h).arrive h.core (noticeMsg t h 0 a) else s.killFaulted h a
  | 1, some (va, kind) =>
    match (if own then none else s.holding h.core) with
    | some p => s.servePage t p h va kind
    | none => s.killFaulted h a
  | _, _ => if h.frec.code = 0x0F then s.killPair h a else s.killFaulted h a

/-- What becomes of a fault on a service core (R339): at level S the activation is killed and its command ends faulted; at level F
the tile stops reporting ready until its image is rolled back, and the activation stays as it is (DESIGN CHOICE, log 35). -/
def State.actOnSvc (s : State) (t : Nat) (h : Held) : State :=
  let a := (s.core h.core).slot h.slot
  if a.chan < 32 then (s.killHeld h).faultCommand a.life.tag
  else (s.awaitHandler t h).modTile t fun x => { x with ready := false, svc := { x.svc with bad := true } }

/-- The service core that holds a context still to be served, and the context. -/
def State.toServe (s : State) (k i : Nat) : Option (Nat × Held) :=
  s.tiles.findSome? fun x =>
    (x.2.svc.held.find? fun h => h.core == k && h.slot == i && !h.waiting).map fun h => (x.1, h)

/-- The channel of the activations that firmware dispatches for faulted contexts: the first one of level F (DESIGN CHOICE, log 118). -/
def fwChan : Nat := 32

/-- The slot of a firmware activation that the service core of tile `t` can dispatch now: it runs nothing, is neither halted nor on a tile
that is not ready, and has a free slot (R27, R42, R329, R401). -/
def State.firmwareSlot (s : State) (t : Nat) : Option Nat :=
  let c := s.core (svcOf t)
  if c.ctl.run.isSome || c.dbg.halted || !(s.tile t).ready then none else c.firstFree (List.range 16)

/-- A firmware activation dispatched in slot `j` of the service core of tile `t` for held context `h`: it runs, holds the context, and its
fault CSRs are loaded from the record (R160, R329 step 3). -/
def State.dispatchFw (s : State) (t j : Nat) (h : Held) : State :=
  s.modCore (svcOf t) fun c => (c.startAct fwChan j {} 0 (Held.life (some h) {} (none, none))).freshChunk

/-- Its end: its slot is free (R49). Firmware's own instructions are not modelled: it ends in the step that dispatches it (log 35). -/
def State.endFw (s : State) (t j : Nat) : State :=
  s.modCore (svcOf t) fun c => { c.modCtl fun x => { x with run := none } with slots := drop c.slots j }

/-- MIGRATION: the faulted context in slot `i` of core `k` reaches its service core, which dispatches a firmware activation with its
record, and firmware acts on its class (R329, R333). A replay does not migrate. -/
def execMigration (k i : Nat) (s : State) : Host.Outcome State Fault Refusal :=
  match s.toServe k i with
  | none => .next s
  | some (t, h) =>
    if s.heldClass h = 2 then .next s
    else
      match s.firmwareSlot t with
      | none => .next s
      | some j =>
        let s1 := s.dispatchFw t j h
        .next ((if isSvc k then s1.actOnSvc t h else s1.actOn t h).endFw t j)

/-! ## Replay (R51) -/

/-- The replay counter of a core one higher (R398). -/
def Core.countReplay (c : Core) : Core :=
  { c with cnt := { c.cnt with replays := if c.cnt.replays = 0xFFFFFFFF then c.cnt.replays else c.cnt.replays + 1 } }

/-- The triggering message, or the stream, delivered again at the head of its channel (R51 step 4). -/
def Core.redeliver (c : Core) (a : Act) : Core :=
  c.modInb a.chan fun i => { i with
    live := none
    q := match a.life.whole with
      | some m => { m with replays := m.replays + 1, place := [] } :: i.q
      | none => i.q
    again := match a.life.flow with
      | some f => some { f with eos := some { f.eosMsg with replays := f.eosMsg.replays + 1 } }
      | none => i.again }

/-- The units that an activation's message or stream carried. -/
def ActLife.units (l : ActLife) : List OUnit :=
  match l.whole, l.flow with
  | some m, _ => m.carry
  | none, some f => f.carry
  | none, none => []

/-- The activation numbered `q` of slot `i`, in its slot or moved out of it, is replayed (R51, R64). -/
def Core.replayAct (c : Core) (i : Nat) (q : BitVec 32) : Core :=
  let out := c.moved.any fun m => m.1 == i && m.2.uid == q
  let a := c.context i q
  let h := if out then movedAs i else holderOf i
  let c1 := { c with ord := { c.ord with ob := c.ord.ob.filter fun e => e.slot != (if out then movedAs i else i) } }
  let c2 := ((c1.unowe h a.life.owed).dropUnits h a.life.units).takeUnits holderNet a.life.units
  let c3 := (c2.redeliver a).countReplay
  if out then { c3 with moved := none } else { c3 with slots := drop c3.slots i }

/-- The message at the head of channel `ch` of core `k` placed in the inbox ring, where it was delivered again (R35, R51). -/
def State.placeHead (s : State) (k ch : Nat) : State :=
  match ((s.core k).inb ch).q with
  | m :: t =>
    if m.place.isEmpty then
      let x := s.placeMsg k m
      x.1.modCore k fun c => c.modInb ch fun i => { i with q := x.2 :: t }
    else s
  | [] => s

/-- REPLAY: the activation in slot `i` of core `k`, stopped by fault 0x06 under the conditions of R51, is discarded and its message
is delivered again. -/
def execReplay (k i : Nat) (s : State) : Host.Outcome State Fault Refusal :=
  match s.toServe k i with
  | none => .next s
  | some (_, h) =>
    if s.heldClass h = 2 then
      let ch := ((s.core k).context i h.act).chan
      .next (((((s.forgetHeld k i h.act).modCore k fun c => c.replayAct i h.act).placeHead k ch).modCore k Core.wakeLocal).mirror k)
    else .next s

/-! ## Service requests (R280, R335) -/

/-- The context on which the running activation, a notice handler, may act (R280): it is still held. -/
def State.noticed (s : State) (k : Nat) : Option Held := s.heldFor (s.core k).act.life.notice

/-- The notice of the running activation of core `k` is served: it handles nothing more (R280). -/
def State.noticeServed (s : State) (k : Nat) : State :=
  s.modCore k fun c => c.modAct fun a => { a with life := { a.life with notice := none } }

/-- The trapping activation of core `k` resumes at the successor of its trap (R139): it has faulted, and firmware returns it. -/
def State.afterTrap (s : State) (k : Nat) (imm : BitVec 16) (npc : Word) : State :=
  let i := (s.core k).runSlot
  let q := (s.core k).act.uid
  let r := { immFault 0x13 imm with pc := (s.core k).act.pc }
  let s1 := s.raise k r
  match (s1.tile (tileOf k)).svc.held.find? fun h => h.core == k && h.slot == i && h.act == q with
  | some h => s1.resumeHeld h npc
  | none => s1

/-- A service request (R139, R280): the chunk commits as it does before every fault, firmware acts, and the activation resumes at
the successor of the `trap`; a request of no notice handler, or for a context already resumed or killed, is an object fault. -/
def service (imm : BitVec 16) (f : State → Nat → Held → Except FaultRec State) : M PUnit := do
  let k ← me
  if ((← getS).noticed k).isNone then fault (objFault 0)
  commitFirst
  let s ← getS
  match s.noticed k with
  | none => fault (objFault 0)
  | some h =>
    match f s k h with
    | .error r => fault r
    | .ok s1 => fun c => .error (.leave (s1.afterTrap k imm c.npc))

/-- `trap #0x7F01` (R280, R344): the context is killed. -/
def execTrapKillContext (s : State) : Host.Outcome State Fault Refusal :=
  run (service 0x7F01 fun s k h => .ok ((s.killHeld h).noticeServed k)) s

/-- `trap #0x7F02` (R280): the context resumes at its faulting instruction. -/
def execTrapResumeAtFault (s : State) : Host.Outcome State Fault Refusal :=
  run (service 0x7F02 fun s k h => .ok ((s.resumeHeld h ((s.core h.core).context h.slot h.act).pc).noticeServed k)) s

/-- The successor of the PC at which an activation stopped (R111). -/
def Act.successor (a : Act) : Word := if bitsOf a.pc.toNat 5 0 < a.hdr then a.pc + 1 else (a.pc &&& ~~~63#64) + 65

/-- `trap #0x7F03` (R280): the context resumes at the successor of its faulting instruction. -/
def execTrapResumePastFault (s : State) : Host.Outcome State Fault Refusal :=
  run (service 0x7F03 fun s k h => .ok ((s.resumeHeld h ((s.core h.core).context h.slot h.act).successor).noticeServed k)) s

/-- The first obligation whose transfer to holder `h` is refused (R335 step 1). -/
def Core.transferBad (c : Core) (h : Nat) : List Obl → Option Obl
  | [] => none
  | o :: t =>
    let bad := match c.oblOf h o.bar o.obj with
      | some m => o.bar || decide (2 ^ 32 ≤ m.count.toNat + o.count.toNat)
      | none => false
    if bad then some o else Core.transferBad c h t

/-- Obligations of holder `h` given to holder `h'` (R335 step 1): event entries for one object merge. -/
def Core.transfer (c : Core) (h h' : Nat) : List Obl → Core
  | [] => c
  | o :: t =>
    Core.transfer (match (if o.bar then none else c.oblOf h' false o.obj) with
      | some m => (c.putObl m { m with count := m.count + o.count }).delObl o
      | none => c.putObl o { o with holder := h' }) h h' t

/-- The HOLDER under which the obligations of a held context lie: that of its slot, or of one that a notice has moved out of it. -/
def Core.heldHolder (c : Core) (h : Held) : Nat :=
  match c.moved with
  | some (j, a) => if j = h.slot ∧ a.uid = h.act then movedAs j else holderOf h.slot
  | none => holderOf h.slot

/-- `trap #0x7F04` (R335): the handler takes over what its context owes. -/
def execTrapTransferObligations (s : State) : Host.Outcome State Fault Refusal :=
  run (service 0x7F04 fun s k h =>
    let c := s.core k
    let theirs := c.heldHolder h
    let os := c.oblsOf theirs
    let mine := holderOf c.runSlot
    match c.transferBad mine os with
    | some o => .error (objFault (if o.bar then barW3 o.obj.toNat else evW3 o.obj.toNat))
    | none => .ok (s.modCore k fun c => c.transfer theirs mine os)) s

end Sys2Proof.Machine
end

