-- ==== Sys2Proof/Machine/Memory.lean ====
section
/-! DEFINITION. Loads and stores, the read-only path and prefetch (R162 to R170). -/

namespace Sys2Proof.Machine

/-- The value a load delivers from the bytes it read (R162). -/
def extendLoad (z : MemSize) (bs : List Byte) : Word :=
  let x := leNat bs
  match z with
  | .bs => (BitVec.ofNat 8 x).signExtend 64
  | .hs => (BitVec.ofNat 16 x).signExtend 64
  | .ws => (BitVec.ofNat 32 x).signExtend 64
  | .b | .h | .w | .d => BitVec.ofNat 64 x

/-- The bytes a store of a size takes from its word (R163, R166). -/
def storeBytes (z : MemSize) (x : Word) : List Byte := leBytes (sizeBytes z) x.toNat

/-- `ld` (R163). -/
def execLd (size : MemSize) (a b : Sel) (imm : BitVec 22) (s : State) : Host.Outcome State Fault Refusal :=
  run (do
    let x ← readOp b
    let bs ← localRead (effAddr x imm) (sizeBytes size)
    writeOp a (extendLoad size bs)) s

/-- `st` (R163). -/
def execSt (size : MemSize) (a b : Sel) (imm : BitVec 22) (s : State) : Host.Outcome State Fault Refusal :=
  run (do
    let y ← readOp b
    let x ← readOp a
    localWrite (effAddr y imm) (storeBytes size x)) s

/-- `ldg` (R166). -/
def execLdg (size : MemSize) (a b : Sel) (imm : BitVec 22) (s : State) : Host.Outcome State Fault Refusal :=
  run (do
    let x ← readOp b
    let bs ← globalRead (effAddr x imm) (sizeBytes size)
    writeOp a (extendLoad size bs)) s

/-- `stg` (R166): its operands in the order address, data, so that one of them alone may be a q selector. -/
def execStg (size : MemSize) (a b : Sel) (imm : BitVec 22) (s : State) : Host.Outcome State Fault Refusal :=
  run (do
    let y ← readOp b
    let x ← readOp a
    globalWrite (effAddr y imm) (storeBytes size x)) s

/-! ## The read-only path (R105, R169) -/

/-- What the read-only buffer of tile `t` gives for the line at `pa`, with the state afterwards: a line it holds, or none where the line
is to be read at its home. Where a line it holds differs from the home's, either may be returned, since a line may have left the buffer:
a free choice (R105; log 4). -/
def State.roLine (s : State) (t pa : Nat) : Option (List Byte) × State :=
  match find (s.tile t).ro (pa / 256) with
  | none => (none, s)
  | some old =>
    if old = s.phys.bytes (pa / 256 * 256) 256 then (some old, s)
    else
      let s1 : State := { s with freeCount := s.freeCount + 1 }
      if Config.freeNat s.freeCount % 2 = 0 then (some old, s1) else (none, s1)

/-- The line at `pa` put into the read-only buffer of tile `t` from its home (R104, R169). -/
def State.roFill (s : State) (t pa : Nat) : State :=
  s.modTile t fun x => { x with ro := Table.set x.ro (pa / 256) (s.phys.bytes (pa / 256 * 256) 256) }

/-- The read of `ldc` (R105, R169). A line that is not in the buffer is read whole at its home, and checked there; poison in the bytes is
consumed, and a line with a poisoned sector is not kept in the buffer. -/
def roRead (va n : Nat) : M (List Byte) := do
  globalCheck va n
  let (pa, home, d) ← translate .bare va
  let k ← me
  if d = .home then
    let (line, s1) := (← getS).roLine (tileOf k) pa
    putS s1
    match line with
    | some bs => return (bs.drop (pa % 256)).take n
    | none =>
      if s1.readDelayed k home (lineOf va) then stall
      let s2 := s1.readsAt .home home (pa / 256 * 256) 256
      putS s2
      modBase fun s => s.readsAt .home home (pa / 256 * 256) 256
      if s2.phys.poisoned .home pa n then consumePoison va
      if !s2.phys.poisoned .home (pa / 256 * 256) 256 then putS (s2.roFill (tileOf k) pa)
      return s2.phys.bytes pa n
  else
    let s ← getS
    if s.readDelayed k home (lineOf va) then stall
    if d = .edge ∧ s.phys.poisoned d pa n then consumePoison va
    let bs := s.globalBytes d pa n
    modS fun s => s.drew d n
    return bs

/-- `ldc` (R169). -/
def execLdc (size : MemSize) (a b : Sel) (imm : BitVec 22) (s : State) : Host.Outcome State Fault Refusal :=
  run (do
    let x ← readOp b
    let bs ← roRead (effAddr x imm) (sizeBytes size)
    writeOp a (extendLoad size bs)) s

/-- `pref` (R170): beyond reading its operand it has no architectural effect and never faults. -/
def execPref (_wr : Bool) (b : Sel) (_imm : BitVec 22) (s : State) : Host.Outcome State Fault Refusal :=
  run (do
    let _ ← readOp b) s

end Sys2Proof.Machine
end

