-- ==== Sys2Proof/Machine/Atomics.lean ====
section
/-! DEFINITION. Global and local atomics (R171 to R174). -/

namespace Sys2Proof.Machine

/-- The n-byte value of a word. -/
def lowBytes (n : Nat) (x : Word) : Word := if n = 4 then (x.setWidth 32).setWidth 64 else x

/-- The signed order of two n-byte values held zero-extended (R171). -/
def sltBytes (n : Nat) (x y : Word) : Bool := if n = 4 then (x.setWidth 32).slt (y.setWidth 32) else x.slt y

/-- The new memory values of R171, for n-byte values m and c held zero-extended. -/
def amoAdd (n : Nat) (m c : Word) : Word := lowBytes n (m + c)
def amoMin (n : Nat) (m c : Word) : Word := if sltBytes n m c then m else c
def amoMax (n : Nat) (m c : Word) : Word := if sltBytes n m c then c else m
def amoMinn (_n : Nat) (m c : Word) : Word := if m.ult c then m else c
def amoMaxn (_n : Nat) (m c : Word) : Word := if m.ult c then c else m
def amoAnd (_n : Nat) (m c : Word) : Word := m &&& c
def amoOr (_n : Nat) (m c : Word) : Word := m ||| c
def amoXor (_n : Nat) (m c : Word) : Word := m ^^^ c
def amoXchg (_n : Nat) (_m c : Word) : Word := c

/-- The running activation's side-effect flag is set (R51). -/
def setSideFlag : M PUnit := modS fun s => s.setSide s.turn (s.core s.turn).runSlot

/-- A global atomic at its home (R171, R173): the chunk before it has taken its place; `f` gives the value to write, or none.
The old value is returned. While a home is held for a chunk whose lines it meets, it waits (R283). -/
def globalAtomic (n va : Nat) (f : Word → Option Word) : M Word := do
  commitFirst
  globalCheck va n
  let (pa, home, d) ← translate .atomic va
  if d = .host ∨ d = .dev then fault (faultAt 0x08 (BitVec.ofNat 64 va))
  let k ← me
  let s ← getS
  if s.writeDelayed k home (lineOf va) ∨ s.readDelayed k home (lineOf va) then stall
  if s.phys.poisoned d pa n then consumePoison va
  let m := BitVec.ofNat 64 (leNat (s.globalBytes d pa n))
  match f m with
  | some x => modS fun s => s.putGlobal k (s.owner k) d va pa home (leBytes n x.toNat)
  | none => pure ()
  setSideFlag
  return m

/-- A global atomic of three operands (R171). -/
def globalAmo (f : Nat → Word → Word → Word) (size : ASize) (a b c : Sel) : M PUnit := do
  let n := asizeBytes size
  let va ← readOp b
  let x ← readOp c
  let m ← globalAtomic n va.toNat fun m => some (f n m (lowBytes n x))
  writeOp a m

/-- `aadd` (R171). -/
def execAadd (size : ASize) (a b c : Sel) (s : State) : Host.Outcome State Fault Refusal :=
  run (globalAmo amoAdd size a b c) s

/-- `amin` (R171). -/
def execAmin (size : ASize) (a b c : Sel) (s : State) : Host.Outcome State Fault Refusal :=
  run (globalAmo amoMin size a b c) s

/-- `amax` (R171). -/
def execAmax (size : ASize) (a b c : Sel) (s : State) : Host.Outcome State Fault Refusal :=
  run (globalAmo amoMax size a b c) s

/-- `aminn` (R171). -/
def execAminn (size : ASize) (a b c : Sel) (s : State) : Host.Outcome State Fault Refusal :=
  run (globalAmo amoMinn size a b c) s

/-- `amaxn` (R171). -/
def execAmaxn (size : ASize) (a b c : Sel) (s : State) : Host.Outcome State Fault Refusal :=
  run (globalAmo amoMaxn size a b c) s

/-- `aand` (R171). -/
def execAand (size : ASize) (a b c : Sel) (s : State) : Host.Outcome State Fault Refusal :=
  run (globalAmo amoAnd size a b c) s

/-- `aor` (R171). -/
def execAor (size : ASize) (a b c : Sel) (s : State) : Host.Outcome State Fault Refusal :=
  run (globalAmo amoOr size a b c) s

/-- `axor` (R171). -/
def execAxor (size : ASize) (a b c : Sel) (s : State) : Host.Outcome State Fault Refusal :=
  run (globalAmo amoXor size a b c) s

/-- `axchg` (R171). -/
def execAxchg (size : ASize) (a b c : Sel) (s : State) : Host.Outcome State Fault Refusal :=
  run (globalAmo amoXchg size a b c) s

/-- `acas` (R172): the write is made only where the values are equal; the side-effect flag is set either way. -/
def execAcas (size : ASize) (a b c d : Sel) (s : State) : Host.Outcome State Fault Refusal :=
  run (do
    let n := asizeBytes size
    let va ← readOp b
    let x ← readOp c
    let y ← readOp d
    let m ← globalAtomic n va.toNat fun m => if m = lowBytes n x then some (lowBytes n y) else none
    writeOp a m) s

/-! ## Local atomics (R174) -/

/-- A local atomic (R174): the chunk before it commits, the read and the write are one, and the write goes to the cells or, in
the workspace granule, to the register cache. -/
def localAtomic (n off : Nat) (f : Word → Option Word) : M Word := do
  commitFirst
  let bs ← localRead off n
  let m := BitVec.ofNat 64 (leNat bs)
  let c ← myCore
  let k ← me
  match f m with
  | none => pure ()
  | some x =>
    if c.act.inWorkspace off n then modMe fun c => c.putRegBytes (off % 512) (leBytes n x.toNat)
    else modS fun s => s.drain k off (leBytes n x.toNat)
  let s ← getS
  if !c.act.inWorkspace off n ∧ !isSvc k ∧ (s.tagAt k off).p then setSideFlag
  return m

/-- `ladd` (R174). -/
def execLadd (size : ASize) (a b c : Sel) (s : State) : Host.Outcome State Fault Refusal :=
  run (do
    let n := asizeBytes size
    let off ← readOp b
    let x ← readOp c
    let m ← localAtomic n off.toNat fun m => some (amoAdd n m (lowBytes n x))
    writeOp a m) s

/-- `lcas` (R174). -/
def execLcas (size : ASize) (a b c d : Sel) (s : State) : Host.Outcome State Fault Refusal :=
  run (do
    let n := asizeBytes size
    let off ← readOp b
    let x ← readOp c
    let y ← readOp d
    let m ← localAtomic n off.toNat fun m => if m = lowBytes n x then some (lowBytes n y) else none
    writeOp a m) s

end Sys2Proof.Machine
end

