-- ==== Sys2Proof/Machine/Signals.lean ====
section
/-! DEFINITION. Events, obligations, ranks and barriers (R258 to R266): `mkev`, `rmev`, `sig`, `waitge`, `owe`, `rank`, `rkmid`,
`mkbar`, `bara`, `barw`, `join`, `leave`. -/

namespace Sys2Proof.Machine

/-- A name reserved to the command processor (R73). -/
def cpName (e : Nat) : Bool := decide (0xFF00 ≤ e) && decide (e ≤ 0xFFFE)

/-- `mkev` (R258, R267): the chunk commits before it acts. -/
def execMkev (a b c : Sel) (s : State) : Host.Outcome State Fault Refusal :=
  run (do
    let x ← readOp a
    let r ← readOp b
    let f ← readOp c
    let e := x.toNat % 65536
    let w3 := evW3 e
    if bitsOf x.toNat 63 16 ≠ 0 ∨ e = Config.noEvent ∨ Config.noRank ≤ r.toNat then fault (objFault w3)
    if (← getS).level (← me) = 0 ∧ cpName e then fault (faultAt 0x08 0)
    if bitsOf f.toNat 63 1 ≠ 0 then fault (objFault w3)
    commitFirst
    let s ← getS
    match s.event s.myPart e with
    | some ev => if !(f.getLsbD 0) ∨ ev.rank.toNat ≠ r.toNat then fault (objFault w3)
    | none =>
      modS fun s => { s with events := Table.set s.events (evKey s.myPart e) { rank := BitVec.ofNat 20 r.toNat } }) s

/-- A registered collective still owes its event (R383). -/
def Coll.owes (c : Coll) (name : Nat) : Bool := !c.wait && !c.done && c.ev.toNat == name

/-- The completion event of a work entry (R382). -/
def WEntry.ev (e : WEntry) : Nat := bitsOf (e.words.getD 0 0).toNat 31 16

/-- An obligation on an event is owed somewhere in the partition: held, faulted, in transit, or the network engine's (R57, R74,
R382, R383). -/
def State.owedAnywhere (s : State) (p name : Nat) : Bool :=
  (s.cores.any fun k => s.holding k.1 == some p && (k.2.obl ++ k.2.spilt).any fun o => !o.bar && o.obj == evObj name)
    || (s.ct p).coll.any (fun c => c.2.owes name)
    || s.net.any (fun q => q.2.part == p && q.2.ops.any fun e => e.ev == name)

/-- `rmev` (R74, R259, R267). -/
def execRmev (a : Sel) (s : State) : Host.Outcome State Fault Refusal :=
  run (do
    let x ← readOp a
    let e := x.toNat % 65536
    if (← getS).level (← me) = 0 ∧ cpName e then fault (faultAt 0x08 0)
    commitFirst
    let s ← getS
    match s.event s.myPart e with
    | none => fault (objFault (evW3 e))
    | some ev =>
      if !ev.waiters.isEmpty ∨ s.owedAnywhere s.myPart e then fault (objFault (evW3 e))
      modS fun s => { s with events := drop s.events (evKey s.myPart e) }) s

/-- `sig` (R261). -/
def execSig (a b : Sel) (s : State) : Host.Outcome State Fault Refusal :=
  run (do
    let x ← readOp a
    let n ← readOp b
    let e := x.toNat % 65536
    if 2 ^ 32 ≤ n.toNat then fault (objFault (evW3 e))
    buffer (.sig (BitVec.ofNat 16 e) (BitVec.ofNat 32 n.toNat))) s

/-- `owe` (R64, R260). -/
def execOwe (a b : Sel) (s : State) : Host.Outcome State Fault Refusal :=
  run (do
    let x ← readOp a
    let n ← readOp b
    let e := x.toNat % 65536
    if 2 ^ 32 ≤ n.toNat then fault (objFault (evW3 e))
    if n ≠ 0 then
      let s ← getS
      match s.event s.myPart e with
      | none => fault (objFault (evW3 e))
      | some ev =>
        let c ← myCore
        let h := holderOf c.runSlot
        if c.oweOverflows h e n.toNat then fault (objFault (evW3 e))
        modMe fun c =>
          let c1 := (c.owe h e n.toNat ev.rank.toNat).modAct fun a =>
            { a with life := { a.life with owed := a.life.owed ++ [(evObj e, n.toNat)] } }
          { c1 with ord := { c1.ord with chunk := { c1.ord.chunk with owes := c1.ord.chunk.owes ++ [(evObj e, n.toNat)] } } }) s

/-! ## Waits on events -/

/-- A wait forms no part of a chunk that could be squashed: the next instruction starts a new one (R281). -/
def ownChunk : M PUnit := fun c => .ok ((), { c with own := true })

/-- The end of a satisfied `waitge` (R262): a deferred fault found meanwhile, else the status. -/
def waitgeDone (a : Sel) (poison : Bool) : M PUnit := do
  ownChunk
  checkDeferred
  waitDone
  writeOp a (flagWord poison)

/-- The test and registration of a `waitge` in one operation (R74): satisfied at once, or suspended. -/
def waitgeTest (a : Sel) (name : BitVec 16) (v : BitVec 32) : M PUnit := do
  let s ← getS
  let k ← me
  match s.event s.myPart name.toNat with
  | none => fault (objFault (evW3 name.toNat))
  | some e =>
    if reached e.counter v then waitgeDone a e.poison
    else leave ((s.registerEv s.myPart name.toNat (.act k (s.core k).runSlot) v).suspend k [.event name v])

/-- `waitge` (R262). A resumption finds what the wait found, and tests again only where its registration was lost (R128, R353). -/
def execWaitge (a b c : Sel) (s : State) : Host.Outcome State Fault Refusal :=
  run (do
    let y ← (do return (← myCore).act.sync)
    match y.wait, y.woken with
    | [.event _ _], some p => waitgeDone a p
    | [.event n v], none => waitgeTest a n v
    | _, _ => do
      checkDeferred
      let e ← readOp b
      let v ← readOp c
      let n := BitVec.ofNat 16 e.toNat
      commitPoint
      let s ← getS
      match s.event s.myPart n.toNat with
      | none => fault (objFault (evW3 n.toNat))
      | some ev =>
        rankCheck (evW3 n.toNat) (some ev.rank.toNat)
        waitgeTest a n (v.setWidth 32)) s

/-! ## Ranks -/

/-- The rank of an event (R263). -/
def rankEv (x : Word) : M Word := do
  let s ← getS
  let e := x.toNat % 65536
  match s.event s.myPart e with
  | some ev => if bitsOf x.toNat 63 16 ≠ 0 then fault (objFault (evW3 e)) else return ev.rank.setWidth 64
  | none => fault (objFault (evW3 e))

/-- The rank of a barrier record (R263), read at its home. -/
def rankBar (x : Word) : M Word := do
  let va := x.toNat
  if va % 16 ≠ 0 then fault (faultAt 0x03 x)
  let (pa, home, d) ← translate .read va
  let s ← getS
  let k ← me
  if s.readDelayed k home (lineOf va) then stall
  if (d = .home ∨ d = .edge) ∧ s.phys.poisoned d pa 16 then consumePoison va
  let b := s.barAt d pa
  modS fun s => s.drew d 16
  if b.valid then return b.rank.setWidth 64 else fault (objFault (barW3 va))

/-- The rank of a ring (R263). -/
def rankRing (x : Word) : M Word := do
  let r := (← myCore).ring x.toNat
  if 15 < x.toNat ∨ r.count = 0 then fault (ringFault (x.toNat % 16)) else return r.rank.setWidth 64

/-- `rank` (R263). -/
def execRank (kind : RankKind) (a b : Sel) (s : State) : Host.Outcome State Fault Refusal :=
  run (do
    let x ← readOp b
    let r ← match kind with
      | .ev => rankEv x
      | .bar => rankBar x
      | .ring => rankRing x
    writeOp a r) s

/-- The rank between two ranks, if there is one (R72). -/
def midRank (x y : Nat) : Option Nat :=
  let lo := Nat.min x y
  let hi := Nat.max x y
  if hi - lo < 2 then none else some (lo + (hi - lo) / 2)

/-- `rkmid` (R72, R263). -/
def execRkmid (a b c : Sel) (s : State) : Host.Outcome State Fault Refusal :=
  run (do
    let x ← readOp b
    let y ← readOp c
    if Config.noRank < x.toNat ∨ Config.noRank < y.toNat then fault (objFault 0)
    match midRank x.toNat y.toNat with
    | some r => writeOp a (BitVec.ofNat 64 r)
    | none => fault (objFault 0)) s

/-! ## Barriers -/

/-- A waiter is registered on the record (R264). -/
def State.barWaited (s : State) (p pa : Nat) : Bool := s.bars.any fun w => w.part == p && w.pa == pa

/-- `mkbar` (R75, R264, R267); poison in the sector of the record that it reads is consumed (R390; DEDUCED, log 101). -/
def execMkbar (b c : Sel) (s : State) : Host.Outcome State Fault Refusal :=
  run (do
    let va ← readOp b
    let r ← readOp c
    if va.toNat % 16 ≠ 0 then fault (faultAt 0x03 va)
    commitFirst
    let (pa, home, d) ← translate .atomic va.toNat
    if d = .host ∨ d = .dev then fault (faultAt 0x08 va)
    if Config.noRank ≤ r.toNat then fault (objFault (barW3 va.toNat))
    let s ← getS
    let k ← me
    if s.writeDelayed k home (lineOf va.toNat) then stall
    if s.phys.poisoned d pa 16 then consumePoison va.toNat
    let old := s.barAt d pa
    if old.valid ∧ (old.expected ≠ 0 ∨ s.barWaited s.myPart pa) then fault (objFault (barW3 va.toNat))
    let b : Bar := ⟨false, true, 0, BitVec.ofNat 20 r.toNat, 0, 0, 0, 0⟩
    modS fun s => s.putGlobal k (s.owner k) d va.toNat pa home (leBytes 16 b.toNat)
    setSideFlag) s

/-- `bara` (R265): the beats are read at issue. -/
def execBara (a b : Sel) (s : State) : Host.Outcome State Fault Refusal :=
  run (do
    let va ← readOp a
    let n ← readOp b
    if 2 ^ 31 ≤ n.toNat then fault (objFault (barW3 va.toNat))
    buffer (.bara va (BitVec.ofNat 32 n.toNat))) s

/-- The end of a satisfied `barw` (R266): the next generation's arrival is owed, and the status. -/
def barwDone (a : Sel) (va : Word) (poison : Bool) : M PUnit := do
  ownChunk
  waitDone
  modMe fun c => c.mapObl (holderOf c.runSlot) true va fun o => { o with count := o.count + 1, arr := false }
  writeOp a (flagWord poison)

/-- The test and registration of a `barw` in one operation at the record's home (R76). `check` makes the rank check. -/
def barwTest (a : Sel) (va : Word) (n : BitVec 32) (check : Bool) : M PUnit := do
  let s ← getS
  let k ← me
  match s.barHome k (s.core k).runSlot va with
  | .error r => do
    if r.code = 0x06 then countTile 7
    fault r
  | .ok (none, _) => stall
  | .ok (some (pa, _, _, b), s1) =>
    putS s1
    if check then rankCheck (barW3 va.toNat) (some b.rank.toNat)
    if barDone b.gen n then barwDone a va b.poison
    else
      leave (State.suspend { s1 with bars := s1.bars ++ [⟨s1.myPart, va, pa, n, some (k, (s1.core k).runSlot)⟩] } k [.bar va n])

/-- `barw` (R266). -/
def execBarw (a b : Sel) (s : State) : Host.Outcome State Fault Refusal :=
  run (do
    let y ← (do return (← myCore).act.sync)
    match y.wait, y.woken with
    | [.bar va _], some p => barwDone a va p
    | [.bar va n], none => barwTest a va n false
    | _, _ => do
      let va ← readOp b
      commitPoint
      let c ← myCore
      match c.oblOf (holderOf c.runSlot) true va with
      | none => fault (objFault (barW3 va.toNat))
      | some o => barwTest a va o.count true) s

/-- `join` (R265). -/
def execJoin (b : Sel) (s : State) : Host.Outcome State Fault Refusal :=
  run (do buffer (.join (← readOp b))) s

/-- `leave` (R265). -/
def execLeave (b : Sel) (s : State) : Host.Outcome State Fault Refusal :=
  run (do buffer (.leave (← readOp b))) s

end Sys2Proof.Machine
end

