-- ==== Sys2Proof/Machine/Queues.lean ====
section
/-! DEFINITION. Host queues (R340, R341, R370 to R372, R376, R385 to R388): doorbells, the reading of entries, completion, QoS
samples and the watchdog. Partition 4096 stands for the administrative queue. A step that is not due changes nothing. -/

namespace Sys2Proof.Machine

/-- The function whose MSI-X vectors a queue raises (R367): the PF for the administrative queue. -/
def queueFn (p : Nat) : Nat := if 4096 ≤ p then 0 else p + 1

/-- QVEC raised. -/
def State.queueMsi (s : State) (p q : Nat) : State := s.msi (queueFn p) (s.queue p q).vec.toNat

/-- The queue exists: the administrative queue, or one of a partition's 64 (R370). -/
def State.hasQueue (s : State) (p q : Nat) : Bool := decide (4096 ≤ p) || (has s.parts p && decide (q < 64))

/-- Pending entries (R387). -/
def Queue.pending (u : Queue) : Nat := (u.tail - u.head).toNat

/-- QSIZE enables the queue (R370). -/
def Queue.on (u : Queue) : Bool := decide (4 ≤ u.size.toNat) && decide (u.size.toNat ≤ 12)

/-- More entries are pending than the ring holds (R387). -/
def Queue.overfull (u : Queue) : Bool := u.on && decide (2 ^ u.size.toNat < u.pending)

/-- The address of entry `i` (R370). -/
def Queue.entryAt (u : Queue) (i : BitVec 16) : Nat := u.base.toNat + 64 * (i.toNat % 2 ^ u.size.toNat)

/-- A doorbell recorded: a tail index that covers entries which no earlier one covers is their own; one that takes entries back takes them
from those that covered them (R376, R387). The entry at QHEAD is no new one while it is in service. -/
def Queue.ring (u : Queue) (v : BitVec 16) (now : Nat) : Queue :=
  { u with tail := v, bells := ringBells u.bells u.head (if u.phase = 0 then 0 else 1) v now }

/-- The entry at QHEAD read: the doorbell that covers it is its own (R376). -/
def Queue.taken (u : Queue) : Queue :=
  { u with
    bell := (u.bells.head?.map (·.2)).getD u.bell
    bells := u.bells.filter fun b => b.1 != u.head + 1 }

/-- A QTAIL write (R387). -/
def State.doorbell (s : State) (p q : Nat) (v : BitVec 16) : State :=
  let u := s.queue p q
  let u1 := u.ring v s.cycle
  let s1 := s.modQueue p q fun _ => { u1 with stop := u1.overfull }
  if u1.overfull ∧ !u.overfull then s1.queueMsi p q else s1

/-- QTAIL_DOORBELL: the host writes QTAIL (R370, R387). -/
def execQtailDoorbell (p q : Nat) (v : BitVec 16) (s : State) : Host.Outcome State Fault Refusal :=
  if s.hostUp ∧ s.hasQueue p q then .next (s.doorbell p q v) else .next s

/-! ## Entries -/

/-- The fields of a command entry (R371), for its words. -/
def opOf (ws : List Word) : Nat := bitsOf (ws.getD 0 0).toNat 7 0
def waits (ws : List Word) : Bool := (ws.getD 0 0).getLsbD 8
def notify (ws : List Word) : Bool := (ws.getD 0 0).getLsbD 9
def sigEv (ws : List Word) : Nat := bitsOf (ws.getD 0 0).toNat 31 16
def waitEv (ws : List Word) : Nat := bitsOf (ws.getD 1 0).toNat 15 0
def waitV (ws : List Word) : BitVec 32 := (ws.getD 1 0).extractLsb' 32 32
def deadlineOf (ws : List Word) : Nat := bitsOf (ws.getD 1 0).toNat 31 16
def argOf (ws : List Word) (i : Nat) : Word := ws.getD i 0
def argBits (ws : List Word) (i hi lo : Nat) : Nat := bitsOf (ws.getD i 0).toNat hi lo

/-- The 64-bit little-endian words of bytes. -/
def wordsOf (bs : List Byte) : Nat → List Word
  | 0 => []
  | n + 1 => BitVec.ofNat 64 (leNat (bs.take 8)) :: wordsOf (bs.drop 8) n

/-- What a read by firmware comes to (R287), and the state it leaves: the bytes, a wait for a held home, or a fault or poison. -/
inductive FwRead where
  | ok (bs : List Byte) (s : State)
  | held
  | bad (s : State)

/-- `n` bytes of one line read at level S of partition `p`: a home that another chunk holds delays it, a fault or poison ends it. -/
def State.fwRead (s : State) (p va n : Nat) : FwRead :=
  match s.xlate p (s.partFirst p) 1 .read va with
  | (.fault .., s1) => .bad s1
  | (.ok pa home d, s1) =>
    let s2 := s1.readsAt d home pa n
    if s.readDelayed agentKey home (lineOf va) then .held
    else if (d = .home ∨ d = .edge) ∧ s2.phys.poisoned d pa n then .bad s2
    else .ok (s2.globalBytes d pa n) (s2.drew d n)

/-- `n` bytes read at a physical address of the edge stations or a host window (R373): what serves them must be ready (R26). -/
def State.physRead (s : State) (pa n : Nat) : FwRead :=
  if !s.addrUp pa || !s.addrUp (pa + n - 1) then .bad s
  else match regionOf pa with
  | .near | .far =>
    let s1 := s.readsAt .edge 0 pa n
    if s1.phys.poisoned .edge pa n then .bad s1 else .ok (s1.globalBytes .edge pa n) s1
  | .host _ => if s.oldPort pa then .bad s else .ok (s.globalBytes .host pa n) (s.drew .host n)
  | _ => .bad s

/-- The entry at the head of a queue read whole (R370, R387). -/
def State.readEntry (s : State) (p q : Nat) : FwRead :=
  let u := s.queue p q
  if 4096 ≤ p then s.physRead (u.entryAt u.head) 64 else s.fwRead p (u.entryAt u.head) 64

/-- A nonzero reserved field of an entry's arguments, or an operation that is none (R371). -/
def badArgs (ws : List Word) : Bool :=
  match opOf ws with
  | 0x01 => argBits ws 3 63 32 != 0 || argBits ws 4 63 37 != 0 || argBits ws 5 63 40 != 0
  | 0x02 => argBits ws 2 4 0 != 0 || argBits ws 3 4 0 != 0 || argBits ws 4 4 0 != 0 || argOf ws 4 == 0
  | 0x03 => false
  | 0x40 => argBits ws 3 63 2 != 0
  | 0x41 => argBits ws 3 63 2 != 0
  | 0x42 => argBits ws 3 63 2 != 0
  | 0x43 => argBits ws 3 63 2 != 0
  | 0x44 => argBits ws 3 63 48 != 0 || argBits ws 3 31 1 != 0
  | 0x45 => argBits ws 3 63 48 != 0 || argBits ws 3 31 1 != 0
  | 0x46 => argBits ws 4 63 1 != 0
  | 0x47 => argBits ws 2 63 20 != 0 || argBits ws 2 15 12 != 0
  | 0x48 => argBits ws 2 63 27 != 0 || argBits ws 4 63 1 != 0
  | _ => true

/-- The operation is one of the administrative queue's (R371). -/
def adminOp (op : Nat) : Bool := decide (0x40 ≤ op) && decide (op ≤ 0x48)

/-- An event name below 0xFF00 of partition `p` that does not exist (R385). -/
def State.noEvent (s : State) (p n : Nat) : Bool := decide (n < 0xFF00) && (s.event p n).isNone

/-- The service core that holds what a partition's queues owe (R61), as a SWAP has saved it while it is saved. -/
def State.queueCore (s : State) (p : Nat) : Core :=
  if (s.part p).pre.given then s.core (svcOf (s.partFirst p)) else Table.get {} (s.part p).saved (svcOf (s.partFirst p))

/-- It changed by `f`. -/
def State.modQueueCore (s : State) (p : Nat) (f : Core → Core) : State :=
  if (s.part p).pre.given then s.modCore (svcOf (s.partFirst p)) f
  else s.modPart p fun x => { x with saved := Table.set x.saved (svcOf (s.partFirst p)) (f (s.queueCore p)) }

/-- A SIGEV below 0xFF00 at rank 0 that another queue owes already (R385). -/
def State.owedByQueue (s : State) (p n : Nat) : Bool :=
  match s.event p n with
  | some e =>
    e.rank == 0 && decide (n < 0xFF00) && ((s.queueCore p).obl ++ (s.queueCore p).spilt).any fun o =>
      decide (64 ≤ o.holder) && !o.bar && o.obj == evObj n
  | none => false

/-- An entry rejected with status 4 (R371, R385). The administrative queue has no events and runs no operation of a partition's
queues but MARK (DESIGN CHOICE, log 40). -/
def State.malformed (s : State) (p : Nat) (u : Queue) (ws : List Word) : Bool :=
  let op := opOf ws
  argBits ws 0 15 10 != 0 || badArgs ws || (waits ws && waitEv ws == 0xFFFF)
    || (if 4096 ≤ p then (!adminOp op && op != 3) || waits ws || sigEv ws != 0xFFFF
        else adminOp op || (op == 2 && !u.copy) || (waits ws && s.noEvent p (waitEv ws))
          || (sigEv ws != 0xFFFF && (s.noEvent p (sigEv ws) || s.owedByQueue p (sigEv ws))))

/-- A semaphore that an entry names, created at rank 0 where it does not exist (R385). -/
def State.semaphore (s : State) (p n : Nat) (named : Bool) : State :=
  if named ∧ 0xFF00 ≤ n ∧ n ≠ 0xFFFF ∧ (s.event p n).isNone then
    { s with events := Table.set s.events (evKey p n) { rank := 0 } }
  else s

/-- An accepted entry starts: its semaphores exist, and it waits where it is told to (R372 step 1, R385). -/
def State.startEntry (s : State) (p q : Nat) (ws : List Word) : State :=
  let s1 := (s.semaphore p (waitEv ws) (waits ws)).semaphore p (sigEv ws) true
  let s2 := if 4096 ≤ p then s1 else s1.modPart p fun x =>
    let w := Table.get {} x.wd q
    { x with wd := Table.set x.wd q { w with since := if w.stage = 0 then s.cycle else w.since } }
  let go (ph : Nat) (po : Bool) (s : State) : State := s.modQueue p q fun u => { u with
    cmd := some ws
    phase := ph
    done := 0
    poisoned := po
    status := 0
    owes := false
    faulted := false
    ncmd := u.ncmd + 1
    began := s.cycle }
  if waits ws then
    match s2.event p (waitEv ws) with
    | some e =>
      if reached e.counter (waitV ws) then go 2 e.poison s2
      else (go 1 false s2).registerEv p (waitEv ws) (.queue q) (waitV ws)
    | none => go 1 false s2
  else go 2 false s2

/-- Commands of a partition that is being, or has been, swapped wait for the resume (R384). -/
def State.serving (s : State) (p : Nat) : Bool :=
  decide (4096 ≤ p) || !((s.part p).pre.mode && (s.part p).pre.state != 0)

/-- The next entry of a queue is to be read (R372, R387). -/
def State.mayRead (s : State) (p q : Nat) : Bool :=
  let u := s.queue p q
  s.hasQueue p q && u.phase == 0 && !u.stop && u.on && !u.overfull && u.pending != 0 && s.serving p

/-- The read of an entry fails: it is not served, QVEC is raised once, and no more is served until QTAIL is written (R387). -/
def State.entryFailed (s : State) (p q : Nat) : State := (s.modQueue p q fun u => { u with stop := true }).queueMsi p q

/-- COMMAND_ENTRY_READ: the command processor reads the entry at QHEAD and begins it (R372, R385, R387). -/
def execCommandEntryRead (p q : Nat) (s : State) : Host.Outcome State Fault Refusal :=
  if s.mayRead p q then
    match s.readEntry p q with
    | .held => .next s
    | .bad s0 => .next (s0.entryFailed p q)
    | .ok bs s0 =>
      let ws := wordsOf bs 8
      let s1 := s0.modQueue p q Queue.taken
      .next (if s1.malformed p (s1.queue p q) ws then
        s1.modQueue p q fun u => { u with
          cmd := some ws
          phase := 4
          status := 4
          owes := false
          faulted := false
          ncmd := u.ncmd + 1
          began := s1.cycle }
      else s1.startEntry p q ws)
  else .next s

/-! ## Performing -/

/-- The words of the command that queue `q` of partition `p` has to perform, or is performing, where its operation is `op`. -/
def State.command (s : State) (p q op phase : Nat) : Option (List Word) :=
  let u := s.queue p q
  match u.cmd with
  | some ws => if u.phase = phase ∧ opOf ws = op ∧ !u.poisoned ∧ s.serving p then some ws else none
  | none => none

/-- The HOLDER code of a queue's obligation (R61). -/
def queueHolder (q : Nat) : Nat := 64 + q % 64

/-- The queue takes its obligation on SIGEV (R372): the obligation table of the partition's first service core holds it. -/
def State.takeSigEv (s : State) (p q : Nat) (ws : List Word) : State :=
  let n := sigEv ws
  match (if 4096 ≤ p ∨ n = 0xFFFF ∨ (s.queue p q).owes then none else s.event p n) with
  | some e =>
    (s.modQueueCore p fun c => c.owe (queueHolder q) n 1 e.rank.toNat).modQueue p q fun u =>
      { u with owes := true }
  | none => s

/-- Step 2 of R372 begins: the obligation arises, and the command is under way. -/
def State.begin_ (s : State) (p q : Nat) (ws : List Word) : State :=
  (s.takeSigEv p q ws).modQueue p q fun u => { u with phase := 3 }

/-- The command has come to its end with a status; it is then completed. -/
def State.endCmd (s : State) (p q status : Nat) : State :=
  s.modQueue p q fun u => { u with phase := 4, status := status }

/-! ## Quality of service (R376) -/

/-- The bin of a latency. -/
def binOf (lat : Nat) : Nat := if lat < 2 then 0 else Nat.min 31 (Nat.log2 lat)

/-- 2^K samples, K from 4 to 20. -/
def Qos.window (m : Qos) : Nat := 2 ^ (Nat.max 4 (Nat.min 20 m.k.toNat))

/-- The least bin whose cumulative count reaches `t`. -/
def Qos.binReaching (m : Qos) (t : Nat) : Nat :=
  ((List.range 32).find? fun b =>
    decide (t ≤ sumBy (fun i => (Table.get (0 : BitVec 32) m.bins i).toNat) (List.range (b + 1)))).getD 31

/-- The percentile's bin at a window's end: t := ceil(2^K × P / 1,024). -/
def Qos.percentile (m : Qos) : Nat := m.binReaching ((m.window * m.p.toNat + 1023) / 1024)

/-- The estimate of bin `b`, 2^(b+1) or unbounded, exceeds BOUND. -/
def Qos.exceeds (m : Qos) (b : Nat) : Bool := b == 31 || decide (m.bound.toNat < 2 ^ (b + 1))

/-- A monitor of a partition changed by `f`. -/
def State.modQos (s : State) (p m : Nat) (f : Qos → Qos) : State :=
  s.modCt p fun x => { x with qos := Table.set x.qos m (f (Table.get {} x.qos m)) }

/-- The end of a monitor's window whose percentile lies in bin `b`: the estimate is judged, and the bins are cleared. -/
def State.judge (s : State) (p m b : Nat) : State :=
  let x := Table.get {} (s.ct p).qos m
  let s1 := s.modQos p m fun x => { x with bins := [], samples := 0 }
  if x.bound ≠ 0 ∧ x.exceeds b then
    (s1.modQos p m fun x => { x with viol := true, bin := BitVec.ofNat 5 b }).msi (p + 1) (s.ct p).qosvec.toNat
  else s1

/-- The end of a monitor's window, judged by its bins. -/
def State.qosEnd (s : State) (p m : Nat) : State := s.judge p m (Table.get {} (s.ct p).qos m).percentile

/-- A window of the monitor is full. -/
def Qos.full (m : Qos) : Bool := decide (m.window ≤ m.samples)

/-- A latency measured by the monitors of source `src` and number `id`; a monitor with BOUND = 0 is disabled. -/
def State.sample (s : State) (p src id lat : Nat) : List Nat → State
  | [] => s
  | m :: t =>
    let x := Table.get {} (s.ct p).qos m
    State.sample (if x.bound ≠ 0 ∧ x.src.toNat = src ∧ x.id.toNat = id then
        (if x.full then s.qosEnd p m else s).modQos p m fun x => { x with
          bins := Table.set x.bins (binOf lat) (Table.get (0 : BitVec 32) x.bins (binOf lat) + 1)
          samples := x.samples + 1 }
      else s) p src id lat t

/-- QOS_WINDOW_END: the window of monitor `m` holds 2^K samples (R376). The latencies that a monitor of edge-station reads has measured
by then are timing: its percentile lies in a bin that is a free value (DESIGN CHOICE, log 68). -/
def execQosWindowEnd (p m : Nat) (s : State) : Host.Outcome State Fault Refusal :=
  let x := Table.get {} (s.ct p).qos m
  if x.full then .next (s.qosEnd p m)
  else if x.src = 1 ∧ x.bound ≠ 0 then
    .next ({ s with freeCount := s.freeCount + 1 }.judge p m (Config.freeNat s.freeCount % 32))
  else .next s

/-! ## Completion -/

/-- An activation carries the tag. -/
def Core.tagged (c : Core) (t : QTag) : Bool :=
  c.slots.any (fun e => e.2.st != .free && e.2.life.tag == some t) || c.moved.any (fun x => x.2.life.tag == some t)

/-- A stream's end-of-stream message carries the tag. -/
def Stream.tagged (f : Stream) (t : QTag) : Bool := f.eos.any fun m => m.tag == some t

/-- A message that waits at the core carries the tag. -/
def Core.queuedTag (c : Core) (t : QTag) : Bool :=
  c.inq.any fun e => (e.2.q ++ e.2.div ++ e.2.ovf).any (fun m => m.tag == some t)
    || e.2.stream.any (·.tagged t) || e.2.again.any (·.tagged t)

/-- A message in transit carries the tag. -/
def Flight.tagged (f : Flight) (t : QTag) : Bool :=
  match f with
  | .msg _ m _ => m.tag == some t
  | _ => false

/-- Output-buffer messages are their activation's, which carries the tag too. No activation and no message carries the tag (R371). -/
def State.quiet (s : State) (t : QTag) : Bool :=
  !(s.cores.any fun e => e.2.tagged t || e.2.queuedTag t) && !(s.flight.any fun f => f.tagged t)
    && !((s.part t.part).saved.any fun e => e.2.tagged t || e.2.queuedTag t)

/-- STATE of the partition that an administrative command names. -/
def State.stateOf (s : State) (ws : List Word) : Nat := (s.part (argBits ws 2 11 0)).pre.state.toNat

/-- A command under way has come to its end (R371). -/
def State.finished (s : State) (p q : Nat) (ws : List Word) : Bool :=
  let u := s.queue p q
  match opOf ws with
  | 0x01 => s.quiet ⟨p, q, u.ncmd⟩
  | 0x02 => argOf ws 4 == BitVec.ofNat 64 u.done
  | 0x42 => u.done == 2 && s.stateOf ws == 0
  | 0x43 => u.done == 2 && s.stateOf ws == 0
  | 0x44 => s.stateOf ws == 4
  | 0x45 => s.stateOf ws == 0
  | 0x48 => (s.part (argBits ws 2 11 0)).late.isEmpty
  | _ => true

/-- The status with which a command is to be completed now, if it is (R371, R372): a wait that returned poisoned ends it with 6, and
one that has run, a context of which was killed on a fault, with 1 (R388). -/
def State.completing (s : State) (p q : Nat) : Option (List Word × Nat) :=
  let u := s.queue p q
  match u.cmd with
  | none => none
  | some ws =>
    if !s.serving p then none
    else if u.phase = 4 then some (ws, u.status)
    else if u.phase = 2 ∧ u.poisoned then some (ws, 6)
    else if u.phase = 3 ∧ s.finished p q ws then some (ws, if u.faulted then 1 else 0)
    else none

/-- STATUS written into word 7 of the entry (R371). -/
def State.putStatus (s : State) (p va st : Nat) : State :=
  s.agentWrite (Nat.min p 4096) va (leBytes 8 st)

/-- SIGEV signalled, but for status 4, and the queue's obligation discharged, where it holds one (R372, R388). -/
def State.paySigEv (s : State) (p q : Nat) (ws : List Word) (st : Nat) : State :=
  if 4096 ≤ p ∨ st = 4 ∨ sigEv ws = 0xFFFF then s
  else
    let s1 := s.signal p (sigEv ws) 1 (st != 0)
    if (s.queue p q).owes then s1.modQueueCore p fun c => c.discharge (queueHolder q) (sigEv ws) 1 else s1

/-- The resize notices that follow the resume of a GROW or a SHRINK (R374). -/
def State.afterCommand (s : State) (ws : List Word) (st : Nat) : State :=
  if st = 0 ∧ (opOf ws = 0x42 ∨ opOf ws = 0x43) then
    let p := argBits ws 2 11 0
    s.post31 (BitVec.ofNat 64 (4 * 2 ^ 56 + s.partTiles p % 65536)) (s.newtsOfPart p)
  else s

/-- Step 3 of R372: STATUS, then SIGEV, then QHEAD, then QVEC; the progress counter advances and the latency is sampled. -/
def State.complete (s : State) (p q : Nat) (ws : List Word) (st : Nat) : State :=
  let u := s.queue p q
  let s1 := (s.afterCommand ws st).putStatus p (u.entryAt u.head + 56) st
  let s2 := (s1.paySigEv p q ws st).modQueue p q fun u => { u with
    head := u.head + 1
    cmd := none
    phase := 0
    poisoned := false
    owes := false }
  let s3 := if notify ws then s2.queueMsi p q else s2
  if 4096 ≤ p then s3
  else (s3.progress (some ⟨p, q, u.ncmd⟩)).sample p 0 q (s.cycle - u.bell) (List.range 16)

/-- COMMAND_COMPLETE: the command of queue `q` that has come to its end is completed (R372, R388). A poisoned wait gives the queue
its obligation at that return. -/
def execCommandComplete (p q : Nat) (s : State) : Host.Outcome State Fault Refusal :=
  match s.completing p q with
  | none => .next s
  | some (ws, st) =>
    let u := s.queue p q
    if p < 4096 ∧ s.agentDelayed p (u.entryAt u.head + 56) 2 8 then .next s
    else .next ((if st = 6 then s.takeSigEv p q ws else s).complete p q ws st)

/-! ## The watchdog (R341) -/

/-- The watchdog registers of a queue changed by `f`. -/
def State.modWd (s : State) (p q : Nat) (f : QWd → QWd) : State :=
  s.modPart p fun x => { x with wd := Table.set x.wd q (f (Table.get {} x.wd q)) }

/-- QUEUE_STALL_EXPIRY: PROG has not changed for PERIOD × 65,536 cycles with a command in flight: stage 1, and pre-empt pending is
set (R341). -/
def execQueueStallExpiry (p q : Nat) (s : State) : Host.Outcome State Fault Refusal :=
  let w := Table.get {} (s.part p).wd q
  if p < 4096 ∧ w.period ≠ 0 ∧ (s.queue p q).phase ≠ 0 ∧ w.stage = 0 ∧ w.since + w.period.toNat * 65536 ≤ s.cycle then
    .next ((s.modWd p q fun w => { w with stage := 1, since := s.cycle }).pend p)
  else .next s

/-- The contexts that carry a queue's tag. -/
def State.taggedContexts (s : State) (p q : Nat) : List (Nat × Nat) :=
  s.cores.flatMap fun e => (e.2.slots.filter fun x => x.2.st != .free && x.2.life.tag.any fun t => t.part == p && t.q == q).map
    fun x => (e.1, x.1)

/-- Activations that a notice has moved out of their slot killed, where they carry a queue's tag. -/
def State.killMovedTagged (s : State) (p q : Nat) : List Nat → State
  | [] => s
  | k :: t =>
    State.killMovedTagged (match (s.core k).moved with
      | some (_, a) => if a.life.tag.any fun t => t.part == p && t.q == q then s.killMovedLogged k else s
      | none => s) p q t

/-- A table with the entries of another put over it. -/
def overlay {α : Type} (t u : Table α) : Table α := u.foldl (fun t e => Table.set t e.1 e.2) t

/-- The listed cores of tiles, and the other ones. -/
def State.coresOn (s : State) (ts : List Nat) (on : Bool) : Table Core := s.cores.filter fun e => ts.contains (tileOf e.1) == on

/-- A partition whose tiles a SWAP has taken put back as it was saved while `f` acts on it, and saved again (R341, R351). -/
def State.withSaved (s : State) (p : Nat) (f : State → State) : State :=
  let ts := s.tilesOf p
  let x := s.part p
  let back (s : State) (t : Nat) : State := s.modTile t fun y =>
    { y with owner := some p, svc := { y.svc with held := Table.get [] x.savedHeld t } }
  let s1 := f (ts.foldl back { s with cores := overlay (s.coresOn ts false) x.saved })
  let s2 := s1.modPart p fun y => { y with
    saved := s1.coresOn ts true
    savedHeld := ts.map fun t => (t, (s1.tile t).svc.held) }
  let live (s0 : State) (t : Nat) : State := s0.modTile t fun y =>
    { y with owner := (s.tile t).owner, svc := { y.svc with held := (s.tile t).svc.held } }
  ts.foldl live { s2 with cores := overlay (s2.coresOn ts false) (s.coresOn ts true) }

/-- A queue's waiter removed. -/
def State.unwaitQueue (s : State) (p q : Nat) : State :=
  { s with events := s.events.map fun e =>
      if e.1 / 65536 = p then (e.1, { e.2 with waiters := e.2.waiters.filter fun w => w.1 != .queue q }) else e }

/-- The command in service of a queue that is killed completes with status 2 (R341); an entry that was rejected when it was read keeps
status 4 (R388; DEDUCED, log 40). -/
def State.killCommand (s : State) (p q : Nat) : State :=
  let u := s.queue p q
  match u.cmd with
  | some ws => s.complete p q ws (if u.phase = 4 ∧ u.status = 4 then 4 else 2)
  | none => s

/-- Every context with a queue's tag killed on its core (R341). -/
def State.killLiveTagged (s : State) (p q : Nat) : State :=
  (s.killAll (s.taggedContexts p q)).killMovedTagged p q (s.cores.map (·.1))

/-- Every context with a queue's tag killed, on its core or as it was saved with it (R341). -/
def State.killTagged (s : State) (p q : Nat) : State :=
  if (s.part p).pre.given then s.killLiveTagged p q else s.withSaved p fun s => s.killLiveTagged p q

/-- PREEMPT_TIMEOUT: the save has not completed in PTMO × 4,096 cycles: every context with the queue's tag is killed, its command
completes with status "killed", and the vector is raised (R341). -/
def execPreemptTimeout (p q : Nat) (s : State) : Host.Outcome State Fault Refusal :=
  let w := Table.get {} (s.part p).wd q
  if p < 4096 ∧ w.stage = 1 ∧ (s.queue p q).phase ≠ 0 ∧ w.since + w.ptmoCycles ≤ s.cycle then
    let s1 := (s.killTagged p q).unwaitQueue p q
    .next (((s1.killCommand p q).modWd p q fun w => { w with stage := 3, killed := true }).queueMsi p q)
  else .next s

/-- PLACEMENT_DEADLINE: a CREATE of any node, or a LAUNCH, that has not been placed before its deadline in µs completes with status
3 (R363, R371); 1,700 cycles are one µs. -/
def execPlacementDeadline (p q : Nat) (s : State) : Host.Outcome State Fault Refusal :=
  let u := s.queue p q
  match u.cmd with
  | none => .next s
  | some ws =>
    let placed := opOf ws == 0x01 || (opOf ws == 0x40 && argOf ws 2 == 0)
    if placed ∧ u.phase = 2 ∧ !u.poisoned ∧ deadlineOf ws ≠ 0 ∧ u.began + deadlineOf ws * 1700 ≤ s.cycle then
      .next ((s.takeSigEv p q ws).endCmd p q 3)
    else .next s

end Sys2Proof.Machine
end

