-- ==== Sys2Proof/Machine/Commands.lean ====
section
/-! DEFINITION. The commands of a partition's queues (R308, R363, R371, R372, R386): LAUNCH, COPY and MARK. A step that is not due
changes nothing. -/

namespace Sys2Proof.Machine

/-! ## LAUNCH -/

/-- Bytes read at level S of partition `p`, line by line; `fuel` bounds the lines. -/
def State.fwReadAll (s : State) (p va : Nat) : Nat → Nat → FwRead
  | 0, _ => .ok [] s
  | _, 0 => .ok [] s
  | fuel + 1, n =>
    let m := Nat.min n (256 - va % 256)
    match s.fwRead p va m with
    | .ok bs s1 =>
      match State.fwReadAll s1 p (va + m) fuel (n - m) with
      | .ok cs s2 => .ok (bs ++ cs) s2
      | r => r
    | r => r

/-- What the read of a launch image comes to. -/
inductive ImageRead where
  | ok (im : Config.LaunchImage) (s : State)
  | held
  | bad (s : State)

/-- The launch image at an address: its first 64 bytes tell its length (log 41). -/
def State.readImage (s : State) (p va : Nat) : ImageRead :=
  match s.fwReadAll p va 2 64 with
  | .held => .held
  | .bad s1 => .bad s1
  | .ok h s1 =>
    let n := (Config.imageLength h).toNat
    match s1.fwReadAll p va (n / 256 + 2) n with
    | .held => .held
    | .bad s2 => .bad s2
    | .ok bs s2 => .ok (Config.image bs) s2

/-- The tiles that a LAUNCH names, by position in the partition. -/
def launchTiles (first : Nat) (ws : List Word) : List Nat :=
  (List.range (argBits ws 3 31 16)).map (first + argBits ws 3 15 0 + ·)

/-- The newts that a LAUNCH names on a tile. -/
def launchNewts (ws : List Word) (t : Nat) : List Nat :=
  ((List.range 32).filter fun l => (argOf ws 4).getLsbD l).map (t * 32 + ·)

/-- Tokens held on a tile by newts that are not named (R277). -/
def State.tokensOfOthers (s : State) (t : Nat) (named : List Nat) : Nat :=
  sumBy (fun k => if named.contains k then 0 else (s.core k).ctl.draw) (newtsOf t)

/-- The draw tokens of a launch fit in a budget of a tile (R277). -/
def State.tokensFit (s : State) (ws : List Word) (m t : Nat) : Bool :=
  let ks := launchNewts ws t
  decide (s.tokensOfOthers t ks + m * ks.length ≤ (s.tile t).budget)

/-- Every event of an image either does not exist or has the image's rank (R372), and none is to have the rank that means none (R59). -/
def State.eventsFit (s : State) (p : Nat) (es : List (Nat × BitVec 20)) : Bool :=
  es.all fun e => e.2 != 0xFFFFF && match s.event p e.1 with
    | some x => x.rank == e.2
    | none => true

/-- No channel that an image binds has the rank that means none (R59). A launch whose image asks for such a rank, of an event or of a
channel, raises no fault 0x0C, which is an instruction's: it is refused with status 5 (DESIGN CHOICE, log 41). -/
def chansFit (cs : List (Nat × Word × Word × Word)) : Bool :=
  cs.all fun e => !(Chan.ofWords e.2.1 e.2.2.1 e.2.2.2).valid || (Chan.ofWords e.2.1 e.2.2.1 e.2.2.2).rank != 0xFFFFF

/-- The events of an image created, those that exist adopted (R258, R318, R372). -/
def State.createEvents (s : State) (p : Nat) : List (Nat × BitVec 20) → State
  | [] => s
  | (n, r) :: t =>
    State.createEvents (if (s.event p n).isSome ∨ 0xFFFF ≤ n then s
      else { s with events := Table.set s.events (evKey p n) { rank := r } }) p t

/-- Handler-table entries of the declared channels (R372). -/
def Core.loadChans (c : Core) : List (Nat × Word × Word × Word) → Core
  | [] => c
  | (ch, w0, w1, w2) :: t => Core.loadChans (if ch < 32 then c.setChan ch (Chan.ofWords w0 w1 w2) else c) t

/-- The tag of a well's granule: its K and P, with Z = 1 (R317). -/
def Local.loadWell (l : Local) (g : Nat) (k p : Bool) : Nat → Local
  | 0 => l
  | n + 1 => Local.loadWell (if g < 256 then l.setTag g { p := p, k := k } else l) (g + 1) k p n

/-- The well tags of an image (R317, R372). -/
def Local.loadWells (l : Local) : List (Nat × Nat × Bool × Bool) → Local
  | [] => l
  | (g, n, k, p) :: t => Local.loadWells (l.loadWell g k p n) t

/-- A newt named by a launch: channels, well tags and tokens loaded, SEQ and the round-robin pointers at their launch values (R42,
R44, R277, R372). -/
def Core.launched (c : Core) (im : Config.LaunchImage) : Core :=
  let c1 := c.loadChans im.chans
  { c1 with
    ls := c1.ls.loadWells im.wells
    ctl := { c1.ctl with draw := im.tokens, seq := 0, last := [] } }

/-- The launch message of a newt (R308): the rank band and the argument word, sent in the queue's partition. -/
def launchMsg (src k : Nat) (ws : List Word) (t : QTag) : Msg :=
  { Msg.make (BitVec.ofNat 64 (k % 0x100000 + argBits ws 4 36 32 * 2 ^ 20)) 16 [argOf ws 5, argOf ws 6] src [] (some t) with
    part := some t.part }

/-- A tile of a launch: its named newts loaded, its read-only buffer emptied by `roinv`. -/
def State.launchTile (s : State) (im : Config.LaunchImage) (ws : List Word) (t : Nat) : State :=
  ((launchNewts ws t).foldl (fun s k => s.modCore k fun c => c.launched im) s).modTile t fun x => { x with ro := [] }

/-- Firmware admits the cool RETN class: every tile of the partition reports at most 70 °C (R29). Whether it wants the class is a free
value (log 95). -/
def State.admitsCool (s : State) (p : Nat) : Bool :=
  Config.coolClass p && (s.tilesOf p).all fun t => decide (Config.junction t s.cycle ≤ 70)

/-- The draw budgets of tiles brought to what firmware holds ready (R25). -/
def State.applyBudgets (s : State) : List Nat → State
  | [] => s
  | t :: ts =>
    let b := s.nextBudget t
    State.applyBudgets (s.modTile t fun x => { x with budget := b }) ts

/-- A launch boundary of the partition (R25, R29, R82): the draw budgets that firmware holds ready take effect, firmware writes RETN for
its class, and a clamp ends. -/
def State.launchBoundary (s : State) (p : Nat) : State :=
  let retn : BitVec 11 := if s.admitsCool p then 2047 else 1024
  ((s.applyBudgets (s.tilesOf p)).modPart p fun x => { x with clamped := [], retn := retn }).settleLimit

/-- A LAUNCH whose checks have passed (R372). -/
def State.launchAll (s : State) (p q : Nat) (ws : List Word) (im : Config.LaunchImage) : State :=
  let first := s.partFirst p
  let ts := launchTiles first ws
  let s1 := (ts.foldl (fun s t => s.launchTile im ws t) (s.launchBoundary p)).createEvents p im.events
  let tag : QTag := ⟨p, q, (s.queue p q).ncmd⟩
  let ms : List Flight := (ts.flatMap (launchNewts ws)).map fun k => .msg k (launchMsg (svcOf first) k ws tag) none
  { s1 with flight := s1.flight ++ ms }

/-- The tile range of a LAUNCH, and the save area, are as R371 and R373 ask. -/
def State.launchRange (s : State) (p : Nat) (ws : List Word) : Bool :=
  argBits ws 3 31 16 != 0 && decide (argBits ws 3 15 0 + argBits ws 3 31 16 ≤ s.partTiles p) && (s.part p).savebase != 0

/-- LAUNCH: all checks first, then handler entries, tags, events and tokens, then the launch messages (R308, R371 to R373). -/
def execLaunch (p q : Nat) (s : State) : Host.Outcome State Fault Refusal :=
  match s.command p q 0x01 2 with
  | none => .next s
  | some ws =>
    let s0 := s.begin_ p q ws
    if !s.launchRange p ws then .next (s0.endCmd p q 5)
    else
      match s0.readImage p (argOf ws 2).toNat with
      | .held => .next s
      | .bad s1 => .next (s1.endCmd p q 1)
      | .ok im s1 =>
        if (launchTiles (s.partFirst p) ws).all ((s1.launchBoundary p).tokensFit ws im.tokens) ∧ s1.eventsFit p im.events ∧
            chansFit im.chans then
          .next (s1.launchAll p q ws im)
        else .next (s1.endCmd p q 5)

/-! ## COPY -/

/-- A sector of a COPY performed where it goes (R168, R371). -/
def State.copyPut (s : State) (p : Nat) (d : Dest) (dst pa home : Nat) (bs : List Byte) : State :=
  match d with
  | .dev => s.devStore { chunk := 0, dest := .dev, va := BitVec.ofNat 64 dst, pa := pa, home := home, data := bs }
  | _ => s.putGlobal agentKey (some p) d dst pa home bs

/-- The next 32 bytes of a COPY under way (R371, R386): read and written at the homes, each as the pump's global accesses are. -/
def State.copySector (s : State) (p q : Nat) (ws : List Word) : State :=
  let n := (s.queue p q).done
  let src := (argOf ws 2).toNat + n
  let dst := (argOf ws 3).toNat + n
  match s.fwRead p src 32 with
  | .held => s
  | .bad s1 => s1.endCmd p q 1
  | .ok bs s1 =>
    match s1.xlate p (s.partFirst p) 1 .store dst with
    | (.fault .., s2) => s2.endCmd p q 1
    | (.ok pa home d, s2) =>
      if s2.writeDelayed agentKey home (lineOf dst) then s
      else (s2.copyPut p d dst pa home bs).modQueue p q fun u => { u with done := u.done + 32 }

/-- COPY: begun, then carried on 32 bytes at a time until its length is done (R371). -/
def execCopy (p q : Nat) (s : State) : Host.Outcome State Fault Refusal :=
  match s.command p q 0x02 2, s.command p q 0x02 3 with
  | some ws, _ => .next ((s.begin_ p q ws).copySector p q ws)
  | none, some ws => if (s.queue p q).done < (argOf ws 4).toNat then .next (s.copySector p q ws) else .next s
  | none, none => .next s

/-! ## MARK -/

/-- MARK: nothing to do; it completes at once (R371). -/
def execMark (p q : Nat) (s : State) : Host.Outcome State Fault Refusal :=
  match s.command p q 0x03 2 with
  | some ws => .next (s.begin_ p q ws)
  | none => .next s

end Sys2Proof.Machine
end

