-- ==== Sys2Proof/Machine/Admin.lean ====
section
/-! DEFINITION. The commands of the administrative queue (R107, R345, R353, R361 to R363, R371, R373, R378): CREATE, DESTROY, GROW,
SHRINK, PREEMPT, RESUME, GRANT, CONFIG and REPLAY. A step that is not due changes nothing. -/

namespace Sys2Proof.Machine

/-- The administrative queue's number. -/
def adminQ : Nat := 4096

/-- The administrative command of operation `op` to be performed, or under way. -/
def State.adminCmd (s : State) (op phase : Nat) : Option (List Word) := s.command adminQ 0 op phase

/-- An administrative command begun. -/
def State.adminBegin (s : State) (ws : List Word) : State := s.begin_ adminQ 0 ws

/-- An administrative command ended with a status. -/
def State.adminEnd (s : State) (status : Nat) : State := s.endCmd adminQ 0 status

/-- How far an administrative command of several stages has come. -/
def State.adminStage (s : State) (n : Nat) : State := s.modQueue adminQ 0 fun u => { u with done := n }

/-- An administrative command performed in one step: `f` answers its status, or none while it cannot be placed yet. -/
def State.adminRun (s : State) (op : Nat) (f : List Word → State → Option (Nat × State)) : State :=
  match s.adminCmd op 2 with
  | none => s
  | some ws =>
    match f ws (s.adminBegin ws) with
    | none => s
    | some (0, s1) => s1
    | some (n, s1) => s1.adminEnd n

/-- The partition that a command names. -/
def partArg (ws : List Word) : Nat := argBits ws 2 11 0

/-! ## CREATE and DESTROY -/

/-- The nodes of an order, ascending (R360). -/
def nodesOf (order : Nat) : List Nat := (List.range (2 ^ (12 - order))).map (2 ^ (12 - order) + ·)

/-- The queues of a new partition, with their kinds (R370, R371). -/
def newQueues (kinds : Word) : Table Queue :=
  (List.range 64).map fun q => (q, { copy := kinds.getLsbD q })

/-- Tiles given to a partition. -/
def State.giveTiles (s : State) (p : Nat) : List Nat → State
  | [] => s
  | t :: ts => State.giveTiles (s.giveTile p t) p ts

/-- The tiles of a node. -/
def tilesOfNode (n : Nat) : List Nat := (List.range (nodeTiles n)).map (nodeFirst n + ·)

/-- The key pair of a confidential partition generated: a free value that only the edge stations' engines hold (R379). -/
def State.makeKey (s : State) (p : Nat) : State :=
  { s with freeCount := s.freeCount + 1, phys := { s.phys with keys := Table.set s.phys.keys p (Config.key s.freeCount) } }

/-- A new partition on a node (R94, R361, R364, R379). Its control block keeps what the host has written there before (R377; DESIGN
CHOICE, log 94). -/
def State.createPart (s : State) (n p : Nat) (ws : List Word) : State :=
  let s1 := (s.resetTiles (tilesOfNode n)).ownNode n p
  let conf := (argOf ws 3).getLsbD 0
  let x : Part := { node := n, conf := conf, queues := newQueues (argOf ws 4) }
  let s2 := if conf then s1.makeKey p else s1
  State.giveTiles { s2 with parts := Table.set s2.parts p x } p (tilesOfNode n)

/-- The node on which a CREATE places its partition (R361, R363): the one it names, or the lowest free one of its order. -/
def State.placeNode (s : State) (ws : List Word) : Option Nat :=
  let n := (argOf ws 2).toNat
  if n ≠ 0 then (if s.nodeFree n then some n else none)
  else if 12 < (argOf ws 6).toNat then none
  else (nodesOf (argOf ws 6).toNat).find? s.nodeFree

/-- CREATE: word 5 gives the PARTID, and word 6 the order where word 2 names node 0 (R361, R363; DESIGN CHOICE, log 43). A request
for any node waits until its deadline while none is free. -/
def execCreate (s : State) : Host.Outcome State Fault Refusal :=
  .next (s.adminRun 0x40 fun ws s =>
    let p := (argOf ws 5).toNat
    if 4096 ≤ p ∨ has s.parts p then some (5, s)
    else
      match s.placeNode ws with
      | some n => some (0, s.createPart n p ws)
      | none => if argOf ws 2 = 0 ∧ (argOf ws 6).toNat ≤ 12 ∧ deadlineOf ws ≠ 0 then none else some (5, s))

/-- Every context of a partition: core and slot. -/
def State.contextsOf (s : State) (p : Nat) : List (Nat × Nat) :=
  (s.coresOfPart p).flatMap fun k => ((s.core k).slots.filter fun e => e.2.st != .free).map fun e => (k, e.1)

/-- Activations moved out of their slot killed. -/
def State.killMovedAll (s : State) : List Nat → State
  | [] => s
  | k :: t => State.killMovedAll (s.killMovedLogged k) t

/-- Frames granted back to the free pool (R378). -/
def State.freeFrames (s : State) : List Nat → State
  | [] => s
  | f :: t => State.freeFrames (s.grantFrame agentKey f 0) t

/-- What obligations the cores of a partition still have, those of messages that can no longer be delivered among them, discharged
poisoned (R70, R71). -/
def State.loseAll (s : State) (p : Nat) : List Nat → State
  | [] => s
  | k :: t =>
    let c := s.core k
    State.loseAll ((s.setCore k { c with obl := [], spilt := [] }).dischargePoisoned p (c.obl ++ c.spilt)) p t

/-- Everything of the partition that lies outside its tiles dropped, what it has in transit and notices to its tiles among it; its control
block stays, without collectives (log 94). -/
def State.forgetPart (s : State) (p : Nat) : State :=
  { s with
    events := s.events.filter fun e => e.1 / 65536 != p
    bars := s.bars.filter fun b => b.part != p
    parts := drop s.parts p
    blocks := s.blocks.map fun e => if e.1 = p then (e.1, { e.2 with coll := [] }) else e
    phys := { s.phys with keys := drop s.phys.keys p }
    late := s.late.filter fun w => w.part != p
    net := s.net.filter fun q => q.2.part != p
    flight := s.flight.filter fun f => match f.part with
      | some q => q != p
      | none => !((s.part p).pre.given && (s.tilesOf p).any f.toTile)
    host := { s.host with faultq := s.host.faultq.filter fun r => r.part != p } }

/-- A partition destroyed (R94, R336, R361, R378, R398). A partition whose tiles a SWAP has released gives none back. -/
def State.destroyPart (s : State) (p : Nat) : State :=
  let ts := s.tilesOf p
  let n := (s.part p).node
  let given := (s.part p).pre.given
  let kill (s : State) : State := ((s.killMovedAll (s.coresOfPart p)).killAll (s.contextsOf p)).loseAll p (s.coresOfPart p)
  let s1 := if given then kill (s.lastSweep p) else s.withSaved p kill
  let fs := (s1.phys.owner.filter fun e => e.2 == p + 1).map (·.1)
  let s2 := (s1.freeFrames fs).forgetPart p
  if given then (s2.resetTiles ts).freeNode n else s2

/-- DESTROY (R361). -/
def execDestroy (s : State) : Host.Outcome State Fault Refusal :=
  .next (s.adminRun 0x41 fun ws s =>
    if has s.parts (argOf ws 2).toNat then some (0, s.destroyPart (argOf ws 2).toNat) else some (5, s))

/-! ## GROW and SHRINK (R361, R362) -/

/-- The partition held, for a GROW or a SHRINK (R350, R361). -/
def State.hold (s : State) (p : Nat) : State :=
  (s.modPart p fun x => { x with pre := { x.pre with mode := false } }).setPre p 1

/-- The obligations of a partition's queues move to the service core of its first tile, when that changes (R61, R362). -/
def State.moveQueueObls (s : State) (a b : Nat) : State :=
  if a = b then s
  else
    let mine (o : Obl) : Bool := decide (64 ≤ o.holder)
    let c := s.core (svcOf a)
    let os := (c.obl ++ c.spilt).filter mine
    (s.setCore (svcOf a) (Core.unspillAll { c with obl := c.obl.filter (!mine ·), spilt := c.spilt.filter (!mine ·) }
      c.spilt.length)).modCore (svcOf b) fun d =>
      os.foldl Core.newObl d

/-- A held partition given another node (R361, R362): event homes follow from the tile count. -/
def State.moveNode (s : State) (p n : Nat) : State :=
  (s.modPart p fun x => { x with node := n }).moveQueueObls (s.partFirst p) (nodeFirst n)

/-- The sibling of a node (R360). -/
def siblingOf (n : Nat) : Nat := if n % 2 = 0 then n + 1 else n - 1

/-- GROW performed in STATE 4: the parent becomes the partition's, the sibling's tiles are zeroed. -/
def State.growPart (s : State) (p : Nat) : State :=
  let n := (s.part p).node
  let ts := tilesOfNode (siblingOf n)
  let s1 := s.resetTiles ts
  let s2 := { s1 with nodes := Table.set (drop (drop s1.nodes n) (siblingOf n)) (n / 2) (.owned p) }
  (s2.giveTiles p ts).moveNode p (n / 2)

/-- GROW: held first, then performed, then resumed (R361, R362, R374). -/
def State.grow (s : State) : State :=
  match s.adminCmd 0x42 2, s.adminCmd 0x42 3 with
  | some ws, _ =>
    let p := (argOf ws 2).toNat
    let n := (s.part p).node
    let s1 := s.adminBegin ws
    if has s.parts p ∧ 2 ≤ n ∧ (s.part p).pre.state = 0 ∧ find s.nodes (siblingOf n) = some .free ∧ s.nodeReady (siblingOf n) then
      (s1.hold p).adminStage 1
    else s1.adminEnd 5
  | none, some ws =>
    let p := (argOf ws 2).toNat
    if (s.queue adminQ 0).done = 1 ∧ (s.part p).pre.state = 4 then ((s.growPart p).resumeStart p).adminStage 2 else s
  | none, none => s

/-- GROW. -/
def execGrow (s : State) : Host.Outcome State Fault Refusal := .next s.grow

/-- A core of a released half is idle (R361): no occupied slot, obligation, queued word, or diverted message. -/
def Core.idleHalf (c : Core) : Bool :=
  c.slots.all (fun e => e.2.st == .free) && c.moved.isNone && c.obl.isEmpty && c.spilt.isEmpty
    && c.inq.all fun e => e.2.q.isEmpty && e.2.part.isEmpty && !e.2.diverted

/-- A half is idle: its cores, and no held fault context on its service cores (R361). -/
def State.halfIdle (s : State) (ts : List Nat) : Bool :=
  s.cores.all (fun e => !ts.contains (tileOf e.1) || e.2.idleHalf) && ts.all fun t => (s.tile t).svc.held.isEmpty

/-- SHRINK performed in STATE 4: cisterns write back, a final sweep shows the counters of all tiles (R398), the released half is zeroed and
free, and the kept child is the partition's. -/
def State.shrinkPart (s : State) (p keep : Nat) : State :=
  let ts := tilesOfNode (siblingOf keep)
  let s1 := ((s.writeBackAll p).lastSweep p).resetTiles ts
  let s2 := { s1 with nodes := Table.set (Table.set (Table.set s1.nodes (keep / 2) .split) keep (.owned p)) (siblingOf keep) .free }
  s2.moveNode p keep

/-- SHRINK: word 3 bit 1 names the half released, 1 for the upper one (R361, R362, R371; DESIGN CHOICE, log 43). A busy half ends it
with status 5 after the partition has resumed. -/
def State.shrink (s : State) : State :=
  match s.adminCmd 0x43 2, s.adminCmd 0x43 3 with
  | some ws, _ =>
    let p := (argOf ws 2).toNat
    let s1 := s.adminBegin ws
    if has s.parts p ∧ (s.part p).node < 4096 ∧ (s.part p).pre.state = 0 then (s1.hold p).adminStage 1
    else s1.adminEnd 5
  | none, some ws =>
    let p := (argOf ws 2).toNat
    let n := (s.part p).node
    let keep := if (argOf ws 3).getLsbD 1 then 2 * n else 2 * n + 1
    if (s.queue adminQ 0).done = 1 ∧ (s.part p).pre.state = 4 then
      if s.halfIdle (tilesOfNode (siblingOf keep)) then ((s.shrinkPart p keep).resumeStart p).adminStage 2
      else (s.resumeStart p).adminStage 3
    else if (s.queue adminQ 0).done = 3 ∧ (s.part p).pre.state = 0 then s.adminEnd 5
    else s
  | none, none => s

/-- SHRINK. -/
def execShrink (s : State) : Host.Outcome State Fault Refusal := .next s.shrink

/-! ## PREEMPT and RESUME (R345, R353, R371) -/

/-- PREEMPT: in STATE 0 pre-empt pending is set with the SWAP and HOLDT given (R345, R373). -/
def execPreempt (s : State) : Host.Outcome State Fault Refusal :=
  .next (s.adminRun 0x44 fun ws s =>
    let p := (argOf ws 2).toNat
    let swap := (argOf ws 3).getLsbD 0
    if !has s.parts p ∨ (s.part p).pre.state ≠ 0 ∨ (swap ∧ (s.part p).savebase = 0) then some (5, s)
    else
      some (0, State.pend (s.modPart p fun x => { x with pre := { x.pre with
        swap := swap
        holdt := (argOf ws 3).extractLsb' 32 16 } }) p))

/-- The tiles of a swapped partition given back to it, where its node is free (R353). -/
def State.giveBack (s : State) (p : Nat) : State :=
  let n := (s.part p).node
  if s.nodeFree n then (s.ownNode n p).modPart p fun x => { x with pre := { x.pre with given := true } } else s

/-- RESUME: in STATE 4 the partition is resumed, on the same tiles (R353, R371). -/
def execResume (s : State) : Host.Outcome State Fault Refusal :=
  .next (s.adminRun 0x45 fun ws s =>
    let p := (argOf ws 2).toNat
    if !has s.parts p ∨ (s.part p).pre.state ≠ 4 then some (5, s)
    else
      let s1 := if (s.part p).pre.given then s else s.giveBack p
      some (if (s1.part p).pre.given then 0 else 5, s1.resumeStart p))

/-! ## GRANT (R378) -/

/-- A frame in the free pool that may be granted (R27, R378). -/
def State.grantable (s : State) (f : Nat) : Bool :=
  Table.get 0 s.phys.owner f == 0 && s.stationsReady f

/-- The lowest `n` grantable frames among `fuel` frames from `f` on, or none where there are fewer. -/
def State.pickFrames (s : State) (f n : Nat) : Nat → Option (List Nat)
  | 0 => if n = 0 then some [] else none
  | fuel + 1 =>
    if n = 0 then some []
    else if s.grantable f then (State.pickFrames s (f + 1) (n - 1) fuel).map (f :: ·)
    else State.pickFrames s (f + 1) n fuel

/-- The first frame of a tier, and its frames (R102). -/
def tierFrames (far : Bool) : Nat × Nat :=
  if far then (0x100000000, Config.farBytes / 65536) else (0, Config.nearBytes / 65536)

/-- Frames placed in a partition's pool (R155, R378). -/
def State.grantAll (s : State) (p : Nat) : List Nat → State
  | [] => s
  | f :: t => State.grantAll ((s.grantFrame agentKey f (p + 1)).modPart p fun x => { x with pool := x.pool ++ [f] }) p t

/-- GRANT (R378). -/
def execGrant (s : State) : Host.Outcome State Fault Refusal :=
  .next (s.adminRun 0x46 fun ws s =>
    let p := (argOf ws 2).toNat
    let (f, n) := tierFrames ((argOf ws 4).getLsbD 0)
    match (if has s.parts p then s.pickFrames f (argOf ws 3).toNat n else none) with
    | some fs => some (0, s.grantAll p fs)
    | none => some (5, s))

/-! ## CONFIG (R373) -/

/-- Placement-window entries are as CONFIG asks: no reserved bit, and a valid window lies in the partition. -/
def State.windowsFit (s : State) (p : Nat) (es : List Word) : Bool :=
  es.all fun e => (e &&& ~~~windowMask) == 0 && (!e.getLsbD 63 || !s.windowBad p e.toNat)

/-- The values that a CONFIG is asked to write are legal in their registers. -/
def State.configFit (s : State) (ws : List Word) (wins : List Word) : Bool :=
  let f := argOf ws 2
  (!f.getLsbD 16 || (argOf ws 3 &&& ~~~ptrootMask) == 0) && (!f.getLsbD 17 || argBits ws 4 11 0 == 0)
    && (!f.getLsbD 18 || s.windowsFit (partArg ws) wins) && (!f.getLsbD 19 || argBits ws 6 11 0 == 0)

/-- Placement windows written one after another, as through PWSEL and PWDATA. -/
def State.writeWindows (s : State) (p i : Nat) : List Word → State
  | [] => s
  | e :: t =>
    State.writeWindows ((s.writePartCsr p 0x106 (BitVec.ofNat 64 i)).writePartCsr p 0x107 e) p (i + 1) t

/-- A value written where its flag is set. -/
def State.configOne (s : State) (ws : List Word) (flag arg csr : Nat) : State :=
  if (argOf ws 2).getLsbD flag then s.writePartCsr (partArg ws) csr (argOf ws arg) else s

/-- The window image of a CONFIG, read at its physical address; nothing where it is not asked for. -/
def State.configImage (s : State) (ws : List Word) : FwRead :=
  if (argOf ws 2).getLsbD 18 then s.physRead (argOf ws 5).toNat 256 else .ok [] s

/-- CONFIG (R373). -/
def execConfig (s : State) : Host.Outcome State Fault Refusal :=
  .next (s.adminRun 0x47 fun ws s =>
    let p := partArg ws
    if !has s.parts p ∨ ((s.part p).pre.state ≠ 0 ∧ (s.part p).pre.state ≠ 4) then some (5, s)
    else
      match s.configImage ws with
      | .ok bs s1 =>
        let wins := if bs.isEmpty then [] else wordsOf bs 32
        if s1.configFit ws wins then
          some (0, (((s1.configOne ws 16 3 0x105).configOne ws 17 4 0x104).writeWindows p 0 wins).configOne ws 19 6 0x108)
        else some (5, s1)
      | .bad s1 => some (5, s1)
      | .held => none)

/-! ## REPLAY (R107, R371) -/

/-- REPLAY: the contexts parked on a tile's records in a range are resumed or killed; while the partition is being saved or is saved
(STATE 3 and 4) it waits for the resume (R107, R357). -/
def execReplayCommand (s : State) : Host.Outcome State Fault Refusal :=
  .next (s.adminRun 0x48 fun ws s =>
    let p := partArg ws
    let t := argBits ws 2 26 12
    let x := (t, argBits ws 3 31 0, argBits ws 3 63 32, (argOf ws 4).getLsbD 0)
    if !has s.parts p then some (5, s)
    else if 3 ≤ (s.part p).pre.state.toNat ∧ (s.part p).pre.state.toNat ≤ 4 then
      some (0, s.modPart p fun y => { y with late := y.late ++ [x] })
    else some (0, s.replayRange p t x.2.1 x.2.2.1 x.2.2.2))

end Sys2Proof.Machine
end

