-- ==== Sys2Proof/Machine/Board.lean ====
section
/-! DEFINITION. The module as a whole: power-on, self-test and readiness (R26 to R28), temperature (R29, R82), the draw limit (R25),
and firmware images (R380). A step that is not due changes nothing. -/

namespace Sys2Proof.Machine

/-! ## Reset and readiness -/

/-- The module restarted: everything as State.reset has it; what outlives a reset is the firmware images with the fused minimum
version, and what the model itself keeps (R26, R380). -/
def State.restart (s : State) : State :=
  { State.reset with
    agenda := s.agenda
    freeCount := s.freeCount
    host := { State.reset.host with
      images := s.host.images
      minVersion := s.host.minVersion
      newSlot := s.host.newSlot } }

/-- POWER_ON: every function starts its self-test, and none is ready (R26). -/
def execPowerOn (s : State) : Host.Outcome State Fault Refusal := .next s.restart

/-- MODULE_RESET: CYCLE and FADE are zeroed, a new image takes effect on every tile as it reports ready again, and the functions that
failed are tested anew (R27, R81, R159, R380). -/
def execModuleReset (s : State) : Host.Outcome State Fault Refusal := .next s.restart

/-- The number of functions of a kind (R14, R20, R22). -/
def funcCount : Func → Nat
  | .tile => 32768
  | .station => 64
  | .eth => 32
  | .host => 2

/-- A function is ready (R26). -/
def State.isReady (s : State) : Func → Nat → Bool
  | .tile, i => (s.tile i).ready
  | .station, i => s.host.stations.contains i
  | .eth, i => s.host.eth.contains i
  | .host, i => s.host.ports.contains i

/-- A tile reports ready: its local stores, its cistern and its event store are zeroed, and its firmware has started from an accepted
image; the boot ROM has loaded FWROOT, whose value is a free value (R26, R366, R380). -/
def State.startTile (s : State) (t : Nat) (slotB : Bool) : State :=
  let root := Config.freeWord s.freeCount &&& 0x000FFFFFFFFF0000#64
  let s1 := (State.resetTile { s with freeCount := s.freeCount + 1 } t).startFirmware t slotB
  let s2 := s1.modTile t fun x => { x with ready := true, svc := { x.svc with fwroot := root } }
  { s2 with phys := { s2.phys with cis := s2.phys.cis.filter fun e => e.2.home != t } }

/-- A station reports ready: its DRAM is zeroed (R26). -/
def State.startStation (s : State) (i : Nat) : State :=
  { s with
    phys := { s.phys with dram := s.phys.dram.filter fun e => stationOf e.1 != i }
    host := { s.host with stations := insertNat i s.host.stations } }

/-- A function made ready; a tile only where an image is accepted from which its firmware starts (R26, R380). -/
def State.setReady (s : State) (f : Func) (i : Nat) : State :=
  match f with
  | .tile =>
    match s.bootSlot with
    | some b => s.startTile i b
    | none => s
  | .station => s.startStation i
  | .eth => { s with host := { s.host with eth := insertNat i s.host.eth } }
  | .host => { s with host := { s.host with ports := insertNat i s.host.ports } }

/-- A function that has failed its self-test is not ready; a tile then belongs to no partition, and what it holds stays as it is
(R27; DESIGN CHOICE, log 93). -/
def State.setFailed (s : State) (f : Func) (i : Nat) : State :=
  let s1 : State := { s with host := { s.host with failed := s.host.failed ++ [(f, i)] } }
  match f with
  | .tile => s1.modTile i fun x => { x with ready := false, owner := none }
  | .station => { s1 with host := { s1.host with stations := s1.host.stations.filter (· != i) } }
  | .eth => { s1 with host := { s1.host with eth := s1.host.eth.filter (· != i) } }
  | .host => { s1 with host := { s1.host with ports := s1.host.ports.filter (· != i) } }

/-- READY_REPORT: a function finishes its self-test; one that fails stays not ready until the next module reset (R26, R27). -/
def execReadyReport (f : Func) (i : Nat) (pass : Bool) (s : State) : Host.Outcome State Fault Refusal :=
  if funcCount f ≤ i ∨ s.host.failed.contains (f, i) then .next s
  else if pass then .next (if s.isReady f i then s else s.setReady f i)
  else .next (s.setFailed f i)

/-! ## Where things are (R20 to R22, R103) -/

/-- An edge of the mesh. -/
inductive Edge where
  | north | east | south | west
deriving DecidableEq, Repr

/-- The edge on which a station sits (R20). -/
def stationEdge (st : Nat) : Edge :=
  match st / 16 with
  | 0 => .north
  | 1 => .east
  | 2 => .south
  | _ => .west

/-- The x and y of the `j`-th of the 8 routers that a station attaches to (R20). -/
def attached (st j : Nat) : Nat × Nat :=
  match stationEdge st with
  | .north => (16 * st + j, 0)
  | .east => (255, 8 * (st - 16) + j)
  | .south => (16 * (st - 32) + j, 127)
  | .west => (0, 8 * (st - 48) + j)

/-- The router through which a request for a line leaves the mesh: PA[10:8] selects it (R20, R103). -/
def exitRouter (pa : Nat) : Nat × Nat := attached (stationOf pa) (bitsOf pa 10 8)

/-- The device of a station that holds a line of the near tier (R103). -/
def deviceOf (pa : Nat) : Nat := Nat.xor (bitsOf pa 14 14) (bitsOf pa 21 21)

/-- The station of an Ethernet port and that of a host port; an even station holds a slice of the network engine (R22). -/
def ethStation (p : Nat) : Nat := 2 * p
def hostStation (p : Nat) : Nat := if p = 0 then 8 else 40
def hasSlice (st : Nat) : Bool := st % 2 == 0

/-! ## Encryption (R21, R379) -/

/-- The 128-byte data unit number `x` as the DRAM stores it: with the tweak PA[51:7] and the key of a confidential partition that owns
its frame it is encrypted. `Phys.dram` is what the engines give back. -/
def State.storedUnit (s : State) (x : Nat) : BitVec 1024 :=
  let plain := BitVec.ofNat 1024 (s.phys.edge (x * 128) 128)
  match Table.get 0 s.phys.owner (x * 128 / 65536) with
  | 0 => plain
  | p + 1 =>
    match find s.phys.keys p with
    | some k => Config.xts k x plain
    | none => plain

/-! ## Temperature -/

/-- The tag of a granule on a tile that is clamped (R82 step 2). -/
def Tag.clamped (t : Tag) (fade : Nat) : Tag :=
  if t.expired fade then { t with x := true }
  else if t.z then t
  else
    let t1 : Tag := { t with expiry := t.expiry - 1023 }
    if t1.expired fade then { t1 with x := true } else t1

/-- The tags of the newts of tile `t` adjusted (R82 step 2). -/
def State.clampTile (s : State) (t : Nat) : State :=
  ((s.cores.filter fun e => !isSvc e.1 && tileOf e.1 == t).map (·.1)).foldl
    (fun s k => s.modLs k fun l => { l with tags := mapVals (fun g => g.clamped s.fade) l.tags }) s

/-- The word of a clamp notice (R374). -/
def clampWord (pos : Nat) : Word := BitVec.ofNat 64 (5 * 2 ^ 56 + pos % 4096 * 65536 + 1024)

/-- The clamp of tile `t` of partition `p` (R82): RETN and the notices at the first tile of a cool-class partition, the tags of every
tile that exceeds the limit, once each until the next launch. -/
def State.clamp (s : State) (t p : Nat) : State :=
  let x := s.part p
  if x.clamped.contains t then s
  else if x.clamped.isEmpty ∧ x.retn.toNat ≤ 1024 then s
  else
    let s1 := s.modPart p fun x => { x with retn := 1024, clamped := x.clamped ++ [t] }
    let s2 := s1.clampTile t
    if x.clamped.isEmpty then s2.post31 (clampWord (t - s.partFirst p)) (s2.newtsOfPart p) else s2

/-- THERMAL_CLAMP: a tile of a partition in the cool class exceeds 70 °C (R29, R82). -/
def execThermalClamp (t : Nat) (s : State) : Host.Outcome State Fault Refusal :=
  match s.tilePart t with
  | some p => .next (s.clamp t p)
  | none => .next s

/-- THERMAL_THROTTLE: above 95 °C firmware brings the tile's draw budget to 8, from the next launch boundary on, and then halts the
module (R25, R29). The manual does not say when a throttled budget may rise again: it stays at 8 until a module reset or power-on
(DESIGN CHOICE, log 42). -/
def execThermalThrottle (t : Nat) (halt : Bool) (s : State) : Host.Outcome State Fault Refusal :=
  let s1 := s.modTile t fun x => { x with want := 8 }
  .next (if halt then { s1 with halted := true } else s1)

/-! ## The draw limit -/

/-- The draw limit that firmware accepts (R24, R25): at least 8 tokens and at most 32 a tile, and above the default only with
high-flow coolant. -/
def limitOk (limit : Nat) (highFlow : Bool) : Bool :=
  decide (262144 ≤ limit) && decide (limit ≤ 1048576) && (decide (limit ≤ 524288) || highFlow)

/-- DRAW_LIMIT_CHANGE: the host administrator declares the coolant class and sets the limit (R25); it comes into force as soon as the
budgets of held tiles fit it. Of a change that is refused the manual says nothing more: where it comes without the high-flow class, a
standing limit above the default is taken down to 524,288 (DESIGN CHOICE, log 42). -/
def execDrawLimitChange (limit : Nat) (highFlow : Bool) (s : State) : Host.Outcome State Fault Refusal :=
  let s1 : State := { s with host := { s.host with
    highFlow := highFlow
    asked := if limitOk limit highFlow then limit
      else if highFlow then s.host.asked
      else Nat.min s.host.asked 524288 } }
  .next s1.settleLimit

/-! ## Firmware images (R380) -/

/-- FIRMWARE_IMAGE_INSTALL: an image is accepted only when both signatures verify and its version is at least the fused minimum; it
takes effect on a tile at its next change of owner, or at a module reset. -/
def execFirmwareImageInstall (slotB edOk mlOk : Bool) (version : Nat) (s : State) : Host.Outcome State Fault Refusal :=
  if edOk ∧ mlOk ∧ s.host.minVersion ≤ version then
    .next { s with host := { s.host with
      images := Table.set s.host.images (if slotB then 1 else 0) ⟨version, true⟩
      newSlot := slotB } }
  else .next s

/-- A tile's firmware has written no heartbeat within 100 ms of its start: 170,000,000 cycles (R4, R380). -/
def Svc.overdue (v : Svc) (cycle : Nat) : Bool :=
  decide (v.started + 170000000 ≤ cycle) && decide (v.started + 170000000 < v.beat)

/-- A tile returned to its other image slot (R339, R380): it is ready there where that image is accepted. An image without a heartbeat is
marked bad. -/
def State.rollback (s : State) (t : Nat) : State :=
  let v := (s.tile t).svc
  let s1 : State := if v.overdue s.cycle then
      { s with host := { s.host with
        images := Table.set s.host.images (if v.slotB then 1 else 0) { s.image v.slotB with accepted := false } } }
    else s
  (s1.startFirmware t !v.slotB).modTile t fun x => { x with
    ready := (x.ready || v.bad) && (s1.image !v.slotB).accepted && !s.failedTile t }

/-- FIRMWARE_HEARTBEAT_TIMEOUT: no first heartbeat came within 100 ms of the start of firmware on a tile, or its firmware has faulted
at level F: the tile returns to the other slot (R339, R380). -/
def execFirmwareHeartbeatTimeout (t : Nat) (s : State) : Host.Outcome State Fault Refusal :=
  if (s.tile t).svc.overdue s.cycle ∨ (s.tile t).svc.bad then .next (s.rollback t) else .next s

/-- GET_MEASUREMENTS: a ready host port answers with measurement 1 to 4, whose value is a free value (R380). -/
def execGetMeasurements (port : Bool) (index : Nat) (s : State) : Host.Outcome State Fault Refusal :=
  if s.host.ports.contains (if port then 1 else 0) ∧ 1 ≤ index ∧ index ≤ 4 then
    .next { s with
      freeCount := s.freeCount + 1
      host := { s.host with meas := some (index, Config.freeWord s.freeCount) } }
  else .next s

end Sys2Proof.Machine
end

