-- ==== Sys2Proof/Machine/Boundary.lean ====
section
/-! DEFINITION. The boundary before an instruction (R50, R113, R284, R401): the watchdog, and what the turn of a core
comes to. -/

namespace Sys2Proof.Machine

/-- WATCHDOG_EXPIRY: the watchdog count of core `k`'s running activation is zero, and fault 0x0D is raised at the boundary
(R50, R332). A lizard's count is its head's. -/
def execWatchdogExpiry (k : Nat) (s : State) : Host.Outcome State Fault Refusal :=
  let a := (s.core k).act
  if (s.core k).ctl.run.isSome ∧ a.count = 0 ∧ !(s.core k).dbg.halted then
    .next ((s.takeFault k { code := 0x0D, pc := a.pc, w5 := a.budget.setWidth 64 }).mirror k)
  else .next s

/-- What the turn of a core comes to: a step or an instruction to execute, or a state. -/
inductive Todo where
  | exec (i : Instr) (s : State)
  | done (s : State)

/-- The running activation of core `k` at the boundary before its next instruction; it goes no further while its translation request is
lost (R392). -/
def State.boundary (s : State) (k : Nat) : Todo :=
  let c := s.core k
  if c.stepWaits then (if c.stepBusy then .done (s.elapse 1) else .done (s.endStep k))
  else if c.act.count = 0 then .exec (.watchdogExpiry k) s
  else if !c.ord.chunk.want.isEmpty then .done ((s.acquire k).spend k 1)
  else if c.request.any (·.lost) then .done (s.spend k 1)
  else
    match s.fetch k with
    | .wait s1 => .done (s1.spend k 1)
    | .fault r s1 =>
      if c.bpHit.isSome ∧ s.slotOfLine k then .exec (.breakpointMatch k) s
      else .done (((s1.modCore k fun c => { c.checkpoint c.runSlot with asked := none }).takeFault k r).mirror k)
    | .instr i hdr s1 =>
      if c.bpHit.isSome then .exec (.breakpointMatch k) s
      else if (s.watchHit k i).isSome then .exec (.watchpointMatch k) s
      else .exec i (s1.modCore k fun c =>
        { c with
          asked := none
          slots := (c.modAct fun a => { a with hdr := hdr }).slots
          dbg := { c.dbg with
            skip := none
            mark := c.eng.issued
            ctl := if c.stepping then c.dbg.ctl ||| 0x200#64 else c.dbg.ctl } })

/-- The turn of core `k`: its running activation's next instruction, or the activation that selection gives it (R42). -/
def State.coreTurn (s : State) (k : Nat) : Todo :=
  let c := s.core k
  if c.dbg.halted ∨ (s.tile (tileOf k)).ready = false ∨ (c.ctl.pair.isSome ∧ !c.ctl.leader) then .done s.idle
  else if c.ctl.run.isSome then s.boundary k
  else
    match s.select k with
    | some (ch, _) => if c.readyChan ch then .exec (.resumption k) s else .exec (.dispatchNewActivation k) s
    | none => .done s.idle

/-- The next listed core after `k`, round again from the first (DESIGN CHOICE, log 2). -/
def State.nextCore (s : State) (k : Nat) : Nat :=
  match s.cores.find? fun e => decide (k < e.1) with
  | some e => e.1
  | none =>
    match s.cores with
    | e :: _ => e.1
    | [] => k

end Sys2Proof.Machine
end

