-- ==== Sys2Proof/Machine/Contracts.lean ====
section
/-! DEFINITION. The lease (R368), token buckets (R375), collectives (R383), and host writes to the registers of the functions'
BARs (R8, R370, R376, R377). A step that is not due changes nothing. -/

namespace Sys2Proof.Machine

/-! ## The lease -/

/-- The lease renewed (R368). -/
def State.renewLease (s : State) : State := { s with host := { s.host with renewed := s.cycle } }

/-- LEASE_RENEW: RENEW written by a port that is ready; the standby port's is ignored (R26, R368). -/
def execLeaseRenew (port : Bool) (s : State) : Host.Outcome State Fault Refusal :=
  if port = s.host.owner ∧ s.host.ports.contains (bnat port) then .next s.renewLease else .next s

/-- Cycles in a lease period: 1 ms is 1,700,000 cycles (R4, R368). -/
def HostSt.leaseCycles (h : HostSt) : Nat := h.period.toNat * 1700000

/-- LEASE_EXPIRY: PERIOD has passed without a renewal, and the other port takes over (R368). -/
def execLeaseExpiry (s : State) : Host.Outcome State Fault Refusal :=
  if s.host.renewed + s.host.leaseCycles ≤ s.cycle then
    .next { s with host := { s.host with
      owner := !s.host.owner
      expired := true
      taken := true
      renewed := s.cycle } }
  else .next s

/-- PERIOD as stored: 10 to 10,000, other values at the nearest limit (R368). -/
def clampPeriod (x : Nat) : Nat := Nat.min 10000 (Nat.max 10 x)

/-- The lease register written: PERIOD, EXPIRED cleared by a one, and RENEW (R368). A REGISTER_WRITE names no port: it comes through the
active one (DESIGN CHOICE, log 94). -/
def State.writeLease (s : State) (v : Word) : State :=
  let s1 : State := { s with host := { s.host with
    period := BitVec.ofNat 16 (clampPeriod (bitsOf v.toNat 47 32))
    expired := s.host.expired && !v.getLsbD 2 } }
  if v.getLsbD 0 then s1.renewLease else s1

/-! ## Token buckets -/

/-- Bits [63:56] of the bucket register name a bucket: CLASS and STATION (R375). -/
def State.writeBucket (s : State) (p : Nat) (v : Word) : State :=
  s.modCt p fun x =>
    let k := bitsOf v.toNat 63 56
    let depth : BitVec 20 := v.extractLsb' 20 20
    let b := Table.get {} x.buckets k
    { x with
      sel := BitVec.ofNat 8 k
      buckets := if depth = 0 then x.buckets
        else Table.set x.buckets k { depth := depth, rate := v.extractLsb' 0 20, tokens := Nat.min b.tokens depth.toNat } }

/-- BUCKET_REGISTER_WRITE: the bucket register of a PARTID's control block (R375, R377). -/
def execBucketRegisterWrite (p : Nat) (v : Word) (s : State) : Host.Outcome State Fault Refusal :=
  if s.hostUp ∧ p < 4096 then .next (s.writeBucket p v) else .next s

/-- A bucket gains RATE tokens at each of `n` steps of 1,024 cycles, up to DEPTH (R375). -/
def Bucket.refill (n : Nat) (b : Bucket) : Bucket := { b with tokens := Nat.min b.depth.toNat (b.tokens + n * b.rate.toNat) }

/-- Every bucket refilled as far as the `n`-th step of 1,024 cycles (R375). -/
def State.refillTo (s : State) (n : Nat) : State :=
  { s with
    refills := Nat.max n s.refills
    blocks :=
      if n ≤ s.refills then s.blocks
      else mapVals (fun x => { x with buckets := mapVals (Bucket.refill (n - s.refills)) x.buckets }) s.blocks }

/-- BUCKET_REFILL: the next multiple of 1,024 cycles is reached, and every bucket is refilled (R375). -/
def execBucketRefill (s : State) : Host.Outcome State Fault Refusal :=
  let n := s.cycle / 1024 + 1
  .next { s.refillTo n with cycle := n * 1024 }

/-! ## Collectives -/

/-- A collective slot of a partition changed. -/
def State.setColl (s : State) (p c : Nat) (x : Coll) : State :=
  s.modCt p fun y => { y with coll := Table.set y.coll c x }

/-- Word 3 of a record (R383). -/
def Coll.word3 (c : Coll) : Nat := c.count.toNat + (if c.done then 2 ^ 32 else 0) + (if c.pois then 2 ^ 33 else 0)

/-- COUNT, DONE and POIS written back to the record (R383). -/
def State.putColl (s : State) (p c : Nat) (x : Coll) : State :=
  (s.setColl p c x).agentWrite p (x.va.toNat + 24) (leBytes 8 x.word3)

/-- A registration withdrawn: an obligation not yet discharged is discharged poisoned (R70; DESIGN CHOICE, log 44). -/
def State.withdraw (s : State) (p c : Nat) : State :=
  let s1 := match find (s.ct p).coll c with
    | some x => if !x.wait ∧ !x.done then s.signal p x.ev.toNat 1 true else s
    | none => s
  s1.modCt p fun y => { y with coll := drop y.coll c }

/-- The registration that a record asks for, or none where it is not registered (R383). -/
def State.recordOf (s : State) (p : Nat) (va : Word) (ws : List Word) : Option Coll :=
  let w (i : Nat) : Nat := (ws.getD i 0).toNat
  let ev := bitsOf (w 0) 31 16
  if va.toNat % 64 ≠ 0 ∨ bitsOf (w 0) 63 48 ≠ 0 ∨ bitsOf (w 3) 63 34 ≠ 0 ∨ w 4 ≠ 0 ∨ w 5 ≠ 0 ∨ w 6 ≠ 0 ∨ w 7 ≠ 0
      ∨ bitsOf (w 0) 47 32 = 0 ∨ (s.event p ev).isNone then none
  else some { va := va, tag := BitVec.ofNat 16 (w 0), expect := BitVec.ofNat 16 (bitsOf (w 0) 47 32),
              ev := BitVec.ofNat 16 ev, buf := ws.getD 1 0, blen := BitVec.ofNat 32 (bitsOf (w 2) 31 0),
              deadline := if bitsOf (w 2) 63 32 = 0 then 0 else s.cycle + bitsOf (w 2) 63 32 * 1700 }

/-- A record registered in a slot (R383); while its home is held the read of the record waits (R283). -/
def State.register (s : State) (p c : Nat) (va : Word) : State :=
  let s0 := s.withdraw p c
  match s0.fwRead p va.toNat 64 with
  | .ok bs s1 =>
    match s1.recordOf p va (wordsOf bs 8) with
    | some x => s1.putColl p c x
    | none => s1
  | .held => s0.setColl p c { va := va, wait := true }
  | .bad s1 => s1

/-- Registrations that wait for a held home tried again (R283, R383). -/
def State.registerAll (s : State) : List (Nat × Nat × Word) → State
  | [] => s
  | (p, c, va) :: t => State.registerAll (s.register p c va) t

/-- The registrations that wait. -/
def State.registerLate (s : State) : State :=
  s.registerAll (s.blocks.flatMap fun b => (b.2.coll.filter (·.2.wait)).map fun e => (b.1, e.1, e.2.va))

/-- A collective slot written (R383): an address with bit 0 set registers, 0 withdraws; another value changes nothing. -/
def State.writeColl (s : State) (p c : Nat) (v : Word) : State :=
  if v = 0 then s.withdraw p c else if v.getLsbD 0 then s.register p c (v &&& ~~~1#64) else s

/-- COLLECTIVE_SLOT_WRITE (R377, R383). -/
def execCollectiveSlotWrite (p c : Nat) (v : Word) (s : State) : Host.Outcome State Fault Refusal :=
  if s.hostUp ∧ p < 4096 ∧ c < 256 then .next (s.writeColl p c v) else .next s

/-- The lowest slot whose record has a TAG (R383). -/
def State.collFor (s : State) (p tag : Nat) : Option (Nat × Coll) :=
  (s.ct p).coll.find? fun e => !e.2.wait && e.2.tag.toNat == tag

/-- A contribution counted: at EXPECT the event is signalled once (R383). -/
def State.contribute (s : State) (p c : Nat) (x : Coll) : State :=
  let n := x.count + 1
  if n.toNat = x.expect.toNat then (s.putColl p c { x with count := n, done := true }).signal p x.ev.toNat 1 false
  else s.putColl p c { x with count := n }

/-- COLLECTIVE_CONTRIBUTION: the data of a WRITE_IMM has been performed, and it counts for the record of its TAG, if it lies within
that record's buffer and the record is not done (R383). -/
def execCollectiveContribution (p : Nat) (imm : BitVec 32) (va : Word) (len : Nat) (s : State) :
    Host.Outcome State Fault Refusal :=
  match s.collFor p (imm.toNat / 65536) with
  | none => .next s
  | some (c, x) =>
    if !x.done ∧ x.buf.toNat ≤ va.toNat ∧ va.toNat + len ≤ x.buf.toNat + x.blen.toNat then .next (s.contribute p c x)
    else .next s

/-- COLLECTIVE_DEADLINE: the deadline passes first: the event is signalled poisoned (R383). -/
def execCollectiveDeadline (p c : Nat) (s : State) : Host.Outcome State Fault Refusal :=
  match find (s.ct p).coll c with
  | some x =>
    if !x.wait ∧ !x.done ∧ x.deadline ≠ 0 ∧ x.deadline ≤ s.cycle then
      .next ((s.putColl p c { x with done := true, pois := true }).signal p x.ev.toNat 1 true)
    else .next s
  | none => .next s

/-! ## Registers of the functions' BARs -/

/-- A queue register written at an offset of its 64 bytes (R370). -/
def State.writeQueueReg (s : State) (p q off : Nat) (v : Word) : State :=
  match off with
  | 0x00 => s.modQueue p q fun u => { u with base := v &&& ~~~0xFFF#64 }
  | 0x08 => s.modQueue p q fun u => { u with size := v.extractLsb' 0 4 }
  | 0x10 => s.doorbell p q (v.extractLsb' 0 16)
  | 0x20 => s.modQueue p q fun u => { u with vec := v.extractLsb' 0 11 }
  | _ => s

/-- A QoS monitor's words written (R376): the configuration word, or VIOL cleared by a one. -/
def State.writeQos (s : State) (p m : Nat) (status : Bool) (v : Word) : State :=
  s.modQos p m fun x =>
    if status then { x with viol := x.viol && !v.getLsbD 5 }
    else { x with
      bound := v.extractLsb' 32 32
      p := v.extractLsb' 22 10
      k := v.extractLsb' 17 5
      src := v.extractLsb' 15 2
      id := v.extractLsb' 0 15 }

/-- VECTORS written (R377). -/
def State.writeVectors (s : State) (p : Nat) (v : Word) : State :=
  s.modCt p fun x => { x with qosvec := v.extractLsb' 16 11, prevec := v.extractLsb' 0 11 }

/-- A word of a partition's control block written (R377). -/
def State.writeBlock (s : State) (p off : Nat) (v : Word) : State :=
  if off = 0 then s.writeBucket p v
  else if 0x100 ≤ off ∧ off < 0x200 then s.writeQos p ((off - 0x100) / 16) (off % 16 == 8) v
  else if off = 0x200 then s.writeVectors p v
  else if 0x800 ≤ off then s.writeColl p ((off - 0x800) / 8) v
  else s

/-- A trace station's register written (R402): word 0, or DONE cleared by a one. -/
def State.writeTrace (s : State) (q off : Nat) (v : Word) : State :=
  match off with
  | 0x00 => s.traceWrite q v
  | 0x10 =>
    let t := Table.get {} s.trace q
    { s with trace := Table.set s.trace q { t with done := t.done && !v.getLsbD 0 } }
  | _ => s

/-- A register of the PF's BAR0 written (R377). -/
def State.writePf (s : State) (off : Nat) (v : Word) : State :=
  if off = 0x1800 then s.writeLease v
  else if 0x2000 ≤ off ∧ off < 0x2040 then s.writeQueueReg 4096 0 (off - 0x2000) v
  else if 0x3000 ≤ off ∧ off < 0x3100 then s.writeTrace ((off - 0x3000) / 0x40) (off % 0x40) v
  else if 0x100000 ≤ off ∧ off < 0x1100000 then
    s.writeBlock ((off - 0x100000) / 0x1000) (off % 0x1000) v
  else if 0x40000000 ≤ off ∧ off < 0x50000000 then s.dbgWrite ((off - 0x40000000) / 0x100) (off % 0x100) v
  else s

/-- A register of a VF's BAR0 written (R370). -/
def State.writeVf (s : State) (p off : Nat) (v : Word) : State :=
  if has s.parts p ∧ off < 0x1000 then s.writeQueueReg p (off / 64) (off % 64) v else s

/-- REGISTER_WRITE: an aligned 64-bit host write to a register of the PF or of a partition's VF stores its RW fields; reserved offsets
ignore it, and none comes while no host port is ready (R8, R26, R370, R377). -/
def execRegisterWrite (pf : Bool) (p off : Nat) (v : Word) (s : State) : Host.Outcome State Fault Refusal :=
  if !s.hostUp ∨ off % 8 ≠ 0 then .next s else .next (if pf then s.writePf off v else s.writeVf p off v)

end Sys2Proof.Machine
end

