-- ==== Sys2Proof/Machine/Delivery.lean ====
section
/-! DEFINITION. The steps of the network interfaces and homes (R36 to R39, R69, R75, R76, R250, R251, R255): arrivals, reinjection,
streams, landings, and the release of output-buffer entries at a commit point. A step that is not due changes nothing. -/

namespace Sys2Proof.Machine

/-- The state that a step leads to where it is due, and the same state where it is not. -/
def orSame (s : State) (o : Option State) : Host.Outcome State Fault Refusal := .next (o.getD s)

/-- MESSAGE_ARRIVAL: the first message in transit to core `k` completes there, and queues or diverts (R36, R55, R250). -/
def execMessageArrival (k : Nat) (s : State) : Host.Outcome State Fault Refusal := orSame s (s.deliverMsg k)

/-- REINJECT_DIVERTED: the service core reinjects a diverted message of core `k` for which there is room (R36, R55). -/
def execReinjectDiverted (k : Nat) (s : State) : Host.Outcome State Fault Refusal :=
  orSame s (firstDone (s.reinject k) (List.range (chanCount k)))

/-- STREAM_BEAT_LANDING: a beat of a stream lands in its ring at core `k`: of a diverted segment that can go on, else of a segment in
transit (R38, R39, R251). -/
def execStreamBeatLanding (k : Nat) (s : State) : Host.Outcome State Fault Refusal :=
  orSame s ((firstDone (s.streamBeat k) (List.range (chanCount k))).or (s.deliverBeat k))

/-- END_OF_STREAM: a stream segment of core `k` has landed whole; one with EOS ends the stream (R38, R251). -/
def execEndOfStream (k : Nat) (s : State) : Host.Outcome State Fault Refusal :=
  orSame s ((firstDone (s.segmentEnd k) (List.range (chanCount k))).or (s.deliverEnd k))

/-- POUR_BEAT_LANDING: the next beats in transit to core `k` land (R85 to R87, R255). -/
def execPourBeatLanding (k : Nat) (s : State) : Host.Outcome State Fault Refusal := orSame s (s.deliverBeats k)

/-- BEAT_DECREMENT: the count of landed beats of partition `p` reaches its barrier record's home (R75, R255). -/
def execBeatDecrement (p : Nat) (s : State) : Host.Outcome State Fault Refusal := orSame s (s.deliverDecr p)

/-! ## Releases at a commit point (R48, R250) -/

/-- The entry that slot `i` of core `k` releases next, while its activation is at a commit point. -/
def State.nextRelease (s : State) (k i : Nat) : Option OEntry :=
  let c := s.core k
  if c.ctl.run = some i ∧ (c.slot i).life.atPoint then c.firstEntry i else none

/-- The release of an entry as a step: performed, still waiting, or failed, with the fault at the commit point (R250). -/
def State.releaseStep (s : State) (k i : Nat) (e : OEntry) : State :=
  match s.release1 k i e with
  | .done s1 => s1.mirror k
  | .wait s1 => s1
  | .fail r s1 => (s1.takeFault k { r with pc := (s.core k).act.pc }).mirror k

/-- OUTPUT_BUFFER_RELEASE: the next entry of slot `i` of core `k` is released (R47, R250). -/
def execOutputBufferRelease (k i : Nat) (s : State) : Host.Outcome State Fault Refusal :=
  match s.nextRelease k i with
  | some e => .next (s.releaseStep k i e)
  | none => .next s

/-- EVENT_SIGNAL_AT_HOME: a `sig` entry is performed at its event's home (R69, R74, R261). -/
def execEventSignalAtHome (k i : Nat) (name : BitVec 16) (n : BitVec 32) (s : State) :
    Host.Outcome State Fault Refusal :=
  match s.nextRelease k i with
  | some e => if e.kind = .sig name n then .next (s.releaseStep k i e) else .next s
  | none => .next s

/-- The entry of a barrier operation (R76). -/
def barEntry (op : BarOp) (va : Word) (beats : BitVec 32) : OKind :=
  match op with
  | .join => .join va
  | .arrive => .bara va beats
  | .leave => .leave va

/-- BARRIER_OP_AT_HOME: a `join`, `bara` or `leave` entry is performed at its record's home (R76, R265). -/
def execBarrierOpAtHome (op : BarOp) (k i : Nat) (va : Word) (beats : BitVec 32) (s : State) :
    Host.Outcome State Fault Refusal :=
  match s.nextRelease k i with
  | some e => if e.kind = barEntry op va beats then .next (s.releaseStep k i e) else .next s
  | none => .next s

end Sys2Proof.Machine
end

