-- ==== Sys2Proof/Machine/Well.lean ====
section
/-! DEFINITION. Well instructions (R175 to R179): `renew`, `wtag`, `wset`, `wzero`. The SRAM of a service core has no tags
(R365): there `renew` and `wset` only check, `wzero` writes zeros and `wtag` answers 4,096 (DEDUCED, log 26). -/

namespace Sys2Proof.Machine

/-- The checks of a granule range, in their order (R175). An empty range is checked as any other: b misaligned or above the limit faults also
with c = 0 (DESIGN CHOICE, log 107). -/
def rangeCheck (b c : Word) : M PUnit := do
  let k ← me
  let cr ← myCore
  let s ← getS
  if b.toNat % 512 ≠ 0 ∨ c.toNat % 512 ≠ 0 then fault (faultAt 0x03 b)
  if cr.limit k < b.toNat + c.toNat then fault (faultAt 0x04 b)
  if localDenied (s.level k) b.toNat c.toNat then fault (faultAt 0x04 b)

/-- A granule of the range is expired: the offset of the first. -/
def State.firstDead (s : State) (k off : Nat) : Nat → Option Nat
  | 0 => none
  | n + 1 => if s.expiredAt k off then some off else State.firstDead s k (off + 512) n

/-- The first poisoned sector of `n` sectors from `off`. -/
def State.firstPoison (s : State) (k off : Nat) : Nat → Option Nat
  | 0 => none
  | n + 1 => if s.poisonAt k off 32 then some off else State.firstPoison s k (off + 32) n

/-- A granule renewed by `renew` (R176): with Z = 1 it is written as zeros. -/
def Local.renewGranule (fade retn g : Nat) (l : Local) : Local :=
  (if (l.tag g).z && !(l.tag g).x then l.clearCells g else l).renew g fade retn

/-- `n` granules from `off` renewed, up to the first poisoned sector (R176). -/
def State.renewEach (s : State) (k off : Nat) : Nat → State × Option Nat
  | 0 => (s, none)
  | n + 1 =>
    let s1 := s.secded k off 512
    match s1.firstPoison k off 16 with
    | some x => (s1, some x)
    | none =>
      State.renewEach (s1.modStore k off (Local.renewGranule s.fade (s.retn (memberOf k off)))) k (off + 512) n

/-- `renew` (R175, R176): 32 cycles per granule; the renewals made before a fault 0x06 stay made. -/
def execRenew (b c : Sel) (s : State) : Host.Outcome State Fault Refusal :=
  run (do
    let x ← readOp b
    let y ← readOp c
    rangeCheck x y
    let k ← me
    let cr ← myCore
    if cr.reserved x.toNat y.toNat then stall
    commitFirst
    if !isSvc k then
      let n := y.toNat / 512
      match (← getS).firstDead k x.toNat n with
      | some o => fault (faultAt 0x05 (BitVec.ofNat 64 o))
      | none => pure ()
      match (← getS).renewEach k x.toNat n with
      | (s1, none) => putS s1
      | (_, some o) => do
        modBoth fun s => (s.renewEach k x.toNat n).1
        countTile 7
        fault (faultAt 0x06 (BitVec.ofNat 64 o))
      takes (1 + 32 * n)) s

/-- An older store of the store buffer lies in the granule at `off` (R177). -/
def Core.storeIn (c : Core) (off : Nat) : Bool := c.ord.sb.any fun e => e.dest == .loc && e.va.toNat / 512 == off / 512

/-- What `wtag` reports (R177). -/
def State.wtagValue (s : State) (k off : Nat) : Word :=
  let t := s.tagAt k off
  if isSvc k then 4096
  else if t.expired s.fade then 0xFFFFFFFFFFFFFFFF
  else if t.z then
    (if (s.core k).storeIn off then BitVec.ofNat 64 ((t.renewed s.fade (s.retn (memberOf k off))).remaining s.fade) else 4096)
  else BitVec.ofNat 64 (t.remaining s.fade)

/-- `wtag` (R177). -/
def execWtag (a b : Sel) (s : State) : Host.Outcome State Fault Refusal :=
  run (do
    let x ← readOp b
    let k ← me
    let cr ← myCore
    let s ← getS
    if cr.limit k ≤ x.toNat then fault (faultAt 0x04 x)
    if localDenied (s.level k) x.toNat 1 then fault (faultAt 0x04 x)
    writeOp a (s.wtagValue k x.toNat)) s

/-- K and P set in `n` granules from `off` (R178). -/
def State.wsetEach (s : State) (k off : Nat) (kk p : Bool) : Nat → State
  | 0 => s
  | n + 1 =>
    State.wsetEach (s.modStore k off fun g l => l.setTag g { l.tag g with k := kk, p := p }) k (off + 512) kk p n

/-- `wset` (R175, R178). -/
def execWset (b c : Sel) (kk p : Bool) (s : State) : Host.Outcome State Fault Refusal :=
  run (do
    let x ← readOp b
    let y ← readOp c
    rangeCheck x y
    commitFirst
    let k ← me
    if !isSvc k then modS fun s => s.wsetEach k x.toNat kk p (y.toNat / 512)) s

/-- A granule zeroed by its tag (R179). -/
def Local.wzero (fade retn g : Nat) (l : Local) : Local :=
  let l1 := l.renew g fade retn
  let l2 := l1.setTag g { l1.tag g with z := true }
  { l2 with poison := l2.poison.filter fun e => e.1 / 16 != g }

/-- `n` granules from `off` zeroed. -/
def State.wzeroEach (s : State) (k off : Nat) : Nat → State
  | 0 => s
  | n + 1 =>
    State.wzeroEach (s.modStore k off (Local.wzero s.fade (s.retn (memberOf k off)))) k (off + 512) n

/-- A granule of `n` from `off` has P = 1. -/
def State.anyPersist (s : State) (k off : Nat) : Nat → Bool
  | 0 => false
  | n + 1 => (s.tagAt k off).p || State.anyPersist s k (off + 512) n

/-- `wzero` (R175, R179): one cycle per granule. -/
def execWzero (b c : Sel) (s : State) : Host.Outcome State Fault Refusal :=
  run (do
    let x ← readOp b
    let y ← readOp c
    rangeCheck x y
    let k ← me
    let cr ← myCore
    if cr.reserved x.toNat y.toNat then stall
    commitFirst
    let n := y.toNat / 512
    if isSvc k then modS fun s => s.modLs k fun l => l.putCells x.toNat (List.replicate y.toNat 0) false
    else
      if (← getS).anyPersist k x.toNat n then setSideFlag
      modS fun s => s.wzeroEach k x.toNat n
    takes (1 + n)) s

end Sys2Proof.Machine
end

