-- ==== Sys2Proof/Machine/Fence.lean ====
section
/-! DEFINITION. `fence`, the monitor pair and `roinv` (R180 to R185). -/

namespace Sys2Proof.Machine

/-- The instruction caches of a newt, or of every member of its lizard, discarded (R181). -/
def State.dropICaches (s : State) : List Nat → State
  | [] => s
  | k :: t => State.dropICaches (s.modCore k fun c => { c with icache := [] }) t

/-- `fence` (R180, R181): the chunk commits, which performs its stores at every home, station and port; kind ls waits for the
newt's engine operations; kind i discards the instruction cache. `ldc` returns before it retires, and a host-window store is
acknowledged when its chunk has committed, so kinds ro and host ask nothing further. -/
def execFence (_scope : Scope) (ls _ro i _host : Bool) (s : State) : Host.Outcome State Fault Refusal :=
  run (do
    commitFirst
    let c ← myCore
    let k ← me
    if ls ∧ c.engBusy then stall
    if i then modS fun s => s.dropICaches (if c.inLiz then s.lizardOf k else [k])) s

/-- The running activation's monitor replaced. -/
def setMon (m : Mon) : M PUnit := modMe fun c => c.modAct fun a => { a with sync := { a.sync with mon := m } }

/-- `marm` (R182). A squash does not take it back (R285). It arms afresh: a spurious return that a restore has left pending goes with the
earlier arming (DESIGN CHOICE, log 108). -/
def execMarm (b : Sel) (imm : BitVec 22) (s : State) : Host.Outcome State Fault Refusal :=
  run (do
    let x ← readOp b
    let va := effAddr x imm
    if bitsOf va 63 57 ≠ 0 then fault (faultAt 0x08 (BitVec.ofNat 64 va))
    let (pa, _, d) ← translate .read va
    if d = .host ∨ d = .dev then fault (faultAt 0x08 (BitVec.ofNat 64 va))
    setMon { armed := true, line := BitVec.ofNat 64 (lineOf va), pa := pa }) s

/-- The status of `mwait` (R184). -/
def Mon.status (m : Mon) : Word := if !m.armed then 2 else if m.spurious then 1 else 0

/-- `mwait` (R184): unranked, a commit point. -/
def execMwait (a : Sel) (s : State) : Host.Outcome State Fault Refusal :=
  run (do
    waitLocal true [(memW3, none)] [.mon]
    let c ← myCore
    setMon {}
    writeOp a c.act.sync.mon.status) s

/-- `roinv` (R185): within 64 cycles. -/
def execRoinv (s : State) : Host.Outcome State Fault Refusal :=
  run (modS fun s => s.modTile (tileOf s.turn) fun t => { t with ro := [] }) s

end Sys2Proof.Machine
end

