-- ==== Sys2Proof/Machine/Lizard.lean ====
section
/-! DEFINITION. Lizards and draw tokens (R24, R268 to R277): `compose`, `release`, `drawt`, `drawg`. -/

namespace Sys2Proof.Machine

/-- A member other than the head that keeps `compose` from binding it (R268). A newt that is in another lizard is busy too
(DESIGN CHOICE, log 29). -/
def State.memberBusy (s : State) (m : Nat) : Bool :=
  let c := s.core m
  c.ctl.run.isSome || c.dbg.halted || c.ctl.pair.isSome || c.ctl.gangm != 0 || s.pending m
    || c.ctl.lizn != 0 || c.ctl.lizhead.isSome

/-- The status of `compose` (R268): the head is newt `k`, and its column is k mod 8 (R15). -/
def State.composeStatus (s : State) (k n : Nat) : Nat :=
  let c := s.core k
  if k % 8 % n ≠ 0 then 2
  else if ((List.range n).map (k + ·)).any (fun m => m != k && s.memberBusy m) || c.ctl.gangm != 0 || c.ctl.pair.isSome then 1
  else 0

/-- The members bound to their head; each then fetches lines of the lizard, and what its instruction cache held before goes (R123, R269). -/
def State.bindMembers (s : State) (k : Nat) : List Nat → State
  | [] => s
  | m :: t => State.bindMembers (s.modCore m fun c =>
    { c.modCtl (fun x => { x with lizhead := some k }) with icache := [] }) k t

/-- The executing newt made the head of a lizard of `n` (R268). -/
def State.composeAt (s : State) (k n : Nat) : State :=
  (s.bindMembers k ((List.range (n - 1)).map (k + 1 + ·))).modCore k fun c =>
    c.modCtl fun x => { x with lizn := n, lizact := c.act.uid }

/-- `compose` (R268). -/
def execCompose (a : Sel) (n : BitVec 4) (s : State) : Host.Outcome State Fault Refusal :=
  run (do
    let k ← me
    if isSvc k ∨ (← myCore).inLiz then fault { code := 0x10 }
    commitFirst
    let st := (← getS).composeStatus k n.toNat
    writeOp a (BitVec.ofNat 64 st)
    if st = 0 then
      modS fun s => s.composeAt k n.toNat
      takes 40) s

/-- `release` (R274): outside a lizard only the chunk commits. -/
def execRelease (s : State) : Host.Outcome State Fault Refusal :=
  run (do
    commitFirst
    let k ← me
    if (← myCore).inLiz then
      modS fun s => s.unbind k
      takes 40) s

/-- The draw tokens held on a tile (R275). -/
def State.heldTokens (s : State) (t : Nat) : Nat := sumBy (fun m => (s.core m).ctl.draw) (newtsOf t)

/-- The pool of a tile (R277). -/
def State.pool (s : State) (t : Nat) : Nat := (s.tile t).budget - s.heldTokens t

/-- A newt's tokens changed. -/
def State.setDraw (s : State) (k n : Nat) : State := s.modCore k fun c => c.modCtl fun x => { x with draw := n }

/-- `drawt` (R275). On a service core DRAW reads zero and ignores writes (R158): the status is the pool's, and no token moves
(DEDUCED, log 27). -/
def execDrawt (a : Sel) (s : State) : Host.Outcome State Fault Refusal :=
  run (do
    commitFirst
    let k ← me
    let s ← getS
    if s.pool (tileOf k) = 0 then writeOp a 1
    else
      modS fun s => if isSvc k then s else s.setDraw k ((s.core k).ctl.draw + 1)
      writeOp a 0) s

/-- The status of `drawg` (R276): 2 before 1. -/
def State.drawgStatus (s : State) (k : Nat) (t n : Word) : Nat :=
  if bitsOf t.toNat 63 20 ≠ 0 ∨ tileOf t.toNat ≠ tileOf k then 2
  else if (s.core k).ctl.draw < n.toNat then 1
  else 0

/-- `drawg` (R276): tokens given to oneself return to the pool. -/
def execDrawg (a b c : Sel) (s : State) : Host.Outcome State Fault Refusal :=
  run (do
    let t ← readOp b
    let n ← readOp c
    commitFirst
    let k ← me
    let st := (← getS).drawgStatus k t n
    writeOp a (BitVec.ofNat 64 st)
    if st = 0 then
      modS fun s => s.setDraw k ((s.core k).ctl.draw - n.toNat)
      if t.toNat ≠ k ∧ n ≠ 0 then modS fun s => s.setDraw t.toNat ((s.core t.toNat).ctl.draw + n.toNat)) s

end Sys2Proof.Machine
end

