-- ==== Sys2Proof/Machine/Rings.lean ====
section
/-! DEFINITION. Core instructions on rings (R214 to R217): `advp`, `advc`, `ringset`. -/

namespace Sys2Proof.Machine

/-- `advp` (R209, R217). -/
def execAdvp (h : BitVec 4) (n : BitVec 7) (s : State) : Host.Outcome State Fault Refusal :=
  run (do
    commitFirst
    let c ← myCore
    let r := c.ring h.toNat
    if r.count = 0 ∨ r.free < n.toNat then fault (ringFault h.toNat)
    if c.reserved r.span.1 r.span.2 then stall
    modMe fun c => (c.setRing h.toNat (r.advp n.toNat)).wakeLocal) s

/-- `advc` (R209, R217): every earlier engine read of the ring's range, running or still queued, finishes first. -/
def execAdvc (h : BitVec 4) (n : BitVec 7) (s : State) : Host.Outcome State Fault Refusal :=
  run (do
    commitFirst
    let c ← myCore
    let r := c.ring h.toNat
    if r.count = 0 ∨ r.filled.toNat < n.toNat then fault (ringFault h.toNat)
    let k ← me
    if (c.readRanges k ++ c.queuedReads k).any fun x => overlaps r.span.1 r.span.2 x.1 x.2 then stall
    modMe fun c => (c.setRing h.toNat (r.advc n.toNat)).wakeLocal) s

/-- An image that is neither empty nor structurally right (R215). -/
def ringImageBad (w0 w1 : Word) : Bool :=
  let r := Ring.ofWords w0 w1
  bitsOf w0.toNat 63 52 != 0 || bitsOf w0.toNat 31 28 != 0
    || bitsOf w1.toNat 63 23 != 0 || bitsOf w1.toNat 15 14 != 0 || bitsOf w1.toNat 7 6 != 0
    || decide (r.slog.toNat < 6) || decide (12 < r.slog.toNat) || r.count == 0 || decide (64 < r.count.toNat)
    || r.base.toNat % 2 ^ r.slog.toNat != 0 || decide (0x1E000 < r.span.1 + r.span.2)
    || decide (r.count.toNat ≤ r.head.toNat) || decide (r.count.toNat ≤ r.tail.toNat)
    || decide (r.count.toNat < r.filled.toNat) || r.head.toNat != (r.tail.toNat + r.filled.toNat) % r.count.toNat

/-- A matrix operation names a ring. A non-leader's `gmma` ignores its A ring, but the field names it all the same (R230). -/
def MKind.names (h : Nat) : MKind → Bool
  | .mma _ _ hb hc => hb == h || hc == h
  | .gmma _ _ hb hc _ => hb == h || hc == h
  | _ => false

/-- A queued or running engine operation, or a stream-mode channel whose stream is open, names the ring (R215). -/
def Core.ringNamed (c : Core) (h : Nat) : Bool :=
  c.eng.mq.any (·.kind.names h)
    || c.chans.any fun e => e.2.mode && e.2.ring.toNat == h && (c.inb e.1).streamOpen

/-- An activation waits on a ring. -/
def Act.waitsRing (a : Act) (h : Nat) : Bool :=
  a.sync.wait.any fun p =>
    match p with
    | .filled x _ => x == h
    | .room x _ => x == h
    | _ => false

/-- An activation of the core is suspended on the ring (R60), in its slot or moved out of it by a notice (R347). -/
def Core.waitsRing (c : Core) (h : Nat) : Bool :=
  c.slots.any (fun e => e.2.st == .suspended && e.2.waitsRing h) || c.moved.any fun m => m.2.waitsRing h

/-- `ringset` (R214, R215): it acts at issue and a squash does not undo it (R285). -/
def execRingset (h : BitVec 4) (b : Sel) (s : State) : Host.Outcome State Fault Refusal :=
  run (do
    let x ← readOp b
    let bs ← localRead x.toNat 16
    let w0 := BitVec.ofNat 64 (leNat (bs.take 8))
    let w1 := BitVec.ofNat 64 (leNat (bs.drop 8))
    let c ← myCore
    let empty := w0 = 0 ∧ w1 = 0
    if (!decide empty ∧ ringImageBad w0 w1) ∨ c.ringNamed h.toNat then fault (ringFault h.toNat)
    let r := Ring.ofWords w0 w1
    if !decide empty ∧ r.rank.toNat = Config.noRank then fault (objFault (ringW3 h.toNat))
    if r.rank ≠ (c.ring h.toNat).rank ∧ c.waitsRing h.toNat then fault (objFault (ringW3 h.toNat))
    modMe fun c => (c.setRing h.toNat r).wakeLocal) s

end Sys2Proof.Machine
end

