-- ==== Sys2Proof/Machine/Vector.lean ====
section
/-! DEFINITION. Vector instructions (R219 to R227): lanes, the lane functions, and one meaning per instruction. -/

namespace Sys2Proof.Machine

/-! ## Lanes (R120, R219) -/

/-- Lane `k` of width `w` of a register. -/
def lane (x : BitVec 512) (w k : Nat) : Nat := (x.toNat >>> (w * k)) % 2 ^ w

/-- The number whose fields of width `w` are the values of a list, the first lowest. -/
def packLanes (w : Nat) : List Nat → Nat
  | [] => 0
  | x :: t => x % 2 ^ w + 2 ^ w * packLanes w t

/-- A register from its lanes. -/
def ofLanes (w : Nat) (l : List Nat) : BitVec 512 := BitVec.ofNat 512 (packLanes w l)

/-- The lanes of a register. -/
def lanesOf (ty : VTy) (x : BitVec 512) : List Nat := (List.range ty.lanes).map (lane x ty.width)

/-- The format of a floating lane type. -/
def laneFmt : VTy → Fmt
  | .f32 => fF32
  | .bf16 => fBf16
  | .f16 => fF16
  | .i32 | .i16 | .i8 => fF32

/-- The signed value of a lane of width `w`. -/
def signedOf (w x : Nat) : Int := if x < 2 ^ (w - 1) then x else (x : Int) - (2 ^ w : Nat)

/-- An integer modulo 2^w. -/
def wrapTo (w : Nat) (x : Int) : Nat := (x % (2 ^ w : Nat)).toNat

/-- The lane-wise form of a function of one, two or three lanes. -/
def map1 (ty : VTy) (f : Nat → Nat) (x : BitVec 512) : BitVec 512 := ofLanes ty.width ((lanesOf ty x).map f)
def map2 (ty : VTy) (f : Nat → Nat → Nat) (x y : BitVec 512) : BitVec 512 :=
  ofLanes ty.width ((List.range ty.lanes).map fun k => f (lane x ty.width k) (lane y ty.width k))
def map3 (ty : VTy) (f : Nat → Nat → Nat → Nat) (x y z : BitVec 512) : BitVec 512 :=
  ofLanes ty.width ((List.range ty.lanes).map fun k => f (lane x ty.width k) (lane y ty.width k) (lane z ty.width k))

/-! ## Lane functions (R201, R221, R222) -/

/-- A floating lane's result, rounded once under RNE (R201). -/
def narrow (ty : VTy) (v : FVal) : Nat := roundTo (laneFmt ty) .rne false v

/-- The value of a floating lane. -/
def valueOf (ty : VTy) (x : Nat) : FVal := (laneFmt ty).decode x

def laneAdd (ty : VTy) (b c : Nat) : Nat :=
  if ty.isFloat then narrow ty ((valueOf ty b).add (valueOf ty c)) else (b + c) % 2 ^ ty.width
def laneSub (ty : VTy) (b c : Nat) : Nat :=
  if ty.isFloat then narrow ty ((valueOf ty b).add (valueOf ty c).neg) else (b + 2 ^ ty.width - c) % 2 ^ ty.width
def laneMul (ty : VTy) (b c : Nat) : Nat :=
  if ty.isFloat then narrow ty ((valueOf ty b).mul (valueOf ty c)) else b * c % 2 ^ ty.width
def laneFma (ty : VTy) (a b c : Nat) : Nat :=
  if ty.isFloat then narrow ty ((valueOf ty a).add ((valueOf ty b).mul (valueOf ty c))) else (a + b * c) % 2 ^ ty.width

/-- b below c for `vmax` and `vmin` on floating lanes: −0 below +0 (R201). -/
def fBelow (b c : FVal) : Bool :=
  match b.cmp c with
  | some .lt => true
  | some .eq => b.isNeg && !c.isNeg
  | _ => false

/-- `vmax` (`hi`) and `vmin` of a lane (R201). -/
def lanePick (hi : Bool) (ty : VTy) (b c : Nat) : Nat :=
  if ty.isFloat then
    let x := valueOf ty b
    let y := valueOf ty c
    if x = .nan ∧ y = .nan then (laneFmt ty).nan
    else if x = .nan then c
    else if y = .nan then b
    else if fBelow x y = hi then c else b
  else if decide (signedOf ty.width b < signedOf ty.width c) = hi then c else b

/-- `vabs` and `vneg` of a lane: on floating lanes the sign bit alone changes (R188, R221). -/
def laneAbs (ty : VTy) (b : Nat) : Nat :=
  if ty.isFloat then b % 2 ^ (ty.width - 1) else wrapTo ty.width ((signedOf ty.width b).natAbs : Nat)
def laneNeg (ty : VTy) (b : Nat) : Nat :=
  if ty.isFloat then Nat.xor b (2 ^ (ty.width - 1)) else (2 ^ ty.width - b) % 2 ^ ty.width

/-- An order meets a condition; the unsigned conditions do not occur here (R119). -/
def ordMeets (c : Cond) (o : Ordering) : Bool :=
  match c, o with
  | .eq, .eq => true
  | .ne, .lt => true
  | .ne, .gt => true
  | .lt, .lt => true
  | .ge, .eq => true
  | .ge, .gt => true
  | .le, .eq => true
  | .le, .lt => true
  | .gt, .gt => true
  | _, _ => false

/-- `vcmp` on a lane (R119, R201, R222). -/
def laneCond (c : Cond) (ty : VTy) (x y : Nat) : Bool :=
  if c = .always then true
  else if ty.isFloat then
    match (valueOf ty x).cmp (valueOf ty y) with
    | some o => ordMeets c o
    | none => false
  else condHolds c (BitVec.ofInt 64 (signedOf ty.width x)) (BitVec.ofInt 64 (signedOf ty.width y))

/-- The mask lane that a comparison writes (R222). -/
def laneCmp (c : Cond) (ty : VTy) (x y : Nat) : Nat := if laneCond c ty x y then 2 ^ ty.width - 1 else 0

/-- `vsel` on a lane (R222). -/
def laneSel (b c d : Nat) : Nat := if d ≠ 0 then b else c

/-- Shifts of a lane by c mod w (R226). -/
def laneShl (ty : VTy) (b c : Nat) : Nat := b * 2 ^ (c % ty.width) % 2 ^ ty.width
def laneShr (ty : VTy) (b c : Nat) : Nat := b / 2 ^ (c % ty.width)
def laneSar (ty : VTy) (b c : Nat) : Nat := wrapTo ty.width (signedOf ty.width b / (2 ^ (c % ty.width) : Nat))

/-! ## Conversions (R197, R198, R223) -/

/-- The floating format of a conversion's destination, if it is floating; its width; its lanes. -/
def dtFmt : DTy → Option Fmt
  | .lane .f32 => some fF32
  | .lane .bf16 => some fBf16
  | .lane .f16 => some fF16
  | .lane .i32 | .lane .i16 | .lane .i8 => none
  | .e4m3 => some fE4m3
  | .e5m2 => some fE5m2
def dtWidth : DTy → Nat
  | .lane t => t.width
  | .e4m3 | .e5m2 => 8
def dtLanes : DTy → Nat
  | .lane t => t.lanes
  | .e4m3 | .e5m2 => 64

/-- An integer clamped to the range of a width. -/
def clampTo (w : Nat) (x : Int) : Int :=
  let lo : Int := -(2 ^ (w - 1) : Nat)
  let hi : Int := (2 ^ (w - 1) : Nat) - 1
  if x < lo then lo else if hi < x then hi else x

/-- One lane converted (R197, R198). -/
def convLane (ty : VTy) (dt : DTy) (mode : Rnd) (sat : Bool) (x : Nat) : Nat :=
  let w := (dtWidth dt)
  match ty.isFloat, dtFmt dt with
  | true, some f => roundTo f mode sat (valueOf ty x)
  | true, none => wrapTo w (toIntClamp mode (-(2 ^ (w - 1) : Nat)) ((2 ^ (w - 1) : Nat) - 1) (valueOf ty x))
  | false, some f => roundTo f mode sat (FVal.ofInt (signedOf ty.width x))
  | false, none =>
    wrapTo w (if w < ty.width ∧ sat then clampTo w (signedOf ty.width x) else signedOf ty.width x)

/-- `vcvt` (R223): lanes beyond the source's are zero. -/
def vcvtReg (ty : VTy) (dt : DTy) (mode : Rnd) (sat : Bool) (x : BitVec 512) : BitVec 512 :=
  ofLanes (dtWidth dt) ((List.range (Nat.min ty.lanes (dtLanes dt))).map fun k => convLane ty dt mode sat (lane x ty.width k))

/-! ## nq4 (R193, R224) -/

/-- The midpoints between the levels 0, K[i] … of one sign, doubled: sums of neighbours, for levels i, i + 1 … (R193). -/
def midSums (neg : Bool) : List Nat :=
  if neg then [33, 88, 135, 187, 246, 320, 437] else [11, 44, 88, 135, 187, 246, 320, 437]

/-- The code of level `n` of one sign; level 0 is the exact zero (R191). -/
def levelCode (neg : Bool) (n : Nat) : Nat :=
  if n = 0 then 8 else if neg then 8 + n else n - 1

/-- The code of x under the block unit u = s × S (R193): the number of midpoints that |x| / u exceeds is the level. -/
def nq4Code (x u : FVal) : Nat :=
  match x with
  | .nan => 8
  | _ =>
    let neg := x.isNeg
    let above (m : Nat) : Bool := (u.mul (.fin false m (-9))).cmp x.abs == some .lt
    levelCode neg ((midSums neg).filter above).length

/-- The greatest magnitude of a block; NaNs do not count (R193). -/
def maxAbs : List FVal → FVal
  | [] => .fin false 0 0
  | x :: t => if x = .nan then maxAbs t else if (maxAbs t).le x.abs then x.abs else maxAbs t

/-- NQ4Quant (R193): the codes and the scale code. -/
def nq4Quant (xs : List FVal) (s : FVal) : List Nat × Nat :=
  match s with
  | .nan => (xs.map fun _ => 8, 0)
  | .inf _ => (xs.map fun _ => 8, 0)
  | .fin n m _ =>
    if n ∨ m = 0 then (xs.map fun _ => 8, 0)
    else
      let mx := maxAbs xs
      let c := ((List.range 256).find? fun c => mx.le ((e5m3 c).mul s)).getD 255
      if c = 0 then (xs.map fun _ => 8, 0)
      else (xs.map fun x => nq4Code x ((e5m3 c).mul s), c)

/-- `vquant` (R224). -/
def vquantReg (b c : BitVec 512) : BitVec 512 :=
  let xs := (lanesOf .f32 b).map fF32.decode
  let s := fF32.decode (lane c 32 0)
  let q0 := nq4Quant (xs.take 8) s
  let q1 := nq4Quant (xs.drop 8) s
  BitVec.ofNat 512 (packLanes 4 (q0.1 ++ q1.1) + 2 ^ 64 * q0.2 + 2 ^ 72 * q1.2)

/-- `vdeq` (R224). -/
def vdeqReg (b c d : BitVec 512) : BitVec 512 :=
  let s := fF32.decode (lane c 32 0)
  ofLanes 32 ((List.range 16).map fun k =>
    let p := ((nq4 (lane b 4 k)).mul (e5m3 (lane b 8 (8 + k / 8)))).mul s
    roundTo fF32 .rne false ((fF32.decode (lane d 32 k)).add p))

/-! ## Reductions (R203, R225) -/

/-- One level: adjacent pairs combined. -/
def pairUp (f : Nat → Nat → Nat) : List Nat → List Nat
  | x :: y :: t => f x y :: pairUp f t
  | l => l

/-- The levels of a reduction; 6 suffice for 64 lanes. -/
def levels (f : Nat → Nat → Nat) (l : List Nat) : Nat → List Nat
  | 0 => l
  | n + 1 => levels f (pairUp f l) n

/-- A reduction: lane 0, and zero elsewhere (R225). -/
def reduceReg (f : Nat → Nat → Nat) (ty : VTy) (x : BitVec 512) : BitVec 512 :=
  ofLanes ty.width ((levels f (lanesOf ty x) 6).take 1)

/-! ## Forms -/

/-- Opcodes 0x80 to 0xA7 are illegal on a service core (R207): reason 1. -/
def noSvc (i : Instr) : M PUnit := do
  if isSvc (← me) then fault (illegalFault (← myCore).act 1 ((encodeParts i).getD ⟨0, 0, 0, 0⟩))

/-- A := f of one, two or three vector sources (R219). -/
def vec1 (i : Instr) (f : BitVec 512 → BitVec 512) (a b : VOp) : M PUnit := do
  noSvc i
  let xs ← gather (some a) [b]
  writeV a (f (xs.getD 0 0))
def vec2 (i : Instr) (f : BitVec 512 → BitVec 512 → BitVec 512) (a b c : VOp) : M PUnit := do
  noSvc i
  let xs ← gather (some a) [b, c]
  writeV a (f (xs.getD 0 0) (xs.getD 1 0))
def vec3 (i : Instr) (f : BitVec 512 → BitVec 512 → BitVec 512 → BitVec 512) (a b c d : VOp) : M PUnit := do
  noSvc i
  let xs ← gather (some a) [b, c, d]
  writeV a (f (xs.getD 0 0) (xs.getD 1 0) (xs.getD 2 0))

/-- A function of f32 lanes (R202). -/
def fun32 (f : FVal → FVal) (x : BitVec 512) : BitVec 512 :=
  map1 .f32 (fun b => roundTo fF32 .rne false (f (fF32.decode b))) x

/-! ## Instructions -/

/-- `vadd` (R221). -/
def execVadd (ty : VTy) (a b c : VOp) (s : State) : Host.Outcome State Fault Refusal :=
  run (vec2 (.vadd ty a b c) (map2 ty (laneAdd ty)) a b c) s

/-- `vsub` (R221). -/
def execVsub (ty : VTy) (a b c : VOp) (s : State) : Host.Outcome State Fault Refusal :=
  run (vec2 (.vsub ty a b c) (map2 ty (laneSub ty)) a b c) s

/-- `vmul` (R221). -/
def execVmul (ty : VTy) (a b c : VOp) (s : State) : Host.Outcome State Fault Refusal :=
  run (vec2 (.vmul ty a b c) (map2 ty (laneMul ty)) a b c) s

/-- `vmax` (R221). -/
def execVmax (ty : VTy) (a b c : VOp) (s : State) : Host.Outcome State Fault Refusal :=
  run (vec2 (.vmax ty a b c) (map2 ty (lanePick true ty)) a b c) s

/-- `vmin` (R221). -/
def execVmin (ty : VTy) (a b c : VOp) (s : State) : Host.Outcome State Fault Refusal :=
  run (vec2 (.vmin ty a b c) (map2 ty (lanePick false ty)) a b c) s

/-- `vfma` (R221): A is its addend. -/
def execVfma (ty : VTy) (a b c : VOp) (s : State) : Host.Outcome State Fault Refusal :=
  run (do
    noSvc (.vfma ty a b c)
    let xs ← gather (some a) [b, c]
    let x := Table.get 0 (← myCore).vec.v a.sel.toNat
    writeV a (map3 ty (laneFma ty) x (xs.getD 0 0) (xs.getD 1 0))) s

/-- `vabs` (R221). -/
def execVabs (ty : VTy) (a b : VOp) (s : State) : Host.Outcome State Fault Refusal :=
  run (vec1 (.vabs ty a b) (map1 ty (laneAbs ty)) a b) s

/-- `vneg` (R221). -/
def execVneg (ty : VTy) (a b : VOp) (s : State) : Host.Outcome State Fault Refusal :=
  run (vec1 (.vneg ty a b) (map1 ty (laneNeg ty)) a b) s

/-- `vrcp` (R202, R221). -/
def execVrcp (a b : VOp) (s : State) : Host.Outcome State Fault Refusal :=
  run (vec1 (.vrcp a b) (fun32 FVal.rcp) a b) s

/-- `vrsqrt` (R202, R221). -/
def execVrsqrt (a b : VOp) (s : State) : Host.Outcome State Fault Refusal :=
  run (vec1 (.vrsqrt a b) (fun32 FVal.rsqrt) a b) s

/-- `vexp2` (R202, R221). -/
def execVexp2 (a b : VOp) (s : State) : Host.Outcome State Fault Refusal :=
  run (vec1 (.vexp2 a b) (fun32 FVal.exp2) a b) s

/-- `vlog2` (R202, R221). -/
def execVlog2 (a b : VOp) (s : State) : Host.Outcome State Fault Refusal :=
  run (vec1 (.vlog2 a b) (fun32 FVal.log2) a b) s

/-- `vcmp` (R222). -/
def execVcmp (cond : Cond) (ty : VTy) (a b c : VOp) (s : State) : Host.Outcome State Fault Refusal :=
  run (vec2 (.vcmp cond ty a b c) (map2 ty (laneCmp cond ty)) a b c) s

/-- `vsel` (R222). -/
def execVsel (ty : VTy) (a b c d : VOp) (s : State) : Host.Outcome State Fault Refusal :=
  run (vec3 (.vsel ty a b c d) (map3 ty laneSel) a b c d) s

/-- `vcvt` (R223). -/
def execVcvt (ty : VTy) (dty : DTy) (rnd : Rnd) (sat : Bool) (a b : VOp) (s : State) : Host.Outcome State Fault Refusal :=
  run (vec1 (.vcvt ty dty rnd sat a b) (vcvtReg ty dty rnd sat) a b) s

/-- `vquant` (R224). -/
def execVquant (a b c : VOp) (s : State) : Host.Outcome State Fault Refusal :=
  run (vec2 (.vquant a b c) vquantReg a b c) s

/-- `vdeq` (R224). -/
def execVdeq (a b c d : VOp) (s : State) : Host.Outcome State Fault Refusal :=
  run (vec3 (.vdeq a b c d) vdeqReg a b c d) s

/-- `vredadd` (R225). -/
def execVredadd (ty : VTy) (a b : VOp) (s : State) : Host.Outcome State Fault Refusal :=
  run (vec1 (.vredadd ty a b) (reduceReg (laneAdd ty) ty) a b) s

/-- `vredmax` (R225). -/
def execVredmax (ty : VTy) (a b : VOp) (s : State) : Host.Outcome State Fault Refusal :=
  run (vec1 (.vredmax ty a b) (reduceReg (lanePick true ty) ty) a b) s

/-- `vredmin` (R225). -/
def execVredmin (ty : VTy) (a b : VOp) (s : State) : Host.Outcome State Fault Refusal :=
  run (vec1 (.vredmin ty a b) (reduceReg (lanePick false ty) ty) a b) s

/-- `vbcast` (R226). -/
def execVbcast (ty : VTy) (a : VOp) (b : Sel) (s : State) : Host.Outcome State Fault Refusal :=
  run (do
    noSvc (.vbcast ty a b)
    let x ← gatherScalar a b
    writeV a (ofLanes ty.width (List.replicate ty.lanes (x.toNat % 2 ^ ty.width)))) s

/-- `vext` (R226). -/
def execVext (ty : VTy) (a : Sel) (b : BitVec 4) (lane_ : BitVec 8) (s : State) : Host.Outcome State Fault Refusal :=
  run (do
    noSvc (.vext ty a b lane_)
    checkDeferred
    let x := lane (Table.get 0 (← myCore).vec.v b.toNat) ty.width lane_.toNat
    writeOp a (if ty.isFloat then BitVec.ofNat 64 x else BitVec.ofInt 64 (signedOf ty.width x))) s

/-- `vshuf` (R226). -/
def execVshuf (ty : VTy) (a b c : VOp) (s : State) : Host.Outcome State Fault Refusal :=
  run (vec2 (.vshuf ty a b c) (fun x y => map1 ty (fun k => lane x ty.width (k % ty.lanes)) y) a b c) s

/-- `vand` (R226). -/
def execVand (a b c : VOp) (s : State) : Host.Outcome State Fault Refusal :=
  run (vec2 (.vand a b c) (fun x y => x &&& y) a b c) s

/-- `vor` (R226). -/
def execVor (a b c : VOp) (s : State) : Host.Outcome State Fault Refusal :=
  run (vec2 (.vor a b c) (fun x y => x ||| y) a b c) s

/-- `vxor` (R226). -/
def execVxor (a b c : VOp) (s : State) : Host.Outcome State Fault Refusal :=
  run (vec2 (.vxor a b c) (fun x y => x ^^^ y) a b c) s

/-- `vshl` (R226). -/
def execVshl (ty : VTy) (a b c : VOp) (s : State) : Host.Outcome State Fault Refusal :=
  run (vec2 (.vshl ty a b c) (map2 ty (laneShl ty)) a b c) s

/-- `vshr` (R226). -/
def execVshr (ty : VTy) (a b c : VOp) (s : State) : Host.Outcome State Fault Refusal :=
  run (vec2 (.vshr ty a b c) (map2 ty (laneShr ty)) a b c) s

/-- `vsar` (R226). -/
def execVsar (ty : VTy) (a b c : VOp) (s : State) : Host.Outcome State Fault Refusal :=
  run (vec2 (.vsar ty a b c) (map2 ty (laneSar ty)) a b c) s

/-- `vld` and `vst` reach the local store of the newt alone, which in a lizard is the head's: its 17-bit offsets bound them (R206, R271). -/
def headCheck (off : Nat) : M PUnit := do
  if off % 64 ≠ 0 then fault (faultAt 0x03 (BitVec.ofNat 64 off))
  if 0x20000 < off + 64 then fault (faultAt 0x04 (BitVec.ofNat 64 off))

/-- `vld` (R227). -/
def execVld (a : BitVec 4) (b : Sel) (imm : BitVec 22) (s : State) : Host.Outcome State Fault Refusal :=
  run (do
    noSvc (.vld a b imm)
    checkDeferred
    let x ← readOp b
    headCheck (effAddr x imm)
    let bs ← localRead (effAddr x imm) 64
    modMe fun c => { c with vec := { c.vec with v := Table.set c.vec.v a.toNat (BitVec.ofNat 512 (leNat bs)) } }) s

/-- `vst` (R227). -/
def execVst (a : BitVec 4) (b : Sel) (imm : BitVec 22) (s : State) : Host.Outcome State Fault Refusal :=
  run (do
    noSvc (.vst a b imm)
    checkDeferred
    let x ← readOp b
    headCheck (effAddr x imm)
    localWrite (effAddr x imm) (leBytes 64 (Table.get (0 : BitVec 512) (← myCore).vec.v a.toNat).toNat)) s

/-- `vmov` (R226). -/
def execVmov (a b : VOp) (s : State) : Host.Outcome State Fault Refusal :=
  run (vec1 (.vmov a b) (fun x => x) a b) s

end Sys2Proof.Machine
end

