-- ==== Sys2Proof/Machine/Matrix.lean ====
section
/-! DEFINITION. Matrix instructions (R228 to R235): the checks at issue in the order of R208, the fork of an operation, and the
steps in which operations start and complete. -/

namespace Sys2Proof.Machine

/-! ## Issue (R206, R208, R209) -/

/-- The column of a newt in its row (R14, R15). -/
def columnOf (k : Nat) : Nat := k % 8

/-- Order 2 of R208: a draw token (R234). -/
def tokenCheck : M PUnit := do
  if (← myCore).ctl.draw = 0 then fault { code := 0x0E }

/-- A ring that a matrix operation names is fit for it (R218), else 0x11. -/
def matRingCheck (h : Nat) : M PUnit := do
  let r := (← myCore).ring h
  if r.count = 0 ∨ r.slog.toNat ≠ 12 ∨ 4 - bitsOf r.base.toNat 13 12 < r.count.toNat then fault (ringFault h)

/-- The bank of a ring has the instruction's format, else 0x15 with sub-cause 2 at issue (R229). -/
def matFmtCheck (fmt : MFmt) (h : Nat) : M PUnit := do
  let c ← myCore
  if fmtOf (Table.get 0 c.ctl.bfmt ((c.ring h).base.toNat / 0x4000)) ≠ mfmtCode fmt then
    fault { engFault 0 2 0 h c.act.pc 0 0 with w6 := c.act.pc, kind := 0 }

/-- Orders 4 and 5 of R208: the event exists, and ranks above every ring waited on (R66). The event's rank, or none; `h` is
the engine's HOLDER. -/
def eventCheck (h : Nat) (ev : BitVec 16) (rings : List Nat) : M (Option Nat) := do
  if ev.toNat = Config.noEvent then return none
  let s ← getS
  match s.event s.myPart ev.toNat with
  | none => fault (objFault (evW3 ev.toNat))
  | some e =>
    let c ← myCore
    match rings.find? fun x => decide (e.rank.toNat ≤ (c.ring x).rank.toNat) with
    | some x => fault (rankFault (ringW3 x) (c.ring x).rank.toNat e.rank.toNat)
    | none =>
      if c.oweOverflows h ev.toNat 1 then fault (objFault (evW3 ev.toNat))
      return some e.rank.toNat

/-- An operation is forked (R58, R206, R208): it waits while both queue entries are taken; it takes its obligation and the
issue-time BFMT. -/
def forkM (kind : MKind) (ev : BitVec 16) (rank : Option Nat) : M PUnit := do
  commitFirst
  let c ← myCore
  if 2 ≤ (c.eng.mq.filter fun o => !o.started).length then stall
  modMe fun c =>
    let o : MOp := { kind := kind, ev := ev, pc := c.act.pc, slot := c.runSlot, seq := c.act.uid, bfmt := c.ctl.bfmt
                     ord := c.eng.issued }
    let c1 := { c with eng := { c.eng with mq := c.eng.mq ++ [o], issued := c.eng.issued + 1 } }
    match rank with
    | some r => c1.owe holderMx ev.toNat 1 r
    | none => c1

/-- `mma` (R229). -/
def execMma (fmt : MFmt) (a : BitVec 2) (rb rc : BitVec 4) (ev : BitVec 16) (s : State) :
    Host.Outcome State Fault Refusal :=
  run (do
    noSvc (.mma fmt a rb rc ev)
    checkDeferred
    tokenCheck
    matRingCheck rb.toNat
    matRingCheck rc.toNat
    if rb = rc then fault (ringFault rb.toNat)
    matFmtCheck fmt rb.toNat
    matFmtCheck fmt rc.toNat
    let r ← eventCheck holderMx ev [rb.toNat, rc.toNat]
    forkM (.mma fmt a.toNat rb.toNat rc.toNat) ev r) s

/-- `gmma` (R230): a member other than the leader ignores its A ring. -/
def execGmma (fmt : MFmt) (a : BitVec 2) (rb rc : BitVec 4) (ev : BitVec 16) (s : State) :
    Host.Outcome State Fault Refusal :=
  run (do
    noSvc (.gmma fmt a rb rc ev)
    checkDeferred
    let c ← myCore
    let k ← me
    if c.ctl.gangm = 0 then fault (objFault 0)
    tokenCheck
    let lead := leaderCol c.ctl.gangm == columnOf k
    if lead then matRingCheck rb.toNat
    matRingCheck rc.toNat
    if lead ∧ rb = rc then fault (ringFault rb.toNat)
    if lead then matFmtCheck fmt rb.toNat
    matFmtCheck fmt rc.toNat
    let r ← eventCheck holderMx ev (if lead then [rb.toNat, rc.toNat] else [rc.toNat])
    forkM (.gmma fmt a.toNat rb.toNat rc.toNat (c.eng.gseq + 1)) ev r
    modMe fun c => { c with eng := { c.eng with gseq := c.eng.gseq + 1 } }) s

/-- `mzero` (R232). -/
def execMzero (a : BitVec 2) (s : State) : Host.Outcome State Fault Refusal :=
  run (do
    noSvc (.mzero a)
    checkDeferred
    forkM (.mzero a.toNat) 0xFFFF none) s

/-- `mscale` (R232): the factor is read at issue. -/
def execMscale (a : BitVec 2) (b : Sel) (s : State) : Host.Outcome State Fault Refusal :=
  run (do
    noSvc (.mscale a b)
    checkDeferred
    let x ← readOp b
    forkM (.mscale a.toNat (x.setWidth 32)) 0xFFFF none) s

/-- The alignment of an image in a format (R233). -/
def imageAlign (code : Nat) : Nat :=
  match code with
  | 0 => 256
  | 1 => 128
  | 2 => 128
  | 5 => 128
  | 6 => 128
  | _ => 64

/-- The checks of `mst` and `mld` at issue (R233); in a lizard the head's 17-bit offsets bound them (R206, R271). The format of an offset
that no bank holds is that of the bank which its bits [16:14] name, so 0x15 may come before 0x04 (DESIGN CHOICE, log 111). -/
def imageCheck (off : Nat) : M PUnit := do
  let c ← myCore
  let code := fmtOf (Table.get 0 c.ctl.bfmt (bitsOf off 16 14))
  if 6 < code then fault { engFault 0 2 0 0 c.act.pc 0 0 with w6 := c.act.pc, kind := 0 }
  if off % imageAlign code ≠ 0 then fault (faultAt 0x03 (BitVec.ofNat 64 off))
  if 0x20000 < off + imageSize code ∨ meetsInbox off (imageSize code) then fault (faultAt 0x04 (BitVec.ofNat 64 off))

/-- `mst` (R233): a write range with P = 1 sets the side-effect flag (R209). -/
def execMst (a : BitVec 2) (b : Sel) (ev : BitVec 16) (s : State) : Host.Outcome State Fault Refusal :=
  run (do
    noSvc (.mst a b ev)
    checkDeferred
    let off := (← readOp b).toNat
    imageCheck off
    let r ← eventCheck holderMx ev []
    forkM (.mst a.toNat off) ev r
    if (← getS).tagAt (← me) off |>.p then setSideFlag) s

/-- `mld` (R233). -/
def execMld (a : BitVec 2) (b : Sel) (ev : BitVec 16) (s : State) : Host.Outcome State Fault Refusal :=
  run (do
    noSvc (.mld a b ev)
    checkDeferred
    let off := (← readOp b).toNat
    imageCheck off
    let r ← eventCheck holderMx ev []
    forkM (.mld a.toNat off) ev r) s

/-- An operation is a `gmma`. -/
def MKind.isGang : MKind → Bool
  | .gmma .. => true
  | _ => false

/-- GANGM set once every earlier `gmma` has completed (R231); the count of `gmma`s starts again. -/
def setGang (mask : BitVec 8) : M PUnit := do
  commitFirst
  if (← myCore).eng.mq.any (·.kind.isGang) then stall
  modMe fun c => { c with
    ctl := { c.ctl with gangm := mask }
    eng := { c.eng with gseq := 0, lost := [] } }

/-- `gang` (R231): a mask without the newt's own column is an illegal code, reason 5. -/
def execGang (mask : BitVec 8) (s : State) : Host.Outcome State Fault Refusal :=
  run (do
    noSvc (.gang mask)
    if !mask.getLsbD (columnOf (← me)) then
      fault (illegalFault (← myCore).act 5 ((encodeParts (.gang mask)).getD ⟨0, 0, 0, 0⟩))
    checkDeferred
    setGang mask) s

/-- `ungang` (R231). -/
def execUngang (s : State) : Host.Outcome State Fault Refusal :=
  run (do
    noSvc .ungang
    checkDeferred
    setGang 0) s

/-! ## Start (R206, R212, R229, R233) -/

/-- The operation's operands are there and the scoreboard lets it begin: `mma` needs a filled slot in both rings. -/
def Core.mReady (c : Core) (o : MOp) : Bool :=
  match o.kind with
  | .mma _ _ hb hc =>
    decide (1 ≤ (c.ring hb).filled.toNat) && decide (1 ≤ (c.ring hc).filled.toNat)
      && !c.pumpHolds (c.tailOff hb) 4096 false && !c.pumpHolds (c.tailOff hc) 4096 false
  | .mst _ off => !c.pumpHolds off ((o.range.map (·.2)).getD 0) true
  | .mld _ off => !c.pumpHolds off ((o.range.map (·.2)).getD 0) false
  | .mzero _ | .mscale _ _ => true
  | .gmma .. => false

/-- The accumulator that an operation works on. -/
def MKind.dest : MKind → Nat
  | .mma _ a _ _ => a
  | .gmma _ a _ _ _ => a
  | .mzero a => a
  | .mscale a _ => a
  | .mst a _ => a
  | .mld a _ => a

/-- The head of the matrix queue starts, with the pre-image of its accumulator (R235). -/
def Core.startM (c : Core) : Core :=
  match c.eng.mq with
  | o :: t => { c with eng := { c.eng with
      mq := { o with started := true, pre := Table.get 0 c.vec.a o.kind.dest } :: t } }
  | [] => c

/-- The head of the matrix queue of core `k` can start now; none starts while the newt is being saved (R349). -/
def State.canStartM (s : State) (k : Nat) : Bool :=
  match (s.core k).eng.mq with
  | o :: _ => !o.started && !s.frozen k && (s.core k).mReady o
  | [] => false

/-- MATRIX_OP_START: the operation at the head of core `k`'s matrix queue, other than a `gmma`, starts (R206, R229). -/
def execMatrixOpStart (k : Nat) (s : State) : Host.Outcome State Fault Refusal :=
  if s.canStartM k then .next (s.modCore k Core.startM) else .next s

/-! ## Completion -/

/-- A deferred fault in the slot at TAIL of a ring (R235). -/
def Core.slotFaultM (c : Core) (o : MOp) (h sub off : Nat) : FaultRec := engFault 0 sub (c.ring h).tail.toNat h o.pc off off

/-- A ring popped (R218); one that has nothing is left as it is. -/
def Core.popRing (c : Core) (h : Nat) : Core :=
  if (c.ring h).filled = 0 then c else c.setRing h ((c.ring h).advc 1)

/-- An accumulator written. -/
def Core.setAcc (c : Core) (a : Nat) (x : BitVec 2048) : Core :=
  { c with vec := { c.vec with a := Table.set c.vec.a a x } }

/-- `mma` completes (R229, R235). -/
def State.finishMma (s : State) (k : Nat) (o : MOp) (fmt : MFmt) (a hb hc : Nat) : State :=
  let n := usedBytes fmt
  let ob := (s.core k).tailOff hb
  let oc := (s.core k).tailOff hc
  let s1 := (s.secded k ob n).secded k oc n
  match s1.badSector k ob (n / 32), s1.badSector k oc (n / 32) with
  | some (sub, x), _ => (s1.countBad k sub).endPoisonedM k o (some ((s1.core k).slotFaultM o hb sub x))
  | none, some (sub, x) => (s1.countBad k sub).endPoisonedM k o (some ((s1.core k).slotFaultM o hc sub x))
  | none, none =>
    let acc := addGroups fmt (s1.slotNat k ob n) (s1.slotNat k oc n) 0 o.pre 12
    (s1.modCore k fun c => ((c.setAcc a acc).popRing hb).popRing hc).endM k o

/-- `mst` completes (R233): an engine write under the tag it meets; an expired granule is a deferred fault. -/
def State.finishMst (s : State) (k : Nat) (o : MOp) (a off : Nat) : State :=
  if s.expiredAt k off then s.endPoisonedM k o (some (engFault 0 3 0 0 o.pc off off))
  else
    let bs := imageOf (Table.get 0 o.bfmt (off / 0x4000)) (Table.get 0 (s.core k).vec.a a)
    (s.engineLand k off (s.landingRenews k ((s.core k).from30 o.slot o.seq)) false bs).endM k o

/-- `mld` completes (R233): a stale or poisoned sector leaves the accumulator unchanged. -/
def State.finishMld (s : State) (k : Nat) (o : MOp) (a off : Nat) : State :=
  let code := fmtOf (Table.get 0 o.bfmt (off / 0x4000))
  let s1 := s.secded k off (imageSize code)
  match s1.badSector k off ((imageSize code + 31) / 32) with
  | some (sub, x) => (s1.countBad k sub).endPoisonedM k o (some (engFault 0 sub 0 0 o.pc x x))
  | none => (s1.modCore k fun c => c.setAcc a (accOfImage code (s1.slotNat k off (imageSize code)))).endM k o

/-- The operation at the head of a newt's matrix queue, if it is the running `gmma` of join `n`. -/
def Core.runningGang (c : Core) (n : Nat) : Option MOp :=
  match c.eng.mq with
  | o :: _ =>
    match o.started, o.kind with
    | true, .gmma _ _ _ _ m => if m = n then some o else none
    | _, _ => none
  | [] => none

/-- A member's own B slot, and for the leader its A slot, with a failing sector among those still to be read (R355): the ring,
the sub-cause and the offset (R235, R355). -/
def State.gangBad (s : State) (lead m : Nat) (o : MOp) : Option (Nat × Nat × Nat) :=
  match o.kind with
  | .gmma fmt _ hb hc _ =>
    let a := if m = lead then s.badAmong m ((s.core m).tailOff hb) (liveSectors fmt o.group (s.core m).eng.spill.length) else none
    match a, s.badAmong m ((s.core m).tailOff hc) (liveSectors fmt o.group 0) with
    | some (sub, x), _ => some (hb, sub, x)
    | none, some (sub, x) => some (hc, sub, x)
    | none, none => none
  | _ => none

/-- The operands of a join's members pass SECDED as they are read (R91). -/
def State.gangSecded (s : State) (lead n : Nat) : List Nat → State
  | [] => s
  | m :: t =>
    let s1 := match (s.core m).runningGang n with
      | some o =>
        match o.kind with
        | .gmma fmt _ hb hc _ =>
          let s2 := s.secded m ((s.core m).tailOff hc) (usedBytes fmt)
          if m = lead then s2.secded m ((s.core m).tailOff hb) (usedBytes fmt) else s2
        | _ => s
      | none => s
    State.gangSecded s1 lead n t

/-- Every member of a join ends without effect; those whose own slot failed are charged (R230, R235). -/
def State.gangAbort (s : State) (lead n : Nat) : List Nat → State
  | [] => s
  | m :: t =>
    let s1 := match (s.core m).runningGang n with
      | some o =>
        match s.gangBad lead m o with
        | some (h, sub, x) => (s.countBad m sub).endPoisonedM m o (some ((s.core m).slotFaultM o h sub x))
        | none => s.endPoisonedM m o none
      | none => s
    State.gangAbort s1 lead n t

/-- One member's result: its accumulator, its own B slot popped (R230). -/
def State.gangMember (s : State) (m xa : Nat) (o : MOp) : State :=
  match o.kind with
  | .gmma fmt a _ hc _ =>
    let xb := s.slotNat m ((s.core m).tailOff hc) (usedBytes fmt)
    let from_ := if o.group = 0 then o.pre else Table.get 0 (s.core m).vec.a a
    (s.modCore m fun c => (c.setAcc a (addGroups fmt xa xb o.group from_ (12 - o.group))).popRing hc).endM m o
  | _ => s

/-- Every member's result in turn; the leader's A slot is popped last. -/
def State.gangMembers (s : State) (n : Nat) : List (Nat × Nat) → State
  | [] => s
  | (m, xa) :: t =>
    State.gangMembers (match (s.core m).runningGang n with
      | some o => s.gangMember m xa o
      | none => s) n t

/-- A `gmma` completes in every member at once (R230, R235): where a member's operation has gone, or an operand failed, in every
member without effect. -/
def State.finishGang (s0 : State) (k n : Nat) : State :=
  let ms := s0.gangOf k
  let lead := ms.headD k
  let s := s0.gangSecded lead n ms
  let ops := ms.map fun m => (m, (s.core m).runningGang n)
  if ops.any (fun x => x.2.isNone) || ops.any (fun x => (x.2.map fun o => (s.gangBad lead x.1 o).isSome).getD false) then
    s.gangAbort lead n ms
  else
    match (s.core lead).runningGang n with
    | none => s
    | some lo =>
      let xas := ops.map fun x => (x.1, (x.2.map fun o => s.gangA x.1 lead o lo).getD 0)
      let s1 := s.gangMembers n xas
      match lo.kind with
      | .gmma _ _ hb _ _ => s1.modCore lead fun c => (c.popRing hb).wakeLocal
      | _ => s1

/-- MATRIX_OP_COMPLETE: the running operation of core `k`'s matrix engine completes (R229 to R235). A `gmma` stopped for a save
waits (R355). -/
def execMatrixOpComplete (k : Nat) (s : State) : Host.Outcome State Fault Refusal :=
  match (s.core k).eng.mq with
  | [] => .next s
  | o :: _ =>
    if !o.started then .next s
    else
      match o.kind with
      | .mma fmt a hb hc => .next (s.finishMma k o fmt a hb hc)
      | .gmma _ _ _ _ n => if s.frozen k then .next s else .next (s.finishGang k n)
      | .mzero a => .next ((s.modCore k fun c => c.setAcc a 0).endM k o)
      | .mscale a f => .next ((s.modCore k fun c => c.setAcc a (scaleAcc f (Table.get 0 c.vec.a a))).endM k o)
      | .mst a off => .next (s.finishMst k o a off)
      | .mld a off => .next (s.finishMld k o a off)

/-! ## The join of a gang (R230) -/

/-- What a member has at its matrix queue's head for join `n`: its waiting operation. -/
def Core.waitingGang (c : Core) (n : Nat) : Option MOp :=
  match c.eng.mq with
  | o :: _ =>
    match o.started, o.kind with
    | false, .gmma _ _ _ _ m => if m = n then some o else none
    | _, _ => none
  | [] => none

/-- The format of a `gmma`. -/
def MOp.gfmt (o : MOp) : Option MFmt :=
  match o.kind with
  | .gmma f _ _ _ _ => some f
  | _ => none

/-- A member's operands for a join are filled; the leader's A ring too (R230). -/
def Core.gangFilled (c : Core) (lead : Bool) (o : MOp) : Bool :=
  match o.kind with
  | .gmma _ _ hb hc _ =>
    (!lead || decide (1 ≤ (c.ring hb).filled.toNat)) && decide (1 ≤ (c.ring hc).filled.toNat)
      && !c.pumpHolds (c.tailOff hc) 4096 false && (!lead || !c.pumpHolds (c.tailOff hb) 4096 false)
  | _ => false

/-- The join of `gmma` number `n` is broken: a member's operation was cancelled, and every other ends without effect (R243), one of a
newt too that executes its `gang` after the kill. -/
def State.gangBroken (s : State) (k n : Nat) : Bool :=
  (s.core k).eng.lost.contains n || (s.gangOf k).any fun m =>
    (s.core m).ctl.gangm == (s.core k).ctl.gangm && (s.core m).eng.lost.contains n

/-- The join of `gmma` number `n` is complete: the members' GANGMs are equal, each has its operation at the head, none is being
saved, and the operands are there (R230, R231). -/
def State.gangJoined (s : State) (k n : Nat) : Bool :=
  let ms := s.gangOf k
  ms.all fun m => (s.core m).ctl.gangm == (s.core k).ctl.gangm && !s.frozen m &&
    (match (s.core m).waitingGang n with
      | some o => (s.core m).gangFilled (ms.headD k == m) o
      | none => false)

/-- The waiting operations of a join end without effect, poisoned; a member whose format differs from the leader's is charged
0x15 with sub-cause 2 where `charge` says so (R230). -/
def State.endWaiting (s : State) (n : Nat) (fmt : Option MFmt) : List Nat → State
  | [] => s
  | m :: t =>
    let s1 := match (s.core m).waitingGang n with
      | some o =>
        if fmt.isSome ∧ o.gfmt ≠ fmt then s.endPoisonedM m o (some (engFault 0 2 0 0 o.pc 0 0))
        else s.endPoisonedM m o none
      | none => s
    State.endWaiting s1 n fmt t

/-- The `gmma` number at the head of core `k`'s matrix queue, not started. -/
def Core.joinNumber (c : Core) : Option Nat :=
  match c.eng.mq with
  | o :: _ =>
    match o.started, o.kind with
    | false, .gmma _ _ _ _ n => some n
    | _, _ => none
  | [] => none

/-- GMMA_JOIN_START: the join that core `k`'s waiting `gmma` belongs to starts in every member, or ends without effect where the
formats differ or a member was cancelled (R230, R243). -/
def execGmmaJoinStart (k : Nat) (s : State) : Host.Outcome State Fault Refusal :=
  match (s.core k).joinNumber with
  | none => .next s
  | some n =>
    let ms := s.gangOf k
    if s.gangBroken k n then .next (s.endWaiting n none [k])
    else if s.gangJoined k n then
      let lead := ms.headD k
      let fmt := ((s.core lead).waitingGang n).bind (·.gfmt)
      if ms.all fun m => ((s.core m).waitingGang n).bind (·.gfmt) == fmt then
        .next (ms.foldl (fun s m => s.modCore m Core.startM) s)
      else .next (s.endWaiting n fmt ms)
    else .next s

end Sys2Proof.Machine
end

