-- ==== Sys2Proof/Machine/NetEngine.lean ====
section
/-! DEFINITION. The network engine (R57, R287, R376, R381, R382, R390): queue pairs, work entries, arrivals, errors, congestion and
pauses. A step that is not due changes nothing. -/

namespace Sys2Proof.Machine

/-- A queue pair changed by `f`. -/
def State.modQp (s : State) (n : Nat) (f : QPair → QPair) : State := { s with net := Table.set s.net n (f (s.qp n)) }

/-- Queue pair `n` is one of the module's and assigned to a partition that exists (R381). -/
def State.hasPair (s : State) (n : Nat) : Bool := decide (n < 65536) && has s.parts (s.qp n).part

/-- The completion event of an entry signalled (R70, R382): the engine's obligation is discharged with it. -/
def State.payEntry (s : State) (p : Nat) (e : WEntry) (poison : Bool) : State :=
  if e.ev = Config.noEvent then s else s.signal p e.ev 1 poison

/-- Entries completed poisoned (R382). -/
def State.failEntries (s : State) (p : Nat) : List WEntry → State
  | [] => s
  | e :: t => State.failEntries (s.payEntry p e true) p t

/-- A transport error (R382): every entry completes poisoned, the receive entries that arrivals have consumed among them, and the queue pair
is in the error state. -/
def State.qpError (s : State) (n : Nat) : State :=
  let x := s.qp n
  (s.failEntries x.part (x.ops ++ x.arr.filterMap (·.entry))).modQp n fun x => { x with ops := [], arr := [], err := true }

/-- The fields of a work entry (R382). -/
def WEntry.op (e : WEntry) : Nat := bitsOf (e.words.getD 0 0).toNat 7 0
def WEntry.lva (e : WEntry) : Nat := (e.words.getD 1 0).toNat
def WEntry.len (e : WEntry) : Nat := bitsOf (e.words.getD 2 0).toNat 31 0

/-- An entry that R382 does not admit: a reserved bit, no operation, an address that is not aligned, or a length beyond 2^31. -/
def WEntry.bad (e : WEntry) : Bool :=
  bitsOf (e.words.getD 0 0).toNat 15 8 != 0 || e.op == 0 || decide (4 < e.op) || e.lva % 32 != 0 || decide (2 ^ 31 < e.len)
    || bitsOf (e.words.getD 2 0).toNat 63 32 != 0 || bitsOf (e.words.getD 4 0).toNat 63 32 != 0

/-- One entry taken at a tail write (R382). In the error state, or where it is not admitted, it completes poisoned; a ring that
cannot be read puts the queue pair in the error state (DESIGN CHOICE, log 45). -/
def State.takeEntry (s : State) (n : Nat) : State :=
  let x := s.qp n
  let s0 := s.modQp n fun x => { x with head := x.head + 1, bells := x.bells.filter fun b => b.1 != x.head + 1 }
  match s0.fwRead x.part (x.sbase.toNat + 64 * x.head.toNat) 64 with
  | .held => s
  | .bad s1 => s1.qpError n
  | .ok bs s1 =>
    let e : WEntry := { words := (wordsOf bs 8).take 5, began := (x.bells.head?.map (·.2)).getD s.cycle }
    if x.err ∨ e.bad then s1.payEntry x.part e true
    else s1.modQp n fun x => { x with ops := x.ops ++ [e] }

/-- The new entries taken one after another; `fuel` is their number. -/
def State.takeEntries (s : State) (n : Nat) : Nat → State
  | 0 => s
  | fuel + 1 => if (s.qp n).head = (s.qp n).tail then s else State.takeEntries (s.takeEntry n) n fuel

/-- QP_TAIL_WRITE: the tail index is written, and each new entry becomes a network-engine operation (R306, R382). -/
def execQpTailWrite (n : Nat) (tail : BitVec 16) (s : State) : Host.Outcome State Fault Refusal :=
  if s.hasPair n then .next ((s.modQp n fun x => x.ring tail s.cycle).takeEntries n (tail - (s.qp n).head).toNat) else .next s

/-- A range of partition `p` is read: whether a sector of it is poisoned, or it does not translate (R390, R391); `fuel` bounds the
lines. -/
def State.badSource (s : State) (p va : Nat) : Nat → Nat → Bool × State
  | 0, _ => (false, s)
  | _, 0 => (false, s)
  | fuel + 1, n =>
    let m := Nat.min n (256 - va % 256)
    match s.xlate p (s.partFirst p) 1 .read va with
    | (.fault .., s1) => (true, s1)
    | (.ok pa home d, s1) =>
      let s2 := s1.readsAt d home pa m
      let rest := State.badSource s2 p (va + m) fuel (n - m)
      ((d == .home || d == .edge) && s2.phys.poisoned d pa m || rest.1, rest.2)

/-- `n` free bytes: what a remote memory holds. -/
def State.remoteBytes (s : State) (n : Nat) : List Byte :=
  (List.range n).map fun i => (Config.freeWord (s.freeCount + i)).setWidth 8

/-- An Ethernet port is ready (R26). -/
def State.ethUp (s : State) : Bool := !s.host.eth.isEmpty

/-- A write of partition `p` by an agent outside the chunk order still waits for a held home (R287). -/
def State.writesWait (s : State) (p : Nat) : Bool := s.late.any (·.part == p)

/-- The oldest operation of queue pair `n` completes (R376, R382). -/
def State.completeEntry (s : State) (n : Nat) (e : WEntry) (poison : Bool) : State :=
  let p := (s.qp n).part
  ((s.modQp n fun x => { x with ops := x.ops.tail }).payEntry p e poison).sample p 2 n (s.cycle - e.began) (List.range 16)

/-- The READ at the head of queue pair `n` completes, its data having been handed to its homes and performed there (R287, R382). -/
def State.readDone (s : State) (n : Nat) : Option State :=
  match (s.qp n).ops with
  | e :: _ => if e.given ∧ !s.writesWait (s.qp n).part then some (s.completeEntry n e false) else none
  | [] => none

/-- The data of the READ at the head of queue pair `n` goes to its homes. -/
def State.giveRead (s : State) (n : Nat) (e : WEntry) : State :=
  State.modQp { s.agentWrite (s.qp n).part e.lva (s.remoteBytes e.len) with freeCount := s.freeCount + e.len } n
    fun x => { x with ops := { e with given := true } :: x.ops.tail }

/-- WORK_ENTRY_COMPLETE: the oldest operation of a queue pair is acknowledged, or its data is performed at the homes, and its event
is signalled (R287, R382); of a READ what a held home delays is performed later, and the event follows. One that meets a poisoned sector
transmits nothing and completes poisoned (R390). -/
def execWorkEntryComplete (n : Nat) (s : State) : Host.Outcome State Fault Refusal :=
  match (if s.ethUp then (s.qp n).ops.head? else none) with
  | none => .next s
  | some e =>
    if e.op = 4 then
      let s1 := if e.given then s else s.giveRead n e
      .next ((s1.readDone n).getD s1)
    else
      let (bad, s1) := s.badSource (s.qp n).part e.lva (e.len / 256 + 2) e.len
      .next (s1.completeEntry n e bad)

/-- The tiles of a partition are its own: not those of a swapped one (R352, R383). -/
def State.present (s : State) (p : Nat) : Bool := has s.parts p && (s.tile (s.partFirst p)).owner == some p

/-- The receive entry at a queue pair's receive index, where one is posted and can be read now (R382). -/
def State.postedEntry (s : State) (x : QPair) : Option (WEntry × State) :=
  match s.fwRead x.part (x.rbase.toNat + 64 * x.rhead.toNat) 64 with
  | .ok bs s1 =>
    let e : WEntry := { words := (wordsOf bs 8).take 5, began := s.cycle }
    if e.len = 0 then none else some (e, s1)
  | _ => none

/-- Where the data of an arrival goes: the buffer of its receive entry for a SEND, the remote address for a WRITE_IMM (R382). -/
def Arrival.dst (a : Arrival) (e : WEntry) : Nat :=
  match a.op with
  | .send => e.lva
  | .writeImm => a.va.toNat

/-- The oldest arrival at queue pair `n` moves on, where it can (R382, R383): it consumes a receive entry; its data goes to its homes;
once that is performed the entry's event is signalled, and a WRITE_IMM may count for a collective. It waits while no entry is posted
(DESIGN CHOICE, log 46) and while the partition is swapped. A SEND longer than its entry's buffer is a transport error. -/
def State.arrivalStage (s : State) (n : Nat) : Option State :=
  let x := s.qp n
  match x.arr with
  | [] => none
  | a :: t =>
    if !s.present x.part then none
    else
      match a.entry with
      | none =>
        (s.postedEntry x).map fun y =>
          let e := y.1
          let s1 := y.2.modQp n fun x => { x with rhead := x.rhead + 1 }
          if a.op = .send ∧ e.len < a.data.length then
            (s1.modQp n fun x => { x with arr := { a with entry := some e } :: t }).qpError n
          else s1.modQp n fun x => { x with arr := { a with entry := some e } :: t }
      | some e =>
        if !a.given then
          some ((s.agentWrite x.part (a.dst e) a.data).modQp n fun x => { x with arr := { a with given := true } :: t })
        else if s.writesWait x.part then none
        else
          let s1 := (s.modQp n fun x => { x with arr := t }).payEntry x.part e false
          some (match a.op with
            | .send => s1
            | .writeImm => { s1 with agenda := .step (.collectiveContribution x.part a.imm a.va a.data.length) :: s1.agenda })

/-- The arrivals at queue pair `n` as far as they can go; `fuel` bounds their stages. -/
def State.arrivals (s : State) (n : Nat) : Nat → State
  | 0 => s
  | fuel + 1 =>
    match s.arrivalStage n with
    | some s1 => State.arrivals s1 n fuel
    | none => s

/-- What waits at queue pair `n` goes on as far as it can. -/
def State.settlePair (s : State) (n : Nat) : State :=
  let s1 := (s.readDone n).getD s
  s1.arrivals n (3 * (s1.qp n).arr.length)

/-- Several of them. -/
def State.settlePairs (s : State) : List Nat → State
  | [] => s
  | n :: t => State.settlePairs (s.settlePair n) t

/-- The queue pairs at which something waits go on (R283, R383). -/
def State.settleNet (s : State) : State :=
  s.settlePairs ((s.net.filter fun x => !x.2.arr.isEmpty || x.2.ops.any (·.given)).map (·.1))

/-- The bytes of an arrival as the save area keeps them while its partition is swapped: immediate value, kind and length, address, data
(R352; DESIGN CHOICE, log 103). -/
def Arrival.image (a : Arrival) : List Byte :=
  leBytes 8 (a.imm.toNat + (if a.op = .send then 0 else 2 ^ 32)) ++ leBytes 8 a.data.length ++ leBytes 8 a.va.toNat ++ a.data

/-- NETWORK_ARRIVAL: a SEND or a WRITE_IMM arrives at a queue pair of a partition through a ready Ethernet port (R26, R382, R383); what
arrives while the partition is swapped is appended to the overflow queue in its save area (R352). Whether the packet has an ECN mark is a
free choice; for one that has, a CNP is generated (R381). -/
def execNetworkArrival (n : Nat) (op : NetOp) (imm : BitVec 32) (va : Word) (data : List Byte) (s : State) :
    Host.Outcome State Fault Refusal :=
  let p := (s.qp n).part
  let a : Arrival := { op := op, imm := imm, va := va, data := data }
  if !s.hasPair n ∨ (s.qp n).err ∨ !s.ethUp then .next s
  else
    let s0 := if s.present p then s else s.putOver p a.image
    let s1 := State.modQp { s0 with freeCount := s.freeCount + 1 } n fun x => { x with
      sent := x.sent + Config.freeNat s.freeCount % 2
      arr := x.arr ++ [a] }
    .next (s1.settlePair n)

/-- TRANSPORT_ERROR (R382). -/
def execTransportError (n : Nat) (s : State) : Host.Outcome State Fault Refusal :=
  if s.hasPair n then .next (s.qpError n) else .next s

/-- CNP_RECEIVED: the engine reduces the queue pair's rate (R381): the reductions are counted, rates being timing. -/
def execCnpReceived (n : Nat) (s : State) : Host.Outcome State Fault Refusal :=
  if s.hasPair n ∧ s.ethUp then .next (s.modQp n fun x => { x with cnp := x.cnp + 1 }) else .next s

/-- PFC_PAUSE_FRAME: an Ethernet port's transmission on a priority is paused or resumed (R22, R381). -/
def execPfcPauseFrame (port prio : Nat) (pause : Bool) (s : State) : Host.Outcome State Fault Refusal :=
  if port < 32 ∧ prio < 8 ∧ s.host.eth.contains port then
    .next { s with paused := Table.set s.paused (port * 8 + prio) (if pause then 1 else 0) }
  else .next s

end Sys2Proof.Machine
end

