-- ==== Sys2Proof/Machine/PumpOps.lean ====
section
/-! DEFINITION. The pump (R236 to R242): `cxgo`, `cxstop`, `cxstat`, and the steps of a chain, one 32-byte sector or one whole
granule of a COPY at a time. -/

namespace Sys2Proof.Machine

/-! ## Instructions -/

/-- `cxgo` (R236, R241): restart state of a chain stopped at the same head is taken up; any other is discarded. -/
def execCxgo (b : Sel) (ev : BitVec 16) (s : State) : Host.Outcome State Fault Refusal :=
  run (do
    checkDeferred
    let x ← readOp b
    let k ← me
    let c ← myCore
    let lvl := (← getS).level k
    let off := x.toNat
    if off % 32 ≠ 0 then fault (faultAt 0x03 x)
    if (if isSvc k then 0x80000 else 0x20000) < off + 32 ∨ localDenied lvl off 32 then fault (faultAt 0x04 x)
    let r ← eventCheck holderCx ev []
    commitFirst
    if 2 ≤ (c.eng.pq.filter fun o => !o.started).length then stall
    modMe fun c =>
      let o : COp := { head := off, ev := ev, pc := c.act.pc, slot := c.runSlot, seq := c.act.uid, lvl := lvl
                       bfmt := c.ctl.bfmt, from_ := c.eng.rest.filter (fun p => p.head == off), ord := c.eng.issued
                       by30 := !isSvc k && c.act.chan == 30 }
      let c1 := { c with eng := { c.eng with pq := c.eng.pq ++ [o], rest := none, issued := c.eng.issued + 1 } }
      match r with
      | some rk => c1.owe holderCx ev.toNat 1 rk
      | none => c1
    setSideFlag) s

/-- The pump as it stands when its chain stops: restart state kept (R241). -/
def Core.stopPump (c : Core) (state sub : Nat) : Core :=
  let p : Pump := { c.eng.pump with state := state, sub := sub, ent := [], paid := false, rd := none, wr := none, going := false }
  { c with eng := { c.eng with pq := c.eng.pq.tail, pump := p, rest := some p } }

/-- The completion event of a chain signalled poisoned; its obligation is discharged unless a SIG has paid it (R210, R238). -/
def State.poisonChain (s : State) (k : Nat) (o : COp) (paid : Bool) : State :=
  if paid then (if o.ev.toNat = Config.noEvent then s else s.signal (s.partId k) o.ev.toNat 1 true)
  else s.cancelEvent k (s.partId k) holderCx o.ev

/-- Queued chains of an activation cancelled, their events poisoned (R210 step 3, R240). -/
def State.cancelLaterC (s : State) (k slot : Nat) (q : BitVec 32) : State :=
  let mine (o : COp) : Bool := !o.started && o.slot == slot && o.seq == q
  let os := (s.core k).eng.pq.filter mine
  (s.modCore k fun c => { c with eng := { c.eng with pq := c.eng.pq.filter fun o => !mine o } }).cancelEvents k (s.partId k)
    holderCx (os.map (·.ev))

/-- `cxstop` (R240): the activation's running chain stops between sectors, its queued chains are cancelled, and no fault is
charged. -/
def execCxstop (s : State) : Host.Outcome State Fault Refusal :=
  run (do
    checkDeferred
    commitFirst
    let k ← me
    let c ← myCore
    match c.eng.pq with
    | o :: _ =>
      if o.started ∧ o.slot = c.runSlot ∧ o.seq = c.act.uid then
        modS fun s => (s.modCore k fun c => c.stopPump 3 0).poisonChain k o c.eng.pump.paid
    | [] => pure ()
    modS fun s => s.cancelLaterC k c.runSlot c.act.uid) s

/-- What `cxstat` reads (R242). While the pump is idle after an END no entry is current: ENTRY reads that END's index (DESIGN CHOICE,
log 110). -/
def Core.pumpStat (c : Core) : Word :=
  let p := c.eng.pump
  BitVec.ofNat 64 (p.done % 2 ^ 32 * 2 ^ 32 + p.idx % 2 ^ 16 * 2 ^ 16 + p.sub * 2 ^ 8
    + (c.eng.pq.filter fun o => !o.started).length * 16 + p.state)

/-- `cxstat` (R242). -/
def execCxstat (a : Sel) (s : State) : Host.Outcome State Fault Refusal :=
  run (do
    checkDeferred
    writeOp a (← myCore).pumpStat) s

/-! ## Entries (R237) -/

/-- A chain entry. -/
inductive Entry where
  | copy (len : Nat) (conv : Bool) (dsp ssp : Nat) (src dst : Word)
  | loop (count back : Nat) (sstr dstr : Word)
  | cond (v : BitVec 32) (ev skip : Nat)
  | sig (n ev : Nat)
  | fin
deriving DecidableEq, Repr

/-- The entry that four words hold, or none where it is malformed (R237). -/
def entryOf (w0 w1 w2 w3 : Word) : Option Entry :=
  let x := w0.toNat
  match bitsOf x 7 0 with
  | 1 =>
    let len := bitsOf x 63 32
    let dsp := bitsOf x 11 10
    let ssp := bitsOf x 9 8
    if bitsOf x 31 13 ≠ 0 ∨ w3 ≠ 0 ∨ dsp = 3 ∨ 2 ≤ ssp ∨ len = 0 ∨ len % 32 ≠ 0 ∨ w1.toNat % 32 ≠ 0 ∨ w2.toNat % 32 ≠ 0
        ∨ (bitOf x 12 ∧ (ssp ≠ 0 ∨ dsp ≠ 0)) then none
    else some (.copy len (bitOf x 12) dsp ssp w1 w2)
  | 2 =>
    if bitsOf x 31 16 ≠ 0 ∨ w3 ≠ 0 ∨ bitsOf x 63 32 = 0 ∨ bitsOf x 15 8 = 0 then none
    else some (.loop (bitsOf x 63 32) (bitsOf x 15 8) w1 w2)
  | 3 =>
    if w1 ≠ 0 ∨ w2 ≠ 0 ∨ w3 ≠ 0 ∨ bitsOf x 15 8 = 0 then none
    else some (.cond (w0.extractLsb' 32 32) (bitsOf x 31 16) (bitsOf x 15 8))
  | 4 =>
    if w1 ≠ 0 ∨ w2 ≠ 0 ∨ w3 ≠ 0 ∨ bitsOf x 15 8 ≠ 0 ∨ bitsOf x 63 32 = 0 then none
    else some (.sig (bitsOf x 63 32) (bitsOf x 31 16))
  | 5 => if w1 ≠ 0 ∨ w2 ≠ 0 ∨ w3 ≠ 0 ∨ bitsOf x 63 8 ≠ 0 then none else some .fin
  | _ => none

/-- A chain faults with a sub-cause (R239, R241): it stops before the sector, its event is poisoned, its activation's later chains are
cancelled and the fault recorded. `addr` is the failing address. Word 7 is SRC + SOFF of the current COPY and zero for a format fault;
of a fault that no COPY meets, the entry's own offset (R210; DEDUCED, log 32). The page of a translation fault is served at the home
tile of word 7's address (R338). -/
def State.chainFault (s : State) (k : Nat) (o : COp) (sub : Nat) (addr : Nat) (src : Option Word) : State :=
  let p := (s.core k).eng.pump
  let w7 : Word := if sub = 2 then 0 else match src with
    | some x => x + p.soff
    | none => BitVec.ofNat 64 addr
  let home := if sub = 5 ∧ !isSvc k then some (s.vaHome (s.partId k) (tileOf k) w7.toNat) else none
  let r : FaultRec := { engFault 2 sub 0 0 o.pc addr w7.toNat with home := home }
  let mine := p.ent.isEmpty || p.rd.isSome
  let s1 := (if sub = 4 ∧ mine then s.poisonUsed k addr else s.countBad k sub).modCore k fun c => c.stopPump 2 sub
  ((s1.charge k (s.partId k) o.slot o.seq r).poisonChain k o p.paid).cancelLaterC k o.slot o.seq

/-- The limit of the pump's local offsets: 17 bits on a newt, the SRAM on a service core (R207, R237). -/
def pumpLimit (k : Nat) : Nat := if isSvc k then 0x80000 else 0x20000

/-- A local range of a chain that may not be touched: past the limit, or at level U the inbox (R35, R238; DEDUCED, log 31). -/
def pumpDenied (k lvl off n : Nat) : Bool := decide (pumpLimit k < off + n) || localDenied lvl off n

/-- The head of the pump's queue starts, from restart state where it has it (R238, R241). -/
def Core.startChain (c : Core) : Core :=
  match c.eng.pq with
  | o :: t =>
    let fresh : Pump := { state := 1, head := o.head, remote := c.eng.pump.remote }
    let p : Pump := match o.from_ with
      | some r => { r with state := 1, sub := 0, ent := [], remote := c.eng.pump.remote, paid := false }
      | none => fresh
    { c with eng := { c.eng with pq := { o with started := true } :: t, pump := p } }
  | [] => c

/-- The entry that the pump is at, as it was read when it was reached. -/
def Pump.entry (p : Pump) : Option Entry :=
  entryOf (p.ent.getD 0 0) (p.ent.getD 1 0) (p.ent.getD 2 0) (p.ent.getD 3 0)

/-- The range that a COPY takes in a local space after an offset is added (R238). -/
def localSpan (a off : Word) (len : Nat) : Nat × Nat := ((a + off).toNat, len)

/-- The size in bytes of an element of a format that the pump converts, 0 where it does not (R194). -/
def convSize (code : Nat) : Nat :=
  match code with
  | 0 => 4
  | 1 => 2
  | 2 => 2
  | 3 => 1
  | 4 => 1
  | 8 => 1
  | 9 => 4
  | _ => 0

/-- FMT of a local offset's bank at issue. -/
def COp.fmtAt (o : COp) (off : Nat) : Nat := fmtOf (Table.get 0 o.bfmt (off / 0x4000))

/-- The sizes of source and destination elements of a COPY: 1 and 1 unless it converts between different formats. A service
core's pump does not convert (R207). -/
def COp.sizes (o : COp) (k : Nat) (conv : Bool) (src dst : Nat) : Nat × Nat :=
  if conv ∧ !isSvc k ∧ o.fmtAt src ≠ o.fmtAt dst then (convSize (o.fmtAt src), convSize (o.fmtAt dst)) else (1, 1)

/-- What the reaching of a COPY finds wrong before any of its sectors: sub-cause 1 or 2 (R237 to R239). A local address field lies in the
core's own space (R207). Where several things are wrong, a bad source range comes first, then the formats, then the destination and the
banks (DESIGN CHOICE, log 109). -/
def State.copyBad (s : State) (k : Nat) (o : COp) (len : Nat) (conv : Bool) (dsp ssp : Nat) (src dst : Word) : Option Nat :=
  let p := (s.core k).eng.pump
  let so := (src + p.soff).toNat
  let d := dst + p.doff
  let dn := if dsp = 2 then d.toNat % 2 ^ 32 else d.toNat
  let (fs, fd) := o.sizes k conv so dn
  let dlen := len / fs * fd
  let wide (x : Word) : Bool := x.toNat >>> (if isSvc k then 19 else 17) != 0
  let srcBad := ssp == 0 && (wide src || pumpDenied k o.lvl so len)
  let dstBad := match dsp with
    | 0 => wide dst || pumpDenied k o.lvl dn dlen
    | 2 => bitsOf dst.toNat 31 17 != 0 || bitsOf dst.toNat 63 52 != 0 || !s.inPart (s.partId k) (tileOf (bitsOf dst.toNat 51 32))
        || decide (0x20000 < dn + dlen) || bitsOf d.toNat 51 32 != bitsOf dst.toNat 51 32 || (o.lvl == 0 && meetsInbox dn dlen)
    | _ => false
  let bankBad := conv && !isSvc k && (so / 0x4000 != (so + len - 1) / 0x4000 || dn / 0x4000 != (dn + dlen - 1) / 0x4000)
  let fmtBad := conv && !isSvc k && (decide (10 ≤ o.fmtAt so) || decide (10 ≤ o.fmtAt dn)
    || (o.fmtAt so != o.fmtAt dn && (fs == 0 || fd == 0)))
  if srcBad then some 1
  else if fmtBad then some 2
  else if dstBad || bankBad then some 1
  else none

/-- The pump reaches the entry at its index: its 32 bytes are read from the cells (R236, R239), and a COPY's ranges are held from
then on (R212). -/
def State.reachEntry (s : State) (k : Nat) (o : COp) : State :=
  let p := (s.core k).eng.pump
  let off := p.head + 32 * p.idx
  if pumpDenied k o.lvl off 32 then s.chainFault k o 1 off none
  else
    let s1 := s.secded k off 32
    match s1.badSector k off 1 with
    | some (sub, x) => s1.chainFault k o sub x none
    | none =>
      let bs := s1.cellsAt k off 32
      let w (i : Nat) : Word := BitVec.ofNat 64 (leNat ((bs.drop (8 * i)).take 8))
      match entryOf (w 0) (w 1) (w 2) (w 3) with
      | none => s1.chainFault k o 1 off none
      | some (.copy len conv dsp ssp src dst) =>
        match s1.copyBad k o len conv dsp ssp src dst with
        | some sub => s1.chainFault k o sub off (some src)
        | none =>
          let (fs, fd) := o.sizes k conv (src + p.soff).toNat (dst + p.doff).toNat
          s1.modCore k fun c => { c with eng := { c.eng with pump := { c.eng.pump with
            ent := [w 0, w 1, w 2, w 3]
            rd := if ssp = 0 then some (localSpan src p.soff len) else none
            wr := if dsp = 0 then some (localSpan dst p.doff (len / fs * fd)) else none } } }
      | some _ => s1.modCore k fun c => { c with eng := { c.eng with pump := { c.eng.pump with ent := [w 0, w 1, w 2, w 3] } } }

/-- The pump moves on to entry `i`. -/
def Pump.goto (p : Pump) (i : Nat) : Pump := { p with idx := i, ent := [], done := 0, rd := none, wr := none, going := false }

/-- The pump of a core changed. -/
def State.modPump (s : State) (k : Nat) (f : Pump → Pump) : State :=
  s.modCore k fun c => { c with eng := { c.eng with pump := f c.eng.pump } }

/-- A LOOP entry (R238). -/
def State.loopEntry (s : State) (k : Nat) (o : COp) (count back : Nat) (sstr dstr : Word) : State :=
  let p := (s.core k).eng.pump
  let off := p.head + 32 * p.idx
  if p.idx < back ∨ (!has p.cnt p.idx ∧ 4 ≤ p.cnt.length) then s.chainFault k o 1 off none
  else
    let n := (find p.cnt p.idx).getD count - 1
    if 0 < n then
      s.modPump k fun p => { p.goto (p.idx - back) with
        soff := p.soff + sstr, doff := p.doff + dstr, cnt := Table.set p.cnt p.idx n }
    else
      let m := BitVec.ofNat 64 (count - 1)
      s.modPump k fun p => { p.goto (p.idx + 1) with
        soff := p.soff - sstr * m, doff := p.doff - dstr * m, cnt := drop p.cnt p.idx }

/-- A COND entry (R238). -/
def State.condEntry (s : State) (k : Nat) (o : COp) (v : BitVec 32) (ev skip : Nat) : State :=
  let p := (s.core k).eng.pump
  match s.event (s.partId k) ev with
  | none => s.chainFault k o 1 (p.head + 32 * p.idx) none
  | some e => s.modPump k fun p => p.goto (if reached e.counter v then p.idx + 1 else p.idx + 1 + skip)

/-! ## COPY (R239) -/

/-- What a global sector of the pump comes to: translated, waiting for a held home, or failed. -/
inductive Sector where
  | ok (pa home : Nat) (d : Dest) (s : State)
  | wait (s : State)
  | bad (sub addr : Nat) (s : State)

/-- The translation of a sector that the pump reads or writes at its home (R239, R287). -/
def State.pumpXlate (s : State) (k : Nat) (o : COp) (a : Acc) (va : Nat) : Sector :=
  match s.xlateOf k o.lvl a va with
  | (.fault .., s1) => .bad 5 va s1
  | (.ok pa home d, s1) =>
    if (if a = .store then s1.writeDelayed agentKey home (lineOf va) else s1.readDelayed agentKey home (lineOf va)) then .wait s1
    else .ok pa home d s1

/-- What the reading of a source comes to. -/
inductive Source where
  | ok (bs : List Byte) (s : State)
  | wait (s : State)
  | bad (sub addr : Nat) (s : State)

/-- `n` source sectors read, in ascending order (R239). -/
def State.readGlobalSectors (s : State) (k : Nat) (o : COp) (va : Nat) : Nat → Source
  | 0 => .ok [] s
  | n + 1 =>
    match s.pumpXlate k o .bare va with
    | .bad sub x s1 => .bad sub x s1
    | .wait s1 => .wait s1
    | .ok pa _ d s1 =>
      if (d = .home ∨ d = .edge) ∧ s1.phys.poisoned d pa 32 then .bad 4 va s1
      else
        match State.readGlobalSectors (s1.drew d 32) k o (va + 32) n with
        | .ok bs s2 => .ok (s1.globalBytes d pa 32 ++ bs) s2
        | x => x

/-- The source bytes of a unit of a COPY, from the sectors that hold them. -/
def State.readSource (s : State) (k : Nat) (o : COp) (ssp : Nat) (addr n : Nat) : Source :=
  let first := addr / 32 * 32
  let count := (addr % 32 + n + 31) / 32
  if ssp = 0 then
    let s1 := s.secded k addr n
    match s1.badSector k first count with
    | some (sub, x) => .bad sub x s1
    | none => .ok (s1.cellsAt k addr n) s1
  else
    match s.readGlobalSectors k o first count with
    | .ok bs s1 => .ok ((bs.drop (addr % 32)).take n) s1
    | x => x

/-- The value that the code of a format names (R194, R199). -/
def convValue (code x : Nat) : FVal :=
  match fmtFloat code with
  | some f => f.decode x
  | none => FVal.ofInt (if code = 8 then signedOf 8 x else signedOf 32 x)

/-- A value written in a format under RND and SAT (R199). -/
def convCode (b : BitVec 7) (v : FVal) : Nat :=
  match fmtFloat (fmtOf b) with
  | some f => roundTo f (rndOf b) (satOf b) v
  | none =>
    let w := if fmtOf b = 8 then 8 else 32
    wrapTo w (toIntClamp (rndOf b) (-(2 ^ (w - 1) : Nat)) ((2 ^ (w - 1) : Nat) - 1) v)

/-- One element converted between the formats of two banks (R199): i32 to i8 without SAT keeps the low bits (R198). -/
def convElt (bs bd : BitVec 7) (x : Nat) : Nat :=
  if fmtOf bs = 9 ∧ fmtOf bd = 8 ∧ satOf bd = false then x % 256 else convCode bd (convValue (fmtOf bs) x)

/-- Elements converted (R199). `n` is their number. -/
def convBytes (bs bd : BitVec 7) : Nat → List Byte → List Byte
  | 0, _ => []
  | n + 1, l =>
    let fs := convSize (fmtOf bs)
    leBytes (convSize (fmtOf bd)) (convElt bs bd (leNat (l.take fs))) ++ convBytes bs bd n (l.drop fs)

/-- The parts of a local write that lie in one granule each. -/
def granuleParts (off : Nat) (bs : List Byte) : List (Nat × List Byte) :=
  let m := 512 - off % 512
  if bs.length ≤ m then [(off, bs)] else [(off, bs.take m), (off + m, bs.drop m)]

/-- A granule of a local destination that a unit covers whole lands as one operation, which renews it (R85, R239), where R358 lets the
chain renew; a partial write to an expired granule is a fault with sub-cause 3. -/
def State.pumpLand (s : State) (k : Nat) (by30 : Bool) (off : Nat) (bs : List Byte) : Option State :=
  if isSvc k then some (s.modLs k fun l => l.putCells off bs false)
  else
    let renews := s.landingRenews k by30
    let whole := bs.length == 512 && renews
    if !whole && (granuleParts off bs).any (fun x => s.expiredAt k x.1) then none
    else some ((granuleParts off bs).foldl (fun s x => s.engineLand k x.1 renews whole x.2) s)

/-- Global destination sectors written, each at its line's home (R239, R287). -/
def State.writeGlobal (s : State) (k : Nat) (o : COp) (va : Nat) (bs : List Byte) : Sector :=
  match s.pumpXlate k o .store va with
  | .ok pa home d s1 =>
    .ok pa home d (if d = .dev then s1.devStore ⟨0, .dev, BitVec.ofNat 64 va, pa, 0, bs, false⟩
      else s1.putGlobal agentKey (s1.owner k) d va pa home bs)
  | x => x

/-- A range that the pump of core `k` would begin to access meets one that the matrix engine has reserved or, where the pump would
write, is reading: it waits (R212, R291). -/
def Core.pumpWaits (c : Core) (k : Nat) (rd wr : Option (Nat × Nat)) : Bool :=
  c.eng.mq.any fun m =>
    m.range.toList.any (fun x => rangeMeets rd x.1 x.2 || rangeMeets wr x.1 x.2)
      || (m.reads c k).any fun x => rangeMeets wr x.1 x.2

/-- The COPY that the pump has reached waits to start; one whose access has started goes on (R212). -/
def Core.pumpBlocked (c : Core) (k : Nat) : Bool := !c.eng.pump.going && c.pumpWaits k c.eng.pump.rd c.eng.pump.wr

/-- The bytes done of a COPY moved on; at its end the next entry is reached (R238). -/
def Pump.advance (p : Pump) (n len : Nat) : Pump :=
  if len ≤ p.done + n then { p.goto (p.idx + 1) with soff := p.soff, doff := p.doff }
  else { p with done := p.done + n, going := true }

/-- The size of the destination unit at `dst`, of which `left` bytes remain: a granule of a local store that the COPY covers
whole, else up to the next sector boundary (R239). Remote beats land under the pour rules, one landing where all 16 beats of a
granule are sent (R255; DEDUCED, log 33). -/
def unitSize (k dsp dst left : Nat) : Nat :=
  if dsp ≠ 1 ∧ !(dsp = 0 ∧ isSvc k) ∧ dst % 512 = 0 ∧ 512 ≤ left then 512 else Nat.min left (32 - dst % 32)

/-- A unit in whole destination elements of `fd` bytes: an element that strides have put across a sector boundary is written with the
sector it begins in (DESIGN CHOICE, log 33). -/
def wholeElements (fd n : Nat) : Nat := Nat.max fd (n / fd * fd)

/-- A source unit cannot be read. -/
def Source.isBad : Source → Bool
  | .bad .. => true
  | _ => false

/-- The bytes that the next unit of a COPY writes (R239): for a remote destination the sectors before a source sector that fails are
sent one by one, so that a fault stops the chain before that sector's write alone (DEDUCED, log 33). -/
def State.unitAt (s : State) (k : Nat) (o : COp) (dsp ssp addr d left fs fd : Nat) : Nat :=
  let n := wholeElements fd (unitSize k dsp d left)
  if dsp = 2 ∧ (s.readSource k o ssp addr (n / fd * fs)).isBad then Nat.min n (32 - d % 32) else n

/-- One unit of a COPY (R239): its source read, converted where asked, and its destination written. -/
def State.copyUnit (s : State) (k : Nat) (o : COp) (len : Nat) (conv : Bool) (dsp ssp : Nat) (src dst : Word) : State :=
  let p := (s.core k).eng.pump
  let so := (src + p.soff).toNat
  let dAll := (dst + p.doff).toNat
  let d0 := if dsp = 2 then dAll % 2 ^ 32 else dAll
  let (fs, fd) := o.sizes k conv so d0
  let d := d0 + p.done / fs * fd
  let dn := s.unitAt k o dsp ssp (so + p.done) d ((len - p.done) / fs * fd) fs fd
  let sn := dn / fd * fs
  match s.readSource k o ssp (so + p.done) sn with
  | .wait s1 => s1
  | .bad sub x s1 => s1.chainFault k o sub x (some src)
  | .ok raw s1 =>
    let bs := if !conv ∨ isSvc k ∨ o.fmtAt so = o.fmtAt d0 then raw
      else convBytes (Table.get 0 o.bfmt (so / 0x4000)) (Table.get 0 o.bfmt (d0 / 0x4000)) (sn / fs) raw
    match dsp with
    | 0 =>
      match s1.pumpLand k o.by30 d bs with
      | some s2 => s2.modPump k fun p => p.advance sn len
      | none => s1.chainFault k o 3 d (some src)
    | 1 =>
      match s1.writeGlobal k o d bs with
      | .ok _ _ _ s2 => s2.modPump k fun p => p.advance sn len
      | .wait s2 => s2
      | .bad sub x s2 => s2.chainFault k o sub x (some src)
    | _ =>
      let n := (dn + 31) / 32
      let f : Flight := .beats k (bitsOf dAll 51 32) d bs (List.replicate n false) none (s1.partId k) none (some k) o.by30
      State.modPump { s1 with flight := s1.flight ++ [f] } k fun p => { p.advance sn len with remote := p.remote + n }

/-- The chain that the pump of core `k` runs or can start, outside a save (R206, R349). -/
def State.pumpOp (s : State) (k : Nat) : Option COp :=
  if s.frozen k then none else (s.core k).eng.pq.head?

/-- PUMP_CHAIN_ENTRY: the pump of core `k` starts its next chain, reaches an entry, or works on one: a LOOP, a COND, or one unit
of a COPY (R236 to R239). -/
def execPumpChainEntry (k : Nat) (s : State) : Host.Outcome State Fault Refusal :=
  match s.pumpOp k with
  | none => .next s
  | some o =>
    if !o.started then .next (s.modCore k Core.startChain)
    else if (s.core k).eng.pump.ent.isEmpty then
      if (s.core k).pumpWaits k (some ((s.core k).eng.pump.head + 32 * (s.core k).eng.pump.idx, 32)) none then .next s
      else .next (s.reachEntry k o)
    else
      match (s.core k).eng.pump.entry with
      | some (.copy len conv dsp ssp src dst) =>
        if (s.core k).pumpBlocked k then .next s else .next (s.copyUnit k o len conv dsp ssp src dst)
      | some (.loop n b ss ds) => .next (s.loopEntry k o n b ss ds)
      | some (.cond v ev skip) => .next (s.condEntry k o v ev skip)
      | _ => .next s

/-- PUMP_CHAIN_SIG: the pump of core `k` is at a SIG, and every earlier write of the chain is performed: it signals. A SIG on the
chain's own event pays it (R238). -/
def execPumpChainSig (k : Nat) (s : State) : Host.Outcome State Fault Refusal :=
  match s.pumpOp k, (s.core k).eng.pump.entry with
  | some o, some (.sig n ev) =>
    let p := (s.core k).eng.pump
    if !o.started ∨ p.ent.isEmpty ∨ p.remote ≠ 0 then .next s
    else
      match s.event (s.partId k) ev with
      | none => .next (s.chainFault k o 1 (p.head + 32 * p.idx) none)
      | some _ =>
        let own := ev = o.ev.toNat ∧ ev ≠ Config.noEvent ∧ !p.paid
        let s1 := s.signal (s.partId k) ev n false
        let s2 := if own then s1.modCore k fun c => c.discharge holderCx ev 1 else s1
        .next (s2.modPump k fun p => { p.goto (p.idx + 1) with paid := p.paid || decide own })
  | _, _ => .next s

/-- PUMP_CHAIN_END: the pump of core `k` is at the END, and every earlier write is performed: the completion event is signalled
and the chain ends (R238). -/
def execPumpChainEnd (k : Nat) (s : State) : Host.Outcome State Fault Refusal :=
  match s.pumpOp k, (s.core k).eng.pump.entry with
  | some o, some .fin =>
    let p := (s.core k).eng.pump
    if !o.started ∨ p.ent.isEmpty ∨ p.remote ≠ 0 then .next s
    else
      let s1 := s.modCore k fun c => { c with eng := { c.eng with
        pq := c.eng.pq.tail
        pump := { c.eng.pump with state := 0, ent := [] } } }
      .next (if p.paid then (if o.ev.toNat = Config.noEvent then s1 else s1.signal (s1.partId k) o.ev.toNat 1 false)
        else s1.signalDone k (s1.partId k) holderCx o.ev)
  | _, _ => .next s

end Sys2Proof.Machine
end

