-- ==== Sys2Proof/Machine/Reliability.lean ====
section
/-! DEFINITION. Reliability (R390 to R393): messages that fail their CRC, control messages resent, and the scrub of the DRAM. A step that
is not due changes nothing. What is on its way is numbered (log 99): first what is in transit; then, by core, the control message of the
output-buffer entry that a core at a commit point is releasing; then, by core, the signature that a chunk sends to the next home it wants,
or that home's grant; then, by core, the translation request with which its running activation goes on; then, by half-line, the fill or
the write-back of each one that a cistern holds; then the response that fills each line of the directory into each of its sharers' data
caches. -/

namespace Sys2Proof.Machine

/-! ## The mesh (R392) -/

/-- What a CRC failure makes of something in transit: data arrives poisoned, a control message is lost. -/
def Flight.crcFailed : Flight → Flight
  | .msg d m w => .msg d (match m.sys with
      | some r => { m with sys := some { r with lost := true } }
      | none => { m with poison := true }) w
  | .beats a d o bs po t p ack pump x => .beats a d o bs (po.map fun _ => true) t p ack pump x
  | .decr p va n ack t tries _ => .decr p va n ack t tries true

/-- The tile whose network interface finds a failure in data. -/
def Flight.dataTile : Flight → Option Nat
  | .msg d m _ => if m.sys.isSome then none else some (tileOf d)
  | .beats _ d .. => some (tileOf d)
  | .decr .. => none

/-- An entry of a list replaced. -/
def putAt {α : Type} (x : α) : Nat → List α → List α
  | _, [] => []
  | 0, _ :: t => x :: t
  | n + 1, y :: t => y :: putAt x n t

/-- An entry of a list removed. -/
def dropAt {α : Type} : Nat → List α → List α
  | _, [] => []
  | 0, _ :: t => t
  | n + 1, y :: t => y :: dropAt n t

/-- The control message of an output-buffer entry: a signal or a barrier operation (R392). -/
def OKind.control : OKind → Bool
  | .send .. | .sendo .. | .pour .. => false
  | .sig .. | .bara .. | .join .. | .leave .. => true

/-- The entry that core `k` is releasing, where it is a control message. -/
def State.controlEntry (s : State) (k : Nat) : Option OEntry :=
  ((s.core k).ctl.run.bind (s.nextRelease k)).filter (·.kind.control)

/-- The `j`-th core, and the control message of the entry that it is releasing. -/
def State.controlAt (s : State) (j : Nat) : Option (Nat × OEntry) :=
  (s.cores[j]?).bind fun x => (s.controlEntry x.1).map fun e => (x.1, e)

/-- An entry of an output buffer replaced. -/
def State.putEntry (s : State) (k : Nat) (e e' : OEntry) : State :=
  s.modCore k fun c => { c with ord := { c.ord with ob := c.ord.ob.replace e e' } }

/-- The `j`-th core, and the signature that a chunk of it sends to the next home it wants (R283). -/
def State.signingAt (s : State) (j : Nat) : Option (Nat × Signing) :=
  (s.cores[j]?).bind fun x => x.2.signing.map fun y => (x.1, y)

/-- The signature that core `k` has last sent replaced. -/
def State.putSigning (s : State) (k : Nat) (x : Signing) : State := s.modCore k fun c => { c with ord := { c.ord with sign := some x } }

/-- The `j`-th core, and the translation request with which its running activation goes on at its next instruction; level F translates
in its own tile (R97, R366). -/
def State.requestAt (s : State) (j : Nat) : Option (Nat × Asked) :=
  (s.cores[j]?).bind fun x => (if s.level x.1 = 2 then none else x.2.request).map fun y => (x.1, y)

/-- The translation request of core `k` replaced. -/
def State.putRequest (s : State) (k : Nat) (x : Asked) : State := s.modCore k fun c => { c with asked := some x }

/-- The fill of half-line `x` from its edge station fails its CRC, or, where the half-line is dirty, its write-back: every sector of it
is delivered poisoned (R392). A cistern may drop and fill a clean half-line at any time. -/
def State.halfFailed (s : State) (x : Nat) (h : Half) : State :=
  (if h.dirty then
    let s1 := s.writeBackHalves [(x, h)]
    { s1 with phys := s1.phys.markEdge true ((List.range 4).map (4 * x + ·)) }
  else { s with phys := { s.phys with cis := Table.set s.phys.cis x { h with poison := 15 } } }).tileCount h.home 2

/-- The sharers that the directory lists, each with its line. -/
def State.sharers (s : State) : List (Nat × Nat) := s.phys.dir.flatMap fun e => e.2.map fun k => (e.1, k)

/-- The response that fills line `l` into the data cache of newt `k` fails its CRC: every sector of it is delivered poisoned (R392). -/
def State.responseFailed (s : State) (l k : Nat) : State :=
  (s.modCore k fun c => { c with par := ((List.range 8).map (8 * l + ·)).foldl (fun t x => Table.set t x true) c.par }).tileCount
    (tileOf k) 2

/-- A message with data that is no entry of `State.flight` fails its CRC: the `j`-th fill, write-back or response (R392). -/
def State.dataFailed (s : State) (j : Nat) : State :=
  match s.phys.cis[j]? with
  | some (x, h) => s.halfFailed x h
  | none =>
    match s.sharers[j - s.phys.cis.length]? with
    | some (l, k) => s.responseFailed l k
    | none => s

/-- MESH_CRC_FAILURE: what is `i`-th on its way fails its CRC at its destination (R392). -/
def execMeshCrcFailure (i : Nat) (s : State) : Host.Outcome State Fault Refusal :=
  let n := s.cores.length
  let j := i - s.flight.length
  match s.flight[i]? with
  | some f =>
    let s1 : State := { s with flight := putAt f.crcFailed i s.flight }
    .next (match f.dataTile with
      | some t => s1.tileCount t 2
      | none => s1)
  | none =>
    if j < n then
      .next (match s.controlAt j with
        | some (k, e) => s.putEntry k e { e with lost := true }
        | none => s)
    else if j < 2 * n then
      .next (match s.signingAt (j - n) with
        | some (k, x) => s.putSigning k { x with lost := true }
        | none => s)
    else if j < 3 * n then
      .next (match s.requestAt (j - 2 * n) with
        | some (k, x) => s.putRequest k { x with lost := true }
        | none => s)
    else .next (s.dataFailed (j - 3 * n))

/-- The slots of core `k` whose activation is numbered `q`. -/
def Core.slotsOf (c : Core) (q : Nat) : List Nat :=
  (c.slots.filter fun e => e.2.st != .free && e.2.uid.toNat == q).map (·.1)

/-- The context that issued an undeliverable control message is killed (R392). -/
def State.killIssuer (s : State) : Option (Nat × Nat) → State
  | none => s
  | some (k, q) =>
    if (s.core k).moved.any fun m => m.2.uid.toNat == q then s.killMovedLogged k
    else s.killAll (((s.core k).slotsOf q).map fun i => (k, i))

/-- A fatal mesh error posted to the administrative queue by tile `t` (R392). -/
def State.meshError (s : State) (t : Nat) : State := { s with host := { s.host with errors := s.host.errors ++ [t] } }

/-- Something in transit resent, or after the seventh resend given up with a fatal mesh error (R392); the units that a message carries are
then discharged poisoned (R70). -/
def State.resendFlight (s : State) (i : Nat) : Flight → State
  | .decr p va n ack t tries _ =>
    if tries < 7 then State.tileCount { s with flight := putAt (.decr p va n ack t (tries + 1) false) i s.flight } t 3
    else (State.meshError { s with flight := dropAt i s.flight } t).killIssuer ack
  | .msg d m w =>
    match m.sys with
    | none => s
    | some r =>
      if !r.lost then s
      else if r.tries < 7 then
        State.tileCount { s with flight := putAt (.msg d { m with sys := some { r with lost := false, tries := r.tries + 1 } } w) i s.flight }
          (tileOf r.core) 3
      else
        ((State.loseUnits { s with flight := dropAt i s.flight } d (m.part.getD 4096) m.carry).meshError (tileOf r.core)).killIssuer
          (some (r.core, r.act))
  | .beats .. => s

/-- The context that issued a signature or a translation request of core `k` is killed: the running one (R392). -/
def State.killRunning (s : State) (k : Nat) : State :=
  match (s.core k).ctl.run with
  | some i => s.killAll [(k, i)]
  | none => s

/-- CONTROL_RESEND_TIMEOUT: 2,048 cycles pass without an acknowledgement of the control message that is `i`-th on its way: it is resent,
and after the seventh resend a fatal mesh error is posted and its context is killed (R392). -/
def execControlResendTimeout (i : Nat) (s : State) : Host.Outcome State Fault Refusal :=
  let n := s.cores.length
  let j := i - s.flight.length
  match s.flight[i]? with
  | some f => .next (s.resendFlight i f)
  | none =>
    if j < n then
      match s.controlAt j with
      | some (k, e) =>
        if !e.lost then .next s
        else if e.tries < 7 then .next ((s.putEntry k e { e with lost := false, tries := e.tries + 1 }).tileCount (tileOf k) 3)
        else .next ((s.meshError (tileOf k)).killAll [(k, e.slot)])
      | none => .next s
    else if j < 2 * n then
      match s.signingAt (j - n) with
      | some (k, x) =>
        if !x.lost then .next s
        else if x.tries < 7 then .next ((s.putSigning k { x with lost := false, tries := x.tries + 1 }).tileCount (tileOf k) 3)
        else .next ((s.meshError (tileOf k)).killRunning k)
      | none => .next s
    else
      match s.requestAt (j - 2 * n) with
      | some (k, x) =>
        if !x.lost then .next s
        else if x.tries < 7 then .next ((s.putRequest k { x with lost := false, tries := x.tries + 1 }).tileCount (tileOf k) 3)
        else .next ((s.meshError (tileOf k)).killRunning k)
      | none => .next s

/-! ## Refresh and scrub (R393) -/

/-- The key of a DRAM row's scrub pointer. -/
def rowKey (station row : Nat) : Nat := station % 64 + 64 * row

/-- The burst that a row's scrub pointer names: 64 bytes of the physical address space, whose place the manual does not give. -/
def burstAt (station row ptr : Nat) : Nat := Config.burstPa (station % 64) row ptr / 64 * 64

/-- REFRESH_ROUND: a station refreshes a row, reads the burst at the row's scrub pointer, and moves the pointer on (R393). -/
def execRefreshRound (station row : Nat) (s : State) : Host.Outcome State Fault Refusal :=
  let key := rowKey station row
  let ptr := Table.get 0 s.phys.scrub key
  let s1 := s.dramCheck (burstAt station row ptr)
  .next { s1 with phys := { s1.phys with scrub := Table.set s1.phys.scrub key ((ptr + 1) % 32) } }

end Sys2Proof.Machine
end

