-- ==== Sys2Proof/Machine/Dispatch.lean ====
section
/-! DEFINITION. The dispatch of instructions to their meanings: one arm for each constructor. -/

namespace Sys2Proof.Machine

def exec (i : Instr) (s : State) : Host.Outcome State Fault Refusal :=
  match i with
  | .nop => Sys2Proof.Machine.execNop s
  | .br slot disp => Sys2Proof.Machine.execBr slot disp s
  | .bcc cond a b slot disp => Sys2Proof.Machine.execBcc cond a b slot disp s
  | .call slot disp => Sys2Proof.Machine.execCall slot disp s
  | .jr b => Sys2Proof.Machine.execJr b s
  | .callr b => Sys2Proof.Machine.execCallr b s
  | .loop a slot disp => Sys2Proof.Machine.execLoop a slot disp s
  | .endAct => Sys2Proof.Machine.execEndAct s
  | .trap imm => Sys2Proof.Machine.execTrap imm s
  | .trapKillContext => Sys2Proof.Machine.execTrapKillContext s
  | .trapResumeAtFault => Sys2Proof.Machine.execTrapResumeAtFault s
  | .trapResumePastFault => Sys2Proof.Machine.execTrapResumePastFault s
  | .trapTransferObligations => Sys2Proof.Machine.execTrapTransferObligations s
  | .brk imm => Sys2Proof.Machine.execBrk imm s
  | .add a b c => Sys2Proof.Machine.execAdd a b c s
  | .sub a b c => Sys2Proof.Machine.execSub a b c s
  | .mul a b c => Sys2Proof.Machine.execMul a b c s
  | .mulh a b c => Sys2Proof.Machine.execMulh a b c s
  | .mulhn a b c => Sys2Proof.Machine.execMulhn a b c s
  | .div a b c => Sys2Proof.Machine.execDiv a b c s
  | .divn a b c => Sys2Proof.Machine.execDivn a b c s
  | .rem a b c => Sys2Proof.Machine.execRem a b c s
  | .remn a b c => Sys2Proof.Machine.execRemn a b c s
  | .and a b c => Sys2Proof.Machine.execAnd a b c s
  | .or a b c => Sys2Proof.Machine.execOr a b c s
  | .xor a b c => Sys2Proof.Machine.execXor a b c s
  | .andn a b c => Sys2Proof.Machine.execAndn a b c s
  | .shl a b c => Sys2Proof.Machine.execShl a b c s
  | .shr a b c => Sys2Proof.Machine.execShr a b c s
  | .sar a b c => Sys2Proof.Machine.execSar a b c s
  | .rol a b c => Sys2Proof.Machine.execRol a b c s
  | .min a b c => Sys2Proof.Machine.execMin a b c s
  | .minn a b c => Sys2Proof.Machine.execMinn a b c s
  | .max a b c => Sys2Proof.Machine.execMax a b c s
  | .maxn a b c => Sys2Proof.Machine.execMaxn a b c s
  | .cmp cond a b c => Sys2Proof.Machine.execCmp cond a b c s
  | .sel a b c d => Sys2Proof.Machine.execSel a b c d s
  | .clz a b => Sys2Proof.Machine.execClz a b s
  | .ctz a b => Sys2Proof.Machine.execCtz a b s
  | .popc a b => Sys2Proof.Machine.execPopc a b s
  | .ext a b pos len => Sys2Proof.Machine.execExt a b pos len s
  | .ins a b pos len => Sys2Proof.Machine.execIns a b pos len s
  | .addi a b imm => Sys2Proof.Machine.execAddi a b imm s
  | .movi a imm => Sys2Proof.Machine.execMovi a imm s
  | .movhi a imm => Sys2Proof.Machine.execMovhi a imm s
  | .shladd a b c sh => Sys2Proof.Machine.execShladd a b c sh s
  | .andi a b imm => Sys2Proof.Machine.execAndi a b imm s
  | .ori a b imm => Sys2Proof.Machine.execOri a b imm s
  | .xori a b imm => Sys2Proof.Machine.execXori a b imm s
  | .shli a b imm => Sys2Proof.Machine.execShli a b imm s
  | .shri a b imm => Sys2Proof.Machine.execShri a b imm s
  | .sari a b imm => Sys2Proof.Machine.execSari a b imm s
  | .cmpi cond a b imm => Sys2Proof.Machine.execCmpi cond a b imm s
  | .muli a b imm => Sys2Proof.Machine.execMuli a b imm s
  | .csrr a csr => Sys2Proof.Machine.execCsrr a csr s
  | .csrw a csr => Sys2Proof.Machine.execCsrw a csr s
  | .csrx a csr => Sys2Proof.Machine.execCsrx a csr s
  | .rte => Sys2Proof.Machine.execRte s
  | .tlbinv b c => Sys2Proof.Machine.execTlbinv b c s
  | .frgrant b c => Sys2Proof.Machine.execFrgrant b c s
  | .pair a mode => Sys2Proof.Machine.execPair a mode s
  | .chunk => Sys2Proof.Machine.execChunk s
  | .ld size a b imm => Sys2Proof.Machine.execLd size a b imm s
  | .st size a b imm => Sys2Proof.Machine.execSt size a b imm s
  | .ldg size a b imm => Sys2Proof.Machine.execLdg size a b imm s
  | .stg size a b imm => Sys2Proof.Machine.execStg size a b imm s
  | .ldc size a b imm => Sys2Proof.Machine.execLdc size a b imm s
  | .pref wr b imm => Sys2Proof.Machine.execPref wr b imm s
  | .aadd size a b c => Sys2Proof.Machine.execAadd size a b c s
  | .amin size a b c => Sys2Proof.Machine.execAmin size a b c s
  | .amax size a b c => Sys2Proof.Machine.execAmax size a b c s
  | .aminn size a b c => Sys2Proof.Machine.execAminn size a b c s
  | .amaxn size a b c => Sys2Proof.Machine.execAmaxn size a b c s
  | .aand size a b c => Sys2Proof.Machine.execAand size a b c s
  | .aor size a b c => Sys2Proof.Machine.execAor size a b c s
  | .axor size a b c => Sys2Proof.Machine.execAxor size a b c s
  | .axchg size a b c => Sys2Proof.Machine.execAxchg size a b c s
  | .acas size a b c d => Sys2Proof.Machine.execAcas size a b c d s
  | .ladd size a b c => Sys2Proof.Machine.execLadd size a b c s
  | .lcas size a b c d => Sys2Proof.Machine.execLcas size a b c d s
  | .renew b c => Sys2Proof.Machine.execRenew b c s
  | .wtag a b => Sys2Proof.Machine.execWtag a b s
  | .wset b c k p => Sys2Proof.Machine.execWset b c k p s
  | .wzero b c => Sys2Proof.Machine.execWzero b c s
  | .fence scope ls ro ic host => Sys2Proof.Machine.execFence scope ls ro ic host s
  | .marm b imm => Sys2Proof.Machine.execMarm b imm s
  | .mwait a => Sys2Proof.Machine.execMwait a s
  | .roinv => Sys2Proof.Machine.execRoinv s
  | .send a b c => Sys2Proof.Machine.execSend a b c s
  | .sendw a b c => Sys2Proof.Machine.execSendw a b c s
  | .pour counted a b c d => Sys2Proof.Machine.execPour counted a b c d s
  | .bind a b => Sys2Proof.Machine.execBind a b s
  | .chmask a b => Sys2Proof.Machine.execChmask a b s
  | .advp h n => Sys2Proof.Machine.execAdvp h n s
  | .advc h n => Sys2Proof.Machine.execAdvc h n s
  | .ringset h b => Sys2Proof.Machine.execRingset h b s
  | .mkev a b c => Sys2Proof.Machine.execMkev a b c s
  | .rmev a => Sys2Proof.Machine.execRmev a s
  | .sig a b => Sys2Proof.Machine.execSig a b s
  | .waitge a b c => Sys2Proof.Machine.execWaitge a b c s
  | .owe a b => Sys2Proof.Machine.execOwe a b s
  | .sendo bar a b c d => Sys2Proof.Machine.execSendo bar a b c d s
  | .rank kind a b => Sys2Proof.Machine.execRank kind a b s
  | .rkmid a b c => Sys2Proof.Machine.execRkmid a b c s
  | .mkbar b c => Sys2Proof.Machine.execMkbar b c s
  | .bara a b => Sys2Proof.Machine.execBara a b s
  | .barw a b => Sys2Proof.Machine.execBarw a b s
  | .join b => Sys2Proof.Machine.execJoin b s
  | .leave b => Sys2Proof.Machine.execLeave b s
  | .compose a n => Sys2Proof.Machine.execCompose a n s
  | .release => Sys2Proof.Machine.execRelease s
  | .drawt a => Sys2Proof.Machine.execDrawt a s
  | .drawg a b c => Sys2Proof.Machine.execDrawg a b c s
  | .vadd ty a b c => Sys2Proof.Machine.execVadd ty a b c s
  | .vsub ty a b c => Sys2Proof.Machine.execVsub ty a b c s
  | .vmul ty a b c => Sys2Proof.Machine.execVmul ty a b c s
  | .vfma ty a b c => Sys2Proof.Machine.execVfma ty a b c s
  | .vmax ty a b c => Sys2Proof.Machine.execVmax ty a b c s
  | .vmin ty a b c => Sys2Proof.Machine.execVmin ty a b c s
  | .vabs ty a b => Sys2Proof.Machine.execVabs ty a b s
  | .vneg ty a b => Sys2Proof.Machine.execVneg ty a b s
  | .vrcp a b => Sys2Proof.Machine.execVrcp a b s
  | .vrsqrt a b => Sys2Proof.Machine.execVrsqrt a b s
  | .vexp2 a b => Sys2Proof.Machine.execVexp2 a b s
  | .vlog2 a b => Sys2Proof.Machine.execVlog2 a b s
  | .vcmp cond ty a b c => Sys2Proof.Machine.execVcmp cond ty a b c s
  | .vsel ty a b c d => Sys2Proof.Machine.execVsel ty a b c d s
  | .vcvt ty dty rnd sat a b => Sys2Proof.Machine.execVcvt ty dty rnd sat a b s
  | .vquant a b c => Sys2Proof.Machine.execVquant a b c s
  | .vdeq a b c d => Sys2Proof.Machine.execVdeq a b c d s
  | .vredadd ty a b => Sys2Proof.Machine.execVredadd ty a b s
  | .vredmax ty a b => Sys2Proof.Machine.execVredmax ty a b s
  | .vredmin ty a b => Sys2Proof.Machine.execVredmin ty a b s
  | .vbcast ty a b => Sys2Proof.Machine.execVbcast ty a b s
  | .vext ty a b lane => Sys2Proof.Machine.execVext ty a b lane s
  | .vshuf ty a b c => Sys2Proof.Machine.execVshuf ty a b c s
  | .vand a b c => Sys2Proof.Machine.execVand a b c s
  | .vor a b c => Sys2Proof.Machine.execVor a b c s
  | .vxor a b c => Sys2Proof.Machine.execVxor a b c s
  | .vshl ty a b c => Sys2Proof.Machine.execVshl ty a b c s
  | .vshr ty a b c => Sys2Proof.Machine.execVshr ty a b c s
  | .vsar ty a b c => Sys2Proof.Machine.execVsar ty a b c s
  | .vld a b imm => Sys2Proof.Machine.execVld a b imm s
  | .vst a b imm => Sys2Proof.Machine.execVst a b imm s
  | .vmov a b => Sys2Proof.Machine.execVmov a b s
  | .mma fmt a rb rc ev => Sys2Proof.Machine.execMma fmt a rb rc ev s
  | .gmma fmt a rb rc ev => Sys2Proof.Machine.execGmma fmt a rb rc ev s
  | .mzero a => Sys2Proof.Machine.execMzero a s
  | .mst a b ev => Sys2Proof.Machine.execMst a b ev s
  | .mld a b ev => Sys2Proof.Machine.execMld a b ev s
  | .gang mask => Sys2Proof.Machine.execGang mask s
  | .ungang => Sys2Proof.Machine.execUngang s
  | .mscale a b => Sys2Proof.Machine.execMscale a b s
  | .cxgo b ev => Sys2Proof.Machine.execCxgo b ev s
  | .cxstop => Sys2Proof.Machine.execCxstop s
  | .cxstat a => Sys2Proof.Machine.execCxstat a s
  | .messageArrival core => Sys2Proof.Machine.execMessageArrival core s
  | .reinjectDiverted core => Sys2Proof.Machine.execReinjectDiverted core s
  | .streamBeatLanding core => Sys2Proof.Machine.execStreamBeatLanding core s
  | .endOfStream core => Sys2Proof.Machine.execEndOfStream core s
  | .dispatchNewActivation core => Sys2Proof.Machine.execDispatchNewActivation core s
  | .resumption core => Sys2Proof.Machine.execResumption core s
  | .outputBufferRelease core slot => Sys2Proof.Machine.execOutputBufferRelease core slot s
  | .eventSignalAtHome core slot name n => Sys2Proof.Machine.execEventSignalAtHome core slot name n s
  | .barrierOpAtHome op core slot va beats => Sys2Proof.Machine.execBarrierOpAtHome op core slot va beats s
  | .beatDecrement part => Sys2Proof.Machine.execBeatDecrement part s
  | .pourBeatLanding core => Sys2Proof.Machine.execPourBeatLanding core s
  | .watchdogExpiry core => Sys2Proof.Machine.execWatchdogExpiry core s
  | .fadeTick => Sys2Proof.Machine.execFadeTick s
  | .granuleExpiry core gran => Sys2Proof.Machine.execGranuleExpiry core gran s
  | .replay core slot => Sys2Proof.Machine.execReplay core slot s
  | .migration core slot => Sys2Proof.Machine.execMigration core slot s
  | .matrixOpStart core => Sys2Proof.Machine.execMatrixOpStart core s
  | .gmmaJoinStart core => Sys2Proof.Machine.execGmmaJoinStart core s
  | .matrixOpComplete core => Sys2Proof.Machine.execMatrixOpComplete core s
  | .pumpChainEntry core => Sys2Proof.Machine.execPumpChainEntry core s
  | .pumpChainSig core => Sys2Proof.Machine.execPumpChainSig core s
  | .pumpChainEnd core => Sys2Proof.Machine.execPumpChainEnd core s
  | .chunkAcquire core => Sys2Proof.Machine.execChunkAcquire core s
  | .chunkPerform core => Sys2Proof.Machine.execChunkPerform core s
  | .writeSignatureArrival core sig => Sys2Proof.Machine.execWriteSignatureArrival core sig s
  | .externalAgentWrite part va data => Sys2Proof.Machine.execExternalAgentWrite part va data s
  | .evictPhase part => Sys2Proof.Machine.execEvictPhase part s
  | .evlimExpiry part => Sys2Proof.Machine.execEvlimExpiry part s
  | .savePhase part => Sys2Proof.Machine.execSavePhase part s
  | .saveComplete part => Sys2Proof.Machine.execSaveComplete part s
  | .resumeNoticePhase part => Sys2Proof.Machine.execResumeNoticePhase part s
  | .resumeComplete part => Sys2Proof.Machine.execResumeComplete part s
  | .queueStallExpiry part q => Sys2Proof.Machine.execQueueStallExpiry part q s
  | .preemptTimeout part q => Sys2Proof.Machine.execPreemptTimeout part q s
  | .registerWrite pf part off v => Sys2Proof.Machine.execRegisterWrite pf part off v s
  | .qtailDoorbell part q v => Sys2Proof.Machine.execQtailDoorbell part q v s
  | .commandEntryRead part q => Sys2Proof.Machine.execCommandEntryRead part q s
  | .launch part q => Sys2Proof.Machine.execLaunch part q s
  | .copy part q => Sys2Proof.Machine.execCopy part q s
  | .mark part q => Sys2Proof.Machine.execMark part q s
  | .create => Sys2Proof.Machine.execCreate s
  | .destroy => Sys2Proof.Machine.execDestroy s
  | .grow => Sys2Proof.Machine.execGrow s
  | .shrink => Sys2Proof.Machine.execShrink s
  | .preempt => Sys2Proof.Machine.execPreempt s
  | .resume => Sys2Proof.Machine.execResume s
  | .grant => Sys2Proof.Machine.execGrant s
  | .config => Sys2Proof.Machine.execConfig s
  | .replayCommand => Sys2Proof.Machine.execReplayCommand s
  | .commandComplete part q => Sys2Proof.Machine.execCommandComplete part q s
  | .leaseRenew port => Sys2Proof.Machine.execLeaseRenew port s
  | .leaseExpiry => Sys2Proof.Machine.execLeaseExpiry s
  | .bucketRegisterWrite part v => Sys2Proof.Machine.execBucketRegisterWrite part v s
  | .bucketRefill => Sys2Proof.Machine.execBucketRefill s
  | .qosWindowEnd part mon => Sys2Proof.Machine.execQosWindowEnd part mon s
  | .collectiveSlotWrite part slot v => Sys2Proof.Machine.execCollectiveSlotWrite part slot v s
  | .collectiveContribution part imm va len => Sys2Proof.Machine.execCollectiveContribution part imm va len s
  | .collectiveDeadline part slot => Sys2Proof.Machine.execCollectiveDeadline part slot s
  | .qpTailWrite qp tail => Sys2Proof.Machine.execQpTailWrite qp tail s
  | .workEntryComplete qp => Sys2Proof.Machine.execWorkEntryComplete qp s
  | .networkArrival qp op imm va data => Sys2Proof.Machine.execNetworkArrival qp op imm va data s
  | .transportError qp => Sys2Proof.Machine.execTransportError qp s
  | .telemetrySweep part => Sys2Proof.Machine.execTelemetrySweep part s
  | .meshCrcFailure idx => Sys2Proof.Machine.execMeshCrcFailure idx s
  | .controlResendTimeout idx => Sys2Proof.Machine.execControlResendTimeout idx s
  | .refreshRound station row => Sys2Proof.Machine.execRefreshRound station row s
  | .powerOn => Sys2Proof.Machine.execPowerOn s
  | .readyReport fn idx pass => Sys2Proof.Machine.execReadyReport fn idx pass s
  | .thermalClamp tile => Sys2Proof.Machine.execThermalClamp tile s
  | .thermalThrottle tile halt => Sys2Proof.Machine.execThermalThrottle tile halt s
  | .firmwareHeartbeatTimeout tile => Sys2Proof.Machine.execFirmwareHeartbeatTimeout tile s
  | .getMeasurements port index => Sys2Proof.Machine.execGetMeasurements port index s
  | .dctlHalt core => Sys2Proof.Machine.execDctlHalt core s
  | .dctlRun core => Sys2Proof.Machine.execDctlRun core s
  | .dctlStep core => Sys2Proof.Machine.execDctlStep core s
  | .dctlDrain core => Sys2Proof.Machine.execDctlDrain core s
  | .ddataAccess core wr => Sys2Proof.Machine.execDdataAccess core wr s
  | .breakpointMatch core => Sys2Proof.Machine.execBreakpointMatch core s
  | .watchpointMatch core => Sys2Proof.Machine.execWatchpointMatch core s
  | .traceArm station v => Sys2Proof.Machine.execTraceArm station v s
  | .traceTrigger station => Sys2Proof.Machine.execTraceTrigger station s
  | .traceDrainDone station => Sys2Proof.Machine.execTraceDrainDone station s
  | .moduleReset => Sys2Proof.Machine.execModuleReset s
  | .placementDeadline part q => Sys2Proof.Machine.execPlacementDeadline part q s
  | .firmwareImageInstall slotB edOk mlOk version => Sys2Proof.Machine.execFirmwareImageInstall slotB edOk mlOk version s
  | .drawLimitChange limit highFlow => Sys2Proof.Machine.execDrawLimitChange limit highFlow s
  | .cnpReceived qp => Sys2Proof.Machine.execCnpReceived qp s
  | .pfcPauseFrame port prio pause => Sys2Proof.Machine.execPfcPauseFrame port prio pause s

end Sys2Proof.Machine
end

