-- ==== Sys2Proof/Machine/Trim.lean ====
section
/-! DEFINITION. The capacities of caches and translation buffers (R16, R97, R104, R105, R366): what a step has put in beyond them
leaves again. Which entry leaves is a free choice (log 37). -/

namespace Sys2Proof.Machine

/-- The entry of a list that leaves: the `n`-th free choice. -/
def victim {α : Type} (n : Nat) (l : List α) : Option α := l[Config.freeNat n % l.length]?

/-- The table without entries beyond `cap`; `n` is the count of free choices drawn. -/
def trimTable {α : Type} (cap n : Nat) (t : Table α) : Nat → Table α
  | 0 => t
  | fuel + 1 =>
    if t.length ≤ cap then t
    else
      match victim n (t.map (·.1)) with
      | some x => trimTable cap (n + 1) (drop t x) fuel
      | none => t

/-- A table held to its capacity. -/
def held {α : Type} (cap n : Nat) (t : Table α) : Table α := if t.length ≤ cap then t else trimTable cap n t (t.length - cap)

/-- The keys of the slice TLB of a tile: partition and place in its list (R97). -/
def tlbEntries (t : Table (Table Leaf)) : List (Nat × Nat) := t.flatMap fun e => e.2.map fun x => (e.1, x.1)

/-- A slice TLB held to its 1,024 entries. -/
def trimTlb (n : Nat) (t : Table (Table Leaf)) : Nat → Table (Table Leaf)
  | 0 => t
  | fuel + 1 =>
    if (tlbEntries t).length ≤ 1024 then t
    else
      match victim n (tlbEntries t) with
      | some (p, x) => trimTlb (n + 1) (Table.set t p (drop (Table.get [] t p) x)) fuel
      | none => t

/-- A tile held to its capacities: slice TLB 1,024 leaves, read-only buffer 256 lines, MMU 64 leaves. -/
def Tile.trim (n : Nat) (t : Tile) : Tile :=
  { t with
    tlb := if (tlbEntries t.tlb).length ≤ 1024 then t.tlb else trimTlb n t.tlb ((tlbEntries t.tlb).length - 1024)
    ro := held 256 n t.ro
    svc := { t.svc with mmu := held 64 n t.svc.mmu } }

/-- The 256-byte lines that cisterns hold, each with its home, without repeats. -/
def Phys.cisLines (p : Phys) : List (Nat × Nat) :=
  p.cis.foldl (fun l e => if l.contains (e.2.home, e.1 / 2) then l else l ++ [(e.2.home, e.1 / 2)]) []

/-- A set of a cistern with more lines than its 16 ways: its lines. -/
def overfull (ls : List (Nat × Nat)) : Option (List (Nat × Nat)) :=
  let same (a b : Nat × Nat) : Bool := a.1 == b.1 && Config.cisSet a.2 % 128 == Config.cisSet b.2 % 128
  (ls.find? fun a => decide (16 < (ls.filter (same a)).length)).map fun a => ls.filter (same a)

/-- Lines of overfull cistern sets leave, written back where they are dirty (R104). -/
def Phys.trimCis (p : Phys) (n : Nat) : Nat → Phys
  | 0 => p
  | fuel + 1 =>
    match (overfull p.cisLines).bind (victim n) with
    | some (_, l) => Phys.trimCis (p.writeBacks [2 * l, 2 * l + 1]) (n + 1) fuel
    | none => p

/-- A newt whose data cache has more lines in a set than its four ways: the newt, and those lines (R104). -/
def Phys.overShared (p : Phys) : Option (Nat × List Nat) :=
  let ks := p.dir.foldl (fun l e => l ++ e.2.filter fun k => !l.contains k) []
  ks.findSome? fun k =>
    let ls := p.cached k
    (ls.find? fun a => decide (4 < (ls.filter fun b => Config.dataSet a % 4 == Config.dataSet b % 4).length)).map fun a =>
      (k, ls.filter fun b => Config.dataSet a % 4 == Config.dataSet b % 4)

/-- A newt's data cache gives up a line: the directory lists it no more. -/
def Phys.unshare1 (p : Phys) (k l : Nat) : Phys :=
  let rest := (p.sharers l).filter (· != k)
  { p with dir := if rest.isEmpty then drop p.dir l else Table.set p.dir l rest }

/-- Lines leave overfull data-cache sets. -/
def Phys.trimDir (p : Phys) (n : Nat) : Nat → Phys
  | 0 => p
  | fuel + 1 =>
    match p.overShared with
    | some (k, ls) =>
      match victim n ls with
      | some l => Phys.trimDir (p.unshare1 k l) (n + 1) fuel
      | none => p
    | none => p

/-- Memory behind the homes held to its caches' capacities: no set can be overfull while so few lines are held. -/
def Phys.trim (p : Phys) (n : Nat) : Phys :=
  let p1 := if p.cis.length ≤ 16 then p else p.trimCis n p.cis.length
  if p1.dir.length ≤ 4 then p1 else p1.trimDir n p1.dir.length

/-- A drain of a core's engines is over once no operation is in flight (R400). -/
def Core.drained (c : Core) : Core :=
  if c.dbg.ctl.getLsbD 7 && !c.engBusy then { c with dbg := { c.dbg with ctl := c.dbg.ctl &&& ~~~0x80#64 } } else c

/-- The machine held to its capacities, a newt's instruction cache of 256 lines among them, with drains that are over ended (R400). Nothing
is counted where nothing leaves; what the checks of written-back half-lines find is (R391). -/
def State.trim (s : State) : State :=
  let n := s.freeCount
  let p := s.phys.trim n
  let ts := mapVals (Tile.trim n) s.tiles
  let cs := mapVals (fun c => if c.icache.length ≤ 256 then c else { c with icache := held 256 n c.icache }) s.cores
  let gone := if p.cis.length = s.phys.cis.length then [] else s.phys.cis.filter fun e => !has p.cis e.1
  gone.foldl (fun s e => s.countHalf e.1 e.2) { s with
    phys := p, tiles := ts, cores := mapVals Core.drained cs
    freeCount := if p == s.phys && ts == s.tiles && cs == s.cores then n else n + 65536 }

end Sys2Proof.Machine
end

