-- ==== Sys2Proof/Machine/Pick.lean ====
section
/-! DEFINITION. What happens next (R2, log 2): the agenda's head, else a step of the module that is due, else the turn of a core. Steps
that only the outside world brings about (host writes, network packets, failures) are due only by the agenda. -/

namespace Sys2Proof.Machine

/-! ## Steps that are due -/

/-- The first thing in transit moves on: a message arrives, or a segment's beat lands; a control message that was lost is resent, and one
that its home delays waits (R18, R38, R283, R392). -/
def State.dueFlight (s : State) (i : Nat) : List Flight → Option Instr
  | [] => none
  | .msg d m w :: _ =>
    if m.isLost then some (.controlResendTimeout i)
    else if s.landsBeat d (.msg d m w) then some (.streamBeatLanding d)
    else if s.landedWhole d (.msg d m w) then some (.endOfStream d)
    else some (.messageArrival d)
  | .beats _ d _ _ _ _ p _ _ _ :: t => if s.beatsWait d p then s.dueFlight (i + 1) t else some (.pourBeatLanding d)
  | .decr p _ _ _ _ _ lost :: t =>
    if lost then some (.controlResendTimeout i) else if (s.deliverDecr p).isSome then some (.beatDecrement p) else s.dueFlight (i + 1) t

/-- A control message that a core is releasing, the signature of a chunk of its, or its translation request has been lost, and is resent
(R392). -/
def State.dueResend (s : State) : Option Instr :=
  let n := s.cores.length
  if s.cores.all fun x => x.2.ord.ob.all (!·.lost) && !x.2.signing.any (·.lost) && !x.2.request.any (·.lost) then none
  else (((List.range n).find? fun j => (s.controlAt j).any (·.2.lost)).map fun j => .controlResendTimeout (s.flight.length + j)).or
    ((((List.range n).find? fun j => (s.signingAt j).any (·.2.lost)).map fun j => .controlResendTimeout (s.flight.length + n + j)).or
    (((List.range n).find? fun j => (s.requestAt j).any (·.2.lost)).map fun j => .controlResendTimeout (s.flight.length + 2 * n + j)))

/-- What the network interface of core `k` can do with what it holds (R36, R38). -/
def State.dueInbox (s : State) (k : Nat) : Option Instr :=
  let cs := List.range (chanCount k)
  if (s.core k).inq.all fun e => !e.2.diverted then none
  else if (firstDone (s.reinject k) cs).isSome then some (.reinjectDiverted k)
  else if (firstDone (s.streamBeat k) cs).isSome then some (.streamBeatLanding k)
  else if (firstDone (s.segmentEnd k) cs).isSome then some (.endOfStream k)
  else none

/-- The commit of core `k`'s first ended chunk moves on (R283). -/
def State.dueChunk (s : State) (k : Nat) : Option Instr :=
  match (s.core k).ord.ended with
  | [] => none
  | e :: _ =>
    if s.missed k e.c then some (.chunkAcquire k)
    else
      match e.todo with
      | h :: _ => if s.ungranted k h then none else some (.chunkAcquire k)
      | [] => some (.chunkPerform k)

/-- A faulted context migrates, when its service core can dispatch firmware, or is replayed (R51, R329). -/
def State.dueHeld (s : State) (n : Nat) (t : Tile) : Option Instr :=
  (t.svc.held.find? fun h => !h.waiting && (s.heldClass h == 2 || (s.firmwareSlot n).isSome)).map fun h =>
    if s.heldClass h = 2 then .replay h.core h.slot else .migration h.core h.slot

/-- A phase of a pre-emption ends (R346 to R354). -/
def State.duePhase (s : State) (p : Nat) : Option Instr :=
  let ks := s.newtsOfPart p
  let x := (s.part p).pre
  match x.state.toNat with
  | 1 => if ks.all fun k => (s.core k).ctl.run.isNone then some (.evictPhase p) else none
  | 2 =>
    if s.evictDone p then some (.savePhase p)
    else if x.began + (if x.evlim = 0 then 1 else x.evlim.toNat) * 4096 ≤ s.cycle then some (.evlimExpiry p)
    else none
  | 3 => if ks.all fun k => !(s.core k).eng.mq.any MOp.mustFinish then some (.saveComplete p) else none
  | 5 => some (.resumeNoticePhase p)
  | 6 => if ks.all fun k => !(s.core k).ctl.resuming then some (.resumeComplete p) else none
  | _ => none

/-- The step that performs a command (R371). -/
def commandStep (p q op : Nat) : Option Instr :=
  match op with
  | 0x01 => some (.launch p q)
  | 0x02 => some (.copy p q)
  | 0x03 => some (.mark p q)
  | 0x40 => some .create
  | 0x41 => some .destroy
  | 0x42 => some .grow
  | 0x43 => some .shrink
  | 0x44 => some .preempt
  | 0x45 => some .resume
  | 0x46 => some .grant
  | 0x47 => some .config
  | 0x48 => some .replayCommand
  | _ => none

/-- A command under way that has another part of it to perform. -/
def State.underWay (s : State) (p q : Nat) (ws : List Word) : Bool :=
  let u := s.queue p q
  match opOf ws with
  | 0x02 => u.done < (argOf ws 4).toNat
  | 0x42 => u.done == 1 && s.stateOf ws == 4
  | 0x43 => (u.done == 1 && s.stateOf ws == 4) || (u.done == 3 && s.stateOf ws == 0)
  | _ => false

/-- A queue's next step (R372). -/
def State.dueQueue (s : State) (p q : Nat) : Option Instr :=
  let u := s.queue p q
  match u.cmd with
  | none => if s.mayRead p q then some (.commandEntryRead p q) else none
  | some ws =>
    if (s.completing p q).isSome then some (.commandComplete p q)
    else if !s.serving p then none
    else if u.phase = 2 then
      (if deadlineOf ws ≠ 0 ∧ u.began + deadlineOf ws * 1700 ≤ s.cycle ∧ (opOf ws = 0x01 ∨ (opOf ws = 0x40 ∧ argOf ws 2 = 0)) then
        some (.placementDeadline p q) else commandStep p q (opOf ws))
    else if u.phase = 3 ∧ s.underWay p q ws then commandStep p q (opOf ws)
    else none

/-- A watchdog of a queue expires (R341). -/
def State.dueWatch (s : State) (p q : Nat) : Option Instr :=
  let w := Table.get {} (s.part p).wd q
  if (s.queue p q).phase = 0 then none
  else if w.stage = 0 ∧ w.period ≠ 0 ∧ w.since + w.period.toNat * 65536 ≤ s.cycle then some (.queueStallExpiry p q)
  else if w.stage = 1 ∧ w.since + w.ptmoCycles ≤ s.cycle then some (.preemptTimeout p q)
  else none

/-- A collective's deadline passes (R383). -/
def State.dueColl (s : State) (p : Nat) : Option Instr :=
  ((s.ct p).coll.find? fun e => !e.2.wait && !e.2.done && e.2.deadline != 0 && decide (e.2.deadline ≤ s.cycle)).map
    fun e => .collectiveDeadline p e.1

/-- A window of a QoS monitor is full (R376). -/
def State.dueQos (s : State) (p : Nat) : Option Instr :=
  ((s.ct p).qos.find? fun e => e.2.full).map fun e => .qosWindowEnd p e.1

/-- What is due in a partition. -/
def State.duePart (s : State) (p : Nat) : Option Instr :=
  ((((s.duePhase p).or (s.dueColl p)).or (s.dueQos p)).or (if s.sweepDue p then some (.telemetrySweep p) else none)).or
    ((s.part p).queues.findSome? fun e => (s.dueWatch p e.1).or (s.dueQueue p e.1))

/-- A tile's firmware has written no heartbeat in time, or has faulted (R339, R380). -/
def State.dueBeat (s : State) : Option Instr :=
  (s.tiles.find? fun t => t.2.svc.overdue s.cycle || t.2.svc.bad).map fun t => .firmwareHeartbeatTimeout t.1

/-- Entries that a store to a tail register has posted are to be taken (R382). -/
def State.dueNet (s : State) : Option Instr :=
  (s.net.find? fun e => e.2.head != e.2.tail).map fun e => .qpTailWrite e.1 e.2.tail

/-- A matrix step of core `k` that can be taken (R206, R229, R230). -/
def State.dueMatrix (s : State) (k : Nat) : Option Instr :=
  match (s.core k).eng.mq with
  | [] => none
  | o :: _ =>
    if o.started then (if s.frozen k ∧ !o.mustFinish then none else some (.matrixOpComplete k))
    else
      match (s.core k).joinNumber with
      | some n => if s.gangBroken k n ∨ s.gangJoined k n then some (.gmmaJoinStart k) else none
      | none => if s.canStartM k then some (.matrixOpStart k) else none

/-- The pump's next step (R236 to R239). -/
def State.duePump (s : State) (k : Nat) : Option Instr :=
  match s.pumpOp k with
  | none => none
  | some o =>
    if !o.started ∨ (s.core k).eng.pump.ent.isEmpty then some (.pumpChainEntry k)
    else
      match (s.core k).eng.pump.entry with
      | some (.sig _ _) => some (.pumpChainSig k)
      | some .fin => some (.pumpChainEnd k)
      | _ => some (.pumpChainEntry k)

/-- The module's step that is due, if one is; last the engines of the core whose turn it is. -/
def State.due (s : State) : Option Instr :=
  if s.swept < s.fade then some .fadeTick
  else
    ((((((((s.dueFlight 0 s.flight).or s.dueResend |>.or (s.cores.findSome? fun e => s.dueInbox e.1)).or
      (s.cores.findSome? fun e => s.dueChunk e.1)).or
      (s.tiles.findSome? fun t => s.dueHeld t.1 t.2)).or
      (s.parts.findSome? fun e => s.duePart e.1)).or
      (s.dueQueue 4096 0)).or
      (if s.host.renewed + s.host.leaseCycles ≤ s.cycle then some .leaseExpiry else none)).or s.dueBeat).or
      ((s.dueNet.or (s.dueMatrix s.turn)).or (s.duePump s.turn))

/-! ## The choice -/

/-- What happens next is a reset of the module or its power-on, which also a halted module undergoes (R26, R29). -/
def State.restarts (s : State) : Bool :=
  match s.agenda with
  | .step .moduleReset :: _ => true
  | .step .powerOn :: _ => true
  | _ => false

/-- What the module does next: the head of the agenda; else, on every other step, what is due; else the turn of core `turn`. -/
def State.pick (s : State) : Todo :=
  match s.agenda with
  | .step i :: t => .exec i { s with agenda := t }
  | .run k :: t => State.coreTurn { s with agenda := t, turn := k } k
  | [] =>
    match (if s.odd then s.due else none) with
    | some i => .exec i s
    | none => s.coreTurn s.turn

/-- The tiles some of whose spilled obligation entries lie, or should lie, in the save area (R63). -/
def State.spillTiles (s : State) : List Nat :=
  (s.tiles.filter fun t => t.2.placed != 0).map (·.1) ++ (s.cores.filter fun c => !c.2.spilt.isEmpty).map (tileOf ·.1)

/-- What goes on by itself when a step ends: delayed writes, arrivals and registrations that waited for a home, spilled entries, token
buckets, a change of the draw limit, and the capacities of caches (R25, R63, R104, R283, R287, R375, R383). -/
def State.settle (s : State) : State :=
  let s1 := if s.late.isEmpty then s else s.settleLate [] s.late
  let s2 := s1.settleNet.registerLate
  let s3 := s2.spillTiles.foldl State.placeSpilt s2
  ((s3.refillTo (s3.cycle / 1024)).settleLimit).trim

/-- After a step: a stepped core's debug step ends (R244), what goes on by itself goes on, and running activations are charged (R50); the
turn passes on after every other step. -/
def State.pass (s : State) (k : Nat) : State :=
  let s1 := (s.afterStep k).settle.chargeAll
  if s1.odd then { s1 with odd := false } else { s1 with odd := true, turn := s1.nextCore k }

end Sys2Proof.Machine
end

