-- ==== Sys2Proof/Machine/Twin.lean ====
section
/-! DEFINITION. The follower of a pair (R394, R395): what the machine does on the leader is done a second time with the follower's own cells,
registers, engine operands and fingerprint in the leader's place, and only these are kept of it. -/

namespace Sys2Proof.Machine

/-! ## What the follower has of its own -/

/-- Chunk `q` of a leader with what its follower `d` has of it. -/
def Core.shadowed (d : Core) (q : Chunk) : Chunk :=
  match d.shadow q.id with
  | some x => { q with fp := x.fp, regs := x.regs, v := x.v }
  | none => { q with fp := 0xFFFFFFFFFFFFFFFF, regs := d.regs, v := d.vec.v }

/-- The leader's buffered stores with the follower's data in the local ones: its local stores are its own, global accesses are the leader's
alone (R394). -/
def ownStores : List Store → List (Nat × List Byte) → List Store
  | [], _ => []
  | e :: t, ds =>
    match ds.find? (·.1 == e.chunk) with
    | some x => (if e.dest = .loc then { e with data := x.2 } else e) :: ownStores t (ds.erase x)
    | none => e :: ownStores t ds

/-- Matrix operations with other pre-images of their accumulators. -/
def ownPre : List MOp → List (BitVec 2048) → List MOp
  | o :: t, x :: xs => { o with pre := x } :: ownPre t xs
  | l, _ => l

/-- The leader `c` with its follower `d`'s cells, registers, engine operands and fingerprints (R394, R395). -/
def Core.asFollower (c d : Core) : Core :=
  { c with
    regs := d.regs
    ls := d.ls
    vec := { c.vec with v := d.vec.v, a := d.vec.a }
    eng := { c.eng with mq := ownPre c.eng.mq d.twin.pre }
    ord := { c.ord with
      ended := c.ord.ended.map fun e => { e with c := d.shadowed e.c }
      chunk := d.shadowed c.ord.chunk
      sb := ownStores c.ord.sb d.twin.data } }

/-- What a core has in its buffers, as a follower keeps its own. -/
def Core.toTwin (c : Core) : Twin :=
  { chunks := (c.ord.ended.map (·.c) ++ [c.ord.chunk]).map fun q => ⟨q.id, q.fp, q.regs, q.v⟩
    data := c.ord.sb.map fun e => (e.chunk, e.data)
    pre := c.eng.mq.map (·.pre) }

/-- The pairs: a leader and its follower. -/
def State.leads (s : State) : List (Nat × Nat) :=
  s.cores.filterMap fun x => if x.2.ctl.leader then x.2.ctl.pair.map fun f => (x.1, f) else none

/-- The state from which newt `f` does what its leader `k` does: `f`'s own data in `k`'s place, and `k`'s fingerprints in `f`'s. -/
def State.otherSide (s : State) (k f : Nat) : State :=
  (s.setCore k ((s.core k).asFollower (s.core f))).modCore f fun d => { d with twin := (s.core k).toTwin }

/-! ## The second execution -/

/-- What follows a step or an instruction: the turn passes on (R2; log 2). -/
def passed (k : Nat) : Host.Outcome State Fault Refusal → Host.Outcome State Fault Refusal
  | .next s => .next (s.pass k)
  | .fault r => .fault r
  | .refused r => .refused r

/-- What comes of a thing to do, with what follows it. -/
def Todo.outcome : Todo → Host.Outcome State Fault Refusal
  | .exec i s => passed s.turn (Machine.exec i s)
  | .done s => .next (s.pass s.turn)

/-- The same thing done with the follower's data. What the debug module writes is the newt's that it names alone (R400). -/
def State.twinTodo (s : State) (k f : Nat) : Todo → Option Todo
  | .exec (.ddataAccess ..) _ => none
  | .exec i s1 => some (.exec i (s1.otherSide k f))
  | .done _ => some (s.otherSide k f).pick

/-- Two executions have come to the same point of the same program: activation, PCs, chunks, buffered stores and operations. -/
def Core.alike (a b : Core) : Bool :=
  a.ctl.run == b.ctl.run && a.ctl.pair == b.ctl.pair
    && a.slots.map (fun e => (e.1, e.2.pc, e.2.st)) == b.slots.map (fun e => (e.1, e.2.pc, e.2.st))
    && a.ord.chunk.id == b.ord.chunk.id && a.ord.chunk.retired == b.ord.chunk.retired
    && a.ord.ended.map (·.c.id) == b.ord.ended.map (·.c.id)
    && a.ord.sb.map (·.chunk) == b.ord.sb.map (·.chunk) && a.eng.mq.length == b.eng.mq.length

/-- Field `x` of a core, which had the value `o`, takes a new value `y` where the second execution has changed it. -/
def changed {α : Type} [DecidableEq α] (o y x : α) : α := if y = o then x else y

/-- What the second execution has made of the follower, which was `o` before: `c` is the leader's place after it. -/
def Core.took (d o c : Core) (k : Nat) : Core :=
  { d with
    regs := changed o.regs c.regs d.regs
    ls := changed o.ls c.ls d.ls
    vec := { d.vec with v := changed o.vec.v c.vec.v d.vec.v, a := changed o.vec.a c.vec.a d.vec.a }
    twin := if d.ctl.pair = some k then c.toTwin else {} }

/-- The state `t` that a thing to do at `s` has led to, with what the follower `f` of newt `k` has done meanwhile. Where its own execution
stops in a fault, say of its own poison or expiry, or otherwise comes to another point, it has not done what its leader has: its record of the
chunk lacks it, and the fingerprints differ (R395; DEDUCED, log 17). -/
def State.follow (s : State) (td : Todo) (t : State) (k f : Nat) : State :=
  match (s.twinTodo k f td).map Todo.outcome with
  | some (.next u) =>
    if (t.core k).alike (u.core k) then t.modCore f fun d => d.took (s.core f) (u.core k) k else t
  | _ => t

/-- The state `t` that a thing to do at `s` has led to, with what every pair's follower has done meanwhile. -/
def State.alongside (s : State) (td : Todo) (t : State) : State := s.leads.foldl (fun t x => s.follow td t x.1 x.2) t

/-- What a thing to do at `s` comes to, with what every pair's follower does. -/
def State.withFollowers (s : State) (td : Todo) : Host.Outcome State Fault Refusal → Host.Outcome State Fault Refusal
  | .next t => .next (s.alongside td t)
  | .fault r => .fault r
  | .refused r => .refused r

end Sys2Proof.Machine
end

