-- ==== Sys2Proof/Machine/Step.lean ====
section
/-! DEFINITION. The step of the machine, and the placing of one instruction where the next fetch finds it. -/

namespace Sys2Proof.Machine

/-- One step of the module: once firmware has halted it nothing runs but a reset or power-on (R29); else what comes next is
executed, by the followers of pairs too (R394). -/
def step (s : State) : Host.Outcome State Fault Refusal :=
  if s.halted ∧ !s.restarts then .fault .moduleHalted
  else s.withFollowers s.pick s.pick.outcome

/-- Bytes of halfwords, as the line format stores them (R6, R109). -/
def bytesOfHalves : List Nat → List Byte
  | [] => []
  | h :: t => BitVec.ofNat 8 h :: BitVec.ofNat 8 (h / 256) :: bytesOfHalves t

/-- The opcodes that level U may not execute: `rte`, `tlbinv` and `frgrant` (R121). -/
def privOp (op : Nat) : Bool := decide (0x3B ≤ op) && decide (op ≤ 0x3D)

/-- The code line and the page tables that map it placed in edge-station memory: level-1 table in frame 1, level 2 in frame
2, level 3 in frame 3, the line in frame 4, mapped at VA 0 with R, W and X (R98, R99). -/
def placedMemory (m : Memory) (line : List Byte) : Memory :=
  let m1 := m.put 0x10000 (leBytes 8 (2 * 1024 + 1))
  let m2 := m1.put 0x20000 (leBytes 8 (3 * 1024 + 1))
  let m3 := m2.put 0x30000 (leBytes 8 (4 * 1024 + 15))
  m3.put 0x40000 line

/-- The state with one instruction placed where the next step fetches: a partition of node 4096 (tiles 0 to 7) with one
window and one page, and an activation running at slot 1 of the line at VA 0: on newt 0 at level U, or for the privileged
opcodes on tile 0's service core at level F. It stands for the ready reports of tile 0 and of the stations, and for CREATE, CONFIG, LAUNCH
and the dispatch of a program that the host loads (log 20). -/
def State.withFetchWord (s : State) (nbits w : Nat) : State :=
  let p := tableParts nbits w
  let priv := privOp p.op.toNat
  let k := if priv then 0x100000 else 0
  let act : Act := { st := .running, chan := if priv then 32 else 0, pc := 1, count := 32768, budget := 1024,
                     sync := { qb := [(0, if priv then 32 else 0)] } }
  let part : Part := { s.part 0 with node := 4096, ptroot := 0x10000, win := Table.set (s.part 0).win 0 0x8000000000000000 }
  let c := s.core k
  let c1 : Core := { c with
    slots := Table.set c.slots 0 act
    ctl := { c.ctl with run := some 0, pair := none, lizhead := none, lizn := 0 }
    dbg := {}
    icache := [] }
  let t := s.tile 0
  { s with
    agenda := [.run k]
    halted := false
    cores := Table.set s.cores k c1
    parts := Table.set s.parts 0 part
    tiles := Table.set s.tiles 0 { t with
      ready := true
      owner := some 0
      tlb := []
      svc := { t.svc with fwroot := 0x10000, mmu := [] } }
    phys := { s.phys with
      dram := placedMemory s.phys.dram (bytesOfHalves (Line.single p))
      poison := []
      owner := Table.set (Table.set (Table.set (Table.set s.phys.owner 1 1) 2 1) 3 1) 4 1
      cis := s.phys.cis.filter fun e => decide (e.1 < 0x200) || decide (0x2800 ≤ e.1) }
    host := { s.host with stations := List.range 64 } }

end Sys2Proof.Machine
end

