-- ==== Sys2Proof/Safety.lean ====
section
/-! DEFINITION. What counts as a safe state and a safe run, and the frames that the statements use: what an instruction leaves
unchanged. -/

namespace Sys2Proof.Machine

/-- Every memory of the module is in canonical form: the edge stations' and every core's local store. -/
def State.memoryOk (s : State) : Prop := s.phys.dram.wf = true ∧ ∀ k, (s.core k).ls.cells.wf = true

/-- A state in which the machine goes on: the next step is neither a fault nor a refusal. -/
def State.Live (s : State) : Prop := ∃ t, step s = .next t

/-- A run of `n` steps that neither faults nor is refused. -/
def SafeRun : Nat → State → Prop
  | 0, _ => True
  | n + 1, s => ∃ t, step s = .next t ∧ SafeRun n t

/-! ## Frames -/

/-- Every byte of memory reads as before: the local store of every core (R79, R365), a byte as its home cistern holds it, and
the edge station's (R102, R104). -/
structure SameMemory (s t : State) : Prop where
  cell : ∀ k off, t.cellAt k off = s.cellAt k off
  home : ∀ pa, t.phys.byte pa = s.phys.byte pa
  edge : ∀ pa, t.phys.dram.read pa = s.phys.dram.read pa

/-- Every byte of memory reads as before, but for the ranges of the service cores' SRAM that hold spilled obligation entries, held contexts,
holding lists and diverted messages (R55, R63, R365), which are state of their own. -/
structure SameData (s t : State) : Prop where
  cell : ∀ k off, (isSvc k = true → 0x40000 ≤ off) → t.cellAt k off = s.cellAt k off
  home : ∀ pa, t.phys.byte pa = s.phys.byte pa
  edge : ∀ pa, t.phys.dram.read pa = s.phys.dram.read pa

/-- Outside the cores only time has moved: CYCLE, what of it each core has been charged, and the count of free values. -/
def OnlyCores (s t : State) : Prop :=
  t = { s with cycle := t.cycle, paid := t.paid, freeCount := t.freeCount, cores := t.cores }

/-- The cores other than `k` are as before; the follower of a pair, which does as its leader does (R394), is excepted. -/
def OtherCores (s t : State) (k : Nat) : Prop := ∀ j, j ≠ k → (s.core k).ctl.pair ≠ some j → t.core j = s.core j

/-- The slots of core `k`: only the running activation's own has changed, in its PC, the PC that led to it and its watchdog count
(R44, R50). -/
structure SameSlots (s t : State) (k : Nat) : Prop where
  mine : (t.core k).act = { (s.core k).act with
    pc := (t.core k).act.pc
    src := (t.core k).act.src
    count := (t.core k).act.count }
  rest : ∀ i, i ≠ (s.core k).runSlot → (t.core k).slot i = (s.core k).slot i

/-- What an instruction leaves unchanged that writes only the registers listed in `ws` of core `k`: all memory, every other register, the
vector and accumulator registers, rings, engines, handler table, queues, obligations, CSR state and debug registers, the store and output
buffers, and everything outside the core. -/
structure RegFrame (s t : State) (k : Nat) (ws : List Nat) : Prop where
  module : OnlyCores s t
  memory : SameMemory s t
  others : OtherCores s t k
  core : t.core k = { s.core k with
    ctl := (t.core k).ctl, regs := (t.core k).regs, slots := (t.core k).slots, ord := (t.core k).ord }
  ctl : (t.core k).ctl = { (s.core k).ctl with nchunk := (t.core k).ctl.nchunk }
  regs : ∀ i, i ∉ ws → (t.core k).reg i = (s.core k).reg i
  slots : SameSlots s t k
  stores : (t.core k).ord.sb = (s.core k).ord.sb
  output : (t.core k).ord.ob = (s.core k).ord.ob

/-- State `t` is state `u` after the instruction of core `k` has retired (R125, R131): the PC is `pc`; beside it only time, the
watchdog count and the chunk's own record have moved, and every byte of memory reads as in `u`. -/
structure Retires (u t : State) (k : Nat) (pc : Word) : Prop where
  module : OnlyCores u t
  memory : SameMemory u t
  others : OtherCores u t k
  core : t.core k = { u.core k with ctl := (t.core k).ctl, slots := (t.core k).slots, ord := (t.core k).ord }
  ctl : (t.core k).ctl = { (u.core k).ctl with nchunk := (t.core k).ctl.nchunk }
  slots : SameSlots u t k
  stores : (t.core k).ord.sb = (u.core k).ord.sb
  output : (t.core k).ord.ob = (u.core k).ord.ob
  pc : (t.core k).act.pc = pc

/-! ## Commit points -/

/-- Core `c` has nothing outstanding that a commit point would have to commit or release, and its running activation is in no wait
(R48): no ended chunk, no store, no line touched, no entry of the activation in the output buffer. -/
structure Core.Quiet (c : Core) : Prop where
  ended : c.ord.ended = []
  stores : c.ord.sb = []
  read : c.ord.chunk.rd = []
  wrote : c.ord.chunk.wr = []
  isolated : c.ord.chunk.iso = []
  output : ∀ e ∈ c.ord.ob, e.slot ≠ c.runSlot
  wait : c.act.sync.wait = []

/-- Where core `k` leads a pair, its follower's fingerprint of the chunk that is open is its own, and the follower has no record of a
chunk yet to come (R395). -/
def State.Matched (s : State) (k : Nat) : Prop :=
  ∀ f, (s.core k).ctl.pair = some f → (s.core k).ctl.leader = true →
    (s.core f).printOf (s.core k).ord.chunk.id = (s.core k).ord.chunk.fp ∧
    ∀ n, (s.core k).ctl.nchunk ≤ n → (s.core f).shadow n = none

/-- Core `k` has nothing outstanding, and the chunk that is open would match its pair's. -/
structure State.Quiet (s : State) (k : Nat) : Prop where
  core : (s.core k).Quiet
  pair : s.Matched k

/-- What a commit point of core `k` leaves where nothing is outstanding (R48): a new chunk, and the note that the activation has passed a
commit point (R51). All memory, all registers and everything outside the core stay. -/
structure PassedPoint (s t : State) (k : Nat) : Prop where
  module : t = { s with cores := t.cores }
  others : ∀ j, j ≠ k → t.core j = s.core j
  core : t.core k = { s.core k with ctl := (t.core k).ctl, slots := (t.core k).slots, ord := (t.core k).ord }
  ctl : (t.core k).ctl = { (s.core k).ctl with nchunk := (t.core k).ctl.nchunk }
  slot : (t.core k).act = { (s.core k).act with life := { (s.core k).act.life with past := true, atPoint := false } }
  rest : ∀ i, i ≠ (s.core k).runSlot → (t.core k).slot i = (s.core k).slot i
  quiet : t.Quiet k
  output : (t.core k).ord.ob = (s.core k).ord.ob

/-! ## Faults -/

/-- The running activation of core `k` has taken the fault `r` (R328, R329): it stands Faulted in its slot with its record, at PC `pc`, it
no longer runs, and the service core of tile `home` holds its register image and its record, which lie in its SRAM. All other memory, the
registers and the obligations are as before. -/
structure TakesFault (s t : State) (k : Nat) (r : FaultRec) (pc : Word) (home : Nat) : Prop where
  stopped : (t.core k).ctl.run = none
  state : ((t.core k).slot (s.core k).runSlot).st = .faulted
  saved : ((t.core k).slot (s.core k).runSlot).pc = pc
  record : ((t.core k).slot (s.core k).runSlot).life.fault = some r
  held : (t.tile home).svc.held = (s.tile home).svc.held ++
    [{ core := k, slot := (s.core k).runSlot, act := (s.core k).act.uid, image := (s.core k).regs, frec := r }]
  regs : (t.core k).regs = (s.core k).regs
  owed : (t.core k).obl = (s.core k).obl ∧ (t.core k).spilt = (s.core k).spilt
  rest : ∀ i, i ≠ (s.core k).runSlot → (t.core k).slot i = (s.core k).slot i
  memory : SameData s t
  others : OtherCores s t k

/-! ## Operands of an instruction -/

/-- Core `s.turn` runs an activation, which fetches and retires instructions (R53). -/
def State.Running (s : State) : Prop := (s.core s.turn).ctl.run.isSome = true

/-- Scalar sources read in operand order (R125, R127). -/
def readsOf : List Sel → M (List Word)
  | [] => pure []
  | b :: t => do
    let x ← readOp b
    let xs ← readsOf t
    pure (x :: xs)

/-- The sources of the instruction that core `s.turn` is at can be read: they give `vals`, and the instruction's own effect is seen
from state `u`. Where every source is w0–w55, `u` is `s` itself. A q source is a wait: its commit point and its dequeuing
come first (R125, R127), and `u` is the state they leave, in which the activation still runs. -/
structure Operands (s : State) (srcs : List Sel) (vals : List Word) (u : State) : Prop where
  running : s.Running
  reads : ∃ c, readsOf srcs s.begin = .ok (vals, c) ∧ (if srcs.all Sel.dstOk then u = s else u = c.st)
  turn : u.turn = s.turn
  same : (u.core s.turn).ctl.run = (s.core s.turn).ctl.run

/-- The registers that a write to selector `a` changes: w0 discards writes (R126). -/
def written (a : Sel) : List Nat := if a.toNat = 0 then [] else [a.toNat]

/-- The sequential successor of a running activation's PC (R111). -/
def Act.nextPc (a : Act) : Word := if bitsOf a.pc.toNat 5 0 < a.hdr then a.pc + 1 else (a.pc &&& ~~~63#64) + 65

/-- The next state `t` of an instruction that writes `x` to selector `a` and whose sources were read in state `u`: the register
holds `x`, the PC moves to the sequential successor, and nothing else changes. -/
structure WritesReg (s u t : State) (a : Sel) (x : Word) : Prop where
  value : a.toNat ≠ 0 → (t.core s.turn).reg a.toNat = x
  pc : (t.core s.turn).act.pc = (s.core s.turn).act.nextPc
  frame : RegFrame u t s.turn (written a)

end Sys2Proof.Machine
end

