-- ==== Sys2Proof/Certificates/Slice0/Obligations.lean ====
section
/-! DEFINITION. The statements for the provers, and the results they speak of, written from the rules in the arithmetic of whole
numbers: N(x) is `x.toNat`, S(x) is `x.toInt` (R7). -/

namespace Sys2Proof.Claims

open Sys2Proof.Machine

/-! ## Results of scalar instructions (R142 to R150) -/

/-- The result of a scalar instruction: its destination, its sources in operand order, and the value of the destination from
theirs. -/
structure Result where
  dst : Sel
  srcs : List Sel
  val : List Word → Word

/-- Functions of one, two and three source values. -/
def of1 (f : Word → Word) : List Word → Word
  | [b] => f b
  | _ => 0
def of2 (f : Word → Word → Word) : List Word → Word
  | [b, c] => f b c
  | _ => 0
def of3 (f : Word → Word → Word → Word) : List Word → Word
  | [b, c, d] => f b c d
  | _ => 0

/-- Sums and products (R142, R147, R148, R149), and the constants of R147. -/
def arithmetic : Instr → Option Result
  | .add a b c => some ⟨a, [b, c], of2 fun x y => BitVec.ofNat 64 (x.toNat + y.toNat)⟩
  | .sub a b c => some ⟨a, [b, c], of2 fun x y => BitVec.ofInt 64 (x.toInt - y.toInt)⟩
  | .mul a b c => some ⟨a, [b, c], of2 fun x y => BitVec.ofNat 64 (x.toNat * y.toNat)⟩
  | .mulh a b c => some ⟨a, [b, c], of2 fun x y => BitVec.ofInt 64 (x.toInt * y.toInt / 2 ^ 64)⟩
  | .mulhn a b c => some ⟨a, [b, c], of2 fun x y => BitVec.ofNat 64 (x.toNat * y.toNat / 2 ^ 64)⟩
  | .addi a b imm => some ⟨a, [b], of1 fun x => BitVec.ofInt 64 (x.toInt + imm.toInt)⟩
  | .muli a b imm => some ⟨a, [b], of1 fun x => BitVec.ofInt 64 (x.toInt * imm.toInt)⟩
  | .movi a imm => some ⟨a, [], fun _ => BitVec.ofInt 64 imm.toInt⟩
  | .movhi a imm => some ⟨a, [a], of1 fun x => BitVec.ofNat 64 (imm.toNat * 2 ^ 32 + x.toNat % 2 ^ 32)⟩
  | .shladd a b c sh => some ⟨a, [b, c], of2 fun x y => BitVec.ofNat 64 (x.toNat * 2 ^ sh.toNat + y.toNat)⟩
  | _ => none

/-- Bitwise operations, shifts and fields (R142, R146, R149). -/
def bitwise : Instr → Option Result
  | .and a b c => some ⟨a, [b, c], of2 fun x y => x &&& y⟩
  | .or a b c => some ⟨a, [b, c], of2 fun x y => x ||| y⟩
  | .xor a b c => some ⟨a, [b, c], of2 fun x y => x ^^^ y⟩
  | .andn a b c => some ⟨a, [b, c], of2 fun x y => x &&& ~~~y⟩
  | .shl a b c => some ⟨a, [b, c], of2 fun x y => BitVec.ofNat 64 (x.toNat * 2 ^ (y.toNat % 64))⟩
  | .shr a b c => some ⟨a, [b, c], of2 fun x y => BitVec.ofNat 64 (x.toNat / 2 ^ (y.toNat % 64))⟩
  | .sar a b c => some ⟨a, [b, c], of2 fun x y => BitVec.ofInt 64 (x.toInt / 2 ^ (y.toNat % 64))⟩
  | .rol a b c => some ⟨a, [b, c], of2 fun x y => x.rotateLeft (y.toNat % 64)⟩
  | .andi a b imm => some ⟨a, [b], of1 fun x => x &&& BitVec.ofInt 64 imm.toInt⟩
  | .ori a b imm => some ⟨a, [b], of1 fun x => x ||| BitVec.ofInt 64 imm.toInt⟩
  | .xori a b imm => some ⟨a, [b], of1 fun x => x ^^^ BitVec.ofInt 64 imm.toInt⟩
  | .shli a b imm => some ⟨a, [b], of1 fun x => BitVec.ofNat 64 (x.toNat * 2 ^ imm.toNat)⟩
  | .shri a b imm => some ⟨a, [b], of1 fun x => BitVec.ofNat 64 (x.toNat / 2 ^ imm.toNat)⟩
  | .sari a b imm => some ⟨a, [b], of1 fun x => BitVec.ofInt 64 (x.toInt / 2 ^ imm.toNat)⟩
  | .ext a b pos len => some ⟨a, [b], of1 fun x => BitVec.ofNat 64 (x.toNat / 2 ^ pos.toNat % 2 ^ len.toNat)⟩
  | .ins a b pos len => some ⟨a, [a, b], of2 fun x y =>
      BitVec.ofNat 64 (x.toNat % 2 ^ pos.toNat + y.toNat % 2 ^ len.toNat * 2 ^ pos.toNat
        + x.toNat / 2 ^ (pos.toNat + len.toNat) * 2 ^ (pos.toNat + len.toNat))⟩
  | _ => none

/-- The conditions of R119 in whole numbers. -/
def condSays (c : Cond) (x y : Word) : Bool :=
  match c with
  | .eq => decide (x.toNat = y.toNat)
  | .ne => decide (x.toNat ≠ y.toNat)
  | .lt => decide (x.toInt < y.toInt)
  | .ge => decide (y.toInt ≤ x.toInt)
  | .le => decide (x.toInt ≤ y.toInt)
  | .gt => decide (y.toInt < x.toInt)
  | .ltn => decide (x.toNat < y.toNat)
  | .gen => decide (y.toNat ≤ x.toNat)
  | .len => decide (x.toNat ≤ y.toNat)
  | .gtn => decide (y.toNat < x.toNat)
  | .always => true

/-- Comparisons, choices and counts of bits (R142, R144, R145, R149, R150). -/
def comparison : Instr → Option Result
  | .min a b c => some ⟨a, [b, c], of2 fun x y => if x.toInt ≤ y.toInt then x else y⟩
  | .minn a b c => some ⟨a, [b, c], of2 fun x y => if x.toNat ≤ y.toNat then x else y⟩
  | .max a b c => some ⟨a, [b, c], of2 fun x y => if y.toInt ≤ x.toInt then x else y⟩
  | .maxn a b c => some ⟨a, [b, c], of2 fun x y => if y.toNat ≤ x.toNat then x else y⟩
  | .cmp cond a b c => some ⟨a, [b, c], of2 fun x y => if condSays cond x y then 1 else 0⟩
  | .cmpi cond a b imm => some ⟨a, [b], of1 fun x => if condSays cond x (BitVec.ofInt 64 imm.toInt) then 1 else 0⟩
  | .sel a b c d => some ⟨a, [b, c, d], of3 fun x y z => if z ≠ 0 then x else y⟩
  | .clz a b => some ⟨a, [b], of1 fun x => BitVec.ofNat 64 (((List.range 64).takeWhile fun i => !x.getLsbD (63 - i)).length)⟩
  | .ctz a b => some ⟨a, [b], of1 fun x => BitVec.ofNat 64 (((List.range 64).takeWhile fun i => !x.getLsbD i).length)⟩
  | .popc a b => some ⟨a, [b], of1 fun x => BitVec.ofNat 64 (((List.range 64).filter x.getLsbD).length)⟩
  | _ => none

/-- Divisions (R143). -/
def division : Instr → Option Result
  | .div a b c => some ⟨a, [b, c], of2 fun x y =>
      if y = 0 then 0xFFFFFFFFFFFFFFFF else BitVec.ofInt 64 (x.toInt.tdiv y.toInt)⟩
  | .divn a b c => some ⟨a, [b, c], of2 fun x y =>
      if y = 0 then 0xFFFFFFFFFFFFFFFF else BitVec.ofNat 64 (x.toNat / y.toNat)⟩
  | .rem a b c => some ⟨a, [b, c], of2 fun x y =>
      if y = 0 then x else BitVec.ofInt 64 (x.toInt - x.toInt.tdiv y.toInt * y.toInt)⟩
  | .remn a b c => some ⟨a, [b, c], of2 fun x y =>
      if y = 0 then x else BitVec.ofNat 64 (x.toNat - x.toNat / y.toNat * y.toNat)⟩
  | _ => none

/-! ## Control instructions (R133 to R137, R157) -/

/-- What a control instruction comes to: the register it writes, if any, and the PC that follows it. -/
structure Passage where
  write : Option (Sel × Word)
  target : Word

/-- The slot `slot` of the line that lies `disp` lines from the line of `pc` (R112). -/
def lineAt (pc : Word) (slot : BitVec 6) (disp : Int) : Word :=
  BitVec.ofInt 64 ((pc.toNat / 64 : Nat) * 64 + disp * 64 + slot.toNat)

/-- The sources of a control instruction, and what it comes to for the running activation and the values of its sources. -/
def passages : Instr → Option (List Sel × (Act → List Word → Passage))
  | .nop => some ([], fun a _ => ⟨none, a.nextPc⟩)
  | .chunk => some ([], fun a _ => ⟨none, a.nextPc⟩)
  | .br slot disp => some ([], fun a _ => ⟨none, lineAt a.pc slot disp.toInt⟩)
  | .bcc cond x y slot disp => some ([x, y], fun a v =>
      ⟨none, if condSays cond (v.getD 0 0) (v.getD 1 0) then lineAt a.pc slot disp.toInt else a.nextPc⟩)
  | .call slot disp => some ([], fun a _ => ⟨some (55, a.nextPc), lineAt a.pc slot disp.toInt⟩)
  | .jr b => some ([b], fun _ v => ⟨none, v.getD 0 0⟩)
  | .callr b => some ([b], fun a v => ⟨some (55, a.nextPc), v.getD 0 0⟩)
  | .loop x slot disp => some ([x], fun a v =>
      ⟨some (x, v.getD 0 0 - 1), if v.getD 0 0 - 1 = 0 then a.nextPc else lineAt a.pc slot disp.toInt⟩)
  | _ => none

/-! ## CSRs (R151, R152, R158) -/

/-- What a CSR that software writes holds after a write of `v`, where a level of at least the second component writes it; the CSRs of
R158, R340, R364, R366 and R397 whose writes do nothing but store their defined bits. -/
def csrStores (n : Nat) (v : Word) : Option (Word × Nat) :=
  if n = 0x002 then some (v &&& 0x7FF, 2)
  else if n = 0x008 then some (v &&& ~~~0xF#64, 0)
  else if n = 0x00C then some (v &&& 0x7FF, 0)
  else if n = 0x011 then some (v, 1)
  else if 0x020 ≤ n ∧ n ≤ 0x027 then some (v &&& 0x7F, 0)
  else if n = 0x100 then some (v &&& 0xFFF, 1)
  else if n = 0x101 then some (v &&& 0xFFFFFFFF, 1)
  else if n = 0x104 then some (v &&& ~~~0xFFF#64, 1)
  else if n = 0x105 then some (v &&& 0x000FFFFFFFFF0001, 1)
  else if n = 0x106 then some (v &&& 0x1F, 1)
  else if n = 0x107 then some (v &&& 0xE0007FFF00007FFF, 1)
  else if n = 0x108 then some (v &&& ~~~0xFFF#64, 1)
  else if n = 0x109 then
    some (BitVec.ofNat 64 (v.toNat / 128 % 2 * 128 + Nat.max 16 (Nat.min 30 (v.toNat % 32))), 1)
  else if n = 0x10A then some (v &&& 0x000FFFFFFFFF0000, 2)
  else none

/-- The core that may store to the CSR: GUARD and BFMT are a newt's, FPC and FWROOT a service core's, RETN and the CSRs of 0x1xx act
on the partition that owns the tile, and those from 0x104 on are written on its first tile, SAVEBASE in STATE 0 (R158, R159, R345,
R364, R397). -/
def csrPlace (s : State) (n : Nat) : Prop :=
  if n = 0x008 then True
  else if n = 0x00C ∨ (0x020 ≤ n ∧ n ≤ 0x027) then isSvc s.turn = false
  else if n = 0x011 ∨ n = 0x10A then isSvc s.turn = true
  else ∃ p, s.owner s.turn = some p ∧ (0x104 ≤ n → tileOf s.turn = s.partFirst p) ∧
    (n = 0x104 → (s.part p).pre.state = 0)

/-- A CSR whose write is ignored on the core whose turn it is: one that no level writes, a newt's on a service core, SAVEBASE outside STATE 0,
and a partition's from 0x103 on elsewhere than on its first tile (R151, R158, R345, R364, R397). -/
def csrIgnores (s : State) (n : Nat) : Prop :=
  (csrLevels n).2 = none ∨ (isSvc s.turn = true ∧ (n = 0x00C ∨ (0x020 ≤ n ∧ n ≤ 0x027))) ∨
  (∃ p, s.owner s.turn = some p ∧ ((n = 0x104 ∧ (s.part p).pre.state ≠ 0) ∨
    (0x103 ≤ n ∧ n ≤ 0x109 ∧ tileOf s.turn ≠ s.partFirst p)))

/-- `csrw` and `csrx` of CSR `n` with A as `a` complete from state `u`, and leave a state that satisfies `P`; `csrx` answers the old
value, and beside the CSR, A and the PC nothing that another core, a register or memory shows has changed. -/
def CsrActs (s u : State) (a : Sel) (n : BitVec 12) (P : State → Prop) : Prop :=
  (∃ t, exec (.csrw a n) s = .next t ∧ P t ∧
    (t.core s.turn).act.pc = (s.core s.turn).act.nextPc ∧ (t.core s.turn).regs = (u.core s.turn).regs ∧
    SameMemory u t ∧ OtherCores u t s.turn) ∧
  (a.toNat ≤ 55 → ∃ t, exec (.csrx a n) s = .next t ∧ P t ∧
    (a.toNat ≠ 0 → (t.core s.turn).reg a.toNat = u.csr s.turn n.toNat) ∧
    (t.core s.turn).act.pc = (s.core s.turn).act.nextPc ∧
    (∀ i, i ∉ written a → (t.core s.turn).reg i = (u.core s.turn).reg i) ∧ SameMemory u t ∧ OtherCores u t s.turn)

/-! ## Local store and global memory (R129, R130, R162 to R174) -/

/-- The range of `n` bytes at offset `off` may be accessed by core `k` now (R129): aligned, within its limit and outside the inboxes,
met by no reserved engine range, and, outside the workspace granule, in a granule that has not expired. -/
structure LocalClear (s : State) (k off n : Nat) : Prop where
  aligned : off % n = 0
  inside : off + n ≤ (s.core k).limit k
  allowed : localDenied (s.level k) off n = false
  unreserved : (s.core k).reserved off n = false
  live : (s.core k).act.inWorkspace off n = false → s.expiredAt k off = false

/-- No memory error lies in the local store that holds the offset, none of its sectors in the range is poisoned, and the range does not meet
word 58 of the workspace where that is the first word of a poisoned message (R91, R92, R390). -/
structure LocalSound (s : State) (k off n : Nat) : Prop where
  ecc : (s.core (placeOf k off).1).ls.ecc = []
  clean : s.poisonAt k off n = false
  message : (s.core k).act.inWorkspace off n = true → (s.core k).act.life.bad58 = true → overlaps (off % 512) n 464 8 = false

/-- A byte of local store as core `k` itself sees it: the youngest store of its buffer, else the cell (R164, R86). -/
def newtByte (s : State) (k a : Nat) : Byte := (sbByte true a (s.core k).ord.sb).getD (s.cellAt k a)

/-- The bytes that a local read finds (R45, R129): register-cache bytes in the workspace granule, else what the core sees. -/
def localBytes (s : State) (k off n : Nat) : List Byte :=
  if (s.core k).act.inWorkspace off n then (s.core k).regBytes (off % 512) n
  else (List.range n).map fun j => newtByte s k (off + j)

/-- The word that a load delivers (R162): the bytes least significant first, sign-extended by the signed sizes. -/
def loaded (z : MemSize) (bs : List Byte) : Word :=
  match z with
  | .bs | .hs | .ws =>
    if 2 ^ (8 * sizeBytes z) ≤ 2 * leNat bs then BitVec.ofInt 64 (leNat bs - 2 ^ (8 * sizeBytes z)) else BitVec.ofNat 64 (leNat bs)
  | .b | .h | .w | .d => BitVec.ofNat 64 (leNat bs)

/-- The address of a load or store: base plus signed displacement, mod 2^64 (R162, R163). -/
def address (b : Word) (imm : BitVec 22) : Nat := ((b.toNat + imm.toInt) % 2 ^ 64).toNat

/-- A global access of core `k` that translates, at home `home` to physical address `pa` (R95 to R100, R130): aligned, in the
virtual address space, and not delayed by a chunk that holds the home. `v` is the state that the translation leaves: its leaf in the TLB
and the half-line at its home. -/
structure GlobalClear (s : State) (k : Nat) (a : Acc) (va n pa home : Nat) (d : Dest) (v : State) : Prop where
  aligned : va % n = 0
  inside : va < 2 ^ 57
  maps : s.xlateOf k (s.level k) a va = (.ok pa home d, v)
  free : s.readDelayed k home (lineOf va) = false
  clean : (d = .home ∨ d = .edge) → v.phys.poisoned d pa n = false

/-- The bytes that a global read finds (R130, R166): the youngest of the core's own stores, else what the home, the edge station or the
device gives. -/
def globalBytes (s : State) (k : Nat) (d : Dest) (va pa n : Nat) : List Byte :=
  (List.range n).map fun j => (sbByte false (va + j) (s.core k).ord.sb).getD ((s.globalBytes d pa n).getD j 0)

/-- The state with a store placed in the store buffer of core `k` (R164, R166). -/
def stored (u : State) (k : Nat) (d : Dest) (va pa home : Nat) (bs : List Byte) : State :=
  u.modCore k fun c => { c with ord := { c.ord with
    sb := c.ord.sb ++ [⟨c.ord.chunk.id, d, BitVec.ofNat 64 va, pa, home, bs, false⟩] } }

/-- An atomic: its size, destination and operands, and the new value of memory from the old one and the operands' values, in `n`-byte
numbers (R171, R172, R174). -/
structure Atomic where
  size : ASize
  dst : Sel
  srcs : List Sel
  new : Nat → List Word → Option Nat

/-- The signed value of an n-byte number. -/
def signed (n x : Nat) : Int := if 2 ^ (8 * n) ≤ 2 * x then (x : Int) - 2 ^ (8 * n) else x

/-- An atomic of one value operand. -/
def amo (z : ASize) (a b c : Sel) (f : Nat → Nat → Nat) : Atomic :=
  ⟨z, a, [b, c], fun m v => some (f m ((v.getD 1 0).toNat % 2 ^ (8 * asizeBytes z)))⟩

/-- A compare and swap. -/
def cas (z : ASize) (a b c d : Sel) : Atomic :=
  ⟨z, a, [b, c, d], fun m v => if m = (v.getD 1 0).toNat % 2 ^ (8 * asizeBytes z)
    then some ((v.getD 2 0).toNat % 2 ^ (8 * asizeBytes z)) else none⟩

/-- The global atomics (R171, R172). -/
def globalAtomics : Instr → Option Atomic
  | .aadd z a b c => some (amo z a b c fun m x => (m + x) % 2 ^ (8 * asizeBytes z))
  | .amin z a b c => some (amo z a b c fun m x => if signed (asizeBytes z) x ≤ signed (asizeBytes z) m then x else m)
  | .amax z a b c => some (amo z a b c fun m x => if signed (asizeBytes z) m ≤ signed (asizeBytes z) x then x else m)
  | .aminn z a b c => some (amo z a b c fun m x => Nat.min m x)
  | .amaxn z a b c => some (amo z a b c fun m x => Nat.max m x)
  | .aand z a b c => some (amo z a b c fun m x => Nat.land m x)
  | .aor z a b c => some (amo z a b c fun m x => Nat.lor m x)
  | .axor z a b c => some (amo z a b c fun m x => Nat.xor m x)
  | .axchg z a b c => some (amo z a b c fun _ x => x)
  | .acas z a b c d => some (cas z a b c d)
  | _ => none

/-- The local atomics (R174). -/
def localAtomics : Instr → Option Atomic
  | .ladd z a b c => some (amo z a b c fun m x => (m + x) % 2 ^ (8 * asizeBytes z))
  | .lcas z a b c d => some (cas z a b c d)
  | _ => none

/-- The byte at address `x` after the `n` bytes at `pa` have taken the value `new`, if there is one. -/
def byteAfter (old : Nat → Byte) (pa n : Nat) (new : Option Nat) (x : Nat) : Byte :=
  match new with
  | some y => if pa ≤ x ∧ x < pa + n then (leBytes n y).getD (x - pa) 0 else old x
  | none => old x

/-- The range [b, b + c) passes the checks of R175 on newt `k`. -/
structure RangeClear (s : State) (k b c : Nat) : Prop where
  newt : isSvc k = false
  base : b % 512 = 0
  size : c % 512 = 0
  inside : b + c ≤ (s.core k).limit k
  allowed : localDenied (s.level k) b c = false
  unreserved : (s.core k).reserved b c = false

/-- What a well instruction leaves unchanged: every byte that a reader sees, global memory, the registers, the other cores and the tags
of the granules outside the range. -/
structure WellFrame (u t : State) (k b c : Nat) : Prop where
  global : ∀ pa, t.phys.byte pa = u.phys.byte pa
  regs : (t.core k).regs = (u.core k).regs
  others : OtherCores u t k
  tags : ∀ o, o < b ∨ b + c ≤ o → t.tagAt k o = u.tagAt k o

/-! ## Messages (R246 to R257) -/

/-- A route word passes the table of R247 on the core whose turn it is. -/
structure RouteLegal (s : State) (rw : Nat) : Prop where
  reserved : bitsOf rw 63 49 = 0 ∧ bitsOf rw 31 28 = 0
  service : bitOf rw 26 = true → bitsOf rw 4 0 = 0
  user : s.level s.turn = 0 → bitOf rw 26 = false ∧ bitOf rw 27 = false ∧ bitsOf rw 24 20 ≠ 29 ∧ bitsOf rw 24 20 ≠ 30
  inside : s.inPart s.myPart (bitsOf rw 19 5) = true
  reply : bitOf rw 48 = true → bitsOf rw 47 32 ≠ 0xFFFF

/-- The source of a payload of `len` bytes at `off` can be read (R249). -/
structure PayloadClear (s : State) (k off len : Nat) : Prop where
  short : len ≤ 2048
  aligned : off % 8 = 0
  clear : ∀ j, 8 * j < len → LocalClear s k (off + 8 * j) 8 ∧ LocalSound s k (off + 8 * j) 8

/-- The words of a payload: its bytes, with those at and above the length zero (R249). -/
def payload (s : State) (k off len : Nat) : List Word :=
  (List.range ((len + 7) / 8)).map fun j => BitVec.ofNat 64 (leNat
    ((List.range 8).map fun i => if 8 * j + i < len then (localBytes s k (off + 8 * j) 8).getD i 0 else 0))

/-- The state with an entry placed last in the output buffer (R47). -/
def buffered (u : State) (k : Nat) (kind : OKind) : State :=
  u.modCore k fun c => { c with ord := { c.ord with ob := c.ord.ob ++ [⟨kind, c.act.pc, c.ord.chunk.id, c.runSlot, false, 0, false⟩] } }

/-- The instructions that make an entry of the output buffer from values alone, and when they issue (R261, R265). -/
def plainEntry : Instr → Option (List Sel × (List Word → Prop) × (List Word → OKind))
  | .sig a b => some ([a, b], fun v => (v.getD 1 0).toNat < 2 ^ 32,
      fun v => .sig (BitVec.ofNat 16 (v.getD 0 0).toNat) (BitVec.ofNat 32 (v.getD 1 0).toNat))
  | .bara a b => some ([a, b], fun v => (v.getD 1 0).toNat < 2 ^ 31, fun v => .bara (v.getD 0 0) (BitVec.ofNat 32 (v.getD 1 0).toNat))
  | .join b => some ([b], fun _ => True, fun v => .join (v.getD 0 0))
  | .leave b => some ([b], fun _ => True, fun v => .leave (v.getD 0 0))
  | _ => none

/-- No notice about a context waits in channel 29 of newt `k` any more, and none of those contexts is held (R334). -/
def NoticesGone (u t : State) (k : Nat) : Prop :=
  (∀ m ∈ ((t.core k).inb 29).q ++ ((t.core k).inb 29).div ++ ((t.core k).inb 29).ovf, m.note.target = none) ∧
  ∀ n ∈ (u.core k).noticed, t.heldFor (some n) = none

/-- The state with the register write of a passage made. -/
def wrote (u : State) (k : Nat) (w : Option (Sel × Word)) : State :=
  match w with
  | none => u
  | some (a, x) => u.modCore k fun c => { c with regs := Table.set c.regs a.toNat x }

/-! ## Rings, lizards and draw tokens (R214 to R217, R268 to R277) -/

/-- What an instruction that moves rings leaves unchanged: all memory, all registers, everything outside the core. -/
structure RingFrame (u t : State) (k : Nat) (pc : Word) : Prop where
  module : OnlyCores u t
  memory : SameMemory u t
  others : OtherCores u t k
  regs : (t.core k).regs = (u.core k).regs
  vregs : (t.core k).vec.v = (u.core k).vec.v ∧ (t.core k).vec.a = (u.core k).vec.a
  stores : (t.core k).ord.sb = (u.core k).ord.sb
  pc : (t.core k).act.pc = pc

/-- The newt `m` is free to join a lizard or a pair as its `compose` or `pair` asks (R268). -/
structure MemberFree (s : State) (m : Nat) : Prop where
  idle : (s.core m).ctl.run = none
  running : (s.core m).dbg.halted = false
  unpaired : (s.core m).ctl.pair = none
  ungang : (s.core m).ctl.gangm = 0
  notPending : s.pending m = false
  alone : (s.core m).ctl.lizn = 0 ∧ (s.core m).ctl.lizhead = none

/-- State `w` is state `s` with newt `k` made the head of a lizard of `n` newts, itself and its right-hand neighbours
(R268); what the instruction caches of these held before goes (R123). -/
structure LizardBound (s w : State) (k n : Nat) : Prop where
  module : w = { s with cores := w.cores }
  head : w.core k = { s.core k with ctl := { (s.core k).ctl with lizn := n, lizact := (s.core k).act.uid } }
  members : ∀ m, k < m → m < k + n → w.core m = { s.core m with
    ctl := { (s.core m).ctl with lizhead := some k }
    icache := [] }
  others : ∀ j, j < k ∨ k + n ≤ j → w.core j = s.core j

/-- State `w` is state `s` with the lizard of head `k` released: its members are bound no more, and the register cache of each, where no
notice runs in it, is clear (R274). -/
structure LizardReleased (s w : State) (k : Nat) : Prop where
  module : w = { s with cores := w.cores }
  head : w.core k = { s.core k with ctl := { (s.core k).ctl with lizn := 0 } }
  members : ∀ m, k < m → m < k + (s.core k).ctl.lizn → w.core m = { s.core m with
    ctl := { (s.core m).ctl with lizhead := none }
    regs := if (s.core m).ctl.run.isSome then (s.core m).regs else [] }
  others : ∀ j, j < k ∨ k + (s.core k).ctl.lizn ≤ j → w.core j = s.core j

/-- The state with DRAW of core `k` changed by `f`. -/
def redrawn (s : State) (k : Nat) (f : Nat → Nat) : State :=
  s.modCore k fun c => { c with ctl := { c.ctl with draw := f c.ctl.draw } }

/-! ## Vector instructions (R216, R219 to R227) -/

/-- The operands of a vector instruction with destination `a` and sources `srcs` on a newt can be gathered: they give `vals`, and the
instruction's own effect is seen from `u`. Where every operand is a register v0–v15, `u` is `s` itself; ring and q operands are waits,
whose commit point, reads and cursors come first (R216). -/
structure VOperands (s : State) (a : VOp) (srcs : List VOp) (vals : List (BitVec 512)) (u : State) : Prop where
  running : s.Running
  newt : isSvc s.turn = false
  gathered : ∃ c, gather (some a) srcs s.begin = .ok (vals, c) ∧
    (if (a :: srcs).all fun o => !vIsRing o && !vIsQ o then u = s else u = c.st)
  turn : u.turn = s.turn
  same : (u.core s.turn).ctl.run = (s.core s.turn).ctl.run

/-- The next state `t` of a vector instruction that writes `x` to operand `a`: the register holds `x`, or the beat of the ring slot
that the write cursor names does, and the cursor moves on. -/
structure WritesVec (s u t : State) (a : VOp) (x : BitVec 512) : Prop where
  register : vIsRing a = false →
    Retires (u.modCore s.turn fun c => { c with vec := { c.vec with v := Table.set c.vec.v a.sel.toNat x } }) t s.turn
      (s.core s.turn).act.nextPc
  memory : vIsRing a = false → SameMemory u t
  slot : vIsRing a = true → (u.core s.turn).ls.cells.wf = true →
    ((u.core s.turn).ring (vHandle a)).writeOff a.slot.toNat % 64 = 0 →
    ((u.core s.turn).ring (vHandle a)).writeOff a.slot.toNat + 64 ≤ 0x20000 →
    (∀ o, o < 0x20000 → t.cellAt s.turn o =
      if ((u.core s.turn).ring (vHandle a)).writeOff a.slot.toNat ≤ o ∧
          o < ((u.core s.turn).ring (vHandle a)).writeOff a.slot.toNat + 64
      then (leBytes 64 x.toNat).getD (o - ((u.core s.turn).ring (vHandle a)).writeOff a.slot.toNat) 0
      else u.cellAt s.turn o) ∧
    (t.core s.turn).ring (vHandle a) = { (u.core s.turn).ring (vHandle a) with
      wcur := ((u.core s.turn).ring (vHandle a)).bump ((u.core s.turn).ring (vHandle a)).wcur } ∧
    (∀ h, h ≠ vHandle a → (t.core s.turn).ring h = (u.core s.turn).ring h) ∧
    (t.core s.turn).vec.v = (u.core s.turn).vec.v ∧ (t.core s.turn).regs = (u.core s.turn).regs ∧
    (∀ pa, t.phys.byte pa = u.phys.byte pa) ∧ OtherCores u t s.turn ∧
    (t.core s.turn).act.pc = (s.core s.turn).act.nextPc

/-- An instruction that computes its result lane by lane: its lane type, destination, sources, and the lane's value from theirs. -/
structure LaneWise where
  ty : VTy
  dst : VOp
  srcs : List VOp
  val : List Nat → Nat

/-- The value of an integer lane of width `w`, and the lane that holds an integer (R219). -/
def laneInt (w x : Nat) : Int := if 2 * x < 2 ^ w then x else (x : Int) - 2 ^ w
def laneOf (w : Nat) (x : Int) : Nat := (x % 2 ^ w).toNat

/-- A lane's result: on integer lanes the integer modulo 2^w, on floating lanes the value rounded once (R201, R221). -/
def laneResult (ty : VTy) (i : Int) (f : FVal) : Nat :=
  if ty.isFloat then roundTo (laneFmt ty) .rne false f else laneOf ty.width i

/-- The value of a floating lane (R188 to R190). -/
def laneVal (ty : VTy) (x : Nat) : FVal := (laneFmt ty).decode x

/-- Integer lanes of arithmetic, comparison and shift instructions, in whole numbers (R221, R222, R226); floating lanes by the values
of R186 to R203. -/
def laneWise : Instr → Option LaneWise
  | .vadd ty a b c => some ⟨ty, a, [b, c], fun v => laneResult ty (v.getD 0 0 + v.getD 1 0)
      ((laneVal ty (v.getD 0 0)).add (laneVal ty (v.getD 1 0)))⟩
  | .vsub ty a b c => some ⟨ty, a, [b, c], fun v => laneResult ty (v.getD 0 0 - v.getD 1 0)
      ((laneVal ty (v.getD 0 0)).add (laneVal ty (v.getD 1 0)).neg)⟩
  | .vmul ty a b c => some ⟨ty, a, [b, c], fun v => laneResult ty (v.getD 0 0 * v.getD 1 0)
      ((laneVal ty (v.getD 0 0)).mul (laneVal ty (v.getD 1 0)))⟩
  | .vmax ty a b c => some ⟨ty, a, [b, c], fun v => if ty.isFloat then lanePick true ty (v.getD 0 0) (v.getD 1 0)
      else laneOf ty.width (max (laneInt ty.width (v.getD 0 0)) (laneInt ty.width (v.getD 1 0)))⟩
  | .vmin ty a b c => some ⟨ty, a, [b, c], fun v => if ty.isFloat then lanePick false ty (v.getD 0 0) (v.getD 1 0)
      else laneOf ty.width (min (laneInt ty.width (v.getD 0 0)) (laneInt ty.width (v.getD 1 0)))⟩
  | .vabs ty a b => some ⟨ty, a, [b], fun v => if ty.isFloat then v.getD 0 0 % 2 ^ (ty.width - 1)
      else laneOf ty.width (laneInt ty.width (v.getD 0 0)).natAbs⟩
  | .vneg ty a b => some ⟨ty, a, [b], fun v => if ty.isFloat then Nat.xor (v.getD 0 0) (2 ^ (ty.width - 1))
      else laneOf ty.width (-laneInt ty.width (v.getD 0 0))⟩
  | .vrcp a b => some ⟨.f32, a, [b], fun v => roundTo fF32 .rne false (FVal.rcp (fF32.decode (v.getD 0 0)))⟩
  | .vrsqrt a b => some ⟨.f32, a, [b], fun v => roundTo fF32 .rne false (FVal.rsqrt (fF32.decode (v.getD 0 0)))⟩
  | .vexp2 a b => some ⟨.f32, a, [b], fun v => roundTo fF32 .rne false (FVal.exp2 (fF32.decode (v.getD 0 0)))⟩
  | .vlog2 a b => some ⟨.f32, a, [b], fun v => roundTo fF32 .rne false (FVal.log2 (fF32.decode (v.getD 0 0)))⟩
  | .vcmp cond ty a b c => some ⟨ty, a, [b, c], fun v =>
      if (if ty.isFloat then laneCond cond ty (v.getD 0 0) (v.getD 1 0)
        else condSays cond (BitVec.ofInt 64 (laneInt ty.width (v.getD 0 0))) (BitVec.ofInt 64 (laneInt ty.width (v.getD 1 0))))
      then 2 ^ ty.width - 1 else 0⟩
  | .vsel ty a b c d => some ⟨ty, a, [b, c, d], fun v => if v.getD 2 0 ≠ 0 then v.getD 0 0 else v.getD 1 0⟩
  | .vshl ty a b c => some ⟨ty, a, [b, c], fun v => laneOf ty.width (v.getD 0 0 * 2 ^ (v.getD 1 0 % ty.width))⟩
  | .vshr ty a b c => some ⟨ty, a, [b, c], fun v => v.getD 0 0 / 2 ^ (v.getD 1 0 % ty.width)⟩
  | .vsar ty a b c => some ⟨ty, a, [b, c], fun v =>
      laneOf ty.width (laneInt ty.width (v.getD 0 0) / 2 ^ (v.getD 1 0 % ty.width))⟩
  | .vand a b c => some ⟨.i8, a, [b, c], fun v => Nat.land (v.getD 0 0) (v.getD 1 0)⟩
  | .vor a b c => some ⟨.i8, a, [b, c], fun v => Nat.lor (v.getD 0 0) (v.getD 1 0)⟩
  | .vxor a b c => some ⟨.i8, a, [b, c], fun v => Nat.xor (v.getD 0 0) (v.getD 1 0)⟩
  | .vmov a b => some ⟨.i8, a, [b], fun v => v.getD 0 0⟩
  | _ => none

/-- The combination of lanes `i` to `i + 2^n - 1`: each half combined, then the two (R203). -/
def pairwise (f : Nat → Nat → Nat) (g : Nat → Nat) : Nat → Nat → Nat
  | 0, i => g i
  | n + 1, i => f (pairwise f g n i) (pairwise f g n (i + 2 ^ n))

/-- The reductions: lane type, destination, source and what combines two lanes (R225). -/
def reductions : Instr → Option (VTy × VOp × VOp × (Nat → Nat → Nat))
  | .vredadd ty a b => some (ty, a, b, laneAdd ty)
  | .vredmax ty a b => some (ty, a, b, lanePick true ty)
  | .vredmin ty a b => some (ty, a, b, lanePick false ty)
  | _ => none

/-! ## Engines (R206 to R210, R229 to R241) -/

/-- An instruction may name event `ev` for an operation that waits on rings `rings` (R66, R208): its rank, or none where it names no
event. -/
def EventFit (u : State) (h : Nat) (ev : BitVec 16) (rings : List Nat) (r : Option Nat) : Prop :=
  (ev = 0xFFFF ∧ r = none) ∨
  (ev ≠ 0xFFFF ∧ ∃ e, u.event u.myPart ev.toNat = some e ∧ r = some e.rank.toNat ∧
    (∀ x ∈ rings, ((u.core u.turn).ring x).rank.toNat < e.rank.toNat) ∧
    (u.core u.turn).oweOverflows h ev.toNat 1 = false)

/-- The state with the completion event of a forked operation owed by an engine (R58, R67). -/
def owing (c : Core) (h : Nat) (ev : BitVec 16) (r : Option Nat) : Core :=
  match r with
  | some x => c.owe h ev.toNat 1 x
  | none => c

/-- The state with a matrix operation placed last in its queue, with the issue-time BFMT and its obligation (R206, R208). -/
def forked (u : State) (k : Nat) (kind : MKind) (ev : BitVec 16) (r : Option Nat) : State :=
  u.modCore k fun c => owing { c with eng := { c.eng with
    mq := c.eng.mq ++ [{ kind := kind, ev := ev, pc := c.act.pc, slot := c.runSlot, seq := c.act.uid, bfmt := c.ctl.bfmt,
                         ord := c.eng.issued }]
    issued := c.eng.issued + 1 } } holderMx ev r

/-- A matrix instruction on newt `s.turn` may issue from state `u` (R206, R208): no fault is deferred, nothing is outstanding, and the
queue has room. -/
structure MatrixClear (s u : State) : Prop where
  newt : isSvc s.turn = false
  deferred : (s.core s.turn).act.life.deferred = none
  quiet : u.Quiet s.turn
  room : ((u.core s.turn).eng.mq.filter fun o => !o.started).length < 2

/-- Ring `h` of the core is fit for a matrix operation in format `fmt` (R218, R229). -/
structure RingFit (c : Core) (fmt : MFmt) (h : Nat) : Prop where
  used : (c.ring h).count ≠ 0
  slots : (c.ring h).slog.toNat = 12
  bank : (c.ring h).base.toNat / 4096 % 4 + (c.ring h).count.toNat ≤ 4
  format : (Table.get 0 c.ctl.bfmt ((c.ring h).base.toNat / 0x4000)).toNat % 16 = mfmtCode fmt

/-- The bank of an offset has a format that `mst` and `mld` use, and its image lies aligned outside the inboxes (R233). -/
structure ImageFit (c : Core) (off : Nat) : Prop where
  format : fmtOf (Table.get 0 c.ctl.bfmt (off / 0x4000)) ≤ 6
  aligned : off % imageAlign (fmtOf (Table.get 0 c.ctl.bfmt (off / 0x4000))) = 0
  inside : off + imageSize (fmtOf (Table.get 0 c.ctl.bfmt (off / 0x4000))) ≤ 0x1E000

/-- The next state of an instruction that forks a matrix operation. -/
def Forks (s u t : State) (kind : MKind) (ev : BitVec 16) (r : Option Nat) : Prop :=
  Retires (forked u s.turn kind ev r) t s.turn (s.core s.turn).act.nextPc ∧ SameData u t

/-! ## Steps of the module -/

/-- Entry `e` is what slot `i` of core `k` releases next: its activation runs and is at a commit point, and its control
message has not been lost (R48, R250, R392). -/
structure Releasing (s : State) (k i : Nat) (e : OEntry) : Prop where
  runs : (s.core k).ctl.run = some i
  point : ((s.core k).slot i).life.atPoint = true
  first : (s.core k).firstEntry i = some e
  carried : e.lost = false

/-- The message that slot `i` of core `k` sends with route `route` and the words `data`, and with it the units `us` (R246, R250). What
level F sends goes on the system channel (log 99). -/
def sentMsg (s : State) (k i : Nat) (route : Word) (len : Nat) (data : List Word) (us : List OUnit) : Msg :=
  { route := route, len := len, words := data, src := k, carry := us
    tag := ((s.core k).slot i).life.tag
    part := some ((s.owner k).getD 4096)
    sys := if levelOf k ((s.core k).slot i).chan = 2 then some { core := k, act := ((s.core k).slot i).uid.toNat } else none }

/-- The signals that holder `h` of a core owes on the event with object word `obj` (R62). -/
def owedBy (c : Core) (h : Nat) (obj : Word) : Nat :=
  match c.oblOf h false obj with
  | some o => o.count.toNat
  | none => 0

/-- A barrier record after an operation: the generation completes with it where every member has arrived and no beat is missing (R76). -/
def completed (b : Bar) : Bar :=
  if b.arrived = b.expected ∧ b.expected ≠ 0 ∧ b.beats = 0 then { b with gen := b.gen + 1, arrived := 0 } else b

/-- No departure of a killed member waits on the record (R337). -/
def NoDeparture (s : State) (p pa : Nat) : Prop := ∀ w ∈ s.bars, ¬(w.part = p ∧ w.pa = pa ∧ w.who = none)

/-- A record after `n` beats have landed, each of which takes one from BEATS and may complete the generation (R75, R255). -/
def decremented : Nat → Bar → Bar
  | 0, b => b
  | n + 1, b => decremented n (completed { b with beats := b.beats - 1 })

/-- The word of a message at place `x` of core `k`'s inbox can be read: its granule is live, and its sector holds no uncorrectable word
and no poison; a word held beside the ring is no word of a poisoned message (R35, R88, R390). -/
def PlaceClear (s : State) (k : Nat) (x : Nat × Bool) : Prop :=
  if x.1 < inboxBytes k / 8 then
    let off := (if isSvc k then 0x7C000 else 0x1E000) + 8 * x.1
    s.expiredAt k off = false ∧ (s.core (placeOf k off).1).ls.ecc = [] ∧ s.poisonAt k off 8 = false
  else x.2 = false

/-- Memory outside the inbox of core `k` reads as before, but for the ranges of the service cores' SRAM that hold spilled entries and
diverted messages (R35, R55, R63). -/
structure OutsideInbox (s t : State) (k : Nat) : Prop where
  newts : ∀ j o, isSvc j = false → (memberOf j o = k → o % 0x20000 < 0x1E000) → t.cellAt j o = s.cellAt j o
  services : ∀ j o, isSvc j = true → 0x40000 ≤ o → (j = k → o < 0x7C000) → t.cellAt j o = s.cellAt j o
  home : ∀ pa, t.phys.byte pa = s.phys.byte pa
  edge : ∀ pa, t.phys.dram.read pa = s.phys.dram.read pa

/-- The accumulator that `n` groups of K leave in element `e`, group after group, each sum rounded (R200). -/
def accumulated (fmt : MFmt) (xa xb : Nat) (pre : BitVec 2048) (e : Nat) : Nat :=
  (List.range 12).foldl (fun x g =>
    roundTo fF32 .rne false ((fF32.decode x).add (groupTerm fmt xa xb (e / 8) (e % 8) g)) % 2 ^ 32) (accElem pre e)

/-- The event that an operation names has its counter one higher in `t`, plain; an operation that names none changes no event (R69). -/
def Signalled (s t : State) (p : Nat) (ev : BitVec 16) : Prop :=
  (ev = 0xFFFF → t.events = s.events) ∧
  (∀ e, ev ≠ 0xFFFF → s.event p ev.toNat = some e → ∃ e', t.event p ev.toNat = some e' ∧
    e'.counter = e.counter + 1 ∧ e'.poison = e.poison)

/-! ## Firmware, queues and the module -/

/-- The event of a partition has its counter one higher in `t`, and is poisoned where it was or the signal is (R69, R70). -/
def Counted (s t : State) (p ev : Nat) (poison : Bool) : Prop :=
  ∀ e, s.event p ev = some e → ∃ e', t.event p ev = some e' ∧ e'.counter = e.counter + 1 ∧ e'.poison = (e.poison || poison)

/-- The bytes at `pa` in the home cisterns are `bs`, and every other byte there is as before. -/
def HomeHolds (s t : State) (pa : Nat) (bs : List Byte) : Prop :=
  ∀ x, t.phys.byte x = if pa ≤ x ∧ x < pa + bs.length then bs.getD (x - pa) 0 else s.phys.byte x

/-- Tile `tl` as R94 leaves it: no translation, no read-only line, and its cores all zero but for their debug modules. -/
def TileCleared (s t : State) (tl : Nat) : Prop :=
  (t.tile tl).tlb = [] ∧ (t.tile tl).ro = [] ∧ ∀ k, tileOf k = tl → t.core k = { dbg := (s.core k).dbg }

/-- The pre-emption vector of partition `p` has been raised once more, and no other (R345, R367). -/
def RaisedPre (s t : State) (p : Nat) : Prop :=
  t.host.msix = s.host.msix ++ [(p + 1, (s.ct p).prevec.toNat, s.host.owner)]

/-- STATE 4 is reached: the pre-emption vector of partition `p` has been raised, and then those of the queues whose watchdog, at stage 1,
this save is in time for (R341, R345). -/
def RaisedSaved (s t : State) (p : Nat) : Prop :=
  t.host.msix = s.host.msix ++ (p + 1, (s.ct p).prevec.toNat, s.host.owner) ::
    ((s.part p).wd.filter fun x => x.2.stage == 1 && (Table.get {} (s.part p).queues x.1).phase != 0 &&
      decide (s.cycle ≤ x.2.since + (if x.2.ptmo = 0 then 1 else x.2.ptmo.toNat) * 4096)).map fun x =>
        (p + 1, (Table.get {} (s.part p).queues x.1).vec.toNat, s.host.owner)

/-- A message of a kind waits in channel 30 of a core. -/
def NoticeIn (c : Core) (n : Note) : Prop := ∃ m ∈ (c.inb 30).q ++ (c.inb 30).div ++ (c.inb 30).ovf, m.note = n

/-- Every half-line that a cistern holds is listed once (R104). -/
def CisOnce (s : State) : Prop := ∀ e ∈ s.phys.cis, find s.phys.cis e.1 = some e.2

/-- What is read at `pa` when the lines have left the cisterns of the tiles `ts`: of a dirty one, which is written back, and of one that
they do not hold the same as before, of a clean one what the edge station holds (R104). -/
def flushed (s : State) (ts : List Nat) (pa : Nat) : Byte :=
  match find s.phys.cis (pa / 128) with
  | some h => if ts.contains h.home && !h.dirty then s.phys.dram.read pa else s.phys.byte pa
  | none => s.phys.byte pa

/-- The administrative queue has the command words `ws` of operation `op` in service, at phase `ph` (2 to be performed, 3 under
way), in state `s`. -/
structure AdminHas (s : State) (op ph : Nat) (ws : List Word) : Prop where
  cmd : s.host.admin.cmd = some ws
  phase : s.host.admin.phase = ph
  clean : s.host.admin.poisoned = false
  op : bitsOf (ws.getD 0 0).toNat 7 0 = op

/-- Queue `q` of partition `p` has the command words `ws` of operation `op` in service, at phase `ph`, and is served (R384). -/
structure QueueHas (s : State) (p q op ph : Nat) (ws : List Word) : Prop where
  part : p < 4096
  cmd : (Table.get {} (s.part p).queues q).cmd = some ws
  phase : (Table.get {} (s.part p).queues q).phase = ph
  clean : (Table.get {} (s.part p).queues q).poisoned = false
  op : bitsOf (ws.getD 0 0).toNat 7 0 = op
  served : ((s.part p).pre.mode && (s.part p).pre.state != 0) = false

/-- The samples of a monitor in bins 0 to `b` (R376). -/
def cumulative (m : Qos) : Nat → Nat
  | 0 => (Table.get (0 : BitVec 32) m.bins 0).toNat
  | b + 1 => cumulative m b + (Table.get (0 : BitVec 32) m.bins (b + 1)).toNat

/-- The samples of a monitor's window, 2^K; a K outside 4 to 20 acts as the nearer of the two (R376; DESIGN CHOICE, log 68). -/
def windowOf (m : Qos) : Nat := 2 ^ Nat.max 4 (Nat.min 20 m.k.toNat)

/-- Bin `b` is the least whose cumulative count reaches ceil(2^K × P / 1,024) (R376). -/
def IsPercentile (m : Qos) (b : Nat) : Prop :=
  b < 32 ∧ windowOf m * m.p.toNat ≤ 1024 * cumulative m b ∧ ∀ j, j < b → 1024 * cumulative m j < windowOf m * m.p.toNat

/-- Monitor `m` of partition `p` has ended its window in bin `b`: an estimate above BOUND is a violation, and raises the vector (R376). -/
def WindowJudged (s t : State) (p m b : Nat) : Prop :=
  let x := Table.get {} (s.ct p).qos m
  (Table.get {} (t.ct p).qos m).bins = [] ∧ (Table.get {} (t.ct p).qos m).samples = 0 ∧
    (if x.bound ≠ 0 ∧ (b = 31 ∨ x.bound.toNat < 2 ^ (b + 1))
     then (Table.get {} (t.ct p).qos m).viol = true ∧ (Table.get {} (t.ct p).qos m).bin.toNat = b ∧
       t.host.msix = s.host.msix ++ [(p + 1, (s.ct p).qosvec.toNat, s.host.owner)]
     else (Table.get {} (t.ct p).qos m).viol = x.viol ∧ t.host.msix = s.host.msix)

/-- A debug module whose core stands alone: in no pair and in no lizard. -/
structure DebugAlone (s : State) (k : Nat) : Prop where
  pair : (s.core k).ctl.pair = none
  lizard : (s.core k).ctl.lizhead = none ∧ (s.core k).ctl.lizn = 0
  open_ : ∀ p, s.owner k = some p → (s.part p).conf = false

/-- What an access of the debugger to core `k`'s debug module leaves as it is: its registers, slots but for a PC that the debugger has
set, engines and local store, every memory, and the other cores. -/
structure DebugFrame (s t : State) (k : Nat) : Prop where
  regs : (t.core k).regs = (s.core k).regs
  core : t.core k = { s.core k with dbg := (t.core k).dbg, slots := (t.core k).slots }
  slots : ∀ i, (t.core k).slot i = { (s.core k).slot i with pc := ((t.core k).slot i).pc }
  memory : SameMemory s t
  others : ∀ j, j ≠ k → t.core j = s.core j

/-! ## Steps, fetches and words -/

/-- A step of core `k` is what comes next in `s` (log 2): the agenda says so, or nothing is on it, the module's own steps have had their
turn, and it is `k`'s. `rest` is the agenda afterwards. -/
def NextIs (s : State) (k : Nat) (rest : List Happening) : Prop :=
  s.agenda = .run k :: rest ∨ (s.agenda = [] ∧ rest = [] ∧ s.odd = false ∧ s.turn = k)

/-- Core `k` runs an activation, in no lizard, on a tile that works, and is at the boundary before its next instruction, with its watchdog
count above zero, no debug halt or step, no breakpoint or watchpoint armed, no isolated attempt that still wants a home, and no lost
translation request; the line of its PC translates to `pa`, from where it is read, which leaves the state `v`; no held home delays the
read and no poison meets it; and its instruction cache holds nothing else of it. -/
structure AtBoundary (s : State) (k : Nat) (rest : List Happening) (d : Dest) (pa : Nat) (v : State) : Prop where
  next : NextIs s k rest
  going : s.halted = false
  works : (s.tile (tileOf k)).ready = true
  runs : (s.core k).ctl.run.isSome = true
  alone : (s.core k).inLiz = false
  debug : (s.core k).dbg.halted = false ∧ (s.core k).dbg.ctl = 0
  leads : (s.core k).ctl.pair.isSome = true → (s.core k).ctl.leader = true
  homes : (s.core k).ord.chunk.want = []
  count : (s.core k).act.count ≠ 0
  inside : (s.core k).act.pc.toNat < 2 ^ 57
  maps : ∃ home, State.xlateOf { s with agenda := rest, turn := k } k (s.level k) .fetch ((s.core k).act.pc.toNat / 64 * 64) =
    (.ok pa home d, v) ∧ v.readDelayed k home ((s.core k).act.pc.toNat / 256) = false
  clean : d = .home ∨ d = .edge → v.phys.poisoned d pa 64 = false
  cache : ∀ bs, find (s.core k).icache ((s.core k).act.pc.toNat / 64) = some bs → bs = v.globalBytes d pa 64
  heard : (s.core k).request.any (·.lost) = false

/-- The state in which a fetched instruction runs: the line is in the instruction cache, and the activation knows H of its line. -/
def fetched (v : State) (k : Nat) (d : Dest) (bs : List Byte) (hdr : Nat) : State :=
  let kept := (find (v.core k).icache ((v.core k).act.pc.toNat / 64)).isSome
  (if kept then v else v.drew d 64).modCore k fun c =>
    { c with
      icache := if kept then c.icache else Table.set c.icache (c.act.pc.toNat / 64) bs
      asked := none
      slots := (c.modAct fun a => { a with hdr := hdr }).slots
      dbg := { c.dbg with skip := none, mark := c.eng.issued } }

end Sys2Proof.Claims

open Sys2Proof Sys2Proof.Machine Sys2Proof.Claims

/-- R142 to R150: the scalar instructions that compute complete and write the result of their entry, whatever the operands; nothing
else changes but the PC. A division takes 34 cycles or more. -/
def Obligations.ScalarResults : Prop :=
  (∀ (i : Instr) (r : Result) (s u : State) (vals : List Word),
    (arithmetic i = some r ∨ bitwise i = some r ∨ comparison i = some r) → i.wf = true → Operands s r.srcs vals u →
    ∃ t, exec i s = .next t ∧ WritesReg s u t r.dst (r.val vals)) ∧
  (∀ (i : Instr) (r : Result) (s u : State) (vals : List Word),
    division i = some r → i.wf = true → Operands s r.srcs vals u →
    ∃ t, exec i s = .next t ∧ WritesReg s u t r.dst (r.val vals) ∧ u.cycle + 34 ≤ t.cycle)

/-- R133 to R137, R111, R112: the branches, links and `loop` complete, write the link or the count that their entries give, and go on
at the target that their condition chooses; `nop` and `chunk` go on at the sequential successor. Nothing else changes.
R157, R281: `chunk` ends the current chunk, with what it has read, written and stored, and the instructions after it form a new
one. -/
def Obligations.ControlFlow : Prop :=
  (∀ (i : Instr) (srcs : List Sel) (f : Act → List Word → Passage) (s u : State) (vals : List Word),
    passages i = some (srcs, f) → i.wf = true → Operands s srcs vals u →
    ∃ t, exec i s = .next t ∧
      Retires (wrote u s.turn (f (s.core s.turn).act vals).write) t s.turn (f (s.core s.turn).act vals).target ∧
      SameMemory u t) ∧
  (∀ s : State, s.Running →
    ∃ t e, exec .chunk s = .next t ∧
      (t.core s.turn).ord.ended = (s.core s.turn).ord.ended ++ [e] ∧
      e.c.id = (s.core s.turn).ord.chunk.id ∧ e.c.rd = (s.core s.turn).ord.chunk.rd ∧
      e.c.wr = (s.core s.turn).ord.chunk.wr ∧ e.pc = (s.core s.turn).act.pc ∧
      (t.core s.turn).ord.chunk.retired = 0 ∧ (t.core s.turn).ord.chunk.rd = [] ∧ (t.core s.turn).ord.chunk.wr = [] ∧
      (t.core s.turn).ord.chunk.id = (s.core s.turn).ctl.nchunk)

/-- R49, R138: an activation that has nothing outstanding, owes nothing and has no deferred engine fault retires at `end`: it no longer
runs, its slot is free, and its channel has no live activation. R49, R331: an activation that owes an obligation of rank FLOOR does not
retire at `end`: it takes fault 0x0B. -/
def Obligations.ActivationsEnd : Prop :=
  (∀ s : State, s.Running → s.Quiet s.turn → (s.core s.turn).act.life.deferred = none →
    (s.core s.turn).inLiz = false → (s.core s.turn).act.life.kind ≠ .resume →
    (s.core s.turn).oblsOf (holderOf (s.core s.turn).runSlot) = [] →
    ∃ t, exec .endAct s = .next t ∧ (t.core s.turn).ctl.run = none ∧
      ((t.core s.turn).slot (s.core s.turn).runSlot).st = .free ∧
      ((t.core s.turn).inb (s.core s.turn).act.chan).live = none ∧
      (∀ i, i ≠ (s.core s.turn).runSlot → (t.core s.turn).slot i = (s.core s.turn).slot i) ∧
      (∀ ch, ch ≠ (s.core s.turn).act.chan → (t.core s.turn).inb ch = (s.core s.turn).inb ch) ∧
      (t.core s.turn).regs = (s.core s.turn).regs ∧ SameMemory s t ∧ OtherCores s t s.turn) ∧
  (∀ s : State, s.Running → s.Quiet s.turn → (s.core s.turn).act.life.deferred = none →
    (s.core s.turn).inLiz = false →
    (∀ o ∈ (s.core s.turn).oblsOf (holderOf (s.core s.turn).runSlot), o.arr = false) →
    (s.core s.turn).myFloor < Config.noRank →
    ∃ t r, exec .endAct s = .next t ∧ r.code = 0x0B ∧ r.orank = (s.core s.turn).myFloor ∧
      r.floor = some (s.core s.turn).myFloor ∧
      TakesFault s t s.turn r (s.core s.turn).act.pc (tileOf s.turn))

/-- R139, R140, R328, R329: `trap` takes fault 0x13 and, where the debug module does not take it, `brk` fault 0x14, at their own PC,
with the immediate in word 5 of the record and in FINFO. -/
def Obligations.TrapsAreTaken : Prop :=
  ∀ (s : State) (imm : BitVec 16), s.Running → s.Quiet s.turn → (s.core s.turn).inLiz = false →
    (∃ t r, exec (.trap imm) s = .next t ∧ r.code = 0x13 ∧ r.pc = (s.core s.turn).act.pc ∧ r.w5 = imm.setWidth 64 ∧
      r.finfo = imm.setWidth 64 ∧ r.floor = some (s.core s.turn).myFloor ∧
      TakesFault s t s.turn r (s.core s.turn).act.pc (tileOf s.turn)) ∧
    (((s.core s.turn).dbg.ctl.getLsbD 3 && (s.core s.turn).dbg.ctl.getLsbD 5) = false →
      ∃ t r, exec (.brk imm) s = .next t ∧ r.code = 0x14 ∧ r.pc = (s.core s.turn).act.pc ∧ r.w5 = imm.setWidth 64 ∧
        r.finfo = imm.setWidth 64 ∧ r.floor = some (s.core s.turn).myFloor ∧
        TakesFault s t s.turn r (s.core s.turn).act.pc (tileOf s.turn))

/-- R151, R158: a CSR read completes at every level that may read the CSR, and writes its value; below that level it takes the privileged
fault. R151, R152, R158, R340, R364, R366, R397: `csrw` and `csrx` store the defined bits of the value in the CSR, at the levels and on
the cores that may write it; `csrx` answers the old value. All memory, the other registers and the other cores stay. QWSEL and QWCFG act
from every tile of the partition (log 57). R151, R158, R345, R364: a write of a CSR that no level writes, of a newt's CSR on a service
core, of SAVEBASE outside STATE 0, or of a partition's CSR from 0x103 on at a tile that is not its first, is ignored. R340: ones written
to QWSTAT clear KILLED and SAVED, and nothing else of it. R345: a write of PRECTL stores EVLIM, HOLDT and SWAP; PEND written in STATE 0
brings STATE 1 with SWAP sampled, and raises the pre-emption vector, and elsewhere it is ignored. RESUME in STATE 4 is another
statement's. -/
def Obligations.CsrAccesses : Prop :=
  (∀ (s : State) (a : Sel) (n : BitVec 12), s.Running → (Instr.csrr a n).wf = true →
    ((csrLevels n.toNat).1 ≤ s.level s.turn →
      ∃ t, exec (.csrr a n) s = .next t ∧ WritesReg s s t a (s.csr s.turn n.toNat)) ∧
    (s.level s.turn < (csrLevels n.toNat).1 → s.Quiet s.turn → (s.core s.turn).inLiz = false →
      ∃ t r, exec (.csrr a n) s = .next t ∧ r.code = 0x12 ∧
        TakesFault s t s.turn r (s.core s.turn).act.pc (tileOf s.turn))) ∧
  (∀ (s u : State) (a : Sel) (n : BitVec 12) (x v : Word) (lvl : Nat),
    csrStores n.toNat x = some (v, lvl) → csrPlace u n.toNat → lvl ≤ s.level s.turn → Operands s [a] [x] u →
    CsrActs s u a n fun t => t.csr s.turn n.toNat = v) ∧
  (∀ (s u : State) (a : Sel) (n : BitVec 12) (x : Word), (Instr.csrw a n).wf = true → csrIgnores u n.toNat →
    (csrLevels n.toNat).1 ≤ s.level s.turn → (∀ l, (csrLevels n.toNat).2 = some l → l ≤ s.level s.turn) → Operands s [a] [x] u →
    (∃ t, exec (.csrw a n) s = .next t ∧ Retires u t s.turn (s.core s.turn).act.nextPc) ∧
    (a.toNat ≤ 55 → ∃ t, exec (.csrx a n) s = .next t ∧ WritesReg s u t a (u.csr s.turn n.toNat))) ∧
  (∀ (s u : State) (a : Sel) (x : Word) (p : Nat), u.owner s.turn = some p → 1 ≤ s.level s.turn → Operands s [a] [x] u →
    CsrActs s u a 0x102 fun t => t.csr s.turn 0x102 = u.csr s.turn 0x102 &&& ~~~(x &&& 0xC)) ∧
  (∀ (s u : State) (a : Sel) (x : Word) (p : Nat), u.owner s.turn = some p → tileOf s.turn = u.partFirst p →
    1 ≤ s.level s.turn → Operands s [a] [x] u → x.getLsbD 1 = false ∨ (u.part p).pre.state ≠ 4 →
    (x.getLsbD 0 = true → (u.part p).pre.state = 0 →
      CsrActs s u a 0x103 fun t => t.csr s.turn 0x103 = (x &&& 0xFFFFFFFF00000008) ||| 0x11 ∧
        (t.part p).pre.mode = x.getLsbD 3 ∧ RaisedPre u t p) ∧
    (x.getLsbD 0 = false ∨ (u.part p).pre.state ≠ 0 →
      CsrActs s u a 0x103 fun t => t.csr s.turn 0x103 = (x &&& 0xFFFFFFFF00000008) ||| (u.csr s.turn 0x103 &&& 0xF1)))

/-- R153: on a service core whose running activation holds a context, `rte` returns it to its slot, Ready at FPC with the image that the
service core holds, and it is held no more; FNEWT.HELD becomes 0, and the service core goes on at its own successor.
R114: the PC of the `rte` is the FROM of a fetch there. -/
def Obligations.RteReturnsContext : Prop :=
  ∀ (s : State) (h : Held), s.Running → s.Quiet s.turn → 1 ≤ s.level s.turn → s.currentHeld s.turn = some h →
    (s.level s.turn = 1 → s.owner h.core = s.owner s.turn) → h.core ≠ s.turn → (s.core s.turn).ctl.pair = none →
    (s.core h.core).moved = none →
    ∃ t, exec .rte s = .next t ∧ ((t.core h.core).slot h.slot).st = .ready ∧
      ((t.core h.core).slot h.slot).pc = (s.core s.turn).act.life.fcsr.pc ∧
      ((t.core h.core).slot h.slot).src = (s.core s.turn).act.pc ∧
      ((t.core h.core).slot h.slot).image = some h.image ∧ ((t.core h.core).slot h.slot).life.fault = none ∧
      (∀ i, i ≠ h.slot → (t.core h.core).slot i = ((s.core h.core).slot i).letGo h.core h.slot h.act) ∧
      (t.core s.turn).act.life.fcsr.newt.getLsbD 24 = false ∧ t.currentHeld s.turn = none ∧
      (∀ x, (t.tile x).svc = (s.tile x).svc.forget h.core h.slot h.act) ∧
      (t.core h.core).obl = (s.core h.core).obl ∧
      (t.core s.turn).act.pc = (s.core s.turn).act.nextPc ∧ (t.core s.turn).regs = (s.core s.turn).regs ∧ SameData s t ∧
      (∀ j, j ≠ s.turn → j ≠ h.core → t.core j = (s.core j).letGo h.core h.slot h.act)

/-- R280, R335, R139: the four requests of a notice handler to firmware about the faulted context of its notice: it is killed, it
becomes Ready at its faulting instruction or at that one's successor, or the handler takes over what it owes. The handler itself becomes
Ready at the successor of its `trap`. -/
def Obligations.ServiceRequests : Prop :=
  ∀ (s : State) (h : Held), s.Running → s.Quiet s.turn → (s.core s.turn).inLiz = false →
    s.noticed s.turn = some h → h.core = s.turn → h.slot ≠ (s.core s.turn).runSlot → (s.core s.turn).moved = none →
    (s.core s.turn).ctl.pair = none → (s.core s.turn).ctl.lizn = 0 →
    (∃ t, exec .trapKillContext s = .next t ∧ ((t.core s.turn).slot h.slot).st = .free ∧
      ((t.core s.turn).slot (s.core s.turn).runSlot).st = .ready ∧
      ((t.core s.turn).slot (s.core s.turn).runSlot).pc = (s.core s.turn).act.nextPc) ∧
    (∃ t, exec .trapResumeAtFault s = .next t ∧ ((t.core s.turn).slot h.slot).st = .ready ∧
      ((t.core s.turn).slot h.slot).pc = ((s.core s.turn).slot h.slot).pc ∧
      ((t.core s.turn).slot h.slot).image = some h.image ∧
      ((t.core s.turn).slot (s.core s.turn).runSlot).st = .ready ∧
      ((t.core s.turn).slot (s.core s.turn).runSlot).pc = (s.core s.turn).act.nextPc ∧ SameData s t) ∧
    (∃ t, exec .trapResumePastFault s = .next t ∧ ((t.core s.turn).slot h.slot).st = .ready ∧
      ((t.core s.turn).slot h.slot).pc = ((s.core s.turn).slot h.slot).nextPc ∧
      ((t.core s.turn).slot h.slot).image = some h.image ∧
      ((t.core s.turn).slot (s.core s.turn).runSlot).st = .ready ∧
      ((t.core s.turn).slot (s.core s.turn).runSlot).pc = (s.core s.turn).act.nextPc ∧ SameData s t) ∧
    ((s.core s.turn).transferBad (holderOf (s.core s.turn).runSlot)
        ((s.core s.turn).oblsOf (holderOf h.slot)) = none →
      ∃ t, exec .trapTransferObligations s = .next t ∧
        ((t.core s.turn).slot (s.core s.turn).runSlot).st = .ready ∧
        ((t.core s.turn).slot (s.core s.turn).runSlot).pc = (s.core s.turn).act.nextPc ∧
        (t.core s.turn).oblsOf (holderOf h.slot) = [] ∧
        (t.core s.turn).slot h.slot =
          ((s.core s.turn).slot h.slot).letGo s.turn (s.core s.turn).runSlot (s.core s.turn).act.uid ∧ SameData s t)

/-- R129, R162, R163, R45: a local load whose range may be accessed writes the bytes that the core sees, extended as its size says.
R129, R163, R164, R45: a local store puts its bytes in the store buffer, where its own core sees them and nothing else has changed;
in the workspace granule it writes the register cache instead, and a word 58 that it writes whole is no longer that of a poisoned message
(R390). -/
def Obligations.LocalAccesses : Prop :=
  (∀ (s u : State) (z : MemSize) (a b : Sel) (imm : BitVec 22) (x : Word),
    (Instr.ld z a b imm).wf = true → Operands s [b] [x] u →
    LocalClear u s.turn (address x imm) (sizeBytes z) → LocalSound u s.turn (address x imm) (sizeBytes z) →
    ∃ t, exec (.ld z a b imm) s = .next t ∧
      WritesReg s u t a (loaded z (localBytes u s.turn (address x imm) (sizeBytes z)))) ∧
  (∀ (s u : State) (z : MemSize) (a b : Sel) (imm : BitVec 22) (y x : Word),
    (Instr.st z a b imm).wf = true → Operands s [b, a] [y, x] u →
    LocalClear u s.turn (address y imm) (sizeBytes z) →
    ((u.core s.turn).act.inWorkspace (address y imm) (sizeBytes z) = false → (u.core s.turn).ord.sb.length < 32 →
      ∃ t, exec (.st z a b imm) s = .next t ∧
        Retires (stored u s.turn .loc (address y imm) 0 0 (leBytes (sizeBytes z) x.toNat)) t s.turn (s.core s.turn).act.nextPc ∧
        (∀ j, newtByte t s.turn j = if address y imm ≤ j ∧ j < address y imm + sizeBytes z
          then (leBytes (sizeBytes z) x.toNat).getD (j - address y imm) 0 else newtByte u s.turn j) ∧
        SameMemory u t) ∧
    ((u.core s.turn).act.inWorkspace (address y imm) (sizeBytes z) = true →
      ∃ t, exec (.st z a b imm) s = .next t ∧ (t.core s.turn).act.pc = (s.core s.turn).act.nextPc ∧
        OnlyCores u t ∧ SameMemory u t ∧ OtherCores u t s.turn ∧
        (t.core s.turn).ord.sb = (u.core s.turn).ord.sb ∧ (t.core s.turn).ord.ob = (u.core s.turn).ord.ob ∧
        (∀ i, i ≠ address y imm % 512 / 8 → (t.core s.turn).reg i = (u.core s.turn).reg i) ∧
        (t.core s.turn).act = { (u.core s.turn).act with
          pc := (t.core s.turn).act.pc
          src := (t.core s.turn).act.src
          count := (t.core s.turn).act.count
          life := { (u.core s.turn).act.life with bad58 := (u.core s.turn).act.life.bad58 &&
            !(decide (address y imm % 512 ≤ 464) && decide (472 ≤ address y imm % 512 + sizeBytes z)) } } ∧
        (∀ i, i ≠ (u.core s.turn).runSlot → (t.core s.turn).slot i = (u.core s.turn).slot i) ∧
        ∀ j, j < 480 → ((t.core s.turn).regBytes 0 512).getD j 0 =
          if address y imm % 512 ≤ j ∧ j < address y imm % 512 + sizeBytes z
          then (leBytes (sizeBytes z) x.toNat).getD (j - address y imm % 512) 0
          else ((u.core s.turn).regBytes 0 512).getD j 0))

/-- R130, R166: a global load that translates writes the bytes of its home or edge station, or those of the core's own stores to them.
R130, R166, R167: a global store that translates with write permission is placed in the store buffer, with its line in the chunk's write
signature; no byte of memory changes until its chunk commits. -/
def Obligations.GlobalAccesses : Prop :=
  (∀ (s u v : State) (z : MemSize) (a b : Sel) (imm : BitVec 22) (x : Word) (pa home : Nat) (d : Dest),
    (Instr.ldg z a b imm).wf = true → Operands s [b] [x] u →
    GlobalClear u s.turn .read (address x imm) (sizeBytes z) pa home d v →
    (d = .host → (u.core s.turn).hostPending = false) →
    (d = .home → ∀ x ∈ sectorsOf pa (sizeBytes z), has (u.core s.turn).par x = false) →
    ∃ t, exec (.ldg z a b imm) s = .next t ∧
      WritesReg s v t a (loaded z (globalBytes v s.turn d (address x imm) pa (sizeBytes z)))) ∧
  (∀ (s u v : State) (z : MemSize) (a b : Sel) (imm : BitVec 22) (y x : Word) (pa home : Nat) (d : Dest),
    (Instr.stg z a b imm).wf = true → Operands s [b, a] [y, x] u →
    address y imm % sizeBytes z = 0 → address y imm < 2 ^ 57 →
    u.xlateOf s.turn (u.level s.turn) .store (address y imm) = (.ok pa home d, v) → (u.core s.turn).ord.sb.length < 32 →
    ∃ t, exec (.stg z a b imm) s = .next t ∧
      Retires (stored v s.turn d (address y imm) pa home (leBytes (sizeBytes z) x.toNat)) t s.turn (s.core s.turn).act.nextPc ∧
      SameMemory u t)

/-- R130, R129, R328: a misaligned load, of any size, or store takes fault 0x03, and a local one beyond the limit, or in a range that its
level may not access (at level U an inbox, R35), fault 0x04, with the address in word 2 of the record; none has any effect. -/
def Obligations.MisplacedAccessFaults : Prop :=
  ∀ (s : State) (z : MemSize) (a b : Sel) (imm : BitVec 22), s.Running → s.Quiet s.turn → (s.core s.turn).inLiz = false →
    a.toNat ≤ 55 → b.toNat ≤ 55 →
    let va := address (if b.toNat = 0 then 0 else (s.core s.turn).reg b.toNat) imm
    (va % sizeBytes z ≠ 0 → ∀ i, i ∈ [Instr.ld z a b imm, .ldg z a b imm, .ldc z a b imm] ∨
        (z.storeOk = true ∧ i ∈ [Instr.st z a b imm, .stg z a b imm]) →
      ∃ t r, exec i s = .next t ∧ r.code = 0x03 ∧ r.addr = BitVec.ofNat 64 va ∧
        TakesFault s t s.turn r (s.core s.turn).act.pc (tileOf s.turn)) ∧
    (va % sizeBytes z = 0 → (s.core s.turn).limit s.turn < va + sizeBytes z ∨ localDenied (s.level s.turn) va (sizeBytes z) = true →
      ∀ i, i = Instr.ld z a b imm ∨ (z.storeOk = true ∧ i = .st z a b imm) →
      ∃ t r, exec i s = .next t ∧ r.code = 0x04 ∧ r.addr = BitVec.ofNat 64 va ∧
        TakesFault s t s.turn r (s.core s.turn).act.pc (tileOf s.turn))

/-- R105, R169, R170: an `ldc` that translates to a home tile completes with the bytes of the tile's read-only buffer, or with those of
the home cistern; which of the two, where they differ, is the model's free choice (log 4). `pref` completes with no effect, whatever its
address; it leaves even the slice TLB and the directory as they were (the model's choice, log 62). -/
def Obligations.ReadOnlyLoads : Prop :=
  (∀ (s u v : State) (z : MemSize) (a b : Sel) (imm : BitVec 22) (x : Word) (pa home : Nat),
    (Instr.ldc z a b imm).wf = true → Operands s [b] [x] u →
    GlobalClear u s.turn .bare (address x imm) (sizeBytes z) pa home .home v →
    ∃ t bs, exec (.ldc z a b imm) s = .next t ∧
      (bs = v.phys.bytes pa (sizeBytes z) ∨
        ∃ line, find (v.tile (tileOf s.turn)).ro (pa / 256) = some line ∧ bs = (line.drop (pa % 256)).take (sizeBytes z)) ∧
      (a.toNat ≠ 0 → (t.core s.turn).reg a.toNat = loaded z bs) ∧
      (t.core s.turn).act.pc = (s.core s.turn).act.nextPc ∧
      (∀ i, i ∉ written a → (t.core s.turn).reg i = (u.core s.turn).reg i) ∧
      (t.core s.turn).ord.sb = (u.core s.turn).ord.sb ∧ SameMemory u t ∧ OtherCores u t s.turn) ∧
  (∀ (s u : State) (wr : Bool) (b : Sel) (imm : BitVec 22) (x : Word), Operands s [b] [x] u →
    ∃ t, exec (.pref wr b imm) s = .next t ∧ Retires u t s.turn (s.core s.turn).act.nextPc ∧ SameMemory u t)

/-- R171, R172, R173: a global atomic whose address translates answers the old value, and the bytes at its home, or at the edge station,
become the new value of its row; every other byte of memory stays. It is a store: the activation's side-effect flag is set.
R174: a local atomic answers the old value, and the bytes at its offset become the new one in the cells, outside the workspace
granule; every other byte of local store and all global memory stay. -/
def Obligations.AtomicResults : Prop :=
  (∀ (i : Instr) (r : Atomic) (s u v : State) (vals : List Word) (pa home : Nat) (d : Dest),
    globalAtomics i = some r → i.wf = true → Operands s r.srcs vals u → u.Quiet s.turn → u.phys.dram.wf = true →
    (d = .home ∨ d = .edge) → GlobalClear u s.turn .atomic (vals.getD 0 0).toNat (asizeBytes r.size) pa home d v →
    u.writeDelayed s.turn home (lineOf (vals.getD 0 0).toNat) = false →
    ∃ t, exec i s = .next t ∧
      (r.dst.toNat ≠ 0 → (t.core s.turn).reg r.dst.toNat =
        BitVec.ofNat 64 (leNat (v.globalBytes d pa (asizeBytes r.size)))) ∧
      (∀ x, (if d = .home then t.phys.byte x else t.phys.dram.read x) =
        byteAfter (fun x => if d = .home then u.phys.byte x else u.phys.dram.read x) pa (asizeBytes r.size)
          (r.new (leNat (v.globalBytes d pa (asizeBytes r.size))) vals) x) ∧
      (∀ k off, (isSvc k = true → 0x40000 ≤ off) → t.cellAt k off = u.cellAt k off) ∧
      (∀ j, j ∉ written r.dst → (t.core s.turn).reg j = (u.core s.turn).reg j) ∧
      (t.core s.turn).act.life.side = true ∧ (t.core s.turn).act.pc = (s.core s.turn).act.nextPc) ∧
  (∀ (i : Instr) (r : Atomic) (s u : State) (vals : List Word),
    localAtomics i = some r → i.wf = true → Operands s r.srcs vals u → u.Quiet s.turn → u.memoryOk →
    LocalClear u s.turn (vals.getD 0 0).toNat (asizeBytes r.size) →
    LocalSound u s.turn (vals.getD 0 0).toNat (asizeBytes r.size) → (u.core s.turn).inLiz = false →
    (u.core s.turn).act.inWorkspace (vals.getD 0 0).toNat (asizeBytes r.size) = false →
    (isSvc s.turn = true → 0x40000 ≤ (vals.getD 0 0).toNat) →
    ∃ t, exec i s = .next t ∧
      (r.dst.toNat ≠ 0 → (t.core s.turn).reg r.dst.toNat =
        BitVec.ofNat 64 (leNat (localBytes u s.turn (vals.getD 0 0).toNat (asizeBytes r.size)))) ∧
      (∀ x, t.cellAt s.turn x = byteAfter (u.cellAt s.turn) (vals.getD 0 0).toNat (asizeBytes r.size)
        (r.new (leNat (localBytes u s.turn (vals.getD 0 0).toNat (asizeBytes r.size))) vals) x) ∧
      (∀ pa, t.phys.byte pa = u.phys.byte pa) ∧
      (∀ j, j ∉ written r.dst → (t.core s.turn).reg j = (u.core s.turn).reg j) ∧
      OtherCores u t s.turn ∧ (t.core s.turn).act.pc = (s.core s.turn).act.nextPc)

/-- R175, R176, R178, R179, R85: outside a lizard, on a newt, `renew` gives every granule of a live and sound range EXPIRY = FADE + RETN,
X = 0 and Z = 0 and leaves its bytes and its K and P; `wset` sets K and P and nothing else; `wzero` renews, sets Z, and the granules read
as zeros. Tags outside the range stay. R177, R84: on a newt `wtag` answers all ones for an expired granule, 4,096 for one with Z = 1 that
no older store will write, else its remaining life; it reads no cell and changes nothing else. -/
def Obligations.GranuleTags : Prop :=
  (∀ (s u : State) (b c : Sel) (x y : Word), Operands s [b, c] [x, y] u → u.Quiet s.turn →
    RangeClear u s.turn x.toNat y.toNat → (u.core s.turn).inLiz = false →
    (u.memoryOk → (u.core s.turn).ls.ecc = [] →
      (∀ o, x.toNat ≤ o → o < x.toNat + y.toNat → u.poisonAt s.turn o 32 = false ∧ u.expiredAt s.turn o = false) →
      ∃ t, exec (.renew b c) s = .next t ∧ WellFrame u t s.turn x.toNat y.toNat ∧
        (∀ o, x.toNat ≤ o → o < x.toNat + y.toNat → t.tagAt s.turn o = { u.tagAt s.turn o with
          expiry := BitVec.ofNat 12 (u.fade + u.retn s.turn), x := false, z := false }) ∧
        (∀ o, t.cellAt s.turn o = u.cellAt s.turn o) ∧ u.cycle + 32 * (y.toNat / 512) ≤ t.cycle) ∧
    (∀ kk p : Bool, ∃ t, exec (.wset b c kk p) s = .next t ∧ WellFrame u t s.turn x.toNat y.toNat ∧
        (∀ o, x.toNat ≤ o → o < x.toNat + y.toNat → t.tagAt s.turn o = { u.tagAt s.turn o with k := kk, p := p }) ∧
        (∀ o, t.cellAt s.turn o = u.cellAt s.turn o)) ∧
    (∃ t, exec (.wzero b c) s = .next t ∧ WellFrame u t s.turn x.toNat y.toNat ∧
        (∀ o, x.toNat ≤ o → o < x.toNat + y.toNat → t.tagAt s.turn o = { u.tagAt s.turn o with
          expiry := BitVec.ofNat 12 (u.fade + u.retn s.turn), x := false, z := true } ∧ t.cellAt s.turn o = 0) ∧
        (∀ o, o < x.toNat ∨ x.toNat + y.toNat ≤ o → t.cellAt s.turn o = u.cellAt s.turn o))) ∧
  (∀ (s u : State) (a b : Sel) (x : Word), (Instr.wtag a b).wf = true → Operands s [b] [x] u → isSvc s.turn = false →
    x.toNat < (u.core s.turn).limit s.turn → localDenied (u.level s.turn) x.toNat 1 = false →
    ((u.tagAt s.turn x.toNat).z = true → (u.core s.turn).storeIn x.toNat = false) →
    ∃ t, exec (.wtag a b) s = .next t ∧ WritesReg s u t a
      (let g := u.tagAt s.turn x.toNat
       if g.x = true ∨ (g.z = false ∧ (u.fade % 4096 + 4096 - g.expiry.toNat) % 4096 < 2048) then 0xFFFFFFFFFFFFFFFF
       else if g.z = true then 4096
       else BitVec.ofNat 64 ((g.expiry.toNat + 4096 - u.fade % 4096) % 4096)))

/-- R180, R181, R185, R123: a `fence` that finds nothing outstanding completes at every scope, with kind i also discarding the instruction
cache; `roinv` empties the tile's read-only buffer. Neither changes a register or a byte of memory. -/
def Obligations.FencesComplete : Prop :=
  (∀ (s : State) (scope : Scope) (ls ro i host : Bool), s.Running → s.Quiet s.turn → (s.core s.turn).inLiz = false →
    (ls = true → (s.core s.turn).engBusy = false) →
    ∃ t, exec (.fence scope ls ro i host) s = .next t ∧
      Retires (if i then s.modCore s.turn fun c => { c with icache := [] } else s) t s.turn (s.core s.turn).act.nextPc ∧
      SameMemory s t) ∧
  (∀ s : State, s.Running →
    ∃ t, exec .roinv s = .next t ∧ Retires (s.modTile (tileOf s.turn) fun x => { x with ro := [] }) t s.turn
      (s.core s.turn).act.nextPc ∧ (t.tile (tileOf s.turn)).ro = [] ∧ SameMemory s t)

/-- R182, R184, R65: `marm` arms the activation's monitor on the line of an address that translates to memory; `mwait` with no monitor
armed, or with the line written, completes with its status and disarms the monitor; where the line has not been written the activation
suspends. -/
def Obligations.MonitorWaits : Prop :=
  (∀ (s u v : State) (b : Sel) (imm : BitVec 22) (x : Word) (pa home : Nat) (d : Dest), Operands s [b] [x] u →
    address x imm < 2 ^ 57 → u.xlateOf s.turn (u.level s.turn) .read (address x imm) = (.ok pa home d, v) →
    (d = .home ∨ d = .edge) →
    ∃ t, exec (.marm b imm) s = .next t ∧
      Retires (v.modCore s.turn fun c => c.modAct fun a => { a with sync := { a.sync with
        mon := { armed := true, line := BitVec.ofNat 64 (address x imm / 256), pa := pa } } }) t s.turn
        (s.core s.turn).act.nextPc ∧ SameMemory u t) ∧
  (∀ (s : State) (a : Sel), (Instr.mwait a).wf = true → s.Running → s.Quiet s.turn →
    (s.core s.turn).myFloor = Config.noRank →
    (((s.core s.turn).act.sync.mon.armed = false ∨ (s.core s.turn).act.sync.mon.written = true ∨
        (s.core s.turn).act.sync.mon.spurious = true) →
      ∃ t, exec (.mwait a) s = .next t ∧
        (a.toNat ≠ 0 → (t.core s.turn).reg a.toNat = if (s.core s.turn).act.sync.mon.armed = false then 2
          else if (s.core s.turn).act.sync.mon.spurious = true then 1 else 0) ∧
        (∀ i, i ∉ written a → (t.core s.turn).reg i = (s.core s.turn).reg i) ∧
        (t.core s.turn).act.sync.mon = {} ∧ (t.core s.turn).act.pc = (s.core s.turn).act.nextPc ∧
        SameMemory s t ∧ OtherCores s t s.turn) ∧
    ((s.core s.turn).act.sync.mon.armed = true → (s.core s.turn).act.sync.mon.written = false →
      (s.core s.turn).act.sync.mon.spurious = false →
      ∃ t, exec (.mwait a) s = .next t ∧ (t.core s.turn).ctl.run = none ∧
        ((t.core s.turn).slot (s.core s.turn).runSlot).st = .suspended ∧
        ((t.core s.turn).slot (s.core s.turn).runSlot).pc = (s.core s.turn).act.pc ∧
        ((t.core s.turn).slot (s.core s.turn).runSlot).sync.wait = [.mon]))

/-- R47, R261, R265: `sig`, `bara`, `join` and `leave` place their entry last in the output buffer, with the value of their operands at
issue, and do nothing else. R247, R249, R253: `send`, `sendw` and `sendo` with a legal route word and a readable source copy the payload
at issue into an entry placed last in the output buffer; `sendo` does so where the sender holds an unclaimed unit. Nothing else changes.
R254, R152: a `pour` whose checks pass places its entry last in the output buffer and reads nothing yet; a counted one captures the
barrier that BARSEL names. -/
def Obligations.EntriesAreBuffered : Prop :=
  (∀ (i : Instr) (srcs : List Sel) (ok : List Word → Prop) (kind : List Word → OKind) (s u : State) (vals : List Word),
    plainEntry i = some (srcs, ok, kind) → i.wf = true → Operands s srcs vals u → ok vals →
    ∃ t, exec i s = .next t ∧ Retires (buffered u s.turn (kind vals)) t s.turn (s.core s.turn).act.nextPc ∧ SameMemory u t) ∧
  ((∀ (s u : State) (a b c : Sel) (rw off len : Word), Operands s [a, b, c] [rw, off, len] u → RouteLegal u rw.toNat →
      PayloadClear u s.turn off.toNat len.toNat →
      (∃ t, exec (.send a b c) s = .next t ∧
        Retires (buffered u s.turn (.send false rw len.toNat (payload u s.turn off.toNat len.toNat))) t s.turn
          (s.core s.turn).act.nextPc ∧ SameMemory u t) ∧
      (∃ t, exec (.sendw a b c) s = .next t ∧
        Retires (buffered u s.turn (.send true rw len.toNat (payload u s.turn off.toNat len.toNat))) t s.turn
          (s.core s.turn).act.nextPc ∧ SameMemory u t)) ∧
  (∀ (s u : State) (bar : Bool) (a b c d : Sel) (rw off len x : Word), Operands s [a, b, c, d] [rw, off, len, x] u →
    RouteLegal u rw.toNat → PayloadClear u s.turn off.toNat len.toNat →
    (bar = true → x.toNat % 16 = 0) → (bar = false → x.toNat < 65536) → (u.core s.turn).holdsUnit bar x = true →
    ∃ t, exec (.sendo bar a b c d) s = .next t ∧
      Retires (buffered u s.turn (.sendo bar rw len.toNat (payload u s.turn off.toNat len.toNat) x)) t s.turn
        (s.core s.turn).act.nextPc ∧ SameMemory u t)) ∧
  (∀ (s u : State) (a b c d : Sel) (x y z n : Word), Operands s [a, b, c, d] [x, y, z, n] u →
    x.toNat < 2 ^ 20 → u.inPart u.myPart (x.toNat / 32) = true →
    y.toNat % 32 = 0 → z.toNat % 32 = 0 → n.toNat % 32 = 0 → 32 ≤ n.toNat → z.toNat + n.toNat ≤ 0x1E000 →
    y.toNat + n.toNat ≤ (u.core s.turn).limit s.turn → localDenied (u.level s.turn) y.toNat n.toNat = false →
    (∃ t, exec (.pour false a b c d) s = .next t ∧
      Retires (buffered u s.turn (.pour x.toNat y.toNat z.toNat n.toNat none)) t s.turn (s.core s.turn).act.nextPc ∧
      SameMemory u t) ∧
    (∀ (pa home : Nat) (e : Dest) (v : State), (u.core s.turn).act.barSel ≠ 0 →
      u.xlateOf s.turn (u.level s.turn) .atomic (u.core s.turn).act.barSel.toNat = (.ok pa home e, v) →
      ∃ t, exec (.pour true a b c d) s = .next t ∧
        Retires (buffered v s.turn (.pour x.toNat y.toNat z.toNat n.toNat (some (u.core s.turn).act.barSel))) t s.turn
          (s.core s.turn).act.nextPc ∧ SameMemory u t))

/-- R256, R257, R248, R365: `bind` with bit 8 clear writes the channel entry from the 32-byte image at its B operand, and with bit 8 set
binds or unbinds a q selector; `chmask` sets or clears MASK: on a newt's channels and on those of a service core that its tile has. They
act at issue, and nothing else changes. R334: where a newt's channel 29 is left unbound or masked, the notices queued there are discarded,
and the contexts that they are about are killed: no service core holds them any more. -/
def Obligations.ChannelTableWrites : Prop :=
  (∀ (s u : State) (a b : Sel) (x y : Word) (ch : Nat), ch < 64 → u.hasChan s.turn ch = true →
      Operands s [a, b] [x, y] u → x.toNat = ch →
      (PayloadClear u s.turn y.toNat 32 →
        (u.core s.turn).imageBad ch ((payload u s.turn y.toNat 32).getD 0 0) ((payload u s.turn y.toNat 32).getD 1 0)
          ((payload u s.turn y.toNat 32).getD 2 0) ((payload u s.turn y.toNat 32).getD 3 0) = false →
        let e := (Chan.ofWords ((payload u s.turn y.toNat 32).getD 0 0) ((payload u s.turn y.toNat 32).getD 1 0)
          ((payload u s.turn y.toNat 32).getD 2 0)).stored ch
        (ch ≠ 29 ∨ isSvc s.turn = true ∨ (e.valid = true ∧ e.mask = false) →
          ∃ t, exec (.bind a b) s = .next t ∧
            Retires (u.modCore s.turn fun c => c.setChan ch e) t s.turn (s.core s.turn).act.nextPc ∧ SameMemory u t) ∧
        (ch = 29 → isSvc s.turn = false → e.valid = false ∨ e.mask = true →
          ∃ t, exec (.bind a b) s = .next t ∧ NoticesGone u t s.turn)) ∧
      (ch ≠ 29 ∨ isSvc s.turn = true ∨ (((u.core s.turn).chan ch).valid = true ∧ y = 0) →
        ∃ t, exec (.chmask a b) s = .next t ∧
          Retires (u.modCore s.turn fun c => c.setChan ch { Table.get {} c.chans ch with mask := decide (y ≠ 0) }) t s.turn
            (s.core s.turn).act.nextPc ∧ SameMemory u t) ∧
      (ch = 29 → isSvc s.turn = false → ((u.core s.turn).chan ch).valid = false ∨ y ≠ 0 →
        ∃ t, exec (.chmask a b) s = .next t ∧ NoticesGone u t s.turn)) ∧
  (∀ (s u : State) (a b : Sel) (x : Word) (ch q : Nat), ch < 64 → q < 4 → u.hasChan s.turn ch = true → Operands s [a] [x] u →
    (x.toNat = 256 + 64 * q + ch → (u.core s.turn).boundByOther ch = false →
      ∃ t, exec (.bind a b) s = .next t ∧
        Retires (u.modCore s.turn fun c => c.modAct fun e =>
          { e with sync := { e.sync with qb := Table.set e.sync.qb q ch } }) t s.turn (s.core s.turn).act.nextPc ∧
        SameMemory u t) ∧
    (x.toNat = 768 + 64 * q + ch →
      ∃ t, exec (.bind a b) s = .next t ∧ (t.core s.turn).act.qBound q = none ∧
        (t.core s.turn).act.pc = (s.core s.turn).act.nextPc ∧ (t.core s.turn).regs = (u.core s.turn).regs ∧ SameMemory u t))

/-- R258, R259, R73, R74: `mkev` makes a record with counter 0, and with FLAGS = 1 accepts one that exists with the same rank; `rmev`
removes a record that nobody waits for and nobody owes. Neither changes anything else. -/
def Obligations.EventRecords : Prop :=
  (∀ (s u : State) (a b c : Sel) (x r f : Word), Operands s [a, b, c] [x, r, f] u → u.Quiet s.turn →
    x.toNat < 0xFFFF → r.toNat < 0xFFFFF → f.toNat < 2 → (1 ≤ u.level s.turn ∨ x.toNat < 0xFF00) →
    (u.event u.myPart x.toNat = none →
      ∃ t, exec (.mkev a b c) s = .next t ∧ t.event u.myPart x.toNat = some { rank := r.setWidth 20 } ∧
        Retires { u with events := Table.set u.events (evKey u.myPart x.toNat) { rank := r.setWidth 20 } } t s.turn
          (s.core s.turn).act.nextPc ∧ SameMemory u t) ∧
    (∀ e, u.event u.myPart x.toNat = some e → f = 1 → e.rank.toNat = r.toNat →
      ∃ t, exec (.mkev a b c) s = .next t ∧ Retires u t s.turn (s.core s.turn).act.nextPc ∧ SameMemory u t)) ∧
  (∀ (s u : State) (a : Sel) (x : Word) (e : Event), Operands s [a] [x] u → u.Quiet s.turn →
    (1 ≤ u.level s.turn ∨ cpName (x.toNat % 65536) = false) → u.event u.myPart (x.toNat % 65536) = some e →
    e.waiters = [] → u.owedAnywhere u.myPart (x.toNat % 65536) = false →
    ∃ t, exec (.rmev a) s = .next t ∧ t.event u.myPart (x.toNat % 65536) = none ∧
      Retires { u with events := drop u.events (evKey u.myPart (x.toNat % 65536)) } t s.turn
        (s.core s.turn).act.nextPc ∧ SameMemory u t)

/-- R260, R62, R67: `owe` with a count other than 0 adds it to what the activation owes on the event, at the event's rank, which then
bounds its FLOOR; a count of 0 does nothing. What other holders owe, all registers and all memory stay, but for the SRAM that holds
spilled entries (R63). -/
def Obligations.OweAdds : Prop :=
  ∀ (s u : State) (a b : Sel) (x n : Word) (h : Nat) (obj : Word), Operands s [a, b] [x, n] u → n.toNat < 2 ^ 32 →
    h = holderOf (u.core s.turn).runSlot → obj = BitVec.ofNat 64 (x.toNat % 65536) →
    (n = 0 → ∃ t, exec (.owe a b) s = .next t ∧ Retires u t s.turn (s.core s.turn).act.nextPc ∧ SameMemory u t) ∧
    (∀ e, n ≠ 0 → u.event u.myPart (x.toNat % 65536) = some e →
      (∀ o, (u.core s.turn).oblOf h false obj = some o → o.count.toNat + n.toNat < 2 ^ 32) →
      ∃ t, exec (.owe a b) s = .next t ∧
        (∀ o, (u.core s.turn).oblOf h false obj = some o →
          (t.core s.turn).oblOf h false obj = some { o with count := BitVec.ofNat 32 (o.count.toNat + n.toNat) } ∧
          (t.core s.turn).myFloor = (u.core s.turn).myFloor) ∧
        ((u.core s.turn).oblOf h false obj = none →
          (∃ m, (t.core s.turn).oblOf h false obj = some ⟨false, false, e.rank, h, BitVec.ofNat 32 n.toNat, obj, m⟩) ∧
          (t.core s.turn).myFloor = Nat.min (u.core s.turn).myFloor e.rank.toNat) ∧
        (∀ j, j ≠ h → List.Perm ((t.core s.turn).oblsOf j) ((u.core s.turn).oblsOf j)) ∧
        (t.core s.turn).act.pc = (s.core s.turn).act.nextPc ∧ (t.core s.turn).regs = (u.core s.turn).regs ∧
        OnlyCores u t ∧ SameData u t ∧ OtherCores u t s.turn)

/-- R263, R72: `rank` answers the rank of an event, of a ring or of a barrier record, and `rkmid` the rank halfway between two. -/
def Obligations.RanksAreRead : Prop :=
  (∀ (s u : State) (a b : Sel) (x : Word), (Instr.rank .ev a b).wf = true → Operands s [b] [x] u →
    (∀ e, x.toNat < 65536 → u.event u.myPart x.toNat = some e →
      ∃ t, exec (.rank .ev a b) s = .next t ∧ WritesReg s u t a (BitVec.ofNat 64 e.rank.toNat)) ∧
    (x.toNat < 16 → ((u.core s.turn).ring x.toNat).count ≠ 0 →
      ∃ t, exec (.rank .ring a b) s = .next t ∧
        WritesReg s u t a (BitVec.ofNat 64 ((u.core s.turn).ring x.toNat).rank.toNat)) ∧
    (∀ pa home d v, (d = .home ∨ d = .edge) → GlobalClear u s.turn .read x.toNat 16 pa home d v →
      (Bar.ofNat (leNat (v.globalBytes d pa 16))).valid = true →
      ∃ t, exec (.rank .bar a b) s = .next t ∧
        WritesReg s v t a (BitVec.ofNat 64 (leNat (v.globalBytes d pa 16) / 2 ^ 96 % 2 ^ 20)))) ∧
  (∀ (s u : State) (a b c : Sel) (x y : Word), (Instr.rkmid a b c).wf = true → Operands s [b, c] [x, y] u →
    x.toNat ≤ 0xFFFFF → y.toNat ≤ 0xFFFFF → (x.toNat + 2 ≤ y.toNat ∨ y.toNat + 2 ≤ x.toNat) →
    ∃ t, exec (.rkmid a b c) s = .next t ∧ WritesReg s u t a (BitVec.ofNat 64 ((x.toNat + y.toNat) / 2)))

/-- R264, R75: `mkbar` writes a fresh record at an aligned address that translates with write permission, lies in no poisoned sector (log
101) and holds no record in use: valid, with the rank, and every count 0. Every other byte there stays. It is a store of its own. -/
def Obligations.BarrierRecords : Prop :=
  ∀ (s u v : State) (b c : Sel) (va r : Word) (pa home : Nat) (d : Dest), Operands s [b, c] [va, r] u →
    u.Quiet s.turn → va.toNat % 16 = 0 → r.toNat < 0xFFFFF →
    u.xlateOf s.turn (u.level s.turn) .atomic va.toNat = (.ok pa home d, v) → (d = .home ∨ d = .edge) →
    u.writeDelayed s.turn home (lineOf va.toNat) = false → v.phys.poisoned d pa 16 = false → u.phys.dram.wf = true →
    ((Bar.ofNat (leNat (v.globalBytes d pa 16))).valid = false ∨
      ((Bar.ofNat (leNat (v.globalBytes d pa 16))).expected = 0 ∧ u.barWaited u.myPart pa = false)) →
    ∃ t, exec (.mkbar b c) s = .next t ∧
      (∀ x, (if d = .home then t.phys.byte x else t.phys.dram.read x) =
        byteAfter (fun x => if d = .home then u.phys.byte x else u.phys.dram.read x) pa 16
          (some (2 ^ 126 + r.toNat * 2 ^ 96)) x) ∧
      (∀ k off, (isSvc k = true → 0x40000 ≤ off) → t.cellAt k off = u.cellAt k off) ∧ (t.core s.turn).act.life.side = true ∧
      (t.core s.turn).regs = (u.core s.turn).regs ∧ (t.core s.turn).act.pc = (s.core s.turn).act.nextPc

/-- R262, R74, R46, R65: `waitge` on an event ranked below FLOOR completes with the event's POISON where its counter has reached the value,
and else suspends the activation, registered as a waiter of the event. -/
def Obligations.EventWaits : Prop :=
  ∀ (s u : State) (a b c : Sel) (x y : Word) (e : Event), (Instr.waitge a b c).wf = true → Operands s [b, c] [x, y] u →
    u.Quiet s.turn → (∀ n v, (s.core s.turn).act.sync.wait ≠ [.event n v]) →
    (s.core s.turn).act.life.deferred = none → (u.core s.turn).act.life.deferred = none →
    u.event u.myPart (x.toNat % 65536) = some e → e.rank.toNat < (u.core s.turn).myFloor →
    ((e.counter.toNat + 2 ^ 32 - y.toNat % 2 ^ 32) % 2 ^ 32 < 2 ^ 31 →
      ∃ t, exec (.waitge a b c) s = .next t ∧
        (a.toNat ≠ 0 → (t.core s.turn).reg a.toNat = if e.poison then 1 else 0) ∧
        (∀ i, i ∉ written a → (t.core s.turn).reg i = (u.core s.turn).reg i) ∧
        (t.core s.turn).act.pc = (s.core s.turn).act.nextPc ∧ t.events = u.events ∧ SameMemory u t ∧ OtherCores u t s.turn) ∧
    (2 ^ 31 ≤ (e.counter.toNat + 2 ^ 32 - y.toNat % 2 ^ 32) % 2 ^ 32 →
      ∃ t, exec (.waitge a b c) s = .next t ∧ (t.core s.turn).ctl.run = none ∧
        ((t.core s.turn).slot (u.core s.turn).runSlot).st = .suspended ∧
        ((t.core s.turn).slot (u.core s.turn).runSlot).pc = (u.core s.turn).act.pc ∧
        ((t.core s.turn).slot (u.core s.turn).runSlot).sync.wait = [.event (BitVec.ofNat 16 x.toNat) (BitVec.ofNat 32 y.toNat)] ∧
        t.event u.myPart (x.toNat % 65536) = some { e with
          waiters := e.waiters ++ [(.act s.turn (u.core s.turn).runSlot, BitVec.ofNat 32 y.toNat)] } ∧
        OtherCores u t s.turn)

/-- R266, R76, R65: `barw` on a record that the activation is a member of completes with the record's POISON where the generation it
awaits has completed, and then owes the next arrival; else it suspends the activation, registered as a waiter of the record. -/
def Obligations.BarrierWaits : Prop :=
  ∀ (s u v : State) (a b : Sel) (va : Word) (o : Obl) (pa home : Nat) (d : Dest) (r : Bar), (Instr.barw a b).wf = true →
    Operands s [b] [va] u → u.Quiet s.turn → (∀ x n, (s.core s.turn).act.sync.wait ≠ [.bar x n]) →
    (u.core s.turn).oblOf (holderOf (u.core s.turn).runSlot) true va = some o →
    u.barHome s.turn (u.core s.turn).runSlot va = .ok (some (pa, home, d, r), v) → r.rank.toNat < (u.core s.turn).myFloor →
    ((r.gen.toNat + 2 ^ 33 - o.count.toNat - 1) % 2 ^ 32 < 2 ^ 31 →
      ∃ t, exec (.barw a b) s = .next t ∧
        (a.toNat ≠ 0 → (t.core s.turn).reg a.toNat = if r.poison then 1 else 0) ∧
        (∀ i, i ∉ written a → (t.core s.turn).reg i = (u.core s.turn).reg i) ∧
        (t.core s.turn).oblOf (holderOf (u.core s.turn).runSlot) true va = some { o with
          count := BitVec.ofNat 32 (o.count.toNat + 1), arr := false } ∧
        (t.core s.turn).act.pc = (s.core s.turn).act.nextPc ∧ t.bars = u.bars ∧ SameData u t ∧ OtherCores u t s.turn) ∧
    (2 ^ 31 ≤ (r.gen.toNat + 2 ^ 33 - o.count.toNat - 1) % 2 ^ 32 →
      ∃ t, exec (.barw a b) s = .next t ∧ (t.core s.turn).ctl.run = none ∧
        ((t.core s.turn).slot (u.core s.turn).runSlot).st = .suspended ∧
        ((t.core s.turn).slot (u.core s.turn).runSlot).sync.wait = [.bar va o.count] ∧
        t.bars = u.bars ++ [⟨u.myPart, va, pa, o.count, some (s.turn, (u.core s.turn).runSlot)⟩] ∧ OtherCores u t s.turn)

/-- R46: an activation of an unpaired newt that suspends in a wait on an event has its PC, and register words 1 to 59, in its workspace
granule; every other byte of its store, and global memory, is as it was. -/
def Obligations.SuspensionImage : Prop :=
  ∀ (s : State) (a b c : Sel) (e : Event), (Instr.waitge a b c).wf = true → b.toNat ≤ 55 → c.toNat ≤ 55 → s.Running →
    s.Quiet s.turn → (s.core s.turn).act.life.deferred = none → isSvc s.turn = false →
    (s.core s.turn).ls.cells.wf = true → c.toNat ≠ 0 → b.toNat ≠ 0 →
    s.event s.myPart (((s.core s.turn).reg b.toNat).toNat % 65536) = some e → e.rank.toNat < (s.core s.turn).myFloor →
    2 ^ 31 ≤ (e.counter.toNat + 2 ^ 32 - ((s.core s.turn).reg c.toNat).toNat % 2 ^ 32) % 2 ^ 32 →
    ∃ t, exec (.waitge a b c) s = .next t ∧
      (∀ x, x < 0x20000 → t.cellAt s.turn x =
        if x / 512 = (s.core s.turn).act.wsp.toNat then
          if x % 512 < 8 then (leBytes 8 (s.core s.turn).act.pc.toNat).getD (x % 512) 0
          else ((s.core s.turn).regBytes 0 512).getD (x % 512) 0
        else s.cellAt s.turn x) ∧
      (∀ pa, t.phys.byte pa = s.phys.byte pa) ∧ (t.core s.turn).regs = (s.core s.turn).regs

/-- R214, R215, R217: `advp` and `advc` move HEAD and TAIL mod COUNT with FILLED, and clear their cursor; `ringset` sets the descriptor
from the image at its operand. Other rings, all memory and all registers stay. -/
def Obligations.RingMoves : Prop :=
  (∀ (s : State) (h : BitVec 4) (n : BitVec 7), s.Running → s.Quiet s.turn →
    ((s.core s.turn).ring h.toNat).count ≠ 0 → 1 ≤ n.toNat → n.toNat ≤ 64 →
    let r := (s.core s.turn).ring h.toNat
    (r.filled.toNat + n.toNat ≤ r.count.toNat → (s.core s.turn).reserved r.span.1 r.span.2 = false →
      ∃ t, exec (.advp h n) s = .next t ∧ (t.core s.turn).ring h.toNat = { r with
          head := BitVec.ofNat 6 ((r.head.toNat + n.toNat) % r.count.toNat)
          filled := BitVec.ofNat 7 (r.filled.toNat + n.toNat)
          wcur := 0 } ∧
        (∀ j, j ≠ h.toNat → (t.core s.turn).ring j = (s.core s.turn).ring j) ∧
        RingFrame s t s.turn (s.core s.turn).act.nextPc) ∧
    (n.toNat ≤ r.filled.toNat →
      (((s.core s.turn).readRanges s.turn ++ (s.core s.turn).queuedReads s.turn).any fun x => overlaps r.span.1 r.span.2 x.1 x.2) = false →
      ∃ t, exec (.advc h n) s = .next t ∧ (t.core s.turn).ring h.toNat = { r with
          tail := BitVec.ofNat 6 ((r.tail.toNat + n.toNat) % r.count.toNat)
          filled := BitVec.ofNat 7 (r.filled.toNat - n.toNat)
          rcur := 0 } ∧
        (∀ j, j ≠ h.toNat → (t.core s.turn).ring j = (s.core s.turn).ring j) ∧
        RingFrame s t s.turn (s.core s.turn).act.nextPc)) ∧
  (∀ (s u : State) (h : BitVec 4) (b : Sel) (x w0 w1 : Word), Operands s [b] [x] u →
    LocalClear u s.turn x.toNat 16 → LocalSound u s.turn x.toNat 16 →
    w0 = BitVec.ofNat 64 (leNat ((localBytes u s.turn x.toNat 16).take 8)) →
    w1 = BitVec.ofNat 64 (leNat ((localBytes u s.turn x.toNat 16).drop 8)) →
    ((w0 = 0 ∧ w1 = 0) ∨ (ringImageBad w0 w1 = false ∧ (Ring.ofWords w0 w1).rank.toNat < 0xFFFFF)) →
    (u.core s.turn).ringNamed h.toNat = false →
    ((Ring.ofWords w0 w1).rank = ((u.core s.turn).ring h.toNat).rank ∨ (u.core s.turn).waitsRing h.toNat = false) →
    ∃ t, exec (.ringset h b) s = .next t ∧ (t.core s.turn).ring h.toNat = Ring.ofWords w0 w1 ∧
      (∀ j, j ≠ h.toNat → (t.core s.turn).ring j = (u.core s.turn).ring j) ∧
      RingFrame u t s.turn (s.core s.turn).act.nextPc)

/-- R268, R274: `compose` on a newt outside a lizard answers 2 where the size does not divide its column; else 1 where a neighbour is not
free, or it is itself in a gang or a pair; else 0, and it is the head of a lizard of its neighbours, after 40 cycles at least. A neighbour
that is in another lizard is not free (the model's choice, log 29). `release` outside a lizard only ends the chunk; a lizard's sets its
members free. But for that only the status and the PC change. R275, R276, R277: `drawt` on a newt takes one token from its tile's pool and
answers 0, or finds none and answers 1; `drawg` takes tokens from the newt, gives them to a newt of its tile, or back to the pool where
that is itself, and answers 0; it answers 2 where the target is not of its tile, else 1 where the newt holds fewer. But for that only the
status and the PC change. -/
def Obligations.LizardsAndTokens : Prop :=
  ((∀ (s : State) (a : Sel) (n : BitVec 4), (Instr.compose a n).wf = true → s.Running → isSvc s.turn = false →
    (s.core s.turn).inLiz = false → s.Quiet s.turn →
    (s.turn % 8 % n.toNat ≠ 0 → ∃ t, exec (.compose a n) s = .next t ∧ WritesReg s s t a 2) ∧
    (s.turn % 8 % n.toNat = 0 →
      ((∃ m, s.turn < m ∧ m < s.turn + n.toNat ∧ ¬MemberFree s m) ∨ (s.core s.turn).ctl.gangm ≠ 0 ∨
          (s.core s.turn).ctl.pair ≠ none →
        ∃ t, exec (.compose a n) s = .next t ∧ WritesReg s s t a 1) ∧
      ((∀ m, s.turn < m → m < s.turn + n.toNat → MemberFree s m) → (s.core s.turn).ctl.gangm = 0 →
          (s.core s.turn).ctl.pair = none →
        ∃ w t, LizardBound s w s.turn n.toNat ∧ exec (.compose a n) s = .next t ∧ WritesReg s w t a 0 ∧
          s.cycle + 40 ≤ t.cycle))) ∧
  (∀ s : State, s.Running → s.Quiet s.turn →
    ((s.core s.turn).inLiz = false →
      ∃ t, exec .release s = .next t ∧ Retires s t s.turn (s.core s.turn).act.nextPc) ∧
    ((s.core s.turn).inLiz = true → (s.core s.turn).ctl.lizhead = none →
      ∃ w t, LizardReleased s w s.turn ∧ exec .release s = .next t ∧ Retires w t s.turn (s.core s.turn).act.nextPc ∧
        s.cycle + 40 ≤ t.cycle))) ∧
  ((∀ (s : State) (a : Sel), (Instr.drawt a).wf = true → s.Running → isSvc s.turn = false → s.Quiet s.turn →
    (s.pool (tileOf s.turn) ≠ 0 →
      ∃ t, exec (.drawt a) s = .next t ∧ WritesReg s (redrawn s s.turn (· + 1)) t a 0) ∧
    (s.pool (tileOf s.turn) = 0 → ∃ t, exec (.drawt a) s = .next t ∧ WritesReg s s t a 1)) ∧
  (∀ (s u : State) (a b c : Sel) (m n : Word), (Instr.drawg a b c).wf = true → Operands s [b, c] [m, n] u →
    u.Quiet s.turn → s.turn < 0x100000 →
    ((0x100000 ≤ m.toNat ∨ m.toNat / 32 ≠ s.turn / 32) → ∃ t, exec (.drawg a b c) s = .next t ∧ WritesReg s u t a 2) ∧
    (m.toNat < 0x100000 → m.toNat / 32 = s.turn / 32 →
      ((u.core s.turn).ctl.draw < n.toNat → ∃ t, exec (.drawg a b c) s = .next t ∧ WritesReg s u t a 1) ∧
      (n.toNat ≤ (u.core s.turn).ctl.draw →
        ∃ t, exec (.drawg a b c) s = .next t ∧ WritesReg s
          (if m.toNat = s.turn then redrawn u s.turn (· - n.toNat)
           else redrawn (redrawn u s.turn (· - n.toNat)) m.toNat (· + n.toNat)) t a 0))))

/-- R154: at level S within the partition, and at level F for any tile, `tlbinv` removes both page sizes' entries for the address from the
tile's slice TLB for the executing core's partition and keeps every other entry of it. No register and no memory changes.
R101: while a store of an ended chunk of the partition's cores that the tile translated there is on its way, it stalls.
R101, R108: such a store of a chunk that has not ended is to be translated afresh when it is performed (the model's reading, log 80); no other
store of a buffer changes. -/
def Obligations.TlbEntriesGo : Prop :=
  ∀ (s u : State) (b c : Sel) (x y : Word), Operands s [b, c] [x, y] u → 1 ≤ s.level s.turn →
    u.level s.turn = s.level s.turn → x.toNat < 2 ^ 57 → y.toNat < 32768 →
    (s.level s.turn = 1 → u.inPart u.myPart y.toNat = true) →
    (u.tlbWaits u.myPart y.toNat x.toNat = true → b.toNat ≤ 55 → c.toNat ≤ 55 →
      ∃ t, exec (.tlbinv b c) s = .next t ∧ t.tiles = s.tiles ∧ (t.core s.turn).act.pc = (s.core s.turn).act.pc ∧
        (t.core s.turn).regs = (s.core s.turn).regs ∧ (t.core s.turn).ord.sb = (s.core s.turn).ord.sb) ∧
    (u.tlbWaits u.myPart y.toNat x.toNat = false → ∃ t, exec (.tlbinv b c) s = .next t ∧
      find (Table.get [] (t.tile y.toNat).tlb u.myPart) (tlbKey x.toNat false) = none ∧
      find (Table.get [] (t.tile y.toNat).tlb u.myPart) (tlbKey x.toNat true) = none ∧
      (∀ key, key ≠ tlbKey x.toNat false → key ≠ tlbKey x.toNat true →
        find (Table.get [] (t.tile y.toNat).tlb u.myPart) key = find (Table.get [] (u.tile y.toNat).tlb u.myPart) key) ∧
      (∀ p, p ≠ u.myPart → Table.get [] (t.tile y.toNat).tlb p = Table.get [] (u.tile y.toNat).tlb p) ∧
      (∀ j, j ≠ y.toNat → j ≠ tileOf s.turn → t.tile j = u.tile j) ∧
      (∀ j, (t.core j).ord.sb = (u.core j).ord.sb.map fun e =>
        if u.holding j = some u.myPart ∧ e.dest ≠ .loc ∧ e.home = y.toNat ∧ e.va.toNat / 2 ^ 25 = x.toNat / 2 ^ 25
        then { e with stale := true } else e) ∧
      (∀ j, j ≠ s.turn → (u.core s.turn).ctl.pair ≠ some j →
        t.core j = { u.core j with ord := { (u.core j).ord with sb := (t.core j).ord.sb } }) ∧
      (t.core s.turn).act.pc = (s.core s.turn).act.nextPc ∧ (t.core s.turn).regs = (u.core s.turn).regs ∧ SameMemory u t)

/-- R155: at level F `frgrant` gives a frame of memory, whose stations are ready where it goes to a partition (R27), to a partition or to the
free pool: every byte of the frame reads zero, its lines leave every read-only buffer, the owner is recorded, and no byte outside the frame
changes. It takes 800 cycles at least. -/
def Obligations.FrameIsGranted : Prop :=
  ∀ (s u : State) (b c : Sel) (x y : Word), Operands s [b, c] [x, y] u → s.level s.turn = 2 → u.Quiet s.turn →
    x.toNat % 65536 = 0 → (regionOf x.toNat = .near ∨ regionOf x.toNat = .far) → y.toNat ≤ 4096 → u.phys.dram.wf = true →
    (y.toNat ≠ 4096 → u.stationsReady (x.toNat / 65536) = true) →
    (u.physDelayed s.turn fun pa => pa / 65536 == x.toNat / 65536) = false →
    ∃ t, exec (.frgrant b c) s = .next t ∧
      (∀ pa, pa / 65536 = x.toNat / 65536 → t.phys.byte pa = 0 ∧ t.phys.dram.read pa = 0) ∧
      (∀ pa, pa / 65536 ≠ x.toNat / 65536 → t.phys.byte pa = u.phys.byte pa ∧ t.phys.dram.read pa = u.phys.dram.read pa) ∧
      (∀ j l, l / 256 = x.toNat / 65536 → find (t.tile j).ro l = none) ∧
      find t.phys.owner (x.toNat / 65536) = (if y.toNat = 4096 then none else some (y.toNat + 1)) ∧
      u.cycle + 800 ≤ t.cycle ∧ (∀ k off, (isSvc k = true → 0x40000 ≤ off) → t.cellAt k off = u.cellAt k off) ∧
      (t.core s.turn).regs = (u.core s.turn).regs ∧ (t.core s.turn).act.pc = (s.core s.turn).act.nextPc

/-- R156, R394: `pair` couples two newts that are free for it: status 0, the partner has the leader's cells, tags, handler table, ring
descriptors, BFMT, GUARD and registers and goes on with it; and uncouples them: the follower stops with every channel masked, keeps its cells,
and has status 0 too. An uncouple never answers 1 (the model's choice, log 96). Where the newts are already so it answers 2
with no other effect, where one of them cannot be paired 3; which of two such answers is a free choice (log 25). -/
def Obligations.PairsCouple : Prop :=
  ∀ (s : State) (a : Sel) (mode : Bool), (Instr.pair a mode).wf = true → s.Running → isSvc s.turn = false →
    ((s.core s.turn).ctl.pair.isSome = mode ∨ (s.core s.turn).noPair = true ∨ (s.core (partnerOf s.turn)).noPair = true →
      ∃ t x, exec (.pair a mode) s = .next t ∧ x ∈ s.pairStatuses s.turn mode ∧ x ≠ 0 ∧ WritesReg s s t a (BitVec.ofNat 64 x)) ∧
    ((s.core s.turn).ctl.pair.isSome = mode → (s.core s.turn).noPair = false → (s.core (partnerOf s.turn)).noPair = false →
      (mode = true → (s.core (partnerOf s.turn)).busyPartner = false ∧
        ∀ e ∈ (s.core s.turn).slots, e.1 ≠ (s.core s.turn).runSlot → e.2.st = .free) →
      ∃ t, exec (.pair a mode) s = .next t ∧ WritesReg s s t a 2) ∧
    (mode = true → s.Quiet s.turn → s.pairStatuses s.turn true = [] →
      ∃ t, exec (.pair a mode) s = .next t ∧ (a.toNat ≠ 0 → (t.core s.turn).reg a.toNat = 0) ∧
        (t.core s.turn).ctl.pair = some (partnerOf s.turn) ∧ (t.core s.turn).ctl.leader = true ∧
        (t.core (partnerOf s.turn)).ctl.pair = some s.turn ∧ (t.core (partnerOf s.turn)).ctl.leader = false ∧
        (t.core (partnerOf s.turn)).ls = (t.core s.turn).ls ∧ (t.core (partnerOf s.turn)).regs = (t.core s.turn).regs ∧
        (t.core (partnerOf s.turn)).chans = (t.core s.turn).chans ∧ (t.core (partnerOf s.turn)).vec.ring = (t.core s.turn).vec.ring ∧
        (t.core (partnerOf s.turn)).ctl.bfmt = (t.core s.turn).ctl.bfmt ∧ (t.core (partnerOf s.turn)).ctl.guard = (t.core s.turn).ctl.guard ∧
        (t.core (partnerOf s.turn)).ctl.run = (t.core s.turn).ctl.run ∧
        ((t.core (partnerOf s.turn)).act.pc = (t.core s.turn).act.pc) ∧
        s.cycle + 4100 ≤ t.cycle ∧ (t.core s.turn).ls = (s.core s.turn).ls ∧
        (t.core s.turn).act.pc = (s.core s.turn).act.nextPc) ∧
    (mode = false → s.Quiet s.turn → s.pairStatuses s.turn false = [] → (s.core s.turn).ctl.pair = some (partnerOf s.turn) →
      ∃ t, exec (.pair a mode) s = .next t ∧ (a.toNat ≠ 0 → (t.core s.turn).reg a.toNat = 0) ∧
        (a.toNat ≠ 0 → (t.core (partnerOf s.turn)).reg a.toNat = 0) ∧
        (t.core s.turn).ctl.pair = none ∧ (t.core (partnerOf s.turn)).ctl.pair = none ∧
        (t.core (partnerOf s.turn)).ctl.run = none ∧ (t.core (partnerOf s.turn)).ls = (s.core (partnerOf s.turn)).ls ∧
        (∀ ch, ch < 32 → ((t.core (partnerOf s.turn)).chan ch).mask = true) ∧ (t.core s.turn).ls = (s.core s.turn).ls ∧
        (t.core s.turn).act.pc = (s.core s.turn).act.nextPc)

/-- R219, R221, R222, R226: the lane-wise vector instructions on a newt complete; every lane of the result is the value of the entry from
the lanes of the sources, in whole numbers mod 2^w on integer lanes and rounded once on floating lanes, and nothing else changes. The
lanes of `vexp2` and `vlog2` are those of the model's 256-bit series (log 30). R221: `vfma` adds the product of its sources to its
destination register, rounded once on floating lanes. R203, R225: a reduction combines adjacent lanes in pairs, level by level, into lane
0 and clears the others. -/
def Obligations.VectorResults : Prop :=
  (∀ (i : Instr) (r : LaneWise) (s u : State) (vals : List (BitVec 512)), laneWise i = some r → i.wf = true →
    VOperands s r.dst r.srcs vals u →
    ∃ t x, exec i s = .next t ∧ WritesVec s u t r.dst x ∧
      ∀ k, k < r.ty.lanes → lane x r.ty.width k = r.val (vals.map fun y => lane y r.ty.width k) % 2 ^ r.ty.width) ∧
  (∀ (ty : VTy) (a b c : VOp) (s u : State) (y z : BitVec 512), (Instr.vfma ty a b c).wf = true →
    VOperands s a [b, c] [y, z] u →
    ∃ t x, exec (.vfma ty a b c) s = .next t ∧ WritesVec s u t a x ∧
      ∀ k, k < ty.lanes → lane x ty.width k = laneResult ty
        (lane (Table.get 0 (u.core s.turn).vec.v a.sel.toNat) ty.width k + lane y ty.width k * lane z ty.width k)
        ((laneVal ty (lane (Table.get 0 (u.core s.turn).vec.v a.sel.toNat) ty.width k)).add
          ((laneVal ty (lane y ty.width k)).mul (laneVal ty (lane z ty.width k)))) % 2 ^ ty.width) ∧
  (∀ (i : Instr) (ty : VTy) (a b : VOp) (f : Nat → Nat → Nat) (s u : State) (y : BitVec 512) (n : Nat),
    reductions i = some (ty, a, b, f) → i.wf = true → VOperands s a [b] [y] u → 2 ^ n = ty.lanes →
    ∃ t x, exec i s = .next t ∧ WritesVec s u t a x ∧
      lane x ty.width 0 = pairwise f (lane y ty.width) n 0 % 2 ^ ty.width ∧
      ∀ k, 0 < k → k < ty.lanes → lane x ty.width k = 0)

/-- R223, R224, R226: conversions, NQ4 quantisation and dequantisation, shuffles, broadcasts and extractions complete; lane by lane, or
field by field, they write what their entry gives. -/
def Obligations.RearrangedResults : Prop :=
  (∀ (ty : VTy) (dt : DTy) (m : Rnd) (sat : Bool) (a b : VOp) (s u : State) (y : BitVec 512),
    (Instr.vcvt ty dt m sat a b).wf = true → VOperands s a [b] [y] u →
    ∃ t x, exec (.vcvt ty dt m sat a b) s = .next t ∧ WritesVec s u t a x ∧
      ∀ k, k < dtLanes dt → lane x (dtWidth dt) k =
        if k < ty.lanes then convLane ty dt m sat (lane y ty.width k) % 2 ^ dtWidth dt else 0) ∧
  (∀ (a b c : VOp) (s u : State) (y z : BitVec 512), (Instr.vquant a b c).wf = true → VOperands s a [b, c] [y, z] u →
    ∃ t x, exec (.vquant a b c) s = .next t ∧ WritesVec s u t a x ∧ ∀ h, h < 2 →
      let q := nq4Quant ((List.range 8).map fun k => fF32.decode (lane y 32 (8 * h + k))) (fF32.decode (lane z 32 0))
      (∀ k, k < 8 → lane x 4 (8 * h + k) = q.1.getD k 0 % 16) ∧ lane x 8 (8 + h) = q.2 % 256) ∧
  (∀ (a b c d : VOp) (s u : State) (y z w : BitVec 512), (Instr.vdeq a b c d).wf = true →
    VOperands s a [b, c, d] [y, z, w] u →
    ∃ t x, exec (.vdeq a b c d) s = .next t ∧ WritesVec s u t a x ∧ ∀ k, k < 16 →
      lane x 32 k = roundTo fF32 .rne false ((fF32.decode (lane w 32 k)).add
        (((nq4 (lane y 4 k)).mul (e5m3 (lane y 8 (8 + k / 8)))).mul (fF32.decode (lane z 32 0)))) % 2 ^ 32) ∧
  (∀ (ty : VTy) (a b c : VOp) (s u : State) (y z : BitVec 512), (Instr.vshuf ty a b c).wf = true →
    VOperands s a [b, c] [y, z] u →
    ∃ t x, exec (.vshuf ty a b c) s = .next t ∧ WritesVec s u t a x ∧
      ∀ k, k < ty.lanes → lane x ty.width k = lane y ty.width (lane z ty.width k % ty.lanes)) ∧
  (∀ (ty : VTy) (a : VOp) (b : Sel) (s u : State) (y : Word) (c : Ctx), (Instr.vbcast ty a b).wf = true → s.Running →
    isSvc s.turn = false → gatherScalar a b s.begin = .ok (y, c) →
    u = (if vIsRing a = false ∧ b.toNat ≤ 55 then s else c.st) → u.turn = s.turn →
    (u.core s.turn).ctl.run = (s.core s.turn).ctl.run →
    ∃ t x, exec (.vbcast ty a b) s = .next t ∧ WritesVec s u t a x ∧
      ∀ k, k < ty.lanes → lane x ty.width k = y.toNat % 2 ^ ty.width) ∧
  (∀ (ty : VTy) (a : Sel) (b : BitVec 4) (l : BitVec 8) (s : State), (Instr.vext ty a b l).wf = true → s.Running →
    isSvc s.turn = false → (s.core s.turn).act.life.deferred = none →
    ∃ t, exec (.vext ty a b l) s = .next t ∧ WritesReg s s t a
      (let x := lane (Table.get 0 (s.core s.turn).vec.v b.toNat) ty.width l.toNat
       if ty.isFloat then BitVec.ofNat 64 x else BitVec.ofInt 64 (laneInt ty.width x)))

/-- R227, R129: `vld` reads 64 bytes of local store into a vector register, and `vst` places a vector register in the store buffer. -/
def Obligations.VectorMemory : Prop :=
  ∀ (s u : State) (a : BitVec 4) (b : Sel) (imm : BitVec 22) (x : Word), Operands s [b] [x] u → isSvc s.turn = false →
    (s.core s.turn).act.life.deferred = none → LocalClear u s.turn (address x imm) 64 → address x imm + 64 ≤ 0x20000 →
    (LocalSound u s.turn (address x imm) 64 →
      ∃ t, exec (.vld a b imm) s = .next t ∧ Retires (u.modCore s.turn fun c => { c with vec := { c.vec with
          v := Table.set c.vec.v a.toNat (BitVec.ofNat 512 (leNat (localBytes u s.turn (address x imm) 64))) } }) t s.turn
          (s.core s.turn).act.nextPc ∧ SameMemory u t) ∧
    ((u.core s.turn).act.inWorkspace (address x imm) 64 = true →
      ∃ t, exec (.vst a b imm) s = .next t ∧ (t.core s.turn).act.pc = (s.core s.turn).act.nextPc ∧ SameMemory u t ∧
        ∀ j, j < 480 → ((t.core s.turn).regBytes 0 512).getD j 0 =
          if address x imm % 512 ≤ j ∧ j < address x imm % 512 + 64
          then (leBytes 64 (Table.get (0 : BitVec 512) (u.core s.turn).vec.v a.toNat).toNat).getD (j - address x imm % 512) 0
          else ((u.core s.turn).regBytes 0 512).getD j 0) ∧
    ((u.core s.turn).act.inWorkspace (address x imm) 64 = false → (u.core s.turn).ord.sb.length < 32 →
      ∃ t, exec (.vst a b imm) s = .next t ∧ Retires (stored u s.turn .loc (address x imm) 0 0
          (leBytes 64 (Table.get (0 : BitVec 512) (u.core s.turn).vec.v a.toNat).toNat)) t s.turn
          (s.core s.turn).act.nextPc ∧ SameMemory u t)

/-- R206, R208, R229, R230, R232, R233: a matrix instruction whose checks pass places its operation last in the matrix queue, with the
formats of the banks and, where it names an event, an obligation of the engine on it. It changes no accumulator and no memory, but for the
SRAM that holds spilled entries (R63). R231: `gang` with a mask that holds the newt's own column sets GANGM, and `ungang` clears it, once
no `gmma` is outstanding; the count of `gmma`s starts again. -/
def Obligations.MatrixAndGangs : Prop :=
  ((∀ (s : State) (fmt : MFmt) (a : BitVec 2) (rb rc : BitVec 4) (ev : BitVec 16) (r : Option Nat), s.Running →
    MatrixClear s s → (s.core s.turn).ctl.draw ≠ 0 → RingFit (s.core s.turn) fmt rb.toNat → RingFit (s.core s.turn) fmt rc.toNat →
    rb ≠ rc → EventFit s holderMx ev [rb.toNat, rc.toNat] r →
    (∃ t, exec (.mma fmt a rb rc ev) s = .next t ∧ Forks s s t (.mma fmt a.toNat rb.toNat rc.toNat) ev r) ∧
    ((s.core s.turn).ctl.gangm ≠ 0 →
      ∃ t, exec (.gmma fmt a rb rc ev) s = .next t ∧
        (t.core s.turn).eng.mq.length = (s.core s.turn).eng.mq.length + 1 ∧
        ((t.core s.turn).eng.mq.getLast?.map fun o => (o.kind, o.ev)) =
          some (.gmma fmt a.toNat rb.toNat rc.toNat ((s.core s.turn).eng.gseq + 1), ev) ∧
        (t.core s.turn).eng.gseq = (s.core s.turn).eng.gseq + 1 ∧ (t.core s.turn).vec = (s.core s.turn).vec ∧
        (t.core s.turn).regs = (s.core s.turn).regs ∧ (t.core s.turn).act.pc = (s.core s.turn).act.nextPc ∧
        SameData s t ∧ OtherCores s t s.turn)) ∧
  (∀ (s : State) (a : BitVec 2), s.Running → MatrixClear s s →
    ∃ t, exec (.mzero a) s = .next t ∧ Forks s s t (.mzero a.toNat) 0xFFFF none) ∧
  (∀ (s u : State) (a : BitVec 2) (b : Sel) (x : Word), Operands s [b] [x] u → MatrixClear s u →
    ∃ t, exec (.mscale a b) s = .next t ∧ Forks s u t (.mscale a.toNat (x.setWidth 32)) 0xFFFF none) ∧
  (∀ (s u : State) (a : BitVec 2) (b : Sel) (ev : BitVec 16) (x : Word) (r : Option Nat), Operands s [b] [x] u →
    MatrixClear s u → ImageFit (u.core s.turn) x.toNat → EventFit u holderMx ev [] r →
    (∃ t, exec (.mld a b ev) s = .next t ∧ Forks s u t (.mld a.toNat x.toNat) ev r) ∧
    ((u.tagAt s.turn x.toNat).p = false →
      ∃ t, exec (.mst a b ev) s = .next t ∧ Forks s u t (.mst a.toNat x.toNat) ev r) ∧
    ((u.tagAt s.turn x.toNat).p = true →
      ∃ t, exec (.mst a b ev) s = .next t ∧ (t.core s.turn).act.life.side = true ∧
        (t.core s.turn).eng = ((forked u s.turn (.mst a.toNat x.toNat) ev r).core s.turn).eng ∧
        (t.core s.turn).act.pc = (s.core s.turn).act.nextPc ∧ SameData u t))) ∧
  (∀ (s : State) (mask : BitVec 8), s.Running → isSvc s.turn = false → (s.core s.turn).act.life.deferred = none →
    s.Quiet s.turn → (∀ o ∈ (s.core s.turn).eng.mq, o.kind.isGang = false) →
    (mask.getLsbD (s.turn % 8) = true →
      ∃ t, exec (.gang mask) s = .next t ∧ Retires (s.modCore s.turn fun c => { c with
        ctl := { c.ctl with gangm := mask }, eng := { c.eng with gseq := 0, lost := [] } }) t s.turn
        (s.core s.turn).act.nextPc ∧ SameMemory s t) ∧
    (∃ t, exec .ungang s = .next t ∧ Retires (s.modCore s.turn fun c => { c with
        ctl := { c.ctl with gangm := 0 }, eng := { c.eng with gseq := 0, lost := [] } }) t s.turn
        (s.core s.turn).act.nextPc ∧ SameMemory s t))

/-- R236, R240, R242: `cxgo` places a chain last in the pump's queue with its completion event owed, and sets the side-effect flag;
`cxstop` stops the activation's own running chain, whose event is signalled poisoned, and leaves a chain of another; `cxstat` answers
the pump's status word. -/
def Obligations.PumpInstructions : Prop :=
  (∀ (s u : State) (b : Sel) (ev : BitVec 16) (x : Word) (r : Option Nat), Operands s [b] [x] u →
    (s.core s.turn).act.life.deferred = none → u.Quiet s.turn → isSvc s.turn = false → x.toNat % 32 = 0 →
    x.toNat + 32 ≤ 0x1E000 → EventFit u holderCx ev [] r →
    ((u.core s.turn).eng.pq.filter fun o => !o.started).length < 2 →
    ∃ t, exec (.cxgo b ev) s = .next t ∧
      (∃ o, (t.core s.turn).eng.pq = (u.core s.turn).eng.pq ++ [o] ∧ o.head = x.toNat ∧ o.ev = ev ∧
        o.slot = (u.core s.turn).runSlot ∧ o.bfmt = (u.core s.turn).ctl.bfmt ∧ o.started = false ∧
        o.from_ = (u.core s.turn).eng.rest.filter fun p => p.head == x.toNat) ∧
      (∀ rk, r = some rk → (t.core s.turn).obl = ((u.core s.turn).owe holderCx ev.toNat 1 rk).obl) ∧
      (t.core s.turn).act.life.side = true ∧ (t.core s.turn).regs = (u.core s.turn).regs ∧
      (t.core s.turn).act.pc = (s.core s.turn).act.nextPc ∧ SameData u t ∧ OtherCores u t s.turn) ∧
  (∀ s : State, s.Running → (s.core s.turn).act.life.deferred = none → s.Quiet s.turn →
    ((∀ o ∈ (s.core s.turn).eng.pq, ¬(o.slot = (s.core s.turn).runSlot ∧ o.seq = (s.core s.turn).act.uid)) →
      ∃ t, exec .cxstop s = .next t ∧ (t.core s.turn).eng = (s.core s.turn).eng ∧ t.events = s.events ∧
        (t.core s.turn).regs = (s.core s.turn).regs ∧ (t.core s.turn).act.pc = (s.core s.turn).act.nextPc ∧
        SameMemory s t ∧ OtherCores s t s.turn) ∧
    (∀ o e, (s.core s.turn).eng.pq = [o] → o.started = true → o.slot = (s.core s.turn).runSlot →
      o.seq = (s.core s.turn).act.uid → o.ev ≠ 0xFFFF → (s.core s.turn).eng.pump.paid = false →
      s.event s.myPart o.ev.toNat = some e → e.waiters = [] →
      ∃ t, exec .cxstop s = .next t ∧ (t.core s.turn).eng.pq = [] ∧ (t.core s.turn).eng.pump.state = 3 ∧
        (t.core s.turn).eng.pump.idx = (s.core s.turn).eng.pump.idx ∧
        (t.core s.turn).eng.pump.done = (s.core s.turn).eng.pump.done ∧
        (t.core s.turn).eng.rest = some (t.core s.turn).eng.pump ∧
        t.event s.myPart o.ev.toNat = some { e with counter := e.counter + 1, poison := true } ∧
        (t.core s.turn).act.pc = (s.core s.turn).act.nextPc ∧ SameData s t)) ∧
  (∀ (s : State) (a : Sel), (Instr.cxstat a).wf = true → s.Running → (s.core s.turn).act.life.deferred = none →
    ∃ t, exec (.cxstat a) s = .next t ∧ WritesReg s s t a
      (let e := (s.core s.turn).eng
       BitVec.ofNat 64 (e.pump.done % 2 ^ 32 * 2 ^ 32 + e.pump.idx % 2 ^ 16 * 2 ^ 16 + e.pump.sub * 2 ^ 8
         + (e.pq.filter fun o => !o.started).length * 2 ^ 4 + e.pump.state)))

/-- R117, R126, R127, R216: the scalar selectors w0 to w55 and the vector registers v0 to v15 can always be read, w0 as 0; a q selector
bound to the activation's own channel gives the next word of its message, and one bound to another channel, ranked below FLOOR and with a
word queued, gives that word, the first of the next message where none has been begun; that message then leaves the queue (R45). The words
are read where they lie in the inbox, under the rules of local store (R35). One that is not bound faults 0x0C, and one with no word queued
suspends the activation. -/
def Obligations.OperandsAreRead : Prop :=
  (∀ (s : State) (srcs : List Sel), s.Running → srcs.all Sel.dstOk = true →
    Operands s srcs (srcs.map fun b => if b.toNat = 0 then 0 else (s.core s.turn).reg b.toNat) s) ∧
  (∀ (s : State) (a : VOp) (srcs : List VOp), s.Running → isSvc s.turn = false →
    (s.core s.turn).act.life.deferred = none → ((a :: srcs).all fun o => !vIsRing o && !vIsQ o) = true →
    VOperands s a srcs (srcs.map fun o => Table.get 0 (s.core s.turn).vec.v o.sel.toNat) s) ∧
  (∀ (s : State) (b : Sel) (ch : Nat), s.Running → s.Quiet s.turn → 56 ≤ b.toNat →
    (s.core s.turn).act.qBound (b.toNat - 56) = some ch →
    (ch = (s.core s.turn).act.chan → (∀ x ∈ (s.core s.turn).ownPlaces 1, PlaceClear s s.turn x) →
      ∃ u, Operands s [b] [(s.core s.turn).act.msg.words.headD 0] u ∧
        (u.core s.turn).act.msg.words = (s.core s.turn).act.msg.words.tail ∧ SameMemory s u ∧
        (u.core s.turn).regs = (s.core s.turn).regs) ∧
    (∀ w ws, ch ≠ (s.core s.turn).act.chan → ((s.core s.turn).chan ch).rank.toNat < (s.core s.turn).myFloor →
      ((s.core s.turn).inb ch).part = w :: ws →
      (∀ x ∈ (s.core s.turn).nextPlaces ch (holderOf (s.core s.turn).runSlot) 1, PlaceClear s s.turn x) →
      ∃ u, Operands s [b] [w] u ∧ ((u.core s.turn).inb ch).part = ws ∧
        ((u.core s.turn).inb ch).q = ((s.core s.turn).inb ch).q ∧ SameMemory s u ∧
        (u.core s.turn).regs = (s.core s.turn).regs) ∧
    (∀ m q w ws, ch ≠ (s.core s.turn).act.chan → ((s.core s.turn).chan ch).rank.toNat < (s.core s.turn).myFloor →
      ((s.core s.turn).inb ch).part = [] → ((s.core s.turn).inb ch).q = m :: q → m.words = w :: ws →
      (∀ x ∈ (s.core s.turn).nextPlaces ch (holderOf (s.core s.turn).runSlot) 1, PlaceClear s s.turn x) →
      (s.core s.turn).takesOver (holderOf (s.core s.turn).runSlot) m.carry = none →
      ∃ u, Operands s [b] [w] u ∧ ((u.core s.turn).inb ch).part = ws ∧ ((u.core s.turn).inb ch).q = q ∧
        (u.core s.turn).regs = (s.core s.turn).regs ∧ SameData s u ∧
        (m.carry = [] → (u.core s.turn).obl = (s.core s.turn).obl)) ∧
    (ch ≠ (s.core s.turn).act.chan → ((s.core s.turn).chan ch).rank.toNat < (s.core s.turn).myFloor →
      ((s.core s.turn).inb ch).wordCount = 0 →
      ∃ t, exec (.jr b) s = .next t ∧ (t.core s.turn).ctl.run = none ∧
        ((t.core s.turn).slot (s.core s.turn).runSlot).st = .suspended ∧
        ((t.core s.turn).slot (s.core s.turn).runSlot).sync.wait = [.words ch 1]) ∧
    (ch ≠ (s.core s.turn).act.chan → (s.core s.turn).myFloor ≤ ((s.core s.turn).chan ch).rank.toNat →
      (s.core s.turn).inLiz = false →
      ∃ t r, exec (.jr b) s = .next t ∧ r.code = 0x0A ∧ r.orank = ((s.core s.turn).chan ch).rank.toNat ∧
        r.floor = some (s.core s.turn).myFloor ∧ TakesFault s t s.turn r (s.core s.turn).act.pc (tileOf s.turn))) ∧
  (∀ (s : State) (b : Sel), s.Running → s.Quiet s.turn → (s.core s.turn).inLiz = false → 56 ≤ b.toNat →
    (s.core s.turn).act.qBound (b.toNat - 56) = none →
    ∃ t r, exec (.jr b) s = .next t ∧ r.code = 0x0C ∧
      TakesFault s t s.turn r (s.core s.turn).act.pc (tileOf s.turn))

/-- R36, R55, R250: the first message in transit to a core queues, complete, at the end of its channel's queue, in free places of the
inbox ring (log 36), or where it does not fit is diverted behind those diverted before it; its sender, where it waits, is told. A
diverted message for which there is room, and which no save or resume holds back (R352, R354), is reinjected. -/
def Obligations.MessagesArrive : Prop :=
  (∀ (s : State) (k ch : Nat) (m : Msg) (w : Option (Nat × Nat)) (rest : List Flight), s.flight = .msg k m w :: rest →
    ch = routeChan m.route.toNat → m.isLost = false → s.savedOwner k m = none → s.lost k m.part = false →
    (s.core k).isStream ch = false →
    (s.diverts k ch m = false → (s.core k).ls.cells.wf = true →
      ∃ t, exec (.messageArrival k) s = .next t ∧ t.flight = rest ∧
        ((t.core k).inb ch).q = ((s.core k).inb ch).q ++ [{ m with place := ((s.core k).placesFor k (2 + m.words.length)).1 }] ∧
        (∀ c, c ≠ ch → (t.core k).inb c = (s.core k).inb c) ∧ OutsideInbox s t k ∧
        ∀ src q i, w = some (src, q) → ((t.core src).slot i).st ≠ .free → ((t.core src).slot i).uid.toNat = q →
          ((t.core src).slot i).life.sendw = false) ∧
    (s.diverts k ch m = true → ((s.core k).inb ch).ovf = [] → s.divertUsed (tileOf k) + m.size ≤ 0x20000 →
      s.swapped k = false →
      ∃ t, exec (.messageArrival k) s = .next t ∧ t.flight = rest ∧
        ((t.core k).inb ch).div = ((s.core k).inb ch).div ++ [m] ∧ ((t.core k).inb ch).q = ((s.core k).inb ch).q ∧
        SameData s t)) ∧
  (∀ (s : State) (k ch : Nat) (m : Msg) (d : List Msg), ch < chanCount k → (∀ c, c < ch → s.reinject k c = none) →
    ((s.core k).inb ch).div = m :: d → (s.core k).isStream ch = false → (s.core k).ls.cells.wf = true →
    ((s.core k).ctl.pair = none ∨ (s.core k).ctl.leader = true) → s.heldBack k ch = false →
    ((s.core k).inb ch).q.length < ((s.core k).chan ch).limit →
    (s.core k).inboxUsed + m.size ≤ inboxBytes k →
    ∃ t, exec (.reinjectDiverted k) s = .next t ∧
      ((t.core k).inb ch).q = ((s.core k).inb ch).q ++ [{ m with place := ((s.core k).placesFor k (2 + m.words.length)).1 }] ∧
      ((t.core k).inb ch).div = d ∧ (∀ c, c ≠ ch → (t.core k).inb c = (s.core k).inb c) ∧ OutsideInbox s t k ∧
      ∀ j, j ≠ k → t.core j = s.core j)

/-- R38, R39, R251: a beat of a stream lands at the head slot of its ring, which moves on when the slot is full; the segment with EOS, once
landed, ends the stream, and a slot that is only partly filled is advanced too. -/
def Obligations.StreamsLand : Prop :=
  ∀ (s : State) (k ch : Nat) (m : Msg) (rest : List Msg) (e : Chan) (r : Ring) (st : Stream), ch < chanCount k →
    isSvc k = false → e = (s.core k).chan ch → (s.core k).isStream ch = true →
    ((s.core k).ctl.pair = none ∨ (s.core k).ctl.leader = true) → s.heldBack k ch = false →
    ((s.core k).inb ch).div = m :: rest → (∀ x, ((s.core k).inb ch).stream = some x → x.src = m.src ∧ x.eos = none) →
    r = (s.core k).ring e.ring.toNat → st = ((s.core k).inb ch).stream.getD ⟨m.src, 0, 0, [], none⟩ →
    ((∀ c, c < ch → s.streamBeat k c = none) → m.done < m.len → r.count ≠ 0 → r.filled.toNat < r.count.toNat →
      let at_ := r.slotOff r.head.toNat + st.off
      let n := Nat.min (Nat.min 32 (m.len - m.done)) (Nat.min (2 ^ r.slog.toNat - st.off) (512 - at_ % 512))
      ∃ t, exec (.streamBeatLanding k) s = .next t ∧
        ((t.core k).inb ch).div = { m with done := m.done + n } :: rest ∧
        (((t.core k).inb ch).stream.map fun x => (x.bytes, x.off)) =
          some (st.bytes + n, if st.off + n = 2 ^ r.slog.toNat then 0 else st.off + n) ∧
        (t.core k).ring e.ring.toNat = (if st.off + n = 2 ^ r.slog.toNat then
          { r with head := BitVec.ofNat 6 ((r.head.toNat + 1) % r.count.toNat), filled := r.filled + 1, wcur := 0 } else r) ∧
        (at_ + n ≤ 0x20000 → m.len ≤ 8 * m.words.length → (s.core k).ls.cells.wf = true → s.expiredAt k at_ = false →
          ∀ o, o < 0x20000 → t.cellAt k o = if at_ ≤ o ∧ o < at_ + n
            then (payloadBytes m m.done n).getD (o - at_) 0 else s.cellAt k o)) ∧
    ((∀ c, c < ch → s.segmentEnd k c = none) → m.len ≤ m.done → routeEos m.route.toNat = true →
      ∃ t, exec (.endOfStream k) s = .next t ∧ ((t.core k).inb ch).div = rest ∧
        (((t.core k).inb ch).stream.map fun x => (x.bytes, x.off, x.eos.isSome)) = some (st.bytes, 0, true) ∧
        (t.core k).ring e.ring.toNat = (if st.off ≠ 0 ∧ r.count ≠ 0 ∧ r.filled.toNat < r.count.toNat then
          { r with head := BitVec.ofNat 6 ((r.head.toNat + 1) % r.count.toNat), filled := r.filled + 1, wcur := 0 } else r) ∧
        SameData s t)

/-- R85, R86, R255, R75: the beats of a pour in transit land in a live granule of their target; uncounted ones are acknowledged to the
pourer, and counted ones send their decrement, which takes them from the barrier record's BEATS. -/
def Obligations.PoursLand : Prop :=
  (∀ (s : State) (src k off p : Nat) (data : List Byte) (pois : List Bool) (target : Option Word) (ack : Option (Nat × Nat))
      (pump : Option Nat) (by30 : Bool) (rest : List Flight),
    s.flight = .beats src k off data pois target p ack pump by30 :: rest → s.beatsWait k p = false → s.lost k (some p) = false →
    isSvc k = false → (s.core k).ls.cells.wf = true →
    off % 32 = 0 → data.length = 32 * pois.length → off / 512 = (off + data.length - 1) / 512 → off + data.length ≤ 0x20000 →
    s.expiredAt k off = false → 0 < s.retn k →
    ∃ t, exec (.pourBeatLanding k) s = .next t ∧
      (∀ o, o < 0x20000 → t.cellAt k o = if off ≤ o ∧ o < off + data.length then data.getD (o - off) 0 else s.cellAt k o) ∧
      (target = none → t.flight = rest ∧ ∀ src q i, ack = some (src, q) → ((s.core src).slot i).st ≠ .free →
        ((s.core src).slot i).uid.toNat = q →
        ((t.core src).slot i).life.beats = ((s.core src).slot i).life.beats - pois.length) ∧
      (∀ va, target = some va → t.flight = rest ++ [.decr p va pois.length ack (tileOf k) 0 false])) ∧
  (∀ (s v : State) (p n tile tries : Nat) (va : Word) (ack : Option (Nat × Nat)) (rest : List Flight) (pa home : Nat) (d : Dest)
      (b : Bar), s.flight = .decr p va n ack tile tries false :: rest →
    State.xlate { s with flight := rest } p (s.partFirst p) 2 .atomic va.toNat = (.ok pa home d, v) → (d = .home ∨ d = .edge) →
    v.writeDelayed agentKey home (lineOf va.toNat) = false → v.phys.dram.wf = true → b = v.barAt d pa →
    b.valid = true → NoDeparture s p pa →
    ∃ t, exec (.beatDecrement p) s = .next t ∧ t.flight = rest ∧ t.barAt d pa = decremented n b)

/-- R42, R43, R44, R46, R50, R160: a core that runs nothing dispatches the channel that selection gives it: a new activation at the
handler's PC with its frame and its budget, on a service core with the fault CSRs of the context it is to handle, or the ready one, with
the registers of its workspace granule, at its saved PC. Three points are the model's choice: the activation resumes at the PC that its
slot keeps, whatever word 0 of its workspace granule holds (log 11), a new one takes the lowest free slot that it may have (log 18), and
the context that an activation at level F is to handle is the oldest one that none handles (log 92). -/
def Obligations.CoresSelect : Prop :=
  ∀ (s : State) (k ch i : Nat) (pri : Option Nat), s.select k = some (ch, pri) →
    (∀ m rest, (s.core k).readyChan ch = false → (s.core k).slotFor k ch = some i → ((s.core k).chan ch).mode = false →
      ((s.core k).inb ch).q = m :: rest →
      ∃ t, exec (.dispatchNewActivation k) s = .next t ∧ (t.core k).ctl.run = some i ∧
        (t.core k).act.st = .running ∧ (t.core k).act.chan = ch ∧
        (t.core k).act.pc.toNat = ((s.core k).chan ch).hpc.toNat ∧ (t.core k).act.seq = (s.core k).ctl.seq ∧
        (t.core k).act.count = Nat.max 1 ((s.core k).chan ch).budget.toNat * 32 ∧
        (t.core k).act.wsp = ((s.core k).chan ch).wsp ∧
        (t.core k).reg 56 = m.route ∧ (t.core k).reg 57 = BitVec.ofNat 64 m.len ∧
        (t.core k).reg 58 = (if 8 ≤ m.len then m.words.headD 0 else 0) ∧
        (t.core k).reg 59 = BitVec.ofNat 64 ((s.core k).ctl.seq.toNat * 2 ^ 16 + i * 2 ^ 8 + ch) ∧
        (∀ j, j < 56 → (t.core k).reg j = 0) ∧ ((t.core k).inb ch).q = rest ∧ ((t.core k).inb ch).live = some i ∧
        (t.core k).ctl.seq = (s.core k).ctl.seq + 1 ∧ (∀ j, j ≠ i → (t.core k).slot j = (s.core k).slot j) ∧
        (∀ h, s.toHandle k ch = some h → (t.core k).act.life.fcsr.pc = h.frec.pc ∧ (t.core k).act.life.fcsr.addr = h.frec.addr ∧
          (t.core k).act.life.fcsr.info = h.frec.finfo ∧ (t.core k).act.life.fcsr.cause.toNat % 256 = h.frec.code % 256 ∧
          (h.slot < 16 → (t.core k).act.life.fcsr.newt.getLsbD 24 = true)) ∧
        SameData s t ∧ OtherCores s t k) ∧
    ((s.core k).readyChan ch = true → ((s.core k).inb ch).live = some i → isSvc k = false → (s.core k).ctl.lizn = 0 →
      ((s.core k).slot i).image = none → s.expiredAt k ((s.core k).slot i).wspOff = false → (s.core k).ls.ecc = [] →
      s.poisonAt k ((s.core k).slot i).wspOff 512 = false →
      ∃ t, exec (.resumption k) s = .next t ∧ (t.core k).ctl.run = some i ∧ (t.core k).act.st = .running ∧
        (t.core k).act.pc = ((s.core k).slot i).pc ∧ (t.core k).act.sync = ((s.core k).slot i).sync ∧
        (∀ j, 1 ≤ j → j < 60 → (t.core k).reg j =
          BitVec.ofNat 64 (leNat (s.cellsAt k (((s.core k).slot i).wspOff + 8 * j) 8))) ∧
        (∀ j, j ≠ i → (t.core k).slot j = (s.core k).slot j) ∧ SameMemory s t ∧ OtherCores s t k)

/-- R47, R68, R69, R74, R76, R250, R252, R253, R255, R261, R265: at a commit point the entries of the output buffer are released in order:
a message is injected, and where it owes a reply, its destination holds that signal as HOLDER 11; that of a `sendw` stays, marked, until the
message is accepted, and then leaves; a `sendo` moves a unit of its activation's with the message; a `pour` sends its source as beats; a
`sig` adds its count to the event's counter, discharges what its activation owes and makes the waiters Ready that it satisfies; a `join`,
`bara` or `leave` changes its record. -/
def Obligations.EntriesAreReleased : Prop :=
  (∀ (s : State) (k i : Nat) (e : OEntry) (wait : Bool) (route : Word) (len : Nat) (data : List Word), Releasing s k i e →
    e.kind = .send wait route len data →
    (wait = false → e.sent = false → bitOf route.toNat 48 = false →
      ∃ t, exec (.outputBufferRelease k i) s = .next t ∧ (t.core k).ord.ob = (s.core k).ord.ob.erase e ∧
        t.flight = s.flight ++ [.msg (routeCore route.toNat) (sentMsg s k i route len data []) none] ∧
        SameMemory s t ∧ (t.core k).regs = (s.core k).regs) ∧
    (∀ ev, wait = false → e.sent = false → bitOf route.toNat 48 = true →
      s.event ((s.owner k).getD 4096) (bitsOf route.toNat 47 32) = some ev →
      owedBy (s.core (routeCore route.toNat)) holderNet (evObj (bitsOf route.toNat 47 32)) + 1 < 2 ^ 32 →
      ∃ t, exec (.outputBufferRelease k i) s = .next t ∧ (t.core k).ord.ob = (s.core k).ord.ob.erase e ∧
        t.flight = s.flight ++ [.msg (routeCore route.toNat)
          (sentMsg s k i route len data [⟨false, evObj (bitsOf route.toNat 47 32), ev.rank, 0⟩]) none] ∧
        owedBy (t.core (routeCore route.toNat)) holderNet (evObj (bitsOf route.toNat 47 32)) =
          owedBy (s.core (routeCore route.toNat)) holderNet (evObj (bitsOf route.toNat 47 32)) + 1 ∧
        SameData s t ∧ (t.core k).regs = (s.core k).regs) ∧
    (wait = true → e.sent = false → bitOf route.toNat 48 = false →
      ∃ t, exec (.outputBufferRelease k i) s = .next t ∧
        (t.core k).ord.ob.length = (s.core k).ord.ob.length ∧ (t.core k).firstEntry i = some { e with sent := true } ∧
        ((t.core k).slot i).life.sendw = true ∧
        t.flight = s.flight ++ [.msg (routeCore route.toNat) (sentMsg s k i route len data [])
          (some (k, ((s.core k).slot i).uid.toNat))] ∧
        SameMemory s t ∧ (t.core k).regs = (s.core k).regs) ∧
    (e.sent = true → ((s.core k).slot i).life.sendw = true → exec (.outputBufferRelease k i) s = .next s) ∧
    (e.sent = true → ((s.core k).slot i).life.sendw = false →
      ∃ t, exec (.outputBufferRelease k i) s = .next t ∧ (t.core k).ord.ob = (s.core k).ord.ob.erase e ∧
        t.flight = s.flight ∧ SameMemory s t ∧ (t.core k).regs = (s.core k).regs)) ∧
  (∀ (s : State) (k i : Nat) (e : OEntry) (bar : Bool) (route : Word) (len : Nat) (data : List Word) (obj : Word) (o : Obl),
    Releasing s k i e → e.kind = .sendo bar route len data obj → bitOf route.toNat 48 = false →
    (bar = false → obj.toNat < 65536 ∧ (s.core k).oblOf (holderOf i) false obj = some o ∧
      owedBy (s.core (routeCore route.toNat)) holderNet obj + 1 < 2 ^ 32) →
    (bar = true → ((s.core k).owedArrivals (holderOf i) obj).head? = some o) →
    ∃ t, exec (.outputBufferRelease k i) s = .next t ∧ (t.core k).ord.ob = (s.core k).ord.ob.erase e ∧
      t.flight = s.flight ++ [.msg (routeCore route.toNat) (sentMsg s k i route len data [⟨bar, obj, o.rank, o.count⟩]) none] ∧
      (routeCore route.toNat ≠ k → bar = false →
        owedBy (t.core (routeCore route.toNat)) holderNet obj = owedBy (s.core (routeCore route.toNat)) holderNet obj + 1 ∧
        (1 < o.count.toNat → owedBy (t.core k) (holderOf i) obj = owedBy (s.core k) (holderOf i) obj - 1)) ∧
      (bar = true → ∃ x ∈ (t.core (routeCore route.toNat)).owedArrivals holderNet obj, x.count = o.count ∧ x.rank = o.rank) ∧
      SameData s t ∧ (t.core k).regs = (s.core k).regs) ∧
  (∀ (s : State) (k i : Nat) (e : OEntry) (dst src off n : Nat) (target : Option Word), Releasing s k i e →
    e.kind = .pour dst src off n target → s.firstExpired k src (n / 32) = none → (s.core (placeOf k src).1).ls.ecc = [] →
    ∃ t, exec (.outputBufferRelease k i) s = .next t ∧ (t.core k).ord.ob = (s.core k).ord.ob.erase e ∧
      ((t.core k).slot i).life.beats = ((s.core k).slot i).life.beats + n / 32 ∧
      t.flight = s.flight ++ cutBeats k dst target ((s.owner k).getD 4096) (some (k, ((s.core k).slot i).uid.toNat)) none
        (!isSvc k && ((s.core k).slot i).chan == 30) (n / 32 + 1) off (s.cellsAt k src n) (s.poisonMarks k src (n / 32)) ∧
      SameMemory s t ∧ (t.core k).regs = (s.core k).regs) ∧
  (∀ (s : State) (k i : Nat) (e : OEntry) (name : BitVec 16) (n : BitVec 32) (ev : Event) (p : Nat), Releasing s k i e →
    (s.core k).ctl.pair = none → e.kind = .sig name n → ((s.core k).slot i).life.beats = 0 → p = (s.owner k).getD 4096 →
    s.event p name.toNat = some ev →
    ∃ t, exec (.eventSignalAtHome k i name n) s = .next t ∧ (t.core k).ord.ob = (s.core k).ord.ob.erase e ∧
      t.event p name.toNat = some { ev with
        counter := ev.counter + n
        waiters := ev.waiters.filter fun w => !decide ((ev.counter + n - w.2).toNat < 2 ^ 31) } ∧
      (∀ w ∈ ev.waiters, ∀ j l, w.1 = .act j l → (ev.counter + n - w.2).toNat < 2 ^ 31 →
        ((s.core j).slot l).st = .suspended → ((t.core j).slot l).st = .ready) ∧
      (∀ o, (s.core k).oblOf (holderOf i) false (evObj name.toNat) = some o → n.toNat < o.count.toNat →
        (t.core k).oblOf (holderOf i) false (evObj name.toNat) = some { o with count := o.count - n }) ∧ SameData s t) ∧
  (∀ (s v : State) (k i : Nat) (e : OEntry) (op : BarOp) (va : Word) (beats : BitVec 32) (pa home p : Nat) (d : Dest)
      (b : Bar),
    Releasing s k i e → e.kind = barEntry op va beats → s.barHome k i va = .ok (some (pa, home, d, b), v) →
    p = (s.owner k).getD 4096 → NoDeparture s p pa → s.phys.dram.wf = true →
    (op = .join → (s.core k).oblOf (holderOf i) true va = none) →
    (op = .arrive → ∃ o, o ∈ (s.core k).owedArrivals (holderOf i) va) →
    (op = .leave → ∃ o, (s.core k).oblOf (holderOf i) true va = some o ∧ o.arr = false) →
    ∃ t, exec (.barrierOpAtHome op k i va beats) s = .next t ∧ (t.core k).ord.ob = (s.core k).ord.ob.erase e ∧
      t.barAt d pa = completed (match op with
        | .join => { b with expected := b.expected + 1 }
        | .arrive => { b with arrived := b.arrived + 1, beats := b.beats + beats }
        | .leave => { b with expected := b.expected - 1 }))

/-- R50, R332, R329, R333, R336, R51: a watchdog count of 0 raises fault 0x0D before the next instruction; a context that migrates with a
fault of class kill is killed, and its service core has dispatched a firmware activation for it, which has ended (log 35); it does not
migrate while the service core can dispatch none. One that may be replayed is discarded and its message is delivered again, whole, at the
head of its channel. -/
def Obligations.FaultedContexts : Prop :=
  (∀ (s : State) (k : Nat), (s.core k).ctl.run.isSome = true → (s.core k).act.count = 0 → (s.core k).dbg.halted = false →
    s.Quiet k → (s.core k).inLiz = false →
    ∃ t r, exec (.watchdogExpiry k) s = .next t ∧ r.code = 0x0D ∧ r.w5 = (s.core k).act.budget.setWidth 64 ∧
      TakesFault s t k r (s.core k).act.pc (tileOf k)) ∧
  (∀ (s : State) (k i tl : Nat) (h : Held), s.toServe k i = some (tl, h) → isSvc k = false → h.core = k → h.slot = i →
    (s.core k).moved = none → s.heldClass h = 3 → h.frec.page = none → h.frec.code ≠ 0x0F →
    ((s.core k).slot i).chan ≠ 29 → h.act = ((s.core k).slot i).uid → (s.core k).ctl.run ≠ some i →
    (s.core k).ctl.lizn = 0 → ((s.core k).slot i).life.kind ≠ .resume →
    (∀ j, s.firmwareSlot tl = some j →
      ∃ t, exec (.migration k i) s = .next t ∧ ((t.core k).slot i).st = .free ∧
        ((t.core k).inb ((s.core k).slot i).chan).live = none ∧ (t.core k).oblsOf (holderOf i) = [] ∧
        (t.core (svcOf tl)).ctl.seq = (s.core (svcOf tl)).ctl.seq + 1 ∧ (t.core (svcOf tl)).ctl.run = none ∧
        ((t.core (svcOf tl)).slot j).st = .free) ∧
    (s.firmwareSlot tl = none → exec (.migration k i) s = .next s)) ∧
  (∀ (s : State) (k i tl : Nat) (h : Held) (m : Msg), s.toServe k i = some (tl, h) → h.core = k → h.slot = i →
    isSvc k = false → s.heldClass h = 2 → (s.core k).moved = none → ((s.core k).slot i).life.whole = some m →
    (s.core k).ls.cells.wf = true →
    ∃ t, exec (.replay k i) s = .next t ∧ ((t.core k).slot i).st = .free ∧
      (∃ p, p.length = 2 + m.words.length ∧
        ((t.core k).inb ((s.core k).slot i).chan).q = { m with replays := m.replays + 1, place := p } ::
          ((s.core k).inb ((s.core k).slot i).chan).q.map (·.letGo k i h.act)) ∧
      ((t.core k).inb ((s.core k).slot i).chan).live = none ∧ OutsideInbox s t k)

/-- R81, R84, R89: a tick of the fade clock lets each newt's sweep visit one granule, which is marked expired once its life is over (an
inbox granule may be renewed before the sweep sees it, R35); the clock's reaching the EXPIRY of a live granule makes it read as expired. -/
def Obligations.ClockTicks : Prop :=
  (∀ s : State, ∃ t, exec .fadeTick s = .next t ∧ t.swept = s.swept + 1 ∧ s.swept + 1 ≤ t.cycle / 4096 ∧ s.cycle ≤ t.cycle ∧
    ∀ k c, (k, c) ∈ s.cores → isSvc k = false → (s.swept + 1) % 256 < 240 →
      ((s.core k).ls.tag ((s.swept + 1) % 256)).z = false →
      ((s.swept + 1) % 4096 + 4096 - ((s.core k).ls.tag ((s.swept + 1) % 256)).expiry.toNat) % 4096 < 2048 →
      ((t.core k).ls.tag ((s.swept + 1) % 256)).x = true) ∧
  (∀ (s : State) (k g : Nat), g < 256 → isSvc k = false → s.expiredAt k (512 * g) = false → (s.tagAt k (512 * g)).z = false →
    ∃ t, exec (.granuleExpiry k g) s = .next t ∧ t.expiredAt k (512 * g) = true ∧ t.cycle % 4096 = 0 ∧
      t.cores = s.cores ∧ t.phys = s.phys)

/-- R283, R284, R287, R288: a home that nobody else holds, and whose signature has not been lost (R392), is granted to the first ended
chunk; a chunk that holds all its homes performs its stores; a write signature that meets a running chunk's reads squashes it, back to its
first instruction with its registers, and one that meets none changes nothing; a write of an agent outside the chunk order is performed at
its home. -/
def Obligations.ChunksCommit : Prop :=
  (∀ (s : State) (k h : Nat) (hs : List Nat) (e : Ended) (rest : List Ended), (s.core k).ord.ended = e :: rest →
    e.todo = h :: hs → s.missed k e.c = false → s.ungranted k h = false →
    ∃ t, exec (.chunkAcquire k) s = .next t ∧
      (t.core k).ord.ended = { e with todo := hs, held := e.held ++ [h] } :: rest ∧
      (t.core k).regs = (s.core k).regs ∧ (t.core k).slots = (s.core k).slots ∧ SameMemory s t ∧
      ∀ j, j ≠ k → t.core j = s.core j) ∧
  (∀ (s : State) (k : Nat) (e : Ended) (rest : List Ended) (x : Store), (s.core k).ord.ended = e :: rest → e.todo = [] →
    s.missed k e.c = false → ((s.core k).ord.sb.filter fun y => y.chunk == e.c.id) = [x] → x.stale = false →
    s.refusedStore k (s.chunkLevel k e.c) x = false →
    (x.dest = .home →
      ∃ t, exec (.chunkPerform k) s = .next t ∧ (t.core k).ord.ended = rest ∧
        (t.core k).ord.sb = (s.core k).ord.sb.filter (fun y => y.chunk != e.c.id) ∧
        (∀ pa, t.phys.byte pa = if x.pa ≤ pa ∧ pa < x.pa + x.data.length then x.data.getD (pa - x.pa) 0 else s.phys.byte pa) ∧
        ((t.core k).slot e.c.slot).life.side = true ∧ ∀ j o, (isSvc j = true → 0x40000 ≤ o) → t.cellAt j o = s.cellAt j o) ∧
    (x.dest = .loc → isSvc k = false → (s.core k).ls.cells.wf = true → x.data ≠ [] →
      x.va.toNat / 512 = (x.va.toNat + x.data.length - 1) / 512 → x.va.toNat + x.data.length ≤ 0x20000 →
      ∃ t, exec (.chunkPerform k) s = .next t ∧ (t.core k).ord.ended = rest ∧
        (∀ o, o < 0x20000 → (s.tagAt k x.va.toNat).x = false → t.cellAt k o =
          if x.va.toNat ≤ o ∧ o < x.va.toNat + x.data.length then x.data.getD (o - x.va.toNat) 0 else s.cellAt k o) ∧
        (∀ pa, t.phys.byte pa = s.phys.byte pa) ∧ (t.core k).regs = (s.core k).regs)) ∧
  (∀ (s : State) (k : Nat) (g : BitVec 512), (s.core k).ctl.run.isSome = true → (s.core k).ord.ended = [] →
    (sigMeets g (sigOf (linesOf (s.core k).ord.chunk.rd)) = true →
      (s.core k).ord.chunk.slot = (s.core k).runSlot →
      ∃ t, exec (.writeSignatureArrival k g) s = .next t ∧ (t.core k).act.pc = (s.core k).ord.chunk.pc ∧
        (t.core k).regs = (s.core k).ord.chunk.regs ∧ (t.core k).vec.v = (s.core k).ord.chunk.v ∧
        (t.core k).ord.chunk.rd = [] ∧ (t.core k).ord.chunk.squashes = (s.core k).ord.chunk.squashes + 1 ∧ SameData s t) ∧
    (sigMeets g (sigOf (linesOf (s.core k).ord.chunk.rd)) = false →
      sigMeets g (sigOf (linesOf (s.core k).ord.chunk.wr)) = false →
      ∃ t, exec (.writeSignatureArrival k g) s = .next t ∧ t.core k = s.core k ∧ OtherCores s t k ∧ t.phys = s.phys ∧
        t.events = s.events)) ∧
  (∀ (s v : State) (p : Nat) (va : Word) (data : List Byte) (pa home : Nat), p < 4096 → data ≠ [] →
    va.toNat % 256 + data.length ≤ 256 → s.late = [] →
    s.xlate p (s.partFirst p) 1 .store va.toNat = (.ok pa home .home, v) → v.writeDelayed agentKey home (lineOf va.toNat) = false →
    ∃ t, exec (.externalAgentWrite p va data) s = .next t ∧
      (∀ x, t.phys.byte x = if pa ≤ x ∧ x < pa + data.length then data.getD (x - pa) 0 else s.phys.byte x) ∧
      ∀ j o, (isSvc j = true → 0x40000 ≤ o) → t.cellAt j o = s.cellAt j o)

/-- R206, R229, R230, R232, R233, R235, R200: the operation at the head of the matrix queue starts once its operands are there; it
completes with its result in its accumulator or in local store, consumes the ring slots it read and signals its event. A join starts in
every member together. That operands and ring slots are read as they stand at the completion step (log 58), and that the members of a join
start and complete in one step each (log 59), is the model's choice. -/
def Obligations.MatrixSteps : Prop :=
  (∀ (s : State) (k : Nat) (o : MOp) (rest : List MOp), (s.core k).eng.mq = o :: rest → o.started = false →
    s.frozen k = false → (s.core k).mReady o = true →
    ∃ t, exec (.matrixOpStart k) s = .next t ∧ (t.core k).eng.mq =
        { o with started := true, pre := Table.get 0 (s.core k).vec.a o.kind.dest } :: rest ∧
      (t.core k).vec = (s.core k).vec ∧ SameMemory s t ∧ ∀ j, j ≠ k → t.core j = s.core j) ∧
  (∀ (s : State) (k n : Nat), (s.core k).joinNumber = some n → s.gangBroken k n = false → s.gangJoined k n = true →
    (∀ m ∈ s.gangOf k, ((s.core m).waitingGang n).bind (·.gfmt) =
      ((s.core ((s.gangOf k).headD k)).waitingGang n).bind (·.gfmt)) →
    ∃ t, exec (.gmmaJoinStart k) s = .next t ∧
      (∀ m ∈ s.gangOf k, ((t.core m).runningGang n).isSome = true ∧ (t.core m).vec = (s.core m).vec) ∧ SameMemory s t) ∧
  (∀ (s : State) (k : Nat) (o : MOp) (rest : List MOp), (s.core k).eng.mq = o :: rest → o.started = true →
    (∀ a, o.kind = .mzero a →
      ∃ t, exec (.matrixOpComplete k) s = .next t ∧ (t.core k).eng.mq = rest ∧ Signalled s t (s.partId k) o.ev ∧
        Table.get 0 (t.core k).vec.a a = 0 ∧ SameData s t) ∧
    (∀ a f, o.kind = .mscale a f →
      ∃ t, exec (.matrixOpComplete k) s = .next t ∧ (t.core k).eng.mq = rest ∧ Signalled s t (s.partId k) o.ev ∧
        (∀ e, e < 64 → accElem (Table.get 0 (t.core k).vec.a a) e =
          roundTo fF32 .rne false ((fF32.decode (accElem (Table.get 0 (s.core k).vec.a a) e)).mul (fF32.decode f.toNat))
            % 2 ^ 32) ∧ SameData s t) ∧
    (∀ fmt a hb hc, o.kind = .mma fmt a hb hc → hb ≠ hc → (s.core k).ls.ecc = [] → isSvc k = false →
      (s.core k).tailOff hb + usedBytes fmt ≤ 0x20000 → (s.core k).tailOff hc + usedBytes fmt ≤ 0x20000 →
      s.badSector k ((s.core k).tailOff hb) (usedBytes fmt / 32) = none →
      s.badSector k ((s.core k).tailOff hc) (usedBytes fmt / 32) = none →
      1 ≤ ((s.core k).ring hb).filled.toNat → 1 ≤ ((s.core k).ring hc).filled.toNat →
      ∃ t, exec (.matrixOpComplete k) s = .next t ∧ (t.core k).eng.mq = rest ∧ Signalled s t (s.partId k) o.ev ∧
        (∀ e, e < 64 → accElem (Table.get 0 (t.core k).vec.a a) e = accumulated fmt
          (leNat (s.cellsAt k ((s.core k).tailOff hb) (usedBytes fmt)))
          (leNat (s.cellsAt k ((s.core k).tailOff hc) (usedBytes fmt))) o.pre e) ∧
        (∀ h, h = hb ∨ h = hc → ((t.core k).ring h).filled = ((s.core k).ring h).filled - 1 ∧
          ((t.core k).ring h).tail = BitVec.ofNat 6
            ((((s.core k).ring h).tail.toNat + 1) % ((s.core k).ring h).count.toNat)) ∧ SameData s t) ∧
    (∀ a off, o.kind = .mst a off → isSvc k = false → (s.core k).ls.cells.wf = true → s.expiredAt k off = false →
      off + (imageOf (Table.get 0 o.bfmt (off / 0x4000)) (Table.get 0 (s.core k).vec.a a)).length ≤ 0x20000 →
      off / 512 = (off + (imageOf (Table.get 0 o.bfmt (off / 0x4000)) (Table.get 0 (s.core k).vec.a a)).length - 1) / 512 →
      ∃ t, exec (.matrixOpComplete k) s = .next t ∧ (t.core k).eng.mq = rest ∧ Signalled s t (s.partId k) o.ev ∧
        (∀ x, x < 0x20000 → t.cellAt k x =
          if off ≤ x ∧ x < off + (imageOf (Table.get 0 o.bfmt (off / 0x4000)) (Table.get 0 (s.core k).vec.a a)).length
          then (imageOf (Table.get 0 o.bfmt (off / 0x4000)) (Table.get 0 (s.core k).vec.a a)).getD (x - off) 0
          else s.cellAt k x) ∧ (t.core k).vec.a = (s.core k).vec.a) ∧
    (∀ a off code, o.kind = .mld a off → code = fmtOf (Table.get 0 o.bfmt (off / 0x4000)) → (s.core k).ls.ecc = [] →
      isSvc k = false → off + imageSize code ≤ 0x20000 → s.badSector k off ((imageSize code + 31) / 32) = none →
      ∃ t, exec (.matrixOpComplete k) s = .next t ∧ (t.core k).eng.mq = rest ∧ Signalled s t (s.partId k) o.ev ∧
        Table.get 0 (t.core k).vec.a a = accOfImage code (leNat (s.cellsAt k off (imageSize code))) ∧ SameData s t))

/-- R236, R237, R238, R239: the pump starts its next chain at entry 0, reads the entry it reaches, copies a sector or a granule at a time,
turns back and adds the strides at a LOOP, tests an event at a COND, signals at a SIG, and at the END signals the chain's event. -/
def Obligations.PumpSteps : Prop :=
  ∀ (s : State) (k : Nat) (o : COp) (rest : List COp) (p : Pump), (s.core k).eng.pq = o :: rest → s.frozen k = false →
    p = (s.core k).eng.pump →
    (o.started = false → o.from_ = none →
      ∃ t, exec (.pumpChainEntry k) s = .next t ∧ (t.core k).eng.pq = { o with started := true } :: rest ∧
        (t.core k).eng.pump.state = 1 ∧ (t.core k).eng.pump.head = o.head ∧ (t.core k).eng.pump.idx = 0 ∧
        (t.core k).eng.pump.soff = 0 ∧ (t.core k).eng.pump.doff = 0 ∧ SameMemory s t) ∧
    (o.started = true → p.ent = [] → isSvc k = false → pumpDenied k o.lvl (p.head + 32 * p.idx) 32 = false →
      (s.core k).pumpWaits k (some (p.head + 32 * p.idx, 32)) none = false →
      (s.core k).ls.ecc = [] → s.badSector k (p.head + 32 * p.idx) 1 = none →
      ∀ ws, ws = ((List.range 4).map fun i => BitVec.ofNat 64 (leNat (s.cellsAt k (p.head + 32 * p.idx + 8 * i) 8))) →
      (entryOf (ws.getD 0 0) (ws.getD 1 0) (ws.getD 2 0) (ws.getD 3 0)).isSome = true →
      (∀ n c d x a b, entryOf (ws.getD 0 0) (ws.getD 1 0) (ws.getD 2 0) (ws.getD 3 0) = some (.copy n c d x a b) →
        s.copyBad k o n c d x a b = none) →
      ∃ t, exec (.pumpChainEntry k) s = .next t ∧ (t.core k).eng.pump.ent = ws ∧ (t.core k).eng.pump.idx = p.idx ∧
        (t.core k).eng.pq = o :: rest ∧ SameMemory s t) ∧
    (∀ len src dst, o.started = true → p.ent ≠ [] → p.entry = some (.copy len false 0 0 src dst) → isSvc k = false →
      (s.core k).pumpBlocked k = false → (s.core k).ls.ecc = [] → (s.core k).ls.cells.wf = true →
      p.done < len → len % 32 = 0 → p.done % 32 = 0 →
      (dst + p.doff).toNat + len ≤ 0x20000 → (src + p.soff).toNat + len ≤ 0x20000 →
      (dst + p.doff).toNat % 32 = 0 → (src + p.soff).toNat % 32 = 0 →
      ∀ n, n = (if ((dst + p.doff).toNat + p.done) % 512 = 0 ∧ 512 ≤ len - p.done then 512 else 32) →
      s.badSector k ((src + p.soff).toNat + p.done) (n / 32) = none →
      s.expiredAt k ((dst + p.doff).toNat + p.done) = false →
      ∃ t, exec (.pumpChainEntry k) s = .next t ∧
        (∀ x, x < 0x20000 → t.cellAt k x =
          if (dst + p.doff).toNat + p.done ≤ x ∧ x < (dst + p.doff).toNat + p.done + n
          then s.cellAt k ((src + p.soff).toNat + p.done + (x - ((dst + p.doff).toNat + p.done))) else s.cellAt k x) ∧
        (p.done + n < len → (t.core k).eng.pump.done = p.done + n ∧ (t.core k).eng.pump.idx = p.idx) ∧
        (len = p.done + n → (t.core k).eng.pump.done = 0 ∧ (t.core k).eng.pump.idx = p.idx + 1)) ∧
    (∀ count back sstr dstr, o.started = true → p.ent ≠ [] → p.entry = some (.loop count back sstr dstr) → back ≤ p.idx →
      (has p.cnt p.idx = true ∨ p.cnt.length < 4) →
      ∃ t, exec (.pumpChainEntry k) s = .next t ∧
        (1 < (find p.cnt p.idx).getD count → (t.core k).eng.pump.idx = p.idx - back ∧
          (t.core k).eng.pump.soff = p.soff + sstr ∧ (t.core k).eng.pump.doff = p.doff + dstr ∧
          find (t.core k).eng.pump.cnt p.idx = some ((find p.cnt p.idx).getD count - 1)) ∧
        ((find p.cnt p.idx).getD count ≤ 1 → (t.core k).eng.pump.idx = p.idx + 1 ∧
          (t.core k).eng.pump.soff = p.soff - sstr * BitVec.ofNat 64 (count - 1) ∧
          (t.core k).eng.pump.doff = p.doff - dstr * BitVec.ofNat 64 (count - 1) ∧
          find (t.core k).eng.pump.cnt p.idx = none) ∧ SameMemory s t) ∧
    (∀ v ev skip e, o.started = true → p.ent ≠ [] → p.entry = some (.cond v ev skip) →
      s.event (s.partId k) ev = some e →
      ∃ t, exec (.pumpChainEntry k) s = .next t ∧ (t.core k).eng.pump.idx =
        (if (e.counter.toNat + 2 ^ 32 - v.toNat) % 2 ^ 32 < 2 ^ 31 then p.idx + 1 else p.idx + 1 + skip) ∧
        t.events = s.events ∧ SameMemory s t) ∧
    (∀ n ev e, o.started = true → p.ent ≠ [] → p.remote = 0 → p.entry = some (.sig n ev) →
      s.event (s.partId k) ev = some e →
      ∃ t e', exec (.pumpChainSig k) s = .next t ∧ t.event (s.partId k) ev = some e' ∧
        e'.counter = e.counter + BitVec.ofNat 32 n ∧ e'.poison = e.poison ∧ (t.core k).eng.pump.idx = p.idx + 1 ∧
        (t.core k).eng.pq = o :: rest ∧ SameData s t) ∧
    (o.started = true → p.ent ≠ [] → p.remote = 0 → p.paid = false → p.entry = some .fin →
      ∃ t, exec (.pumpChainEnd k) s = .next t ∧ (t.core k).eng.pq = rest ∧ (t.core k).eng.pump.state = 0 ∧
        Signalled s t (s.partId k) o.ev ∧ SameData s t)

/-- R346 to R350, R352 to R354, R94: a partition none of whose newts runs enters STATE 2, and its newts take an evict notice; STATE 3
comes when the evict handlers have gone or their time is over, when those still live take fault 0x0D and are killed, and notices that
none has been dispatched on are dropped (DESIGN CHOICE, log 113); under HOLD the save leaves every waiting activation Saved in place, and
under SWAP the tiles are cleared and released; at the resume the newts take a resume notice, and STATE is 0 again when all of them are
through. Every change of STATE raises the pre-emption vector. -/
def Obligations.PreemptionGoesOn : Prop :=
  (∀ (s : State) (p : Nat), (s.part p).pre.state = 1 → (∀ k ∈ s.newtsOfPart p, (s.core k).ctl.run = none) →
    ∃ t, exec (.evictPhase p) s = .next t ∧ (t.part p).pre.state = 2 ∧ (t.part p).pre.tick = s.fade ∧
      (t.part p).pre.began = s.cycle ∧ RaisedPre s t p ∧
      ∀ k ∈ s.newtsOfPart p, (((s.core k).chan 30).valid = true → ((s.core k).ctl.pair = none ∨ (s.core k).ctl.leader = true) →
          NoticeIn (t.core k) .evict) ∧
        (((s.core k).chan 30).valid = false → ((t.core k).inb 30).q = ((s.core k).inb 30).q)) ∧
  (∀ (s : State) (p : Nat), (s.part p).pre.state = 2 →
    (∀ k ∈ s.newtsOfPart p, (s.core k).evictors = []) →
    ((if (s.part p).pre.evlim = 0 then 1 else (s.part p).pre.evlim.toNat) * 4096 + (s.part p).pre.began ≤ s.cycle →
      ∃ t, exec (.evlimExpiry p) s = .next t ∧ (t.part p).pre.state = 3 ∧ RaisedPre s t p ∧
        (∀ k ∈ s.newtsOfPart p, ¬NoticeIn (t.core k) .evict) ∧ SameData s t) ∧
    ((∀ k ∈ s.newtsOfPart p, (s.core k).evictQueued = false) →
      ∃ t, exec (.savePhase p) s = .next t ∧ (t.part p).pre.state = 3 ∧ RaisedPre s t p ∧ SameMemory s t ∧
        ∀ k, (t.core k).slots = (s.core k).slots ∧ (t.core k).regs = (s.core k).regs)) ∧
  (∀ (s : State) (p : Nat), (s.part p).pre.state = 2 →
    (if (s.part p).pre.evlim = 0 then 1 else (s.part p).pre.evlim.toNat) * 4096 + (s.part p).pre.began ≤ s.cycle →
    (∀ k ∈ s.newtsOfPart p, (s.core k).ctl.run = none ∧ (s.core k).ctl.lizn = 0) →
    ∃ t, exec (.evlimExpiry p) s = .next t ∧ (t.part p).pre.state = 3 ∧ RaisedPre s t p ∧
      ∀ k ∈ s.newtsOfPart p, ¬NoticeIn (t.core k) .evict ∧ ∀ i ∈ (s.core k).evictors,
        ((t.core k).slot i).st = .free ∧ ∃ f ∈ t.host.faults, f.part = p ∧ f.tile = tileOf k ∧
          bitsOf (f.words.headD 0).toNat 7 0 = 0x0D) ∧
  (∀ (s : State) (p : Nat), (s.part p).pre.state = 3 →
    (∀ k ∈ s.newtsOfPart p, (s.core k).eng.mq.any MOp.mustFinish = false) →
    ((s.part p).pre.mode = false →
      ∃ t, exec (.saveComplete p) s = .next t ∧ (t.part p).pre.state = 4 ∧ RaisedSaved s t p ∧ SameMemory s t ∧
        ∀ k ∈ s.newtsOfPart p, (t.core k).regs = (s.core k).regs ∧ ∀ i, (t.core k).slot i =
          if ((s.core k).slot i).st = .suspended ∨ ((s.core k).slot i).st = .ready then { (s.core k).slot i with st := .saved }
          else (s.core k).slot i) ∧
    ((s.part p).pre.mode = true →
      ∃ t, exec (.saveComplete p) s = .next t ∧ (t.part p).pre.state = 4 ∧ RaisedSaved s t p ∧ (t.part p).pre.given = false ∧
        ∀ i, i < s.partTiles p → (t.tile (s.partFirst p + i)).owner = none ∧ TileCleared s t (s.partFirst p + i))) ∧
  (∀ (s : State) (p : Nat), (s.part p).pre.state = 5 →
    ∃ t, exec (.resumeNoticePhase p) s = .next t ∧ (t.part p).pre.state = 6 ∧ RaisedPre s t p ∧
      ∀ k ∈ s.newtsOfPart p, ((s.core k).ctl.pair = none ∨ (s.core k).ctl.leader = true) →
        (((s.core k).chan 30).valid = true → (t.core k).ctl.resuming = true ∧ NoticeIn (t.core k) .resume) ∧
        (((s.core k).chan 30).valid = false → (t.core k).ctl.resuming = false)) ∧
  (∀ (s : State) (p : Nat), (s.part p).pre.state = 6 → (∀ k ∈ s.newtsOfPart p, (s.core k).ctl.resuming = false) →
    ∃ t, exec (.resumeComplete p) s = .next t ∧ (t.part p).pre.state = 0 ∧ RaisedPre s t p ∧ t.cores = s.cores ∧
      t.phys = s.phys)

/-- R370 to R372, R376, R385, R387, R388, R341, R363: a tail write sets the tail, and the doorbell covers the entries that no earlier one
covers; a queue with more entries pending than its ring holds stops. The entry at the head is read and starts, waits on its event, or is
rejected with status 4; where its read fails the queue stops and its vector is raised. That the stall period and the placement deadline
count from the read of the entry is the model's reading (log 69). A command that has ended has its status written, its event signalled and
the head moved on. A command that makes no progress in its period sets its partition's pre-empt pending; one that the save does not end in
time is killed; a LAUNCH or a CREATE past its deadline ends with status 3. -/
def Obligations.QueuesAreServed : Prop :=
  (∀ (s : State) (p q : Nat) (v : BitVec 16), s.hostUp = true → p < 4096 → q < 64 → has s.parts p = true →
    ∃ t, exec (.qtailDoorbell p q v) s = .next t ∧ (t.queue p q).tail = v ∧ (t.queue p q).head = (s.queue p q).head ∧
      (t.queue p q).base = (s.queue p q).base ∧ (t.queue p q).cmd = (s.queue p q).cmd ∧
      (∀ taken, taken = (if (s.queue p q).phase = 0 then 0 else 1) →
        (taken < (v - (s.queue p q).head).toNat →
          (∀ b ∈ (s.queue p q).bells, (b.1 - (s.queue p q).head).toNat < (v - (s.queue p q).head).toNat) →
          (t.queue p q).bells = (s.queue p q).bells ++ [(v, s.cycle)]) ∧
        ((v - (s.queue p q).head).toNat ≤ taken → (t.queue p q).bells = [])) ∧
      ((t.queue p q).stop = true ↔ 4 ≤ (s.queue p q).size.toNat ∧ (s.queue p q).size.toNat ≤ 12 ∧
        2 ^ (s.queue p q).size.toNat < (v - (s.queue p q).head).toNat) ∧
      (∀ r, r ≠ q → t.queue p r = s.queue p r) ∧ t.cores = s.cores ∧ t.phys = s.phys) ∧
  (∀ (s v : State) (p q : Nat) (bs : List Byte) (ws : List Word), p < 4096 → s.mayRead p q = true →
    s.fwRead p ((s.queue p q).base.toNat + 64 * ((s.queue p q).head.toNat % 2 ^ (s.queue p q).size.toNat)) 64 = .ok bs v →
    ws = (List.range 8).map (fun i => BitVec.ofNat 64 (leNat ((bs.drop (8 * i)).take 8))) →
    (v.malformed p (v.queue p q) ws = true →
      ∃ t, exec (.commandEntryRead p q) s = .next t ∧ (t.queue p q).cmd = some ws ∧ (t.queue p q).phase = 4 ∧
        (t.queue p q).status = 4 ∧ (t.queue p q).head = (s.queue p q).head ∧ t.events = s.events) ∧
    (v.malformed p (v.queue p q) ws = false → bitOf (ws.getD 0 0).toNat 8 = false →
      ∃ t, exec (.commandEntryRead p q) s = .next t ∧ (t.queue p q).cmd = some ws ∧ (t.queue p q).phase = 2 ∧
        (t.queue p q).poisoned = false ∧ (t.queue p q).ncmd = (s.queue p q).ncmd + 1 ∧ (t.queue p q).began = s.cycle) ∧
    (∀ e, v.malformed p (v.queue p q) ws = false → bitOf (ws.getD 0 0).toNat 8 = true →
      bitsOf (ws.getD 1 0).toNat 15 0 < 0xFF00 → s.event p (bitsOf (ws.getD 1 0).toNat 15 0) = some e →
      ∃ t, exec (.commandEntryRead p q) s = .next t ∧ (t.queue p q).cmd = some ws ∧
        (if (e.counter.toNat + 2 ^ 32 - bitsOf (ws.getD 1 0).toNat 63 32) % 2 ^ 32 < 2 ^ 31
         then (t.queue p q).phase = 2 ∧ (t.queue p q).poisoned = e.poison
         else (t.queue p q).phase = 1 ∧ t.event p (bitsOf (ws.getD 1 0).toNat 15 0) = some { e with
           waiters := e.waiters ++ [(.queue q, BitVec.ofNat 32 (bitsOf (ws.getD 1 0).toNat 63 32))] }))) ∧
  (∀ (s v : State) (p q : Nat), p < 4096 → s.mayRead p q = true →
    s.fwRead p ((s.queue p q).base.toNat + 64 * ((s.queue p q).head.toNat % 2 ^ (s.queue p q).size.toNat)) 64 = .bad v →
    ∃ t, exec (.commandEntryRead p q) s = .next t ∧ (t.queue p q).stop = true ∧ (t.queue p q).phase = 0 ∧
      (t.queue p q).head = (s.queue p q).head ∧ t.events = s.events ∧
      t.host.msix = s.host.msix ++ [(p + 1, (s.queue p q).vec.toNat, s.host.owner)]) ∧
  (∀ (s v : State) (p q st pa home va : Nat) (ws : List Word), p < 4096 → (s.queue p q).cmd = some ws →
    (s.queue p q).phase = 4 → st = (s.queue p q).status → st ≠ 6 → s.serving p = true → opOf ws ≠ 0x42 → opOf ws ≠ 0x43 →
    va = (s.queue p q).base.toNat + 64 * ((s.queue p q).head.toNat % 2 ^ (s.queue p q).size.toNat) + 56 → va % 256 ≤ 248 →
    s.late = [] → s.xlate p (s.partFirst p) 1 .store va = (.ok pa home .home, v) →
    v.writeDelayed agentKey home (lineOf va) = false → (s.ct p).qos = [] →
    ∃ t, exec (.commandComplete p q) s = .next t ∧ HomeHolds s t pa (leBytes 8 st) ∧
      (t.queue p q).head = (s.queue p q).head + 1 ∧ (t.queue p q).cmd = none ∧ (t.queue p q).phase = 0 ∧
      (Table.get {} (t.part p).wd q).prog = (Table.get {} (s.part p).wd q).prog + 1 ∧
      (bitsOf (ws.getD 0 0).toNat 31 16 ≠ 0xFFFF → st ≠ 4 →
        Counted s t p (bitsOf (ws.getD 0 0).toNat 31 16) (decide (st ≠ 0))) ∧
      t.host.msix = s.host.msix ++
        (if bitOf (ws.getD 0 0).toNat 9 then [(p + 1, (s.queue p q).vec.toNat, s.host.owner)] else [])) ∧
  (∀ (s : State) (p q : Nat) (w : QWd), p < 4096 → w = Table.get {} (s.part p).wd q → (s.queue p q).phase ≠ 0 →
    (w.period ≠ 0 → w.stage = 0 → w.since + w.period.toNat * 65536 ≤ s.cycle →
      ∃ t, exec (.queueStallExpiry p q) s = .next t ∧ (Table.get {} (t.part p).wd q).stage = 1 ∧
        (Table.get {} (t.part p).wd q).since = s.cycle ∧
        (t.part p).pre.state = (if (s.part p).pre.state = 0 then 1 else (s.part p).pre.state) ∧
        t.cores = s.cores ∧ t.phys = s.phys) ∧
    (w.stage = 1 → w.since + (if w.ptmo = 0 then 1 else w.ptmo.toNat) * 4096 ≤ s.cycle → (s.queue p q).cmd.isSome = true →
      s.taggedContexts p q = [] → (∀ k, (s.core k).moved = none) → (s.part p).saved = [] →
      ∃ t, exec (.preemptTimeout p q) s = .next t ∧ (t.queue p q).cmd = none ∧ (t.queue p q).phase = 0 ∧
        (t.queue p q).head = (s.queue p q).head + 1 ∧ (Table.get {} (t.part p).wd q).stage = 3 ∧
        (Table.get {} (t.part p).wd q).killed = true)) ∧
  (∀ (s : State) (p q : Nat) (ws : List Word), (s.queue p q).cmd = some ws → (s.queue p q).phase = 2 →
    (s.queue p q).poisoned = false → (opOf ws = 0x01 ∨ (opOf ws = 0x40 ∧ ws.getD 2 0 = 0)) →
    bitsOf (ws.getD 1 0).toNat 31 16 ≠ 0 →
    (s.queue p q).began + bitsOf (ws.getD 1 0).toNat 31 16 * 1700 ≤ s.cycle →
    ∃ t, exec (.placementDeadline p q) s = .next t ∧ (t.queue p q).phase = 4 ∧ (t.queue p q).status = 3 ∧
      (t.queue p q).cmd = some ws ∧ t.events = s.events ∧ t.phys = s.phys)

/-- R371, R372, R386, R308, R277, R25: a LAUNCH whose checks pass loads the newts it names and sends each its launch message, with the
queue's command in its tag, and one whose tokens do not fit ends with status 5; a COPY copies 32 bytes at a time from home to home; a MARK
has nothing to do. What an image says is opaque (log 41). -/
def Obligations.CommandsRun : Prop :=
  (∀ (s v : State) (p q : Nat) (ws : List Word) (im : Config.LaunchImage), QueueHas s p q 0x01 2 ws →
    s.launchRange p ws = true → (s.begin_ p q ws).readImage p (ws.getD 2 0).toNat = .ok im v →
    ((launchTiles (s.partFirst p) ws).all ((v.launchBoundary p).tokensFit ws im.tokens) = true → v.eventsFit p im.events = true →
      chansFit im.chans = true →
      ∃ t, exec (.launch p q) s = .next t ∧ (t.queue p q).phase = 3 ∧
        t.flight = s.flight ++ ((launchTiles (s.partFirst p) ws).flatMap (launchNewts ws)).map (fun k =>
          .msg k (launchMsg (svcOf (s.partFirst p)) k ws ⟨p, q, (s.queue p q).ncmd⟩) none) ∧
        (∀ x ∈ im.events, x.1 < 0xFFFF → find im.events x.1 = some x.2 → ∃ e, t.event p x.1 = some e ∧ e.rank = x.2) ∧
        (∀ k ∈ (launchTiles (s.partFirst p) ws).flatMap (launchNewts ws), (t.core k).ctl.draw = im.tokens ∧
          (t.core k).ctl.seq = 0) ∧ ∀ tl ∈ launchTiles (s.partFirst p) ws, (t.tile tl).ro = []) ∧
    ((launchTiles (s.partFirst p) ws).all ((v.launchBoundary p).tokensFit ws im.tokens) = false ∨ v.eventsFit p im.events = false ∨
        chansFit im.chans = false →
      ∃ t, exec (.launch p q) s = .next t ∧ (t.queue p q).phase = 4 ∧ (t.queue p q).status = 5 ∧ t.flight = s.flight)) ∧
  (∀ (s u v : State) (p q n pa home : Nat) (ws : List Word) (bs : List Byte), QueueHas s p q 0x02 3 ws →
    n = (s.queue p q).done → n < (ws.getD 4 0).toNat →
    s.fwRead p ((ws.getD 2 0).toNat + n) 32 = .ok bs u →
    u.xlate p (s.partFirst p) 1 .store ((ws.getD 3 0).toNat + n) = (.ok pa home .home, v) →
    v.writeDelayed agentKey home (lineOf ((ws.getD 3 0).toNat + n)) = false →
    ∃ t, exec (.copy p q) s = .next t ∧ HomeHolds s t pa bs ∧ (t.queue p q).done = n + 32 ∧ (t.queue p q).phase = 3) ∧
  (∀ (s : State) (p q : Nat) (ws : List Word), QueueHas s p q 0x03 2 ws →
    ∃ t, exec (.mark p q) s = .next t ∧ (t.queue p q).phase = 3 ∧ (t.queue p q).cmd = some ws ∧ t.events = s.events ∧
      SameData s t)

/-- R94, R345, R353, R361, R362, R371, R373, R378, R107, R357: CREATE places a partition on a node, with its tiles cleared and its own;
DESTROY releases them, and its frames, zeroed, where a SWAP has not released them before, in every STATE; GROW and SHRINK hold the
partition, then take the sibling or release a half, and resume; PREEMPT sets pre-empt pending; RESUME begins the resume; GRANT gives
zeroed frames; CONFIG writes the configuration registers; REPLAY resumes the parked contexts of its records, or waits while the partition
is saved. The model's choices are the argument words of CREATE and SHRINK, the lowest free frames and a frame's ownership from the GRANT
on, DESTROY in every STATE (log 43), and that the lines of a cleared tile's cistern are written back (log 117). -/
def Obligations.AdministrationActs : Prop :=
  (∀ (s : State) (ws : List Word) (p n : Nat), AdminHas s 0x40 2 ws → p = (ws.getD 5 0).toNat → p < 4096 →
    has s.parts p = false → s.placeNode ws = some n →
    ∃ t, exec .create s = .next t ∧ t.host.admin.phase = 3 ∧ (t.part p).node = n ∧
      (t.part p).conf = bitOf (ws.getD 3 0).toNat 0 ∧ find t.nodes n = some (.owned p) ∧
      (∀ q, q < 64 → (t.queue p q).copy = bitOf (ws.getD 4 0).toNat q) ∧
      (∀ i, i < nodeTiles n → (t.tile (nodeFirst n + i)).owner = some p ∧ TileCleared s t (nodeFirst n + i)) ∧
      (CisOnce s → s.phys.dram.wf = true → ∀ pa, t.phys.byte pa = flushed s (tilesOfNode n) pa) ∧ t.phys.owner = s.phys.owner ∧
      (if bitOf (ws.getD 3 0).toNat 0 then has t.phys.keys p = true else t.phys.keys = s.phys.keys)) ∧
  (∀ (s : State) (ws : List Word) (p : Nat), AdminHas s 0x41 2 ws → p = (ws.getD 2 0).toNat → has s.parts p = true →
    (s.part p).pre.given = true → (s.part p).tel.base = 0 → s.contextsOf p = [] →
    (∀ k, (s.core k).moved = none) → s.phys.dram.wf = true →
    CisOnce s →
    ∃ t, exec .destroy s = .next t ∧ has t.parts p = false ∧
      (∀ i, i < s.partTiles p → (t.tile (s.partFirst p + i)).owner = none ∧ TileCleared s t (s.partFirst p + i)) ∧
      (∀ name, name < 65536 → t.event p name = none) ∧
      (∀ pa, Table.get 0 s.phys.owner (pa / 65536) = p + 1 → t.phys.byte pa = 0 ∧ Table.get 0 t.phys.owner (pa / 65536) = 0) ∧
      (∀ pa, (∀ e ∈ s.phys.owner, e.2 = p + 1 → e.1 ≠ pa / 65536) → t.phys.byte pa = flushed s (s.tilesOf p) pa)) ∧
  (∀ (s : State) (ws : List Word) (p : Nat), AdminHas s 0x41 2 ws → p = (ws.getD 2 0).toNat → has s.parts p = true →
    (s.part p).pre.given = false →
    ∃ t, exec .destroy s = .next t ∧ has t.parts p = false ∧ (∀ name, name < 65536 → t.event p name = none) ∧
      (∀ tl, (t.tile tl).owner = (s.tile tl).owner) ∧ t.nodes = s.nodes ∧
      (∀ pa, Table.get 0 s.phys.owner (pa / 65536) = p + 1 → t.phys.byte pa = 0 ∧ Table.get 0 t.phys.owner (pa / 65536) = 0)) ∧
  (∀ (s : State) (ws : List Word) (p n : Nat), p = (ws.getD 2 0).toNat → n = (s.part p).node → has s.parts p = true →
    (AdminHas s 0x42 2 ws → 2 ≤ n → (s.part p).pre.state = 0 → find s.nodes (siblingOf n) = some .free →
      s.nodeReady (siblingOf n) = true →
      ∃ t, exec .grow s = .next t ∧ (t.part p).pre.state = 1 ∧ (t.part p).pre.mode = false ∧ t.host.admin.phase = 3 ∧
        RaisedPre s t p) ∧
    (AdminHas s 0x42 3 ws → 2 ≤ n → s.host.admin.done = 1 → (s.part p).pre.state = 4 → (s.part p).pre.mode = false →
      (s.part p).late = [] →
      ∃ t, exec .grow s = .next t ∧ (t.part p).node = n / 2 ∧ (t.part p).pre.state = 5 ∧
        find t.nodes (n / 2) = some (.owned p) ∧
        ∀ i, i < nodeTiles (siblingOf n) → (t.tile (nodeFirst (siblingOf n) + i)).owner = some p) ∧
    (AdminHas s 0x43 2 ws → n < 4096 → (s.part p).pre.state = 0 →
      ∃ t, exec .shrink s = .next t ∧ (t.part p).pre.state = 1 ∧ (t.part p).pre.mode = false ∧ t.host.admin.phase = 3 ∧
        RaisedPre s t p) ∧
    (∀ keep, AdminHas s 0x43 3 ws → 1 ≤ n → s.host.admin.done = 1 → (s.part p).pre.state = 4 → (s.part p).pre.mode = false →
      (s.part p).late = [] → keep = (if bitOf (ws.getD 3 0).toNat 1 then 2 * n else 2 * n + 1) →
      s.halfIdle (tilesOfNode (siblingOf keep)) = true →
      ∃ t, exec .shrink s = .next t ∧ (t.part p).node = keep ∧ (t.part p).pre.state = 5 ∧
        find t.nodes keep = some (.owned p) ∧ find t.nodes (siblingOf keep) = some .free ∧
        ∀ i, i < nodeTiles (siblingOf keep) → (t.tile (nodeFirst (siblingOf keep) + i)).owner = none)) ∧
  (∀ (s : State) (ws : List Word) (p : Nat), AdminHas s 0x44 2 ws → p = (ws.getD 2 0).toNat → has s.parts p = true →
    (s.part p).pre.state = 0 → (bitOf (ws.getD 3 0).toNat 0 = true → (s.part p).savebase ≠ 0) →
    ∃ t, exec .preempt s = .next t ∧ (t.part p).pre.state = 1 ∧ (t.part p).pre.mode = bitOf (ws.getD 3 0).toNat 0 ∧
      (t.part p).pre.holdt.toNat = bitsOf (ws.getD 3 0).toNat 47 32 ∧ t.host.admin.phase = 3 ∧ RaisedPre s t p ∧
      t.cores = s.cores ∧ t.phys = s.phys) ∧
  (∀ (s : State) (ws : List Word) (p : Nat), AdminHas s 0x45 2 ws → p = (ws.getD 2 0).toNat → has s.parts p = true →
    ((s.part p).pre.state = 4 → (s.part p).pre.given = true → (s.part p).pre.mode = false → (s.part p).late = [] →
      ∃ t, exec .resume s = .next t ∧ (t.part p).pre.state = 5 ∧ t.host.admin.phase = 3) ∧
    ((s.part p).pre.state ≠ 4 →
      ∃ t, exec .resume s = .next t ∧ t.host.admin.phase = 4 ∧ t.host.admin.status = 5 ∧ t.cores = s.cores ∧
        t.parts = s.parts)) ∧
  (∀ (s : State) (ws : List Word) (p : Nat) (fs : List Nat), AdminHas s 0x46 2 ws → p = (ws.getD 2 0).toNat →
    has s.parts p = true → s.phys.dram.wf = true →
    s.pickFrames (tierFrames (bitOf (ws.getD 4 0).toNat 0)).1 (ws.getD 3 0).toNat (tierFrames (bitOf (ws.getD 4 0).toNat 0)).2
      = some fs →
    ∃ t, exec .grant s = .next t ∧ (t.part p).pool = (s.part p).pool ++ fs ∧ fs.length = (ws.getD 3 0).toNat ∧
      (∀ f ∈ fs, Table.get 0 s.phys.owner f = 0 ∧ Table.get 0 t.phys.owner f = p + 1) ∧
      (∀ pa, t.phys.byte pa = if pa / 65536 ∈ fs then 0 else s.phys.byte pa) ∧ t.host.admin.phase = 3) ∧
  (∀ (s v : State) (ws : List Word) (p : Nat) (bs : List Byte) (ok : Bool), AdminHas s 0x47 2 ws →
    p = bitsOf (ws.getD 2 0).toNat 11 0 → has s.parts p = true → ((s.part p).pre.state = 0 ∨ (s.part p).pre.state = 4) →
    (s.adminBegin ws).configImage ws = .ok bs v → ok = v.configFit ws (if bs.isEmpty then [] else wordsOf bs 32) →
    (ok = true →
      ∃ t, exec .config s = .next t ∧ t.host.admin.phase = 3 ∧
        (t.part p).ptroot = (if bitOf (ws.getD 2 0).toNat 16 then ws.getD 3 0 else (s.part p).ptroot) ∧
        (t.part p).savebase = (if bitOf (ws.getD 2 0).toNat 17 ∧ (s.part p).pre.state = 0 then ws.getD 4 0
          else (s.part p).savebase) ∧
        (t.part p).tel.base = (if bitOf (ws.getD 2 0).toNat 19 then ws.getD 6 0 else (s.part p).tel.base) ∧
        (bitOf (ws.getD 2 0).toNat 18 = true → ∀ i, i < 32 → Table.get 0 (t.part p).win i = (wordsOf bs 32).getD i 0) ∧
        (bitOf (ws.getD 2 0).toNat 18 = false → (t.part p).win = (s.part p).win) ∧ t.cores = s.cores) ∧
    (ok = false → ∃ t, exec .config s = .next t ∧ t.host.admin.phase = 4 ∧ t.host.admin.status = 5)) ∧
  (∀ (s : State) (ws : List Word) (p tl : Nat), AdminHas s 0x48 2 ws → p = bitsOf (ws.getD 2 0).toNat 11 0 →
    tl = bitsOf (ws.getD 2 0).toNat 26 12 → has s.parts p = true →
    (3 ≤ (s.part p).pre.state.toNat → (s.part p).pre.state.toNat ≤ 4 →
      ∃ t, exec .replayCommand s = .next t ∧ (t.part p).late = (s.part p).late ++
        [(tl, bitsOf (ws.getD 3 0).toNat 31 0, bitsOf (ws.getD 3 0).toNat 63 32, bitOf (ws.getD 4 0).toNat 0)] ∧
        t.cores = s.cores) ∧
    (∀ h, (s.part p).pre.state = 0 → bitOf (ws.getD 4 0).toNat 0 = false →
      ((s.tile tl).svc.held.filter fun h => h.parked && s.holding h.core == some p &&
        seqIn (bitsOf (ws.getD 3 0).toNat 31 0) (bitsOf (ws.getD 3 0).toNat 63 32) h.seq) = [h] →
      (s.core h.core).moved = none →
      ∃ t, exec .replayCommand s = .next t ∧ ((t.core h.core).slot h.slot).st = .ready ∧
        ((t.core h.core).slot h.slot).pc = ((s.core h.core).slot h.slot).pc ∧
        ((t.core h.core).slot h.slot).image = some h.image ∧
        (∀ j, j ≠ h.core → t.core j = (s.core j).letGo h.core h.slot h.act) ∧
        ∀ r ∈ t.host.faultq, r ∈ s.host.faultq ∧ ¬(r.tile = tl ∧ r.part = p ∧
          seqIn (bitsOf (ws.getD 3 0).toNat 31 0) (bitsOf (ws.getD 3 0).toNat 63 32) r.seq.toNat = true)))

/-- R8, R368, R370, R375 to R377, R383: an aligned host write stores the RW fields of its register and reserved offsets ignore it; the
lease is renewed by the port that owns it and passes to the other port when it runs out; buckets are set and refilled to their depth; a
monitor's window is judged at its end, one of edge-station reads in a bin that is a free value; a collective slot registers a record, whose
contributions and deadline signal its event, and a withdrawal signals it poisoned. The model's choices are that a REGISTER_WRITE comes
through the port that owns the lease (log 94), that K outside 4 to 20 acts as the nearer limit, BOUND 0 disables and buckets are refilled
at the multiples of 1,024 cycles (log 68), and the withdrawal (log 44). -/
def Obligations.ContractsAreKept : Prop :=
  (∀ (s : State) (p q off : Nat) (v : Word), s.hostUp = true → p < 4096 → q < 64 → has s.parts p = true →
    (∃ t, exec (.registerWrite false p (64 * q) v) s = .next t ∧ (t.queue p q).base = v &&& ~~~0xFFF#64 ∧
      t.queue p q = { s.queue p q with base := (t.queue p q).base } ∧ t.cores = s.cores ∧ t.phys = s.phys) ∧
    (∃ t, exec (.registerWrite false p (64 * q + 8) v) s = .next t ∧ (t.queue p q).size.toNat = v.toNat % 16 ∧
      t.queue p q = { s.queue p q with size := (t.queue p q).size } ∧ t.cores = s.cores ∧ t.phys = s.phys) ∧
    (∃ t, exec (.registerWrite false p (64 * q + 16) v) s = .next t ∧ (t.queue p q).tail.toNat = v.toNat % 65536 ∧
      t.cores = s.cores ∧ t.phys = s.phys) ∧
    (∃ t, exec (.registerWrite false p (64 * q + 32) v) s = .next t ∧ (t.queue p q).vec.toNat = v.toNat % 2048 ∧
      t.queue p q = { s.queue p q with vec := (t.queue p q).vec } ∧ t.cores = s.cores ∧ t.phys = s.phys) ∧
    (off ∈ [0x18, 0x28, 0x30, 0x38] → exec (.registerWrite false p (64 * q + off) v) s = .next s) ∧
    (∃ t, exec (.registerWrite true p 0x1800 v) s = .next t ∧ t.host = { s.host with
      period := BitVec.ofNat 16 (Nat.min 10000 (Nat.max 10 (bitsOf v.toNat 47 32)))
      expired := s.host.expired && !bitOf v.toNat 2
      renewed := if bitOf v.toNat 0 then s.cycle else s.host.renewed } ∧ t.cores = s.cores ∧ t.parts = s.parts) ∧
    (∃ t, exec (.registerWrite true p (0x100000 + 0x1000 * p + 0x200) v) s = .next t ∧
      (t.ct p) = { (s.ct p) with qosvec := BitVec.ofNat 11 (v.toNat / 65536), prevec := BitVec.ofNat 11 v.toNat }) ∧
    (∀ m, m < 16 →
      (∃ t x, exec (.registerWrite true p (0x100000 + 0x1000 * p + 0x100 + 16 * m) v) s = .next t ∧
        x = Table.get {} (t.ct p).qos m ∧ x.bound.toNat = bitsOf v.toNat 63 32 ∧ x.p.toNat = bitsOf v.toNat 31 22 ∧
        x.k.toNat = bitsOf v.toNat 21 17 ∧ x.src.toNat = bitsOf v.toNat 16 15 ∧ x.id.toNat = bitsOf v.toNat 14 0) ∧
      (∃ t, exec (.registerWrite true p (0x100000 + 0x1000 * p + 0x108 + 16 * m) v) s = .next t ∧
        Table.get {} (t.ct p).qos m = { Table.get {} (s.ct p).qos m with
          viol := (Table.get {} (s.ct p).qos m).viol && !bitOf v.toNat 5 }))) ∧
  (∀ (s : State) (port : Bool),
    (port = s.host.owner → (if port then 1 else 0) ∈ s.host.ports →
      exec (.leaseRenew port) s = .next { s with host := { s.host with renewed := s.cycle } }) ∧
    (port ≠ s.host.owner → exec (.leaseRenew port) s = .next s) ∧
    (s.host.renewed + s.host.period.toNat * 1700000 ≤ s.cycle →
      ∃ t, exec .leaseExpiry s = .next t ∧ t.host.owner = !s.host.owner ∧ t.host.expired = true ∧ t.cores = s.cores ∧
        t.phys = s.phys)) ∧
  (∀ (s : State) (p k : Nat) (v : Word), s.hostUp = true → p < 4096 → k = bitsOf v.toNat 63 56 →
    (∃ t, exec (.bucketRegisterWrite p v) s = .next t ∧ (t.ct p).sel.toNat = k ∧
      (bitsOf v.toNat 39 20 ≠ 0 → (Table.get {} (t.ct p).buckets k).depth.toNat = bitsOf v.toNat 39 20 ∧
        (Table.get {} (t.ct p).buckets k).rate.toNat = bitsOf v.toNat 19 0) ∧
      (bitsOf v.toNat 39 20 = 0 → (t.ct p).buckets = (s.ct p).buckets) ∧
      (∀ j, j ≠ k → Table.get {} (t.ct p).buckets j = Table.get {} (s.ct p).buckets j)) ∧
    (s.refills = s.cycle / 1024 → ∃ t, exec .bucketRefill s = .next t ∧ t.cycle % 1024 = 0 ∧ s.cycle < t.cycle ∧
      (∀ q j, let b := Table.get {} (s.ct q).buckets j
        Table.get {} (t.ct q).buckets j = { b with tokens := Nat.min b.depth.toNat (b.tokens + b.rate.toNat) }) ∧
      t.cores = s.cores ∧ t.phys = s.phys)) ∧
  (∀ (s : State) (p m : Nat) (x : Qos), x = Table.get {} (s.ct p).qos m →
    (∀ b, windowOf x ≤ x.samples → IsPercentile x b →
      ∃ t, exec (.qosWindowEnd p m) s = .next t ∧ WindowJudged s t p m b) ∧
    (x.samples < windowOf x → x.src = 1 → x.bound ≠ 0 →
      ∃ t b, exec (.qosWindowEnd p m) s = .next t ∧ b < 32 ∧ WindowJudged s t p m b) ∧
    (x.samples < windowOf x → (x.src ≠ 1 ∨ x.bound = 0) → exec (.qosWindowEnd p m) s = .next s)) ∧
  (∀ (s v : State) (p c : Nat) (va : Word) (bs : List Byte) (w : Nat → Nat), s.hostUp = true → p < 4096 → c < 256 →
    find (s.ct p).coll c = none → va.toNat % 64 = 0 →
    (s.withdraw p c).fwRead p va.toNat 64 = .ok bs v → (∀ i, w i = leNat ((bs.drop (8 * i)).take 8)) →
    bitsOf (w 0) 63 48 = 0 → bitsOf (w 0) 47 32 ≠ 0 → bitsOf (w 3) 63 34 = 0 →
    w 4 = 0 → w 5 = 0 → w 6 = 0 → w 7 = 0 → (s.event p (bitsOf (w 0) 31 16)).isSome = true →
    ∃ t x, exec (.collectiveSlotWrite p c (va ||| 1)) s = .next t ∧ find (t.ct p).coll c = some x ∧ x.va = va ∧
      x.tag.toNat = w 0 % 65536 ∧ x.expect.toNat = bitsOf (w 0) 47 32 ∧ x.ev.toNat = bitsOf (w 0) 31 16 ∧
      x.buf.toNat = w 1 ∧ x.blen.toNat = w 2 % 2 ^ 32 ∧ x.count = 0 ∧ x.done = false ∧ x.pois = false) ∧
  (∀ (s : State) (p c : Nat), s.hostUp = true → p < 4096 → c < 256 →
    (find (s.ct p).coll c = none →
      ∃ t, exec (.collectiveSlotWrite p c 0) s = .next t ∧ find (t.ct p).coll c = none ∧ t.events = s.events) ∧
    (∀ x, find (s.ct p).coll c = some x → x.wait = false → x.done = false →
      ∃ t, exec (.collectiveSlotWrite p c 0) s = .next t ∧ find (t.ct p).coll c = none ∧ Counted s t p x.ev.toNat true)) ∧
  (∀ (s : State) (p c len : Nat) (imm : BitVec 32) (va : Word) (x : Coll),
    s.collFor p (imm.toNat / 65536) = some (c, x) → find (s.ct p).coll c = some x → x.done = false →
    x.buf.toNat ≤ va.toNat → va.toNat + len ≤ x.buf.toNat + x.blen.toNat →
    ∃ t, exec (.collectiveContribution p imm va len) s = .next t ∧
      (Table.get {} (t.ct p).coll c).count = x.count + 1 ∧
      (if (x.count + 1).toNat = x.expect.toNat
       then (Table.get {} (t.ct p).coll c).done = true ∧ Counted s t p x.ev.toNat false
       else (Table.get {} (t.ct p).coll c).done = false ∧ t.events = s.events)) ∧
  (∀ (s : State) (p c : Nat) (x : Coll), find (s.ct p).coll c = some x → x.wait = false → x.done = false →
    x.deadline ≠ 0 →
    x.deadline ≤ s.cycle →
    ∃ t, exec (.collectiveDeadline p c) s = .next t ∧ (Table.get {} (t.ct p).coll c).done = true ∧
      (Table.get {} (t.ct p).coll c).pois = true ∧ Counted s t p x.ev.toNat true)

/-- R306, R376, R381 to R383, R390: a tail write takes the new entry of a queue pair's ring; an operation that is done signals its
event, poisoned where its source was; a SEND that arrives fills the buffer of the next receive entry, and a WRITE_IMM its own address; what
arrives while the partition is swapped waits, and lies in its save area (R352). A transport error completes every entry poisoned. The
model's choices are what a taken entry may hold (log 45), which pairs there are, and that an arrival waits for a posted entry (log 46),
and that a congestion notification only counts and a PFC frame only sets its pause (log 77). -/
def Obligations.NetworkActs : Prop :=
  (∀ (s v : State) (n : Nat) (x : QPair) (bs : List Byte) (ws : List Word), s.hasPair n = true → x = s.qp n → x.err = false →
    x.bells = [] →
    s.fwRead x.part (x.sbase.toNat + 64 * x.head.toNat) 64 = .ok bs v →
    ws = (List.range 5).map (fun i => BitVec.ofNat 64 (leNat ((bs.drop (8 * i)).take 8))) →
    WEntry.bad ⟨ws, s.cycle, false⟩ = false →
    ∃ t, exec (.qpTailWrite n (x.head + 1)) s = .next t ∧ (t.qp n).tail = x.head + 1 ∧ (t.qp n).head = x.head + 1 ∧
      (t.qp n).ops = x.ops ++ [⟨ws, s.cycle, false⟩] ∧ t.cores = s.cores ∧ SameMemory s t ∧ t.events = s.events) ∧
  (∀ (s : State) (n : Nat) (e : WEntry) (rest : List WEntry), s.ethUp = true → (s.qp n).ops = e :: rest →
    (e.op ≠ 4 →
      ∃ t, exec (.workEntryComplete n) s = .next t ∧ (t.qp n).ops = rest ∧
        (e.ev ≠ 0xFFFF → Counted s t (s.qp n).part e.ev (s.badSource (s.qp n).part e.lva (e.len / 256 + 2) e.len).1) ∧
        SameMemory s t) ∧
    (∀ pa home v, e.op = 4 → s.late = [] → 0 < e.len → e.lva % 256 + e.len ≤ 256 →
      s.xlate (s.qp n).part (s.partFirst (s.qp n).part) 1 .store e.lva = (.ok pa home .home, v) →
      v.writeDelayed agentKey home (lineOf e.lva) = false →
      ∃ t, exec (.workEntryComplete n) s = .next t ∧ (t.qp n).ops = rest ∧
        (∀ a, a < pa ∨ pa + e.len ≤ a → t.phys.byte a = s.phys.byte a) ∧
        (e.ev ≠ 0xFFFF → Counted s t (s.qp n).part e.ev false))) ∧
  (∀ (s u v : State) (n va pa home : Nat) (x : QPair) (op : NetOp) (imm : BitVec 32) (dst : Word) (data bs : List Byte)
      (e : WEntry), s.ethUp = true → s.hasPair n = true → x = s.qp n → x.err = false → s.present x.part = true →
    x.arr = [] → (∀ o ∈ x.ops, o.given = false) → s.late = [] →
    State.fwRead { s with freeCount := s.freeCount + 1 } x.part (x.rbase.toNat + 64 * x.rhead.toNat) 64 = .ok bs u →
    e.words = (List.range 5).map (fun i => BitVec.ofNat 64 (leNat ((bs.drop (8 * i)).take 8))) → e.len ≠ 0 →
    (op = .send → data.length ≤ e.len ∧ va = e.lva) → (op = .writeImm → va = dst.toNat) →
    data ≠ [] → va % 256 + data.length ≤ 256 →
    u.xlate x.part (u.partFirst x.part) 1 .store va = (.ok pa home .home, v) → v.writeDelayed agentKey home (lineOf va) = false →
    ∃ t, exec (.networkArrival n op imm dst data) s = .next t ∧ HomeHolds s t pa data ∧ (t.qp n).rhead = x.rhead + 1 ∧
      (e.ev ≠ 0xFFFF → Counted s t x.part e.ev false) ∧
      (op = .writeImm → t.agenda = .step (.collectiveContribution x.part imm dst data.length) :: s.agenda)) ∧
  (∀ (s : State) (n : Nat) (x : QPair) (op : NetOp) (imm : BitVec 32) (dst : Word) (data : List Byte), s.ethUp = true →
    s.hasPair n = true → x = s.qp n → x.err = false → s.present x.part = false → (∀ o ∈ x.ops, o.given = false) → s.late = [] →
    ∃ t, exec (.networkArrival n op imm dst data) s = .next t ∧
      (t.qp n).arr = x.arr ++ [{ op := op, imm := imm, va := dst, data := data }] ∧ (t.qp n).rhead = x.rhead ∧
      (t.part x.part).above = (s.part x.part).above + 24 + data.length ∧ t.events = s.events) ∧
  (∀ (s : State) (n : Nat), s.hasPair n = true →
    (∃ t, exec (.transportError n) s = .next t ∧ (t.qp n).ops = [] ∧ (t.qp n).arr = [] ∧ (t.qp n).err = true ∧
      (∀ e, (s.qp n).ops ++ (s.qp n).arr.filterMap (·.entry) = [e] → e.ev ≠ 0xFFFF → Counted s t (s.qp n).part e.ev true) ∧
      SameMemory s t) ∧
    (s.ethUp = true → exec (.cnpReceived n) s = .next { s with net := Table.set s.net n { s.qp n with cnp := (s.qp n).cnp + 1 } })) ∧
  (∀ (s : State) (port prio : Nat) (pause : Bool), port < 32 → prio < 8 → port ∈ s.host.eth →
    ∃ t, exec (.pfcPauseFrame port prio pause) s = .next t ∧
      Table.get 0 t.paused (8 * port + prio) = (if pause then 1 else 0) ∧
      (∀ j, j ≠ 8 * port + prio → Table.get 0 t.paused j = Table.get 0 s.paused j) ∧ t.cores = s.cores ∧ t.phys = s.phys)

/-- A tile's counter `i` is one higher in `t` (R396, R398). -/
def TileCounted (s t : State) (tl i : Nat) : Prop :=
  Table.get 0 (t.tile tl).cnt i = Nat.min 0xFFFFFFFF (Table.get 0 (s.tile tl).cnt i + 1)

/-- R392, R393, R397, R398: what fails its CRC on its way arrives poisoned, be it a message, beats, a fill or the response that fills a
data cache, or is lost where it is a control message; a write-back leaves its sectors poisoned. A decrement, the signal or barrier message
of an output-buffer entry, a message of level F, a chunk's signature and a translation request that are lost are resent up to seven times,
each time counted at the sending tile (log 66), and meanwhile what needs them waits; one that is lost once more posts a fatal mesh error
(what is a control message is the model's choice: log 99). A refresh round scrubs the burst at the row's pointer and moves the pointer on;
a telemetry sweep that is due (the phase of its period: log 98) counts SEQ up, unless the last one is still writing. -/
def Obligations.ReliabilityHolds : Prop :=
  (∀ (s : State) (i : Nat) (f : Flight), s.flight[i]? = some f →
    ∃ t g, exec (.meshCrcFailure i) s = .next t ∧ t.flight[i]? = some g ∧ (∀ j, j ≠ i → t.flight[j]? = s.flight[j]?) ∧
      SameMemory s t ∧ t.cores = s.cores ∧
      (∀ d m w, f = .msg d m w → m.sys = none → g = .msg d { m with poison := true } w ∧ TileCounted s t (tileOf d) 2) ∧
      (∀ d m w r, f = .msg d m w → m.sys = some r → g = .msg d { m with sys := some { r with lost := true } } w) ∧
      (∀ a d o bs po v p ack pump by30, f = .beats a d o bs po v p ack pump by30 →
        g = .beats a d o bs (List.replicate po.length true) v p ack pump by30 ∧ TileCounted s t (tileOf d) 2) ∧
      (∀ p va n ack tl tries lost, f = .decr p va n ack tl tries lost → g = .decr p va n ack tl tries true)) ∧
  (∀ (s : State) (i p n tl tries : Nat) (va : Word) (ack : Option (Nat × Nat)) (lost : Bool),
    s.flight[i]? = some (.decr p va n ack tl tries lost) →
    (tries < 7 →
      ∃ t, exec (.controlResendTimeout i) s = .next t ∧ t.flight[i]? = some (.decr p va n ack tl (tries + 1) false) ∧
        (∀ j, j ≠ i → t.flight[j]? = s.flight[j]?) ∧ t.cores = s.cores ∧ TileCounted s t tl 3) ∧
    (7 ≤ tries → ack = none →
      ∃ t, exec (.controlResendTimeout i) s = .next t ∧ t.flight = s.flight.eraseIdx i ∧
        t.host.errors = s.host.errors ++ [tl] ∧ t.cores = s.cores)) ∧
  (∀ (s : State) (i d : Nat) (m : Msg) (w : Option (Nat × Nat)) (r : Resend), s.flight[i]? = some (.msg d m w) →
    m.sys = some r → r.lost = true →
    (r.tries < 7 →
      ∃ t, exec (.controlResendTimeout i) s = .next t ∧
        t.flight[i]? = some (.msg d { m with sys := some { r with lost := false, tries := r.tries + 1 } } w) ∧
        (∀ j, j ≠ i → t.flight[j]? = s.flight[j]?) ∧ t.cores = s.cores ∧ TileCounted s t (tileOf r.core) 3) ∧
    (7 ≤ r.tries → m.carry = [] → (s.core r.core).moved = none → (s.core r.core).slotsOf r.act = [] →
      ∃ t, exec (.controlResendTimeout i) s = .next t ∧ t.flight = s.flight.eraseIdx i ∧
        t.host.errors = s.host.errors ++ [tileOf r.core] ∧ ∀ k, t.core k = s.core k)) ∧
  (∀ (s : State) (k i j : Nat) (e : OEntry), Releasing s k i e → e.kind.control = true → s.cores[j]? = some (k, s.core k) →
    (s.cores.map (·.1)).Pairwise (· < ·) →
    ∃ t u, exec (.meshCrcFailure (s.flight.length + j)) s = .next t ∧
      (t.core k).ord.ob = (s.core k).ord.ob.replace e { e with lost := true } ∧ t.events = s.events ∧ t.flight = s.flight ∧
      SameMemory s t ∧ exec (.outputBufferRelease k i) t = .next t ∧
      exec (.controlResendTimeout (s.flight.length + j)) t = .next u ∧
      (e.tries < 7 → (u.core k).ord.ob = (s.core k).ord.ob.replace e { e with tries := e.tries + 1 } ∧ SameMemory s u ∧
        TileCounted s u (tileOf k) 3) ∧
      (7 ≤ e.tries → (s.core k).moved = none → u.host.errors = s.host.errors ++ [tileOf k] ∧ ((u.core k).slot i).st = .free)) ∧
  (∀ (s : State) (k j : Nat) (x : Signing), (s.core k).signing = some x → s.cores[j]? = some (k, s.core k) →
    (s.cores.map (·.1)).Pairwise (· < ·) →
    ∃ t u, exec (.meshCrcFailure (s.flight.length + s.cores.length + j)) s = .next t ∧
      (t.core k).signing = some { x with lost := true } ∧ (∀ h, t.ungranted k h = true) ∧ t.flight = s.flight ∧ SameMemory s t ∧
      exec (.controlResendTimeout (s.flight.length + s.cores.length + j)) t = .next u ∧
      (x.tries < 7 → (u.core k).signing = some { x with lost := false, tries := x.tries + 1 } ∧ SameMemory s u ∧
        TileCounted s u (tileOf k) 3) ∧
      (7 ≤ x.tries → (s.core k).moved = none → u.host.errors = s.host.errors ++ [tileOf k] ∧ (u.core k).ctl.run = none)) ∧
  (∀ (s : State) (k j : Nat) (x : Asked), (s.core k).request = some x → s.level k ≠ 2 → s.cores[j]? = some (k, s.core k) →
    (s.cores.map (·.1)).Pairwise (· < ·) →
    ∃ t u, exec (.meshCrcFailure (s.flight.length + 2 * s.cores.length + j)) s = .next t ∧
      (t.core k).request = some { x with lost := true } ∧ t.flight = s.flight ∧ SameMemory s t ∧
      ((s.core k).stepWaits = false → (s.core k).act.count ≠ 0 → (s.core k).ord.chunk.want = [] →
        t.boundary k = .done (t.spend k 1)) ∧
      exec (.controlResendTimeout (s.flight.length + 2 * s.cores.length + j)) t = .next u ∧
      (x.tries < 7 → (u.core k).request = some { x with lost := false, tries := x.tries + 1 } ∧ SameMemory s u ∧
        TileCounted s u (tileOf k) 3) ∧
      (7 ≤ x.tries → (s.core k).moved = none → u.host.errors = s.host.errors ++ [tileOf k] ∧ (u.core k).ctl.run = none)) ∧
  (∀ (s : State) (j x : Nat) (h : Half), s.phys.cis[j]? = some (x, h) → find s.phys.cis x = some h → s.phys.dram.wf = true →
    ∃ t, exec (.meshCrcFailure (s.flight.length + 3 * s.cores.length + j)) s = .next t ∧
      (∀ i, i < 4 → t.phys.poisoned .home (128 * x + 32 * i) 32 = true) ∧ (h.dirty = true → find t.phys.cis x = none) ∧
      (∀ pa, t.phys.byte pa = s.phys.byte pa) ∧ TileCounted s t h.home 2 ∧ t.cores = s.cores) ∧
  (∀ (s : State) (j l k : Nat), s.sharers[j]? = some (l, k) →
    ∃ t, exec (.meshCrcFailure (s.flight.length + 3 * s.cores.length + s.phys.cis.length + j)) s = .next t ∧
      (∀ i, i < 8 → Table.get false (t.core k).par (8 * l + i) = true) ∧ TileCounted s t (tileOf k) 2 ∧ SameMemory s t ∧
      ∀ c, c ≠ k → t.core c = s.core c) ∧
  (∀ (s : State) (station row key ptr pa : Nat), station < 64 → key = station + 64 * row →
    ptr = Table.get 0 s.phys.scrub key → pa = Config.burstPa station row ptr / 64 * 64 →
    ∃ t, exec (.refreshRound station row) s = .next t ∧ Table.get 0 t.phys.scrub key = (ptr + 1) % 32 ∧
      (∀ e ∈ t.phys.ecc, e.1 / 8 ≠ pa / 64 ∧ e ∈ s.phys.ecc) ∧
      (∀ x, x / 2 = pa / 64 → Table.get false t.phys.poison x =
        (Table.get false s.phys.poison x || s.phys.ecc.any fun e => e.1 / 4 == x && e.2 == 2)) ∧
      SameMemory s t ∧ t.cores = s.cores) ∧
  (∀ (s : State) (p : Nat), (s.part p).tel.en = true → (s.part p).tel.base ≠ 0 →
    (s.part p).tel.since + 2 ^ (s.part p).tel.k.toNat ≤ s.cycle →
    ∃ t, exec (.telemetrySweep p) s = .next t ∧ (t.part p).tel.since = s.cycle ∧
      (t.part p).tel.seq = (if s.sweeping p then (s.part p).tel.seq else (s.part p).tel.seq + 1) ∧ t.events = s.events ∧
      ∀ k off, (isSvc k = true → 0x40000 ≤ off) → t.cellAt k off = s.cellAt k off)

/-- R25 to R29, R81, R82, R159, R339, R380: power-on and a module reset bring the module to its reset state, with CYCLE 0, but for its
firmware images; a function that passes its self-test reports ready and one that fails stays not ready; a clamp shortens the lives of
granules by 1,023 ticks; firmware wants 8 tokens for a throttled tile, and a halted module stops until a reset or power-on; a draw limit
and a firmware image are accepted only as the rules say; a heartbeat that does not come rolls the image back; a measurement answers a
value that is left open (log 4). The model's choices are: that a function which has failed never reports again before a module reset
(log 7), and what it holds (log 93); when an accepted limit comes into force, and what a refused change leaves of a standing one (log 42);
the rollback after a fault at level F (log 35), and the images that a restart keeps and the readiness after a rollback (log 67); that the
dirty lines of a cistern are written back when its tile reports ready (log 117). -/
def Obligations.BoardEvents : Prop :=
  (∀ s : State, ∀ i ∈ [Instr.powerOn, .moduleReset],
    ∃ t, exec i s = .next t ∧ t = { State.reset with
      agenda := s.agenda, freeCount := s.freeCount, host := { State.reset.host with
        images := s.host.images, minVersion := s.host.minVersion, newSlot := s.host.newSlot } }) ∧
  (∀ (s : State) (f : Func) (i : Nat), i < funcCount f → (f, i) ∉ s.host.failed →
    (s.isReady f i = false → (f = .tile → s.bootSlot.isSome = true) → s.phys.dram.wf = true →
      ∃ t, exec (.readyReport f i true) s = .next t ∧ t.isReady f i = true ∧ t.host.failed = s.host.failed ∧
        (f = .tile → TileCleared s t i ∧ (t.tile i).owner = none ∧ (∀ j, tileOf j ≠ i → t.core j = s.core j) ∧
          (CisOnce s → ∀ pa, t.phys.byte pa = flushed s [i] pa) ∧ ∀ e ∈ t.phys.cis, e.2.home ≠ i) ∧
        (f = .station → t.cores = s.cores ∧
          ∀ pa, t.phys.dram.read pa = if stationOf pa = i then 0 else s.phys.dram.read pa) ∧
        (f = .eth ∨ f = .host → t.cores = s.cores ∧ t.phys = s.phys)) ∧
    (∃ t, exec (.readyReport f i false) s = .next t ∧ t.isReady f i = false ∧ (f, i) ∈ t.host.failed ∧
      t.cores = s.cores ∧ t.phys = s.phys ∧ ∀ b, exec (.readyReport f i b) t = .next t)) ∧
  (∀ (s : State) (tl p : Nat), (s.tile tl).ready = true → (s.tile tl).owner = some p → (s.part p).clamped = [] →
    1024 < (s.part p).retn.toNat → (s.cores.map (·.1)).Nodup →
    ∃ t, exec (.thermalClamp tl) s = .next t ∧ (t.part p).retn = 1024 ∧ (t.part p).clamped = [tl] ∧
      (∀ k g, (∃ c, (k, c) ∈ s.cores) → isSvc k = false → tileOf k = tl → g < 240 →
        let w := (s.core k).ls.tag g
        let life := (w.expiry.toNat + 4096 - s.fade % 4096) % 4096
        (w.x = true → (t.core k).ls.tag g = w) ∧
        (w.x = false → w.z = true → (t.core k).ls.tag g = w) ∧
        (w.x = false → w.z = false → 1024 ≤ life → life ≤ 2048 →
          (t.core k).ls.tag g = { w with expiry := w.expiry - 1023 }) ∧
        (w.x = false → w.z = false → (life < 1024 ∨ 2048 < life) → ((t.core k).ls.tag g).x = true)) ∧
      (∀ k off, isSvc k = false → off % 0x20000 < 0x1E000 → t.cellAt k off = s.cellAt k off) ∧
      ((∀ k, ((s.core k).chan 31).valid = false) → SameData s t)) ∧
  (∀ (s : State) (tl : Nat) (halt : Bool),
    ∃ t, exec (.thermalThrottle tl halt) s = .next t ∧ (t.tile tl).want = 8 ∧ (t.tile tl).budget = (s.tile tl).budget ∧
      t.halted = (s.halted || halt) ∧ t.cores = s.cores ∧ t.phys = s.phys ∧
      (halt = true → (∀ rest, s.agenda ≠ .step .moduleReset :: rest ∧ s.agenda ≠ .step .powerOn :: rest) →
        step t = .fault .moduleHalted)) ∧
  (∀ (s : State) (rest : List Happening), (s.agenda = .step .moduleReset :: rest ∨ s.agenda = .step .powerOn :: rest) →
    ∃ t, step s = .next t ∧ t.halted = false ∧ t.cycle = 0) ∧
  (∀ (s : State) (limit : Nat) (hf ok : Bool),
    ok = decide (262144 ≤ limit ∧ limit ≤ 1048576 ∧ (524288 < limit → hf = true)) →
    ∃ t, exec (.drawLimitChange limit hf) s = .next t ∧ t.host.highFlow = hf ∧
      (ok = true → t.host.asked = limit ∧ (s.heldBudgets + 8 * s.freeTiles ≤ limit → t.host.limit = limit)) ∧
      (ok = false → hf = true → t.host.asked = s.host.asked) ∧
      (ok = false → hf = false → t.host.asked = Nat.min s.host.asked 524288) ∧
      (t.host.limit = s.host.limit ∨ t.host.limit = t.host.asked) ∧ t.tiles = s.tiles ∧ t.cores = s.cores ∧ t.phys = s.phys) ∧
  (∀ (s : State) (b ed ml : Bool) (ver : Nat),
    (ed = true → ml = true → s.host.minVersion ≤ ver →
      ∃ t, exec (.firmwareImageInstall b ed ml ver) s = .next t ∧ t.host.newSlot = b ∧
        Table.get {} t.host.images (if b then 1 else 0) = ⟨ver, true⟩ ∧ t.tiles = s.tiles) ∧
    ((ed = false ∨ ml = false ∨ ver < s.host.minVersion) → exec (.firmwareImageInstall b ed ml ver) s = .next s)) ∧
  (∀ (s : State) (tl : Nat) (b due bad : Bool), b = (s.tile tl).svc.slotB → bad = (s.tile tl).svc.bad →
    due = decide ((s.tile tl).svc.started + 170000000 ≤ s.cycle ∧ (s.tile tl).svc.started + 170000000 < (s.tile tl).svc.beat) →
    due = true ∨ bad = true →
    ∃ t, exec (.firmwareHeartbeatTimeout tl) s = .next t ∧ (t.tile tl).svc.slotB = !b ∧ (t.tile tl).svc.bad = false ∧
      (due = true → (t.image b).accepted = false) ∧ (due = false → t.image b = s.image b) ∧ t.image (!b) = s.image (!b) ∧
      (t.tile tl).ready = (((s.tile tl).ready || bad) && (s.image (!b)).accepted && !s.failedTile tl) ∧
      t.cores = s.cores ∧ t.phys = s.phys) ∧
  (∀ (s : State) (port : Bool) (index : Nat), (if port then 1 else 0) ∈ s.host.ports → 1 ≤ index → index ≤ 4 →
    ∃ t w, exec (.getMeasurements port index) s = .next t ∧ t.host.meas = some (index, w) ∧ t.cores = s.cores ∧
      t.tiles = s.tiles ∧ t.phys = s.phys)

/-- R244, R379, R400 to R403: on a newt that stands alone and is not confidential, HALT, RUN and STEP act only while ENABLE is set: HALT on
a newt that runs, RUN on one that is halted, and STEP, which is remembered until the step ends, on both; DRAIN reads 1 while an engine
operation is in flight; DDATA is written only while the newt is halted, to the register cache word (words 60 to 63 discard it) or the
local-store bytes that DACC names; a breakpoint and a watchpoint halt the newt before the instruction, unless it has just been halted there;
a trace station is armed, triggered and done. That a breakpoint on a slot outside its line never matches (log 56), and when a capture has
filled its window (log 55), is the model's reading. -/
def Obligations.DebugActs : Prop :=
  (∀ (s : State) (k : Nat), DebugAlone s k →
    ((s.core k).dbg.ctl.getLsbD 3 = true →
      ((s.core k).dbg.halted = false →
        (∃ t, exec (.dctlHalt k) s = .next t ∧ (t.core k).dbg.halted = true ∧ (t.core k).dbg.why = 1 ∧ DebugFrame s t k ∧
          (t.core k).act.pc = (s.core k).act.pc) ∧
        (∃ t, exec (.dctlRun k) s = .next t ∧ (t.core k).dbg.halted = false ∧
          (t.core k).dbg.ctl.getLsbD 2 = (s.core k).dbg.ctl.getLsbD 2 ∧ DebugFrame s t k ∧ (t.core k).act.pc = (s.core k).act.pc) ∧
        ∃ t, exec (.dctlStep k) s = .next t ∧ (t.core k).dbg.halted = false ∧ (t.core k).dbg.ctl.getLsbD 2 = true ∧
          DebugFrame s t k ∧ (t.core k).act.pc = (s.core k).act.pc) ∧
      ((s.core k).dbg.halted = true →
        (∃ t, exec (.dctlHalt k) s = .next t ∧ (t.core k).dbg.halted = true ∧ (t.core k).dbg.why = (s.core k).dbg.why ∧
          DebugFrame s t k) ∧
        (∃ t, exec (.dctlRun k) s = .next t ∧ (t.core k).dbg.halted = false ∧
          (t.core k).dbg.ctl.getLsbD 2 = (s.core k).dbg.ctl.getLsbD 2 ∧
          ((s.core k).ctl.run.isSome = true → (t.core k).act.pc = (s.core k).dbg.dpc.getD (s.core k).act.pc) ∧ DebugFrame s t k) ∧
        ∃ t, exec (.dctlStep k) s = .next t ∧ (t.core k).dbg.halted = false ∧ (t.core k).dbg.ctl.getLsbD 2 = true ∧
          ((s.core k).ctl.run.isSome = true → (t.core k).act.pc = (s.core k).dbg.dpc.getD (s.core k).act.pc) ∧ DebugFrame s t k)) ∧
    ((s.core k).dbg.ctl.getLsbD 3 = false → ∀ i ∈ [Instr.dctlHalt k, .dctlRun k, .dctlStep k],
      ∃ t, exec i s = .next t ∧ (t.core k).dbg.halted = (s.core k).dbg.halted ∧ (t.core k).act.pc = (s.core k).act.pc ∧
        bitOf (t.dbgRead k 0).toNat 7 = bitOf (s.dbgRead k 0).toNat 7 ∧ DebugFrame s t k) ∧
    (∃ t, exec (.dctlDrain k) s = .next t ∧
      bitOf (t.dbgRead k 0).toNat 7 = (!(s.core k).eng.mq.isEmpty || !(s.core k).eng.pq.isEmpty) ∧
      (t.core k).dbg.halted = (s.core k).dbg.halted ∧ DebugFrame s t k) ∧
    (∀ v, (s.core k).dbg.halted = true → 60 ≤ (s.core k).dbg.acc.toNat → (s.core k).dbg.acc.toNat < 64 →
      exec (.ddataAccess k (some v)) s = .next s) ∧
    (∀ v, (s.core k).dbg.halted = true → (s.core k).dbg.acc.toNat < 60 →
      ∃ t, exec (.ddataAccess k (some v)) s = .next t ∧ Table.get 0 (t.core k).regs (s.core k).dbg.acc.toNat = v ∧
        (∀ j, j ≠ (s.core k).dbg.acc.toNat → Table.get 0 (t.core k).regs j = Table.get 0 (s.core k).regs j) ∧
        SameMemory s t ∧ ∀ j, j ≠ k → t.core j = s.core j) ∧
    (∀ v o, (s.core k).dbg.halted = true → (s.core k).dbg.acc.toNat = 2 ^ 62 + o → o < 2 ^ 62 → (s.core k).ls.cells.wf = true →
      ∃ t, exec (.ddataAccess k (some v)) s = .next t ∧ (t.core k).regs = (s.core k).regs ∧
        (∀ a, (t.core k).ls.cells.read a =
          if o ≤ a ∧ a < o + 8 then (leBytes 8 v.toNat).getD (a - o) 0 else (s.core k).ls.cells.read a) ∧
        (∀ j, j ≠ k → t.core j = s.core j) ∧ t.phys = s.phys) ∧
    (∀ v, (s.core k).dbg.halted = false → exec (.ddataAccess k (some v)) s = .next s) ∧
    exec (.ddataAccess k none) s = .next s ∧
    (∀ b, (s.core k).ctl.run.isSome = true → (s.core k).dbg.ctl.getLsbD 3 = true → (s.core k).dbg.ctl.getLsbD 4 = true →
      (s.core k).dbg.skip ≠ some ((s.core k).act.uid, (s.core k).act.pc) → b < 4 → Table.get 0 (s.core k).dbg.dbp b = (s.core k).act.pc →
      (s.core k).act.pc.toNat % 64 ≠ 0 → (∀ j, j < b → Table.get 0 (s.core k).dbg.dbp j ≠ (s.core k).act.pc) →
      (s.slotOfLine k = true →
        ∃ t, exec (.breakpointMatch k) s = .next t ∧ (t.core k).dbg.halted = true ∧ (t.core k).dbg.why = 4 ∧
          (t.core k).dbg.idx = b ∧ (t.core k).act = (s.core k).act ∧ DebugFrame s t k) ∧
      (s.slotOfLine k = false → exec (.breakpointMatch k) s = .next s)) ∧
    (∀ i hdr u w, (s.core k).ctl.run.isSome = true → s.fetch k = .instr i hdr u → s.watchHit k i = some w →
      ∃ t, exec (.watchpointMatch k) s = .next t ∧ (t.core k).dbg.halted = true ∧ (t.core k).dbg.why = 5 ∧
        (t.core k).dbg.idx = w ∧ (t.core k).act = (s.core k).act ∧ DebugFrame s t k)) ∧
  (∀ (s : State) (q tl : Nat) (v : Word), q < 4 → tl = bitsOf v.toNat 48 34 → (Table.get {} s.trace q).state = 0 →
    ∃ t, exec (.traceArm q v) s = .next t ∧ (Table.get {} t.trace q).tile = tl ∧
      (Table.get {} t.trace q).trig.toNat = bitsOf v.toNat 17 16 ∧ (Table.get {} t.trace q).pre.toNat = bitsOf v.toNat 33 18 ∧
      (tl % 256 / 128 = q % 2 → tl / 256 / 64 = q / 2 → (∀ p, (s.tile tl).owner = some p → (s.part p).conf = false) →
        (if bitsOf v.toNat 17 16 = 0 then (Table.get {} t.trace q).state = 2 ∧
          (Table.get {} t.trace q).tcyc = BitVec.ofNat 64 s.cycle else (Table.get {} t.trace q).state = 1)) ∧
      (tl % 256 / 128 ≠ q % 2 ∨ tl / 256 / 64 ≠ q / 2 ∨ (∃ p, (s.tile tl).owner = some p ∧ (s.part p).conf = true) →
        (Table.get {} t.trace q).state = 0) ∧
      (∀ r, r ≠ q → Table.get {} t.trace r = Table.get {} s.trace r) ∧ t.cores = s.cores ∧ t.phys = s.phys) ∧
  (∀ (s : State) (q : Nat) (x : Trace), q < 4 → x = Table.get {} s.trace q →
    (x.state = 1 → x.trig = 3 →
      ∃ t, exec (.traceTrigger q) s = .next t ∧
        Table.get {} t.trace q = { x with state := 2, tcyc := BitVec.ofNat 64 s.cycle } ∧
        (∀ r, r ≠ q → Table.get {} t.trace r = Table.get {} s.trace r) ∧ t.cores = s.cores ∧ t.phys = s.phys) ∧
    ((x.state = 3 ∨ (x.state = 2 ∧ x.tcyc.toNat + (65536 - x.pre.toNat) ≤ s.cycle)) →
      ∃ t, exec (.traceDrainDone q) s = .next t ∧ Table.get {} t.trace q = { x with state := 0, done := true } ∧
        (∀ r, r ≠ q → Table.get {} t.trace r = Table.get {} s.trace r) ∧ t.cores = s.cores ∧ t.phys = s.phys))

/-- R113, R151, R328, R329: an instruction that the level of its core may not execute takes the privileged fault 0x12, and a CSR access
below the CSR's level too. A slot of a malformed line, or a reserved or undefined encoding, takes fault 0x01 with its reason, and a slot
outside the line fault 0x02. None of them has any other effect, but for what the followers of pairs elsewhere do meanwhile (R394). -/
def Obligations.RefusedInstructionsFault : Prop :=
  (∀ (s : State) (a b c : Sel) (n : BitVec 12), s.Running → s.Quiet s.turn → (s.core s.turn).inLiz = false →
    (s.level s.turn = 0 → ∀ i ∈ [Instr.rte, .tlbinv b c],
      ∃ t r, exec i s = .next t ∧ r.code = 0x12 ∧ TakesFault s t s.turn r (s.core s.turn).act.pc (tileOf s.turn)) ∧
    (s.level s.turn < 2 →
      ∃ t r, exec (.frgrant b c) s = .next t ∧ r.code = 0x12 ∧
        TakesFault s t s.turn r (s.core s.turn).act.pc (tileOf s.turn)) ∧
    ((s.level s.turn = 0 ∧ 0x100 ≤ n.toNat ∧ n.toNat ≤ 0x10A) ∨ (s.level s.turn < 2 ∧ n.toNat = 0x002) →
      ∀ i ∈ [Instr.csrw a n, .csrx a n],
      ∃ t r, exec i s = .next t ∧ r.code = 0x12 ∧ TakesFault s t s.turn r (s.core s.turn).act.pc (tileOf s.turn))) ∧
  (∀ (s v : State) (k pa slot : Nat) (d : Dest) (rest : List Happening) (l : Line), AtBoundary s k rest d pa v →
    l = lineOfBytes (v.globalBytes d pa 64) → slot = (s.core k).act.pc.toNat % 64 →
    s.Quiet k → (s.core k).ctl.pair = none →
    ((slot = 0 ∨ 31 < slot ∨ (Line.wellFormed l = true ∧ Line.count l < slot)) →
      ∃ t r, step s = s.withFollowers s.pick (.next (t.pass k)) ∧ r.code = 0x02 ∧ r.pc = (s.core k).act.pc ∧
        TakesFault s t k r (s.core k).act.pc (tileOf k)) ∧
    (1 ≤ slot → slot ≤ 31 → Line.wellFormed l = false →
      ∃ t r, step s = s.withFollowers s.pick (.next (t.pass k)) ∧ r.code = 0x01 ∧ r.sub = 6 ∧
        TakesFault s t k r (s.core k).act.pc (tileOf k)) ∧
    (∀ n, 1 ≤ slot → slot ≤ 31 → slot ≤ Line.count l → Line.wellFormed l = true → isSvc k = false →
      decodeParts (Line.parts l slot) = .error n →
      ∃ t r, step s = s.withFollowers s.pick (.next (t.pass k)) ∧ r.code = 0x01 ∧ r.sub = n ∧
        TakesFault s t k r (s.core k).act.pc (tileOf k)) ∧
    (1 ≤ slot → slot ≤ 31 → slot ≤ Line.count l → Line.wellFormed l = true → noEngineOp k (Line.parts l slot) = true →
      ∃ t r, step s = s.withFollowers s.pick (.next (t.pass k)) ∧ r.code = 0x01 ∧ r.sub = 1 ∧
        TakesFault s t k r (s.core k).act.pc (tileOf k)))

/-- R109, R113, R125, R394: where the bytes of the line at the PC decode, in the slot of the PC, to an instruction, the step is that
instruction's execution by its core, in the state that the fetch leaves, and then the turn passes on (log 2), with what the followers of
pairs do; where the core leads the one pair there is, its follower executes the same instruction with its own operands and keeps its own
results (log 17). No word decodes to a debugger's access, which is the named newt's alone. -/
def Obligations.StepRunsDecoded : Prop :=
  ∀ (s v u : State) (k pa slot : Nat) (d : Dest) (rest : List Happening) (l : Line) (i : Instr), AtBoundary s k rest d pa v →
    l = lineOfBytes (v.globalBytes d pa 64) → slot = (s.core k).act.pc.toNat % 64 → Line.wellFormed l = true →
    1 ≤ slot → slot ≤ 31 → slot ≤ Line.count l → decodeParts (Line.parts l slot) = .ok i →
    noEngineOp k (Line.parts l slot) = false → u = fetched v k d (v.globalBytes d pa 64) (Line.count l) →
    step s = s.withFollowers s.pick (passed k (exec i u)) ∧ (s.leads = [] → step s = passed k (exec i u)) ∧
      (∀ (f : Nat) (t w : State), (∀ a x, i ≠ .ddataAccess a x) → s.leads = [(k, f)] → exec i u = .next t →
        exec i (u.otherSide k f) = .next w → ((t.pass k).core k).alike ((w.pass k).core k) = true →
        step s = .next ((t.pass k).modCore f fun d => d.took (s.core f) ((w.pass k).core k) k)) ∧
    u.turn = k ∧ SameMemory s u ∧ (u.core k).regs = (s.core k).regs ∧
      (u.core k).act = { (s.core k).act with hdr := Line.count l }

/-- R109, R115 to R121: decoding the words of any well-formed instruction gives it back, with every operand at every value its encoding
admits. -/
def Obligations.DecodingInvertsEncoding : Prop :=
  ∀ (i : Instr) (ws : List (BitVec 16)), i.wf = true → encode i = some ws → decodeHalves ws = .ok i

/-- R115, R116, R119, R120 and the instruction entries: words written out from the encoding tables decode to what they stand for. -/
def Obligations.WrittenWordsDecode : Prop :=
  decodeHalves [0x01C0] = .ok .endAct ∧
  decodeHalves [0x4401, 0x0830] = .ok (.add 1 2 3) ∧
  decodeHalves [0x4945, 0x1872] = .ok (.cmp .lt 5 6 7) ∧
  decodeHalves [0x8B01, 0xFFFF, 0x083F] = .ok (.addi 1 2 0x3FFFFF) ∧
  decodeHalves [0x8040, 0xFFFF, 0x07FF] = .ok (.br 1 0x3FFFFFF) ∧
  decodeHalves [0x4100, 0xE000] = .ok (.jr 56) ∧
  decodeHalves [0x4200, 0x7F01] = .ok .trapKillContext

/-- R79, R86, R102, R104: the memories keep their one canonical form in every step: every byte has one place and a zero byte is not
listed, in the edge stations, in every local store, and in what a SWAP has saved of them (the form is the model's own; log 1). -/
def Obligations.StepKeepsMemory : Prop :=
  ∀ s t : State, s.memoryOk → (∀ p, ∀ e ∈ (s.part p).saved, e.2.ls.cells.wf = true) → step s = .next t →
    t.memoryOk ∧ ∀ p, ∀ e ∈ (t.part p).saved, e.2.ls.cells.wf = true

/-- R25, R26, R28, R31, R73, R81, R83, R95, R159, R214, R340, R345, R361, R364, R366, R368, R370, R376, R377, R397, R400, R402: what
reset leaves, where the manual gives a value; every memory reads zero and is in canonical form. One clause is not a value of the manual: the
root of the buddy tree is stored FREE, which is the model's representation; that R361 makes a node over a tile that is not ready BLOCKED is
derived from it (State.nodeReady). -/
def Obligations.ResetState : Prop :=
  let s := State.reset
  s.memoryOk ∧ (∀ p, ∀ e ∈ (s.part p).saved, e.2.ls.cells.wf = true) ∧
  s.cycle = 0 ∧ s.fade = 0 ∧ s.halted = false ∧ s.flight = [] ∧ s.events = [] ∧ find s.nodes 1 = some .free ∧
  (∀ tl, (s.tile tl).ready = false ∧ (s.tile tl).owner = none) ∧ s.host.stations = [] ∧ s.host.ports = [] ∧
  (∀ pa, s.phys.byte pa = 0 ∧ s.phys.dram.read pa = 0) ∧
  (∀ k, (s.core k).ctl.run = none ∧ (s.core k).ctl.guard = 128 ∧ (s.core k).ctl.gangm = 0 ∧ (s.core k).ctl.draw = 0 ∧
    (∀ ch, ((s.core k).chan ch).valid = false) ∧ (∀ h, ((s.core k).ring h).count = 0) ∧
    (∀ off, s.cellAt k off = 0 ∧ (s.tagAt k off).z = true ∧ (s.tagAt k off).x = false) ∧
    (s.core k).dbg.ctl = 0 ∧ (s.core k).dbg.halted = false) ∧
  (∀ p, (s.part p).retn = 1024 ∧ (s.part p).pre.state = 0 ∧ (s.part p).pre.evlim = 0x0040 ∧ (s.part p).pre.holdt = 0xFFFF ∧
    (s.part p).ptroot = 0 ∧ (s.part p).savebase = 0 ∧ (∀ i, Table.get 0 (s.part p).win i = 0) ∧
    (∀ q, (Table.get {} (s.part p).wd q).cfg = 0x01000000) ∧ (s.part p).tel.ctl = 20 ∧ (s.part p).tel.base = 0 ∧
    (s.ct p).qosvec = 0x041 ∧ (s.ct p).prevec = 0x040) ∧
  s.host.period = 1000 ∧ s.host.owner = false ∧ s.host.expired = false ∧ s.host.limit = 524288 ∧ s.host.admin.size = 0 ∧
  (∀ q, (Table.get {} s.trace q).state = 0)
end

