-- ==== Sys2Proof/Laws/Table.lean ====
section
/-! SUPPORT. The laws of sparse tables: a read after a write. -/

namespace Sys2Proof

@[simp] theorem Table.get_nil {α : Type} (d : α) (k : Nat) : Table.get d [] k = d := rfl

theorem Table.get_set_self {α : Type} (d : α) (t : Table α) (k : Nat) (v : α) :
    Table.get d (Table.set t k v) k = v := by
  induction t with
  | nil => simp [Table.set, Table.get]
  | cons e t ih =>
    obtain ⟨k', v'⟩ := e
    simp only [Table.set]
    split
    · simp [Table.get]
    · split <;> simp_all [Table.get]

theorem Table.get_set_of_ne {α : Type} (d : α) (t : Table α) {j k : Nat} (v : α) (h : j ≠ k) :
    Table.get d (Table.set t k v) j = Table.get d t j := by
  induction t with
  | nil => simp [Table.set, Table.get, h]
  | cons e t ih =>
    obtain ⟨k', v'⟩ := e
    simp only [Table.set]
    split
    · simp [Table.get, h]
    · split
      · simp_all [Table.get]
      · simp [Table.get, ih]

theorem Table.get_set {α : Type} (d : α) (t : Table α) (j k : Nat) (v : α) :
    Table.get d (Table.set t k v) j = if j = k then v else Table.get d t j := by
  split
  · next h => subst h; exact Table.get_set_self d t j v
  · next h => exact Table.get_set_of_ne d t v h

/-- Only the last write to a key counts. -/
theorem Table.set_set {α : Type} (t : Table α) (k : Nat) (x y : α) : Table.set (Table.set t k x) k y = Table.set t k y := by
  induction t with
  | nil => simp [Table.set]
  | cons e t ih =>
    obtain ⟨k', v'⟩ := e
    by_cases h1 : k < k'
    · simp [Table.set, h1]
    · by_cases h2 : k = k'
      · simp [Table.set, h2]
      · simp [Table.set, h1, h2, ih]

end Sys2Proof
end

