-- ==== Sys2Proof/Laws/State.lean ====
section
/-! SUPPORT. What each update of the state and of a core leaves in every field: one lemma per field per update. -/

namespace Sys2Proof.Machine

/-! ## Updates of the state -/

@[simp] theorem State.setCore_cycle (s : State) (k : Nat) (c : Core) : (s.setCore k c).cycle = s.cycle := rfl
@[simp] theorem State.setCore_clock (s : State) (k : Nat) (c : Core) : (s.setCore k c).clock = s.clock := rfl
@[simp] theorem State.setCore_paid (s : State) (k : Nat) (c : Core) : (s.setCore k c).paid = s.paid := rfl
@[simp] theorem State.setCore_swept (s : State) (k : Nat) (c : Core) : (s.setCore k c).swept = s.swept := rfl
@[simp] theorem State.setCore_freeCount (s : State) (k : Nat) (c : Core) : (s.setCore k c).freeCount = s.freeCount := rfl
@[simp] theorem State.setCore_turn (s : State) (k : Nat) (c : Core) : (s.setCore k c).turn = s.turn := rfl
@[simp] theorem State.setCore_odd (s : State) (k : Nat) (c : Core) : (s.setCore k c).odd = s.odd := rfl
@[simp] theorem State.setCore_agenda (s : State) (k : Nat) (c : Core) : (s.setCore k c).agenda = s.agenda := rfl
@[simp] theorem State.setCore_flight (s : State) (k : Nat) (c : Core) : (s.setCore k c).flight = s.flight := rfl
@[simp] theorem State.setCore_late (s : State) (k : Nat) (c : Core) : (s.setCore k c).late = s.late := rfl
@[simp] theorem State.setCore_tiles (s : State) (k : Nat) (c : Core) : (s.setCore k c).tiles = s.tiles := rfl
@[simp] theorem State.setCore_phys (s : State) (k : Nat) (c : Core) : (s.setCore k c).phys = s.phys := rfl
@[simp] theorem State.setCore_events (s : State) (k : Nat) (c : Core) : (s.setCore k c).events = s.events := rfl
@[simp] theorem State.setCore_bars (s : State) (k : Nat) (c : Core) : (s.setCore k c).bars = s.bars := rfl
@[simp] theorem State.setCore_parts (s : State) (k : Nat) (c : Core) : (s.setCore k c).parts = s.parts := rfl
@[simp] theorem State.setCore_nodes (s : State) (k : Nat) (c : Core) : (s.setCore k c).nodes = s.nodes := rfl
@[simp] theorem State.setCore_blocks (s : State) (k : Nat) (c : Core) : (s.setCore k c).blocks = s.blocks := rfl
@[simp] theorem State.setCore_refills (s : State) (k : Nat) (c : Core) : (s.setCore k c).refills = s.refills := rfl
@[simp] theorem State.setCore_host (s : State) (k : Nat) (c : Core) : (s.setCore k c).host = s.host := rfl
@[simp] theorem State.setCore_net (s : State) (k : Nat) (c : Core) : (s.setCore k c).net = s.net := rfl
@[simp] theorem State.setCore_trace (s : State) (k : Nat) (c : Core) : (s.setCore k c).trace = s.trace := rfl
@[simp] theorem State.setCore_paused (s : State) (k : Nat) (c : Core) : (s.setCore k c).paused = s.paused := rfl
@[simp] theorem State.setCore_halted (s : State) (k : Nat) (c : Core) : (s.setCore k c).halted = s.halted := rfl

@[simp] theorem State.modCore_cycle (s : State) (k : Nat) (f : Core → Core) : (s.modCore k f).cycle = s.cycle := rfl
@[simp] theorem State.modCore_clock (s : State) (k : Nat) (f : Core → Core) : (s.modCore k f).clock = s.clock := rfl
@[simp] theorem State.modCore_paid (s : State) (k : Nat) (f : Core → Core) : (s.modCore k f).paid = s.paid := rfl
@[simp] theorem State.modCore_swept (s : State) (k : Nat) (f : Core → Core) : (s.modCore k f).swept = s.swept := rfl
@[simp] theorem State.modCore_freeCount (s : State) (k : Nat) (f : Core → Core) : (s.modCore k f).freeCount = s.freeCount := rfl
@[simp] theorem State.modCore_turn (s : State) (k : Nat) (f : Core → Core) : (s.modCore k f).turn = s.turn := rfl
@[simp] theorem State.modCore_odd (s : State) (k : Nat) (f : Core → Core) : (s.modCore k f).odd = s.odd := rfl
@[simp] theorem State.modCore_agenda (s : State) (k : Nat) (f : Core → Core) : (s.modCore k f).agenda = s.agenda := rfl
@[simp] theorem State.modCore_flight (s : State) (k : Nat) (f : Core → Core) : (s.modCore k f).flight = s.flight := rfl
@[simp] theorem State.modCore_late (s : State) (k : Nat) (f : Core → Core) : (s.modCore k f).late = s.late := rfl
@[simp] theorem State.modCore_tiles (s : State) (k : Nat) (f : Core → Core) : (s.modCore k f).tiles = s.tiles := rfl
@[simp] theorem State.modCore_phys (s : State) (k : Nat) (f : Core → Core) : (s.modCore k f).phys = s.phys := rfl
@[simp] theorem State.modCore_events (s : State) (k : Nat) (f : Core → Core) : (s.modCore k f).events = s.events := rfl
@[simp] theorem State.modCore_bars (s : State) (k : Nat) (f : Core → Core) : (s.modCore k f).bars = s.bars := rfl
@[simp] theorem State.modCore_parts (s : State) (k : Nat) (f : Core → Core) : (s.modCore k f).parts = s.parts := rfl
@[simp] theorem State.modCore_nodes (s : State) (k : Nat) (f : Core → Core) : (s.modCore k f).nodes = s.nodes := rfl
@[simp] theorem State.modCore_blocks (s : State) (k : Nat) (f : Core → Core) : (s.modCore k f).blocks = s.blocks := rfl
@[simp] theorem State.modCore_refills (s : State) (k : Nat) (f : Core → Core) : (s.modCore k f).refills = s.refills := rfl
@[simp] theorem State.modCore_host (s : State) (k : Nat) (f : Core → Core) : (s.modCore k f).host = s.host := rfl
@[simp] theorem State.modCore_net (s : State) (k : Nat) (f : Core → Core) : (s.modCore k f).net = s.net := rfl
@[simp] theorem State.modCore_trace (s : State) (k : Nat) (f : Core → Core) : (s.modCore k f).trace = s.trace := rfl
@[simp] theorem State.modCore_paused (s : State) (k : Nat) (f : Core → Core) : (s.modCore k f).paused = s.paused := rfl
@[simp] theorem State.modCore_halted (s : State) (k : Nat) (f : Core → Core) : (s.modCore k f).halted = s.halted := rfl

@[simp] theorem State.modLs_cycle (s : State) (k : Nat) (f : Local → Local) : (s.modLs k f).cycle = s.cycle := rfl
@[simp] theorem State.modLs_clock (s : State) (k : Nat) (f : Local → Local) : (s.modLs k f).clock = s.clock := rfl
@[simp] theorem State.modLs_paid (s : State) (k : Nat) (f : Local → Local) : (s.modLs k f).paid = s.paid := rfl
@[simp] theorem State.modLs_swept (s : State) (k : Nat) (f : Local → Local) : (s.modLs k f).swept = s.swept := rfl
@[simp] theorem State.modLs_freeCount (s : State) (k : Nat) (f : Local → Local) : (s.modLs k f).freeCount = s.freeCount := rfl
@[simp] theorem State.modLs_turn (s : State) (k : Nat) (f : Local → Local) : (s.modLs k f).turn = s.turn := rfl
@[simp] theorem State.modLs_odd (s : State) (k : Nat) (f : Local → Local) : (s.modLs k f).odd = s.odd := rfl
@[simp] theorem State.modLs_agenda (s : State) (k : Nat) (f : Local → Local) : (s.modLs k f).agenda = s.agenda := rfl
@[simp] theorem State.modLs_flight (s : State) (k : Nat) (f : Local → Local) : (s.modLs k f).flight = s.flight := rfl
@[simp] theorem State.modLs_late (s : State) (k : Nat) (f : Local → Local) : (s.modLs k f).late = s.late := rfl
@[simp] theorem State.modLs_tiles (s : State) (k : Nat) (f : Local → Local) : (s.modLs k f).tiles = s.tiles := rfl
@[simp] theorem State.modLs_phys (s : State) (k : Nat) (f : Local → Local) : (s.modLs k f).phys = s.phys := rfl
@[simp] theorem State.modLs_events (s : State) (k : Nat) (f : Local → Local) : (s.modLs k f).events = s.events := rfl
@[simp] theorem State.modLs_bars (s : State) (k : Nat) (f : Local → Local) : (s.modLs k f).bars = s.bars := rfl
@[simp] theorem State.modLs_parts (s : State) (k : Nat) (f : Local → Local) : (s.modLs k f).parts = s.parts := rfl
@[simp] theorem State.modLs_nodes (s : State) (k : Nat) (f : Local → Local) : (s.modLs k f).nodes = s.nodes := rfl
@[simp] theorem State.modLs_blocks (s : State) (k : Nat) (f : Local → Local) : (s.modLs k f).blocks = s.blocks := rfl
@[simp] theorem State.modLs_refills (s : State) (k : Nat) (f : Local → Local) : (s.modLs k f).refills = s.refills := rfl
@[simp] theorem State.modLs_host (s : State) (k : Nat) (f : Local → Local) : (s.modLs k f).host = s.host := rfl
@[simp] theorem State.modLs_net (s : State) (k : Nat) (f : Local → Local) : (s.modLs k f).net = s.net := rfl
@[simp] theorem State.modLs_trace (s : State) (k : Nat) (f : Local → Local) : (s.modLs k f).trace = s.trace := rfl
@[simp] theorem State.modLs_paused (s : State) (k : Nat) (f : Local → Local) : (s.modLs k f).paused = s.paused := rfl
@[simp] theorem State.modLs_halted (s : State) (k : Nat) (f : Local → Local) : (s.modLs k f).halted = s.halted := rfl

@[simp] theorem State.modTile_cycle (s : State) (t : Nat) (f : Tile → Tile) : (s.modTile t f).cycle = s.cycle := rfl
@[simp] theorem State.modTile_clock (s : State) (t : Nat) (f : Tile → Tile) : (s.modTile t f).clock = s.clock := rfl
@[simp] theorem State.modTile_paid (s : State) (t : Nat) (f : Tile → Tile) : (s.modTile t f).paid = s.paid := rfl
@[simp] theorem State.modTile_swept (s : State) (t : Nat) (f : Tile → Tile) : (s.modTile t f).swept = s.swept := rfl
@[simp] theorem State.modTile_freeCount (s : State) (t : Nat) (f : Tile → Tile) : (s.modTile t f).freeCount = s.freeCount := rfl
@[simp] theorem State.modTile_turn (s : State) (t : Nat) (f : Tile → Tile) : (s.modTile t f).turn = s.turn := rfl
@[simp] theorem State.modTile_odd (s : State) (t : Nat) (f : Tile → Tile) : (s.modTile t f).odd = s.odd := rfl
@[simp] theorem State.modTile_agenda (s : State) (t : Nat) (f : Tile → Tile) : (s.modTile t f).agenda = s.agenda := rfl
@[simp] theorem State.modTile_flight (s : State) (t : Nat) (f : Tile → Tile) : (s.modTile t f).flight = s.flight := rfl
@[simp] theorem State.modTile_late (s : State) (t : Nat) (f : Tile → Tile) : (s.modTile t f).late = s.late := rfl
@[simp] theorem State.modTile_cores (s : State) (t : Nat) (f : Tile → Tile) : (s.modTile t f).cores = s.cores := rfl
@[simp] theorem State.modTile_phys (s : State) (t : Nat) (f : Tile → Tile) : (s.modTile t f).phys = s.phys := rfl
@[simp] theorem State.modTile_events (s : State) (t : Nat) (f : Tile → Tile) : (s.modTile t f).events = s.events := rfl
@[simp] theorem State.modTile_bars (s : State) (t : Nat) (f : Tile → Tile) : (s.modTile t f).bars = s.bars := rfl
@[simp] theorem State.modTile_parts (s : State) (t : Nat) (f : Tile → Tile) : (s.modTile t f).parts = s.parts := rfl
@[simp] theorem State.modTile_nodes (s : State) (t : Nat) (f : Tile → Tile) : (s.modTile t f).nodes = s.nodes := rfl
@[simp] theorem State.modTile_blocks (s : State) (t : Nat) (f : Tile → Tile) : (s.modTile t f).blocks = s.blocks := rfl
@[simp] theorem State.modTile_refills (s : State) (t : Nat) (f : Tile → Tile) : (s.modTile t f).refills = s.refills := rfl
@[simp] theorem State.modTile_host (s : State) (t : Nat) (f : Tile → Tile) : (s.modTile t f).host = s.host := rfl
@[simp] theorem State.modTile_net (s : State) (t : Nat) (f : Tile → Tile) : (s.modTile t f).net = s.net := rfl
@[simp] theorem State.modTile_trace (s : State) (t : Nat) (f : Tile → Tile) : (s.modTile t f).trace = s.trace := rfl
@[simp] theorem State.modTile_paused (s : State) (t : Nat) (f : Tile → Tile) : (s.modTile t f).paused = s.paused := rfl
@[simp] theorem State.modTile_halted (s : State) (t : Nat) (f : Tile → Tile) : (s.modTile t f).halted = s.halted := rfl

@[simp] theorem State.modSvc_cycle (s : State) (t : Nat) (f : Svc → Svc) : (s.modSvc t f).cycle = s.cycle := rfl
@[simp] theorem State.modSvc_clock (s : State) (t : Nat) (f : Svc → Svc) : (s.modSvc t f).clock = s.clock := rfl
@[simp] theorem State.modSvc_paid (s : State) (t : Nat) (f : Svc → Svc) : (s.modSvc t f).paid = s.paid := rfl
@[simp] theorem State.modSvc_swept (s : State) (t : Nat) (f : Svc → Svc) : (s.modSvc t f).swept = s.swept := rfl
@[simp] theorem State.modSvc_freeCount (s : State) (t : Nat) (f : Svc → Svc) : (s.modSvc t f).freeCount = s.freeCount := rfl
@[simp] theorem State.modSvc_turn (s : State) (t : Nat) (f : Svc → Svc) : (s.modSvc t f).turn = s.turn := rfl
@[simp] theorem State.modSvc_odd (s : State) (t : Nat) (f : Svc → Svc) : (s.modSvc t f).odd = s.odd := rfl
@[simp] theorem State.modSvc_agenda (s : State) (t : Nat) (f : Svc → Svc) : (s.modSvc t f).agenda = s.agenda := rfl
@[simp] theorem State.modSvc_flight (s : State) (t : Nat) (f : Svc → Svc) : (s.modSvc t f).flight = s.flight := rfl
@[simp] theorem State.modSvc_late (s : State) (t : Nat) (f : Svc → Svc) : (s.modSvc t f).late = s.late := rfl
@[simp] theorem State.modSvc_cores (s : State) (t : Nat) (f : Svc → Svc) : (s.modSvc t f).cores = s.cores := rfl
@[simp] theorem State.modSvc_phys (s : State) (t : Nat) (f : Svc → Svc) : (s.modSvc t f).phys = s.phys := rfl
@[simp] theorem State.modSvc_events (s : State) (t : Nat) (f : Svc → Svc) : (s.modSvc t f).events = s.events := rfl
@[simp] theorem State.modSvc_bars (s : State) (t : Nat) (f : Svc → Svc) : (s.modSvc t f).bars = s.bars := rfl
@[simp] theorem State.modSvc_parts (s : State) (t : Nat) (f : Svc → Svc) : (s.modSvc t f).parts = s.parts := rfl
@[simp] theorem State.modSvc_nodes (s : State) (t : Nat) (f : Svc → Svc) : (s.modSvc t f).nodes = s.nodes := rfl
@[simp] theorem State.modSvc_blocks (s : State) (t : Nat) (f : Svc → Svc) : (s.modSvc t f).blocks = s.blocks := rfl
@[simp] theorem State.modSvc_refills (s : State) (t : Nat) (f : Svc → Svc) : (s.modSvc t f).refills = s.refills := rfl
@[simp] theorem State.modSvc_host (s : State) (t : Nat) (f : Svc → Svc) : (s.modSvc t f).host = s.host := rfl
@[simp] theorem State.modSvc_net (s : State) (t : Nat) (f : Svc → Svc) : (s.modSvc t f).net = s.net := rfl
@[simp] theorem State.modSvc_trace (s : State) (t : Nat) (f : Svc → Svc) : (s.modSvc t f).trace = s.trace := rfl
@[simp] theorem State.modSvc_paused (s : State) (t : Nat) (f : Svc → Svc) : (s.modSvc t f).paused = s.paused := rfl
@[simp] theorem State.modSvc_halted (s : State) (t : Nat) (f : Svc → Svc) : (s.modSvc t f).halted = s.halted := rfl

@[simp] theorem State.modPart_cycle (s : State) (p : Nat) (f : Part → Part) : (s.modPart p f).cycle = s.cycle := rfl
@[simp] theorem State.modPart_clock (s : State) (p : Nat) (f : Part → Part) : (s.modPart p f).clock = s.clock := rfl
@[simp] theorem State.modPart_paid (s : State) (p : Nat) (f : Part → Part) : (s.modPart p f).paid = s.paid := rfl
@[simp] theorem State.modPart_swept (s : State) (p : Nat) (f : Part → Part) : (s.modPart p f).swept = s.swept := rfl
@[simp] theorem State.modPart_freeCount (s : State) (p : Nat) (f : Part → Part) : (s.modPart p f).freeCount = s.freeCount := rfl
@[simp] theorem State.modPart_turn (s : State) (p : Nat) (f : Part → Part) : (s.modPart p f).turn = s.turn := rfl
@[simp] theorem State.modPart_odd (s : State) (p : Nat) (f : Part → Part) : (s.modPart p f).odd = s.odd := rfl
@[simp] theorem State.modPart_agenda (s : State) (p : Nat) (f : Part → Part) : (s.modPart p f).agenda = s.agenda := rfl
@[simp] theorem State.modPart_flight (s : State) (p : Nat) (f : Part → Part) : (s.modPart p f).flight = s.flight := rfl
@[simp] theorem State.modPart_late (s : State) (p : Nat) (f : Part → Part) : (s.modPart p f).late = s.late := rfl
@[simp] theorem State.modPart_cores (s : State) (p : Nat) (f : Part → Part) : (s.modPart p f).cores = s.cores := rfl
@[simp] theorem State.modPart_tiles (s : State) (p : Nat) (f : Part → Part) : (s.modPart p f).tiles = s.tiles := rfl
@[simp] theorem State.modPart_phys (s : State) (p : Nat) (f : Part → Part) : (s.modPart p f).phys = s.phys := rfl
@[simp] theorem State.modPart_events (s : State) (p : Nat) (f : Part → Part) : (s.modPart p f).events = s.events := rfl
@[simp] theorem State.modPart_bars (s : State) (p : Nat) (f : Part → Part) : (s.modPart p f).bars = s.bars := rfl
@[simp] theorem State.modPart_nodes (s : State) (p : Nat) (f : Part → Part) : (s.modPart p f).nodes = s.nodes := rfl
@[simp] theorem State.modPart_blocks (s : State) (p : Nat) (f : Part → Part) : (s.modPart p f).blocks = s.blocks := rfl
@[simp] theorem State.modPart_refills (s : State) (p : Nat) (f : Part → Part) : (s.modPart p f).refills = s.refills := rfl
@[simp] theorem State.modPart_host (s : State) (p : Nat) (f : Part → Part) : (s.modPart p f).host = s.host := rfl
@[simp] theorem State.modPart_net (s : State) (p : Nat) (f : Part → Part) : (s.modPart p f).net = s.net := rfl
@[simp] theorem State.modPart_trace (s : State) (p : Nat) (f : Part → Part) : (s.modPart p f).trace = s.trace := rfl
@[simp] theorem State.modPart_paused (s : State) (p : Nat) (f : Part → Part) : (s.modPart p f).paused = s.paused := rfl
@[simp] theorem State.modPart_halted (s : State) (p : Nat) (f : Part → Part) : (s.modPart p f).halted = s.halted := rfl

/-! ## Updates of a core -/

@[simp] theorem Core.modCtl_regs (c : Core) (f : CoreCtl → CoreCtl) : (c.modCtl f).regs = c.regs := rfl
@[simp] theorem Core.modCtl_slots (c : Core) (f : CoreCtl → CoreCtl) : (c.modCtl f).slots = c.slots := rfl
@[simp] theorem Core.modCtl_moved (c : Core) (f : CoreCtl → CoreCtl) : (c.modCtl f).moved = c.moved := rfl
@[simp] theorem Core.modCtl_chans (c : Core) (f : CoreCtl → CoreCtl) : (c.modCtl f).chans = c.chans := rfl
@[simp] theorem Core.modCtl_inq (c : Core) (f : CoreCtl → CoreCtl) : (c.modCtl f).inq = c.inq := rfl
@[simp] theorem Core.modCtl_ord (c : Core) (f : CoreCtl → CoreCtl) : (c.modCtl f).ord = c.ord := rfl
@[simp] theorem Core.modCtl_obl (c : Core) (f : CoreCtl → CoreCtl) : (c.modCtl f).obl = c.obl := rfl
@[simp] theorem Core.modCtl_spilt (c : Core) (f : CoreCtl → CoreCtl) : (c.modCtl f).spilt = c.spilt := rfl
@[simp] theorem Core.modCtl_ls (c : Core) (f : CoreCtl → CoreCtl) : (c.modCtl f).ls = c.ls := rfl
@[simp] theorem Core.modCtl_vec (c : Core) (f : CoreCtl → CoreCtl) : (c.modCtl f).vec = c.vec := rfl
@[simp] theorem Core.modCtl_eng (c : Core) (f : CoreCtl → CoreCtl) : (c.modCtl f).eng = c.eng := rfl
@[simp] theorem Core.modCtl_dbg (c : Core) (f : CoreCtl → CoreCtl) : (c.modCtl f).dbg = c.dbg := rfl
@[simp] theorem Core.modCtl_cnt (c : Core) (f : CoreCtl → CoreCtl) : (c.modCtl f).cnt = c.cnt := rfl
@[simp] theorem Core.modCtl_icache (c : Core) (f : CoreCtl → CoreCtl) : (c.modCtl f).icache = c.icache := rfl
@[simp] theorem Core.modCtl_par (c : Core) (f : CoreCtl → CoreCtl) : (c.modCtl f).par = c.par := rfl
@[simp] theorem Core.modCtl_asked (c : Core) (f : CoreCtl → CoreCtl) : (c.modCtl f).asked = c.asked := rfl
@[simp] theorem Core.modCtl_twin (c : Core) (f : CoreCtl → CoreCtl) : (c.modCtl f).twin = c.twin := rfl

@[simp] theorem Core.modSlot_ctl (c : Core) (i : Nat) (f : Act → Act) : (c.modSlot i f).ctl = c.ctl := rfl
@[simp] theorem Core.modSlot_regs (c : Core) (i : Nat) (f : Act → Act) : (c.modSlot i f).regs = c.regs := rfl
@[simp] theorem Core.modSlot_moved (c : Core) (i : Nat) (f : Act → Act) : (c.modSlot i f).moved = c.moved := rfl
@[simp] theorem Core.modSlot_chans (c : Core) (i : Nat) (f : Act → Act) : (c.modSlot i f).chans = c.chans := rfl
@[simp] theorem Core.modSlot_inq (c : Core) (i : Nat) (f : Act → Act) : (c.modSlot i f).inq = c.inq := rfl
@[simp] theorem Core.modSlot_ord (c : Core) (i : Nat) (f : Act → Act) : (c.modSlot i f).ord = c.ord := rfl
@[simp] theorem Core.modSlot_obl (c : Core) (i : Nat) (f : Act → Act) : (c.modSlot i f).obl = c.obl := rfl
@[simp] theorem Core.modSlot_spilt (c : Core) (i : Nat) (f : Act → Act) : (c.modSlot i f).spilt = c.spilt := rfl
@[simp] theorem Core.modSlot_ls (c : Core) (i : Nat) (f : Act → Act) : (c.modSlot i f).ls = c.ls := rfl
@[simp] theorem Core.modSlot_vec (c : Core) (i : Nat) (f : Act → Act) : (c.modSlot i f).vec = c.vec := rfl
@[simp] theorem Core.modSlot_eng (c : Core) (i : Nat) (f : Act → Act) : (c.modSlot i f).eng = c.eng := rfl
@[simp] theorem Core.modSlot_dbg (c : Core) (i : Nat) (f : Act → Act) : (c.modSlot i f).dbg = c.dbg := rfl
@[simp] theorem Core.modSlot_cnt (c : Core) (i : Nat) (f : Act → Act) : (c.modSlot i f).cnt = c.cnt := rfl
@[simp] theorem Core.modSlot_icache (c : Core) (i : Nat) (f : Act → Act) : (c.modSlot i f).icache = c.icache := rfl
@[simp] theorem Core.modSlot_par (c : Core) (i : Nat) (f : Act → Act) : (c.modSlot i f).par = c.par := rfl
@[simp] theorem Core.modSlot_asked (c : Core) (i : Nat) (f : Act → Act) : (c.modSlot i f).asked = c.asked := rfl
@[simp] theorem Core.modSlot_twin (c : Core) (i : Nat) (f : Act → Act) : (c.modSlot i f).twin = c.twin := rfl

@[simp] theorem Core.setChan_ctl (c : Core) (ch : Nat) (e : Chan) : (c.setChan ch e).ctl = c.ctl := rfl
@[simp] theorem Core.setChan_regs (c : Core) (ch : Nat) (e : Chan) : (c.setChan ch e).regs = c.regs := rfl
@[simp] theorem Core.setChan_slots (c : Core) (ch : Nat) (e : Chan) : (c.setChan ch e).slots = c.slots := rfl
@[simp] theorem Core.setChan_moved (c : Core) (ch : Nat) (e : Chan) : (c.setChan ch e).moved = c.moved := rfl
@[simp] theorem Core.setChan_inq (c : Core) (ch : Nat) (e : Chan) : (c.setChan ch e).inq = c.inq := rfl
@[simp] theorem Core.setChan_ord (c : Core) (ch : Nat) (e : Chan) : (c.setChan ch e).ord = c.ord := rfl
@[simp] theorem Core.setChan_obl (c : Core) (ch : Nat) (e : Chan) : (c.setChan ch e).obl = c.obl := rfl
@[simp] theorem Core.setChan_spilt (c : Core) (ch : Nat) (e : Chan) : (c.setChan ch e).spilt = c.spilt := rfl
@[simp] theorem Core.setChan_ls (c : Core) (ch : Nat) (e : Chan) : (c.setChan ch e).ls = c.ls := rfl
@[simp] theorem Core.setChan_vec (c : Core) (ch : Nat) (e : Chan) : (c.setChan ch e).vec = c.vec := rfl
@[simp] theorem Core.setChan_eng (c : Core) (ch : Nat) (e : Chan) : (c.setChan ch e).eng = c.eng := rfl
@[simp] theorem Core.setChan_dbg (c : Core) (ch : Nat) (e : Chan) : (c.setChan ch e).dbg = c.dbg := rfl
@[simp] theorem Core.setChan_cnt (c : Core) (ch : Nat) (e : Chan) : (c.setChan ch e).cnt = c.cnt := rfl
@[simp] theorem Core.setChan_icache (c : Core) (ch : Nat) (e : Chan) : (c.setChan ch e).icache = c.icache := rfl
@[simp] theorem Core.setChan_par (c : Core) (ch : Nat) (e : Chan) : (c.setChan ch e).par = c.par := rfl
@[simp] theorem Core.setChan_asked (c : Core) (ch : Nat) (e : Chan) : (c.setChan ch e).asked = c.asked := rfl
@[simp] theorem Core.setChan_twin (c : Core) (ch : Nat) (e : Chan) : (c.setChan ch e).twin = c.twin := rfl

@[simp] theorem Core.modInb_ctl (c : Core) (ch : Nat) (f : Inq → Inq) : (c.modInb ch f).ctl = c.ctl := rfl
@[simp] theorem Core.modInb_regs (c : Core) (ch : Nat) (f : Inq → Inq) : (c.modInb ch f).regs = c.regs := rfl
@[simp] theorem Core.modInb_slots (c : Core) (ch : Nat) (f : Inq → Inq) : (c.modInb ch f).slots = c.slots := rfl
@[simp] theorem Core.modInb_moved (c : Core) (ch : Nat) (f : Inq → Inq) : (c.modInb ch f).moved = c.moved := rfl
@[simp] theorem Core.modInb_chans (c : Core) (ch : Nat) (f : Inq → Inq) : (c.modInb ch f).chans = c.chans := rfl
@[simp] theorem Core.modInb_ord (c : Core) (ch : Nat) (f : Inq → Inq) : (c.modInb ch f).ord = c.ord := rfl
@[simp] theorem Core.modInb_obl (c : Core) (ch : Nat) (f : Inq → Inq) : (c.modInb ch f).obl = c.obl := rfl
@[simp] theorem Core.modInb_spilt (c : Core) (ch : Nat) (f : Inq → Inq) : (c.modInb ch f).spilt = c.spilt := rfl
@[simp] theorem Core.modInb_ls (c : Core) (ch : Nat) (f : Inq → Inq) : (c.modInb ch f).ls = c.ls := rfl
@[simp] theorem Core.modInb_vec (c : Core) (ch : Nat) (f : Inq → Inq) : (c.modInb ch f).vec = c.vec := rfl
@[simp] theorem Core.modInb_eng (c : Core) (ch : Nat) (f : Inq → Inq) : (c.modInb ch f).eng = c.eng := rfl
@[simp] theorem Core.modInb_dbg (c : Core) (ch : Nat) (f : Inq → Inq) : (c.modInb ch f).dbg = c.dbg := rfl
@[simp] theorem Core.modInb_cnt (c : Core) (ch : Nat) (f : Inq → Inq) : (c.modInb ch f).cnt = c.cnt := rfl
@[simp] theorem Core.modInb_icache (c : Core) (ch : Nat) (f : Inq → Inq) : (c.modInb ch f).icache = c.icache := rfl
@[simp] theorem Core.modInb_par (c : Core) (ch : Nat) (f : Inq → Inq) : (c.modInb ch f).par = c.par := rfl
@[simp] theorem Core.modInb_asked (c : Core) (ch : Nat) (f : Inq → Inq) : (c.modInb ch f).asked = c.asked := rfl
@[simp] theorem Core.modInb_twin (c : Core) (ch : Nat) (f : Inq → Inq) : (c.modInb ch f).twin = c.twin := rfl

@[simp] theorem Core.setRing_ctl (c : Core) (h : Nat) (r : Ring) : (c.setRing h r).ctl = c.ctl := rfl
@[simp] theorem Core.setRing_regs (c : Core) (h : Nat) (r : Ring) : (c.setRing h r).regs = c.regs := rfl
@[simp] theorem Core.setRing_slots (c : Core) (h : Nat) (r : Ring) : (c.setRing h r).slots = c.slots := rfl
@[simp] theorem Core.setRing_moved (c : Core) (h : Nat) (r : Ring) : (c.setRing h r).moved = c.moved := rfl
@[simp] theorem Core.setRing_chans (c : Core) (h : Nat) (r : Ring) : (c.setRing h r).chans = c.chans := rfl
@[simp] theorem Core.setRing_inq (c : Core) (h : Nat) (r : Ring) : (c.setRing h r).inq = c.inq := rfl
@[simp] theorem Core.setRing_ord (c : Core) (h : Nat) (r : Ring) : (c.setRing h r).ord = c.ord := rfl
@[simp] theorem Core.setRing_obl (c : Core) (h : Nat) (r : Ring) : (c.setRing h r).obl = c.obl := rfl
@[simp] theorem Core.setRing_spilt (c : Core) (h : Nat) (r : Ring) : (c.setRing h r).spilt = c.spilt := rfl
@[simp] theorem Core.setRing_ls (c : Core) (h : Nat) (r : Ring) : (c.setRing h r).ls = c.ls := rfl
@[simp] theorem Core.setRing_eng (c : Core) (h : Nat) (r : Ring) : (c.setRing h r).eng = c.eng := rfl
@[simp] theorem Core.setRing_dbg (c : Core) (h : Nat) (r : Ring) : (c.setRing h r).dbg = c.dbg := rfl
@[simp] theorem Core.setRing_cnt (c : Core) (h : Nat) (r : Ring) : (c.setRing h r).cnt = c.cnt := rfl
@[simp] theorem Core.setRing_icache (c : Core) (h : Nat) (r : Ring) : (c.setRing h r).icache = c.icache := rfl
@[simp] theorem Core.setRing_par (c : Core) (h : Nat) (r : Ring) : (c.setRing h r).par = c.par := rfl
@[simp] theorem Core.setRing_asked (c : Core) (h : Nat) (r : Ring) : (c.setRing h r).asked = c.asked := rfl
@[simp] theorem Core.setRing_twin (c : Core) (h : Nat) (r : Ring) : (c.setRing h r).twin = c.twin := rfl

@[simp] theorem Core.modCtl_ctl (c : Core) (f : CoreCtl → CoreCtl) : (c.modCtl f).ctl = f c.ctl := rfl

/-! ## Reads after updates -/

@[simp] theorem State.core_setCore (s : State) (k : Nat) (c : Core) : (s.setCore k c).core k = c := Table.get_set_self _ _ _ _

theorem State.core_setCore_of_ne (s : State) {j k : Nat} (c : Core) (h : j ≠ k) : (s.setCore k c).core j = s.core j :=
  Table.get_set_of_ne _ _ _ h

@[simp] theorem State.core_modCore (s : State) (k : Nat) (f : Core → Core) : (s.modCore k f).core k = f (s.core k) :=
  Table.get_set_self _ _ _ _

theorem State.core_modCore_of_ne (s : State) {j k : Nat} (f : Core → Core) (h : j ≠ k) : (s.modCore k f).core j = s.core j :=
  Table.get_set_of_ne _ _ _ h

theorem State.core_modCore_eq (s : State) (j k : Nat) (f : Core → Core) :
    (s.modCore k f).core j = if j = k then f (s.core j) else s.core j := by
  split
  · next h => subst h; exact State.core_modCore s j f
  · next h => exact State.core_modCore_of_ne s f h

@[simp] theorem State.core_modTile (s : State) (t : Nat) (f : Tile → Tile) (k : Nat) : (s.modTile t f).core k = s.core k := rfl

@[simp] theorem State.core_modPart (s : State) (p : Nat) (f : Part → Part) (k : Nat) : (s.modPart p f).core k = s.core k := rfl

@[simp] theorem State.tile_modCore (s : State) (k : Nat) (f : Core → Core) (t : Nat) : (s.modCore k f).tile t = s.tile t := rfl

@[simp] theorem State.part_modCore (s : State) (k : Nat) (f : Core → Core) (p : Nat) : (s.modCore k f).part p = s.part p := rfl

@[simp] theorem State.tile_modTile (s : State) (t : Nat) (f : Tile → Tile) : (s.modTile t f).tile t = f (s.tile t) :=
  Table.get_set_self _ _ _ _

theorem State.tile_modTile_of_ne (s : State) {j t : Nat} (f : Tile → Tile) (h : j ≠ t) : (s.modTile t f).tile j = s.tile j :=
  Table.get_set_of_ne _ _ _ h

@[simp] theorem State.part_modPart (s : State) (p : Nat) (f : Part → Part) : (s.modPart p f).part p = f (s.part p) :=
  Table.get_set_self _ _ _ _

theorem State.part_modPart_of_ne (s : State) {j p : Nat} (f : Part → Part) (h : j ≠ p) : (s.modPart p f).part j = s.part j :=
  Table.get_set_of_ne _ _ _ h

@[simp] theorem Core.slot_modSlot (c : Core) (i : Nat) (f : Act → Act) : (c.modSlot i f).slot i = f (c.slot i) :=
  Table.get_set_self _ _ _ _

theorem Core.slot_modSlot_of_ne (c : Core) {i j : Nat} (f : Act → Act) (h : j ≠ i) : (c.modSlot i f).slot j = c.slot j :=
  Table.get_set_of_ne _ _ _ h

@[simp] theorem Core.slot_modCtl (c : Core) (f : CoreCtl → CoreCtl) (i : Nat) : (c.modCtl f).slot i = c.slot i := rfl

@[simp] theorem Core.inb_modInb (c : Core) (ch : Nat) (f : Inq → Inq) : (c.modInb ch f).inb ch = f (c.inb ch) :=
  Table.get_set_self _ _ _ _

theorem Core.inb_modInb_of_ne (c : Core) {j ch : Nat} (f : Inq → Inq) (h : j ≠ ch) : (c.modInb ch f).inb j = c.inb j :=
  Table.get_set_of_ne _ _ _ h

@[simp] theorem Core.ring_setRing (c : Core) (h : Nat) (r : Ring) : (c.setRing h r).ring h = r := Table.get_set_self _ _ _ _

theorem Core.ring_setRing_of_ne (c : Core) {j h : Nat} (r : Ring) (hne : j ≠ h) : (c.setRing h r).ring j = c.ring j :=
  Table.get_set_of_ne _ _ _ hne

@[simp] theorem State.cores_update (s : State) (x : Table Core) (k : Nat) :
    State.core { s with cores := x } k = Table.get {} x k := rfl

end Sys2Proof.Machine
end

