-- ==== Sys2Proof/Laws/Budgets.lean ====
section
/-! SUPPORT. What a launch boundary can do to draw budgets and cores (R25, R29). -/

namespace Sys2Proof.Machine

theorem State.applyBudgets_cores (l : List Nat) : ∀ s : State, (s.applyBudgets l).cores = s.cores := by
  induction l with
  | nil => exact fun _ => rfl
  | cons t ts ih => exact fun s => ih _

/-- No budget grows beyond what firmware wants for its tile. -/
theorem State.applyBudgets_budget_le (l : List Nat) (j b : Nat) : ∀ s : State, (s.tile j).budget ≤ b → (s.tile j).want ≤ b →
    ((s.applyBudgets l).tile j).budget ≤ b := by
  induction l with
  | nil => exact fun _ h _ => h
  | cons t ts ih =>
    intro s h hw
    by_cases e : j = t
    · subst e
      refine ih _ ?_ ?_
      · rw [State.tile_modTile]
        exact Nat.le_trans (Nat.min_le_left ..) (Nat.le_trans (Nat.min_le_left ..) hw)
      · rw [State.tile_modTile]
        exact hw
    · exact ih _ (by rwa [State.tile_modTile_of_ne _ _ e]) (by rwa [State.tile_modTile_of_ne _ _ e])

theorem State.settleLimit_cores (s : State) : s.settleLimit.cores = s.cores := by
  unfold State.settleLimit
  split <;> rfl

theorem State.settleLimit_tiles (s : State) : s.settleLimit.tiles = s.tiles := by
  unfold State.settleLimit
  split <;> rfl

theorem State.launchBoundary_cores (s : State) (p : Nat) : (s.launchBoundary p).cores = s.cores :=
  (State.settleLimit_cores _).trans (State.applyBudgets_cores _ _)

theorem State.launchBoundary_budget_le {s : State} {j b : Nat} (p : Nat) (h : (s.tile j).budget ≤ b) (hw : (s.tile j).want ≤ b) :
    ((s.launchBoundary p).tile j).budget ≤ b := by
  have e : (s.launchBoundary p).tile j = (s.applyBudgets (s.tilesOf p)).tile j := by
    unfold State.tile State.launchBoundary
    rw [State.settleLimit_tiles]
    rfl
  rw [e]
  exact State.applyBudgets_budget_le _ _ _ _ h hw

theorem State.launchBoundary_tokensOfOthers (s : State) (p t : Nat) (l : List Nat) :
    (s.launchBoundary p).tokensOfOthers t l = s.tokensOfOthers t l := by
  have h (k : Nat) : (s.launchBoundary p).core k = s.core k := by
    unfold State.core
    rw [s.launchBoundary_cores p]
  simp [State.tokensOfOthers, h]

end Sys2Proof.Machine
end

