-- ==== Sys2Proof/Laws/Run.lean ====
section
/-! SUPPORT. How an instruction runs: the laws of the meanings' operations, and what retiring an instruction leaves unchanged. -/

namespace Sys2Proof.Machine

/-! ## The operations of a meaning -/

theorem M.bind_ok {α β : Type} {m : M α} {f : α → M β} {c c' : Ctx} {a : α} (h : m c = .ok (a, c')) :
    (m >>= f) c = f a c' := by
  show Except.bind (m c) _ = _
  rw [h]; rfl

theorem M.bind_error {α β : Type} {m : M α} {f : α → M β} {c : Ctx} {e : Stop} (h : m c = .error e) :
    (m >>= f) c = .error e := by
  show Except.bind (m c) _ = _
  rw [h]; rfl

@[simp] theorem M.pure_apply {α : Type} (a : α) (c : Ctx) : (pure a : M α) c = .ok (a, c) := rfl

@[simp] theorem getS_apply (c : Ctx) : getS c = .ok (c.st, c) := rfl
@[simp] theorem me_apply (c : Ctx) : me c = .ok (c.st.turn, c) := rfl
@[simp] theorem myCore_apply (c : Ctx) : myCore c = .ok (c.st.core c.st.turn, c) := rfl
@[simp] theorem modS_apply (f : State → State) (c : Ctx) : modS f c = .ok ((), { c with st := f c.st }) := rfl
@[simp] theorem modMe_apply (f : Core → Core) (c : Ctx) :
    modMe f c = .ok ((), { c with st := c.st.modCore c.st.turn f }) := rfl
@[simp] theorem modBoth_apply (f : State → State) (c : Ctx) :
    modBoth f c = .ok ((), { c with st := f c.st, base := f c.base }) := rfl
@[simp] theorem putS_apply (s : State) (c : Ctx) : putS s c = .ok ((), { c with st := s }) := rfl
@[simp] theorem keep_apply (c : Ctx) : keep c = .ok ((), { c with base := c.st }) := rfl
@[simp] theorem fault_apply {α : Type} (r : FaultRec) (c : Ctx) : (fault r : M α) c = .error (.fault r c.base) := rfl
@[simp] theorem stall_apply {α : Type} (c : Ctx) : (stall : M α) c = .error (.stall c.base) := rfl
@[simp] theorem leave_apply {α : Type} (s : State) (c : Ctx) : (leave s : M α) c = .error (.leave s) := rfl
@[simp] theorem jump_apply (pc : Word) (c : Ctx) : jump pc c = .ok ((), { c with npc := pc }) := rfl
@[simp] theorem nextPc_apply (c : Ctx) : nextPc c = .ok (c.npc, c) := rfl
@[simp] theorem takes_apply (n : Nat) (c : Ctx) : takes n c = .ok ((), { c with cost := n }) := rfl

/-- A meaning that completes gives the next state that `Ctx.finish` says. -/
theorem run_ok {m : M PUnit} {s : State} {c : Ctx} (h : m s.begin = .ok ((), c)) : run m s = .next (c.finish s.turn) := by
  simp only [run, h]

theorem run_fault {m : M PUnit} {s s1 : State} {r : FaultRec} (h : m s.begin = .error (.fault r s1)) :
    run m s = .next ((s1.takeFault s.turn
      { r with pc := if r.pc = 0 then (s.core s.turn).act.pc else r.pc }).mirror s.turn) := by
  simp only [run, h]

theorem run_stall {m : M PUnit} {s s1 : State} (h : m s.begin = .error (.stall s1)) :
    run m s = .next (((s1.modCore s.turn Core.unissued).mirror s.turn).spend s.turn 1) := by
  simp only [run, h]

theorem run_leave {m : M PUnit} {s s1 : State} (h : m s.begin = .error (.leave s1)) :
    run m s = .next ((s1.mirror s.turn).spendSlot s.turn (s.core s.turn).runSlot 1) := by
  simp only [run, h]

/-- A meaning always answers a next state. -/
theorem run_next (m : M PUnit) (s : State) : ∃ t, run m s = .next t := by
  cases h : m s.begin with
  | ok x => exact ⟨_, run_ok h⟩
  | error e =>
    cases e with
    | fault r s1 => exact ⟨_, run_fault h⟩
    | stall s1 => exact ⟨_, run_stall h⟩
    | leave s1 => exact ⟨_, run_leave h⟩

/-! ## What begins and ends an instruction -/

@[simp] theorem State.begin_turn (s : State) : s.begin.st.turn = s.turn := rfl

/-- Where two cores agree but for what a checkpoint and retirement write: the run slot's PCs and count, the chunk records and the chunk
counter. -/
structure SameButRetired (c d : Core) (i : Nat) : Prop where
  core : d = { c with ctl := d.ctl, slots := d.slots, ord := d.ord }
  ctl : d.ctl = { c.ctl with nchunk := d.ctl.nchunk }
  slot : d.slot i = { c.slot i with pc := (d.slot i).pc, src := (d.slot i).src, count := (d.slot i).count }
  rest : ∀ j, j ≠ i → d.slot j = c.slot j
  sb : d.ord.sb = c.ord.sb
  ob : d.ord.ob = c.ord.ob

theorem SameButRetired.refl (c : Core) (i : Nat) : SameButRetired c c i := ⟨rfl, rfl, rfl, fun _ _ => rfl, rfl, rfl⟩

theorem SameButRetired.trans {a b c : Core} {i : Nat} (h : SameButRetired a b i) (g : SameButRetired b c i) :
    SameButRetired a c i where
  core := by rw [g.core, h.core]
  ctl := by rw [g.ctl, h.ctl]
  slot := by rw [g.slot, h.slot]
  rest j hj := by rw [g.rest j hj, h.rest j hj]
  sb := by rw [g.sb, h.sb]
  ob := by rw [g.ob, h.ob]

theorem SameButRetired.run {c d : Core} {i : Nat} (h : SameButRetired c d i) : d.ctl.run = c.ctl.run := by rw [h.ctl]
theorem SameButRetired.runSlot {c d : Core} {i : Nat} (h : SameButRetired c d i) : d.runSlot = c.runSlot := by
  simp only [Core.runSlot, h.run]
theorem SameButRetired.regs {c d : Core} {i : Nat} (h : SameButRetired c d i) : d.regs = c.regs := by rw [h.core]
theorem SameButRetired.ls {c d : Core} {i : Nat} (h : SameButRetired c d i) : d.ls = c.ls := by rw [h.core]
theorem SameButRetired.vec {c d : Core} {i : Nat} (h : SameButRetired c d i) : d.vec = c.vec := by rw [h.core]
theorem SameButRetired.obl {c d : Core} {i : Nat} (h : SameButRetired c d i) : d.obl = c.obl := by rw [h.core]
theorem SameButRetired.chans {c d : Core} {i : Nat} (h : SameButRetired c d i) : d.chans = c.chans := by rw [h.core]
theorem SameButRetired.inq {c d : Core} {i : Nat} (h : SameButRetired c d i) : d.inq = c.inq := by rw [h.core]
theorem SameButRetired.eng {c d : Core} {i : Nat} (h : SameButRetired c d i) : d.eng = c.eng := by rw [h.core]

theorem Core.checkpoint_same (c : Core) (i j : Nat) : SameButRetired c (c.checkpoint i) j := by
  unfold Core.checkpoint
  split
  · exact ⟨rfl, rfl, rfl, fun _ _ => rfl, rfl, rfl⟩
  · exact .refl c j

theorem Core.endChunk_same (c : Core) (pc : Word) (j : Nat) : SameButRetired c (c.endChunk pc) j :=
  ⟨rfl, rfl, rfl, fun _ _ => rfl, rfl, rfl⟩

theorem Core.newChunk_same (c : Core) (q : Chunk) (j : Nat) :
    SameButRetired c { c with ord := { c.ord with chunk := q } } j :=
  ⟨rfl, rfl, rfl, fun _ _ => rfl, rfl, rfl⟩

theorem Core.retire_same {c : Core} {i : Nat} (hi : c.ctl.run = some i) (npc : Word) (own last : Bool) :
    SameButRetired c (c.retire npc own last) i := by
  have h1 : SameButRetired c (c.modSlot i fun a => { a with pc := npc, src := (c.slot i).pc }) i :=
    ⟨rfl, rfl, by simp, fun j hj => Core.slot_modSlot_of_ne c _ hj, rfl, rfl⟩
  simp only [Core.retire, hi]
  split
  · split
    · exact h1
    · exact h1.trans (Core.endChunk_same _ _ _)
  · split
    · exact h1.trans ((Core.newChunk_same _ _ i).trans (Core.endChunk_same _ _ _))
    · exact h1.trans (Core.newChunk_same _ _ i)

theorem Core.retire_pc {c : Core} {i : Nat} (hi : c.ctl.run = some i) (npc : Word) (own last : Bool) :
    ((c.retire npc own last).slot i).pc = npc := by
  have h1 : ((c.modSlot i fun a => { a with pc := npc, src := (c.slot i).pc }).slot i).pc = npc := by simp
  simp only [Core.retire, hi]
  split
  · split
    · exact h1
    · exact h1
  · split <;> exact h1

theorem Core.charge_same {c : Core} {i : Nat} (hi : c.ctl.run = some i) (n : Nat) : SameButRetired c (c.charge n) i := by
  simp only [Core.charge, hi]
  exact ⟨rfl, rfl, by simp, fun j hj => Core.slot_modSlot_of_ne c _ hj, rfl, rfl⟩

theorem Core.charge_pc {c : Core} {i : Nat} (hi : c.ctl.run = some i) (n : Nat) :
    ((c.charge n).slot i).pc = (c.slot i).pc := by
  simp [Core.charge, hi]

/-! ## Mirroring and time -/

theorem State.mirror_core_self (s : State) (k : Nat) : (s.mirror k).core k = s.core k := by
  unfold State.mirror
  simp only
  split
  · split
    · rw [State.core_modCore_eq]; split
      · rfl
      · rfl
    · rfl
  · rfl

theorem State.mirror_core_of_ne (s : State) {j k : Nat} (h : (s.core k).ctl.pair ≠ some j) :
    (s.mirror k).core j = s.core j := by
  unfold State.mirror
  simp only
  split
  · next f hf =>
    split
    · exact State.core_modCore_of_ne s _ (by rintro rfl; exact h hf)
    · rfl
  · rfl

/-- What two states agree in where every core's local store, diverted messages and spilled entries, every tile's held contexts and the
events with their homes are the same: all that a read of local store or SRAM sees (R55, R63, R73, R79, R365). -/
structure SameStores (s t : State) : Prop where
  tiles : t.tiles = s.tiles
  events : t.events = s.events
  parts : t.parts = s.parts
  ls : ∀ j, (t.core j).ls = (s.core j).ls
  div : ∀ j ch, ((t.core j).inb ch).div = ((s.core j).inb ch).div
  spilt : ∀ j, (t.core j).spilt = (s.core j).spilt

theorem SameStores.refl (s : State) : SameStores s s := ⟨rfl, rfl, rfl, fun _ => rfl, fun _ _ => rfl, fun _ => rfl⟩

theorem SameStores.trans {a b c : State} (h : SameStores a b) (g : SameStores b c) : SameStores a c :=
  ⟨g.tiles.trans h.tiles, g.events.trans h.events, g.parts.trans h.parts, fun j => (g.ls j).trans (h.ls j), fun j ch => (g.div j ch).trans (h.div j ch), fun j => (g.spilt j).trans (h.spilt j)⟩

theorem SameStores.modCore (s : State) (k : Nat) {f : Core → Core} (h1 : (f (s.core k)).ls = (s.core k).ls)
    (h2 : (f (s.core k)).inq = (s.core k).inq) (h3 : (f (s.core k)).spilt = (s.core k).spilt) : SameStores s (s.modCore k f) := by
  refine ⟨rfl, rfl, rfl, fun j => ?_, fun j => ?_, fun j => ?_⟩
  · rw [State.core_modCore_eq]; split
    · next h => subst h; exact h1
    · rfl
  · intro ch
    rw [State.core_modCore_eq]; split
    · next h => subst h; unfold Core.inb; rw [h2]
    · rfl
  · rw [State.core_modCore_eq]; split
    · next h => subst h; exact h3
    · rfl

theorem State.mirror_stores (s : State) (k : Nat) : SameStores s (s.mirror k) := by
  unfold State.mirror
  simp only
  split
  · split
    · exact .modCore _ _ rfl rfl rfl
    · exact .refl s
  · exact .refl s

theorem State.mirror_only (s : State) (k : Nat) : s.mirror k = { s with cores := (s.mirror k).cores } := by
  unfold State.mirror
  simp only
  split
  · split <;> rfl
  · rfl

theorem State.spend_only (s : State) (k n : Nat) :
    s.spend k n = { s with cycle := (s.spend k n).cycle, paid := (s.spend k n).paid, freeCount := (s.spend k n).freeCount, cores := (s.spend k n).cores } := rfl

theorem State.spend_core_self (s : State) (k n : Nat) :
    (s.spend k n).core k = (s.core k).charge (n + Config.stall s.freeCount) := State.core_modCore _ _ _

theorem State.spend_core_of_ne (s : State) {j k : Nat} (n : Nat) (h : j ≠ k) : (s.spend k n).core j = s.core j :=
  State.core_modCore_of_ne _ _ h

theorem State.spend_stores (s : State) (k n : Nat) : SameStores s (s.spend k n) := by
  have h : ∀ c : Core, ∀ d, (c.charge d).ls = c.ls ∧ (c.charge d).inq = c.inq ∧ (c.charge d).spilt = c.spilt := by
    intro c d; unfold Core.charge; split <;> exact ⟨rfl, rfl, rfl⟩
  have e := SameStores.modCore s k (f := fun c => c.charge (n + Config.stall s.freeCount)) (h _ _).1 (h _ _).2.1 (h _ _).2.2
  exact ⟨e.tiles, e.events, e.parts, e.ls, e.div, e.spilt⟩

/-- A cell reads as before where the local stores, and what the service cores hold, are as before. -/
theorem State.cellAt_congr {s t : State} (h : SameStores s t) (k off : Nat) : t.cellAt k off = s.cellAt k off := by
  have ht (x : Nat) : t.tile x = s.tile x := by unfold State.tile; rw [h.tiles]
  have hh : t.evHome = s.evHome := by
    unfold State.evHome State.partFirst State.partTiles State.part; rw [h.parts]
  unfold State.cellAt State.zeroAt State.tagAt State.sramByte State.heldBytes State.holdingLists
  simp only [h.ls, h.div, h.spilt, ht, hh, h.events]

/-- What retiring an instruction of core `k` leaves. -/
structure Finished (s t : State) (k : Nat) : Prop where
  module : OnlyCores s t
  others : OtherCores s t k
  core : SameButRetired (s.core k) (t.core k) (s.core k).runSlot
  held : SameStores s t

theorem SameButRetired.spilt {c d : Core} {i : Nat} (h : SameButRetired c d i) : d.spilt = c.spilt := by rw [h.core]

theorem Ctx.finish_finished (c : Ctx) {k : Nat} {i : Nat} (hi : (c.st.core k).ctl.run = some i) :
    Finished c.st (c.finish k) k := by
  have hrs : (c.st.core k).runSlot = i := by simp [Core.runSlot, hi]
  have h1 := Core.retire_same hi c.npc c.own c.last
  have e1 : ((c.st.modCore k fun x => x.retire c.npc c.own c.last).core k) = (c.st.core k).retire c.npc c.own c.last := by simp
  have e2 := State.mirror_core_self (c.st.modCore k fun x => x.retire c.npc c.own c.last) k
  refine ⟨?_, ?_, ?_, ?_⟩
  · unfold OnlyCores Ctx.finish
    rw [State.spend_only, State.mirror_only]; rfl
  · intro j hj hp
    unfold Ctx.finish
    rw [State.spend_core_of_ne _ _ hj, State.mirror_core_of_ne, State.core_modCore_of_ne _ _ hj]
    rw [e1, h1.ctl]; exact hp
  · unfold Ctx.finish
    rw [State.spend_core_self, e2, e1, hrs]
    exact h1.trans (Core.charge_same (by rw [h1.run]; exact hi) _)
  · unfold Ctx.finish
    exact (SameStores.modCore _ _ h1.ls h1.inq h1.spilt).trans ((State.mirror_stores _ _).trans (State.spend_stores _ _ _))

theorem Ctx.finish_pc (c : Ctx) {k : Nat} {i : Nat} (hi : (c.st.core k).ctl.run = some i) :
    ((c.finish k).core k).act.pc = c.npc := by
  have hf := c.finish_finished hi
  have hrs : (c.st.core k).runSlot = i := by simp [Core.runSlot, hi]
  have h1 := Core.retire_same hi c.npc c.own c.last
  unfold Core.act
  rw [hf.core.runSlot, hrs]
  unfold Ctx.finish
  rw [State.spend_core_self, State.mirror_core_self]
  rw [Core.charge_pc (i := i) (by simp [h1.run, hi])]
  simp [Core.retire_pc hi]

/-- What the beginning of an instruction leaves. -/
theorem State.begin_finished (s : State) : Finished s s.begin.st s.turn where
  module := rfl
  others j hj _ := State.core_modCore_of_ne s _ hj
  core := by
    show SameButRetired _ ((s.modCore s.turn fun c => c.checkpoint c.runSlot).core s.turn) _
    rw [State.core_modCore]; exact Core.checkpoint_same _ _ _
  held := by
    have e := Core.checkpoint_same (s.core s.turn) (s.core s.turn).runSlot 0
    exact .modCore s s.turn (f := fun c => c.checkpoint c.runSlot) e.ls e.inq e.spilt

end Sys2Proof.Machine
end

