-- ==== Sys2Proof/Laws/Commit.lean ====
section
/-! SUPPORT. Commit points of a core that has nothing outstanding. -/

namespace Sys2Proof.Machine

theorem Core.Quiet.checkpoint {c : Core} (h : c.Quiet) (i : Nat) : (c.checkpoint i).Quiet := by
  unfold Core.checkpoint
  split
  · exact ⟨h.ended, h.stores, h.read, h.wrote, h.isolated, h.output, h.wait⟩
  · exact h

/-- Only what the follower holds, the leader's bond, and the chunk's number and fingerprint matter to a match. -/
theorem State.Matched.of {s t : State} {k : Nat} (h : s.Matched k) (ht : ∀ f, (t.core f).twin = (s.core f).twin)
    (hc : (t.core k).ctl = { (s.core k).ctl with nchunk := (t.core k).ctl.nchunk }) (hn : (s.core k).ctl.nchunk ≤ (t.core k).ctl.nchunk)
    (hi : (t.core k).ord.chunk.id = (s.core k).ord.chunk.id) (hp : (t.core k).ord.chunk.fp = (s.core k).ord.chunk.fp) : t.Matched k := by
  intro f hf hl
  rw [hc] at hf hl
  have g := h f hf hl
  have e : ∀ n, (t.core f).shadow n = (s.core f).shadow n := fun n => by unfold Core.shadow; rw [ht]
  refine ⟨?_, fun n hx => (e n).trans (g.2 n (Nat.le_trans hn hx))⟩
  unfold Core.printOf at *
  rw [e, hi, hp]; exact g.1

/-- A match is none of a mismatch. -/
theorem State.Matched.missed {s : State} {k : Nat} (h : s.Matched k) : s.missed k (s.core k).ord.chunk = false := by
  unfold State.missed State.missOf
  split
  · next f hf =>
    split
    · next hl =>
      simp only [Bool.and_eq_true, bne_iff_ne] at hl
      exact absurd (h f hf hl.1).1.symm hl.2
    · rfl
  · rfl

/-- A core whose output buffer holds nothing of a slot releases nothing. -/
theorem State.releaseAll_none {s : State} {k i : Nat} (h : ∀ e ∈ (s.core k).ord.ob, e.slot ≠ i) (n : Nat) :
    s.releaseAll k i (n + 1) = .done s := by
  have : (s.core k).firstEntry i = none := by
    unfold Core.firstEntry
    rw [List.find?_eq_none]
    intro e he
    simpa using h e he
  unfold State.releaseAll
  simp only [this]

/-- A commit that held no home releases none. -/
theorem State.releaseHomes_nil (s : State) (k : Nat) (g : BitVec 512) : s.releaseHomes k [] g = s := by
  unfold State.releaseHomes
  have h : ∀ o : Option Nat, o.any ([] : List Nat).contains = false := by intro o; cases o <;> rfl
  refine congrArg (fun x => ({ s with cores := x } : State)) ?_
  refine (List.map_congr_left (g := id) fun x _ => ?_).trans (List.map_id _)
  dsimp only
  split <;> simp only [h, Bool.and_false, Bool.false_eq_true, if_false, id_eq]

/-- A core that buffers no store has none that is refused. -/
theorem State.refusesOf_none {s : State} {k : Nat} (h : (s.core k).ord.sb = []) (q : Chunk) : s.refusesOf k q = false := by
  unfold State.refusesOf; rw [h]; rfl

/-- Nor one that does not translate any more. -/
theorem State.staleFault_none {s : State} {k : Nat} (h : (s.core k).ord.sb = []) (e : Ended) : s.staleFault k e = none := by
  unfold State.staleFault; rw [h]; rfl

/-- The chunk of a quiet core commits at once: only a new chunk is left. -/
theorem State.commitNow_quiet {s : State} {k : Nat} (hq : s.Quiet k) :
    ∃ q, q.iso = [] ∧ q.rd = [] ∧ q.wr = [] ∧ q.retired = 0 ∧ q.id = (s.core k).ctl.nchunk ∧ q.fp = 0xFFFFFFFFFFFFFFFF ∧
      s.commitNow k = .done (s.setCore k { s.core k with
        ctl := { (s.core k).ctl with nchunk := (s.core k).ctl.nchunk + 1 }
        ord := { (s.core k).ord with ended := [], sb := [], chunk := q } }) := by
  have h := hq.core
  refine ⟨(s.core k).ord.chunk.next (s.core k).ctl.nchunk, rfl, rfl, rfl, rfl, rfl, rfl, ?_⟩
  have hh : (s.core k).ord.chunk.homes = [] := by
    unfold Chunk.homes; rw [h.read, h.wrote]; rfl
  unfold State.commitNow
  simp only [State.core_modCore]
  have e1 : ((s.core k).endChunk (s.core k).act.pc).ord.ended =
      [⟨(s.core k).ord.chunk, [], [], (s.core k).act.pc⟩] := by
    show (s.core k).ord.ended ++ [_] = _
    rw [h.ended, hh, h.isolated]; rfl
  have e2 : ((s.core k).endChunk (s.core k).act.pc).commitFuel = 3 := by
    unfold Core.commitFuel; rw [e1]; rfl
  rw [e2]
  unfold State.commitAll
  simp only [State.core_modCore, e1]
  have e3 : ((s.core k).endChunk (s.core k).act.pc).ord.sb = [] := h.stores
  have e4 : (s.modCore k fun c => c.endChunk c.act.pc).missed k (s.core k).ord.chunk = false := by
    have hm := hq.pair.missed
    unfold State.missed State.missOf at *
    have hk : ((s.modCore k fun c => c.endChunk c.act.pc).core k).ctl = { (s.core k).ctl with
        nchunk := (s.core k).ctl.nchunk + 1 } := by rw [State.core_modCore]; rfl
    have hp : ∀ f n, ((s.modCore k fun c => c.endChunk c.act.pc).core f).printOf n = (s.core f).printOf n := by
      intro f n
      unfold Core.printOf Core.shadow
      rw [State.core_modCore_eq]; split
      · next e => rw [e]; rfl
      · rfl
    rw [hk]
    simp only [hp]
    exact hm
  have e6 := State.refusesOf_none (s := s.modCore k fun c => c.endChunk c.act.pc) (k := k)
    (by rw [State.core_modCore]; exact e3) (s.core k).ord.chunk
  have e7 := fun e => State.staleFault_none (s := s.modCore k fun c => c.endChunk c.act.pc) (k := k)
    (by rw [State.core_modCore]; exact e3) e
  simp only [e4, e6, e7, Bool.false_eq_true, if_false]
  have e5 : (s.modCore k fun c => c.endChunk c.act.pc).perform State.devStore k =
      s.setCore k { s.core k with
        ctl := { (s.core k).ctl with nchunk := (s.core k).ctl.nchunk + 1 }
        ord := { (s.core k).ord with ended := [], sb := [], chunk := (s.core k).ord.chunk.next (s.core k).ctl.nchunk } } := by
    unfold State.perform
    simp only [State.core_modCore, e1, e3, List.filter_nil, State.freshStores, State.performStores, List.foldl_nil, List.isEmpty_nil,
      if_true, State.releaseHomes_nil]
    unfold State.modCore
    simp only [State.core_setCore]
    unfold State.setCore
    simp only
    rw [Table.set_set, e3]
    rfl
  rw [e5]
  unfold State.commitAll
  simp only [State.core_setCore]

/-- What each part of a commit point of a quiet core leaves. -/
structure PointPart (s t : State) (k i : Nat) : Prop where
  module : t = { s with cores := t.cores }
  others : ∀ j, j ≠ k → t.core j = s.core j
  core : t.core k = { s.core k with ctl := (t.core k).ctl, slots := (t.core k).slots, ord := (t.core k).ord }
  ctl : (t.core k).ctl = { (s.core k).ctl with nchunk := (t.core k).ctl.nchunk }
  slot : (t.core k).slot i = { (s.core k).slot i with life := { ((s.core k).slot i).life with
    past := ((t.core k).slot i).life.past, atPoint := ((t.core k).slot i).life.atPoint } }
  rest : ∀ j, j ≠ i → (t.core k).slot j = (s.core k).slot j
  quiet : t.Quiet k
  output : (t.core k).ord.ob = (s.core k).ord.ob

theorem PointPart.trans {s t u : State} {k i : Nat} (h : PointPart s t k i) (g : PointPart t u k i) : PointPart s u k i where
  module := by rw [g.module, h.module]
  others j hj := by rw [g.others j hj, h.others j hj]
  core := by rw [g.core, h.core]
  ctl := by rw [g.ctl, h.ctl]
  slot := by rw [g.slot, h.slot]
  rest j hj := by rw [g.rest j hj, h.rest j hj]
  quiet := g.quiet
  output := by rw [g.output, h.output]

theorem PointPart.turn {s t : State} {k i : Nat} (h : PointPart s t k i) : t.turn = s.turn := by rw [h.module]

theorem PointPart.runSlot {s t : State} {k i : Nat} (h : PointPart s t k i) : (t.core k).runSlot = (s.core k).runSlot := by
  unfold Core.runSlot; rw [h.ctl]

theorem State.checkpoint_part {s : State} {k : Nat} (i : Nat) (h : s.Quiet k) :
    PointPart s (s.modCore k fun x => x.checkpoint x.runSlot) k i := by
  have e := Core.checkpoint_same (s.core k) (s.core k).runSlot i
  constructor
  · rfl
  · exact fun j hj => State.core_modCore_of_ne s _ hj
  · rw [State.core_modCore]; exact e.core
  · rw [State.core_modCore]; exact e.ctl
  · rw [State.core_modCore]
    unfold Core.checkpoint; split <;> rfl
  · rw [State.core_modCore]; exact e.rest
  · refine ⟨by rw [State.core_modCore]; exact h.core.checkpoint _, h.pair.of ?_ ?_ ?_ ?_ ?_⟩
    · intro f; rw [State.core_modCore_eq]; split
      · next e => rw [e]; unfold Core.checkpoint; split <;> rfl
      · rfl
    all_goals (rw [State.core_modCore]; unfold Core.checkpoint; split <;> first | rfl | exact Nat.le_refl _)
  · rw [State.core_modCore]; exact e.ob

theorem State.lifePart {s : State} {k : Nat} (i : Nat) (f : ActLife → ActLife) (h : s.Quiet k)
    (hf : ∀ l, f l = { l with past := (f l).past, atPoint := (f l).atPoint }) :
    PointPart s (s.modCore k fun c => c.modSlot i fun a => { a with life := f a.life }) k i := by
  constructor
  · rfl
  · exact fun j hj => State.core_modCore_of_ne s _ hj
  · rw [State.core_modCore]; rfl
  · rw [State.core_modCore]; rfl
  · rw [State.core_modCore, Core.slot_modSlot]
    have := hf ((s.core k).slot i).life
    show ({ (s.core k).slot i with life := f ((s.core k).slot i).life } : Act) = _
    rw [this]
  · rw [State.core_modCore]; exact fun j hj => Core.slot_modSlot_of_ne _ _ hj
  · refine ⟨?_, h.pair.of (fun f => by rw [State.core_modCore_eq]; split <;> first | rfl | (next e => rw [e]; rfl)) ?_ ?_ ?_ ?_⟩
    rotate_left
    all_goals try (rw [State.core_modCore]; first | rfl | exact Nat.le_refl _)
    rw [State.core_modCore]
    replace h := h.core
    refine ⟨h.ended, h.stores, h.read, h.wrote, h.isolated, h.output, ?_⟩
    show ((Core.modSlot _ i _).slot (s.core k).runSlot).sync.wait = []
    by_cases hi : (s.core k).runSlot = i
    · rw [hi, Core.slot_modSlot]
      show ((s.core k).slot i).sync.wait = []
      rw [← hi]; exact h.wait
    · rw [Core.slot_modSlot_of_ne _ _ hi]; exact h.wait
  · rw [State.core_modCore]; rfl

theorem State.commitNow_part {s : State} {k : Nat} (i : Nat) (h : s.Quiet k) :
    ∃ t, s.commitNow k = .done t ∧ PointPart s t k i := by
  obtain ⟨q, h1, h2, h3, -, h4, h6, h5⟩ := State.commitNow_quiet h
  refine ⟨_, h5, ?_⟩
  constructor
  · rfl
  · exact fun j hj => State.core_setCore_of_ne s _ hj
  · rw [State.core_setCore]
  · rw [State.core_setCore]
  · rw [State.core_setCore]; rfl
  · rw [State.core_setCore]; exact fun _ _ => rfl
  · refine ⟨by rw [State.core_setCore]; exact ⟨rfl, rfl, h2, h3, h1, h.core.output, h.core.wait⟩, fun f hf hl => ?_⟩
    rw [State.core_setCore] at hf hl
    have g := (h.pair f hf hl).2
    have e : ∀ c : Core, c.twin = (s.core k).twin → ∀ n, ((s.setCore k c).core f).shadow n = (s.core f).shadow n := by
      intro c hc n; unfold Core.shadow
      by_cases hfk : f = k
      · rw [hfk, State.core_setCore, hc]
      · rw [State.core_setCore_of_ne _ _ hfk]
    generalize hx : ({ s.core k with
        ctl := { (s.core k).ctl with nchunk := (s.core k).ctl.nchunk + 1 }
        ord := { (s.core k).ord with ended := [], sb := [], chunk := q } } : Core) = x at *
    have ex := e x (by rw [← hx])
    rw [State.core_setCore]
    have hxq : x.ord.chunk = q := by rw [← hx]
    have hxn : x.ctl.nchunk = (s.core k).ctl.nchunk + 1 := by rw [← hx]
    unfold Core.printOf
    refine ⟨?_, fun n hn => (ex n).trans (g n ?_)⟩
    · rw [ex, hxq, h4, g _ (Nat.le_refl _)]; exact h6.symm
    · rw [hxn] at hn; exact Nat.le_of_succ_le hn
  · rw [State.core_setCore]

/-- The last two parts of a commit point: the note that it has passed, a fresh checkpoint, and its end. -/
theorem State.point_end {s x : State} {k i : Nat} (p : PointPart s x k i) (hi : (s.core k).runSlot = i) :
    PassedPoint s (((x.modCore k Core.pastPoint).modCore k fun c => c.checkpoint c.runSlot).atPoint k i false) k := by
  have hrx : (x.core k).runSlot = i := by rw [p.runSlot, hi]
  have e : (x.modCore k Core.pastPoint) =
      x.modCore k fun c => c.modSlot i fun a => { a with life := { a.life with past := true } } := by
    unfold State.modCore Core.pastPoint Core.modAct
    rw [hrx]
  have p3 := p.trans (State.lifePart (f := fun l => { l with past := true }) i p.quiet (fun _ => rfl))
  rw [← e] at p3
  have p4 := p3.trans (State.checkpoint_part i p3.quiet)
  have p5 := p4.trans (State.lifePart (f := fun l => { l with atPoint := false }) i p4.quiet (fun _ => rfl))
  have hlife : ((((x.modCore k Core.pastPoint).modCore k fun c => c.checkpoint c.runSlot).core k).slot i).life.past = true := by
    rw [State.core_modCore]
    have hc : ∀ c : Core, ((c.checkpoint c.runSlot).slot i).life = (c.slot i).life := by
      intro c; unfold Core.checkpoint; split <;> rfl
    rw [hc, e, State.core_modCore, Core.slot_modSlot]
  constructor
  · exact p5.module
  · exact p5.others
  · exact p5.core
  · exact p5.ctl
  · unfold Core.act
    have hr : ((((x.modCore k Core.pastPoint).modCore k fun c => c.checkpoint c.runSlot).atPoint k i false).core k).runSlot = i :=
      p5.runSlot.trans hi
    rw [hr, hi]
    have h5 := p5.slot
    have a1 : ((((((x.modCore k Core.pastPoint).modCore k fun c => c.checkpoint c.runSlot).atPoint k i false).core k).slot i).life.atPoint) = false := by
      unfold State.atPoint; rw [State.core_modCore, Core.slot_modSlot]
    have a2 : ((((((x.modCore k Core.pastPoint).modCore k fun c => c.checkpoint c.runSlot).atPoint k i false).core k).slot i).life.past) = true := by
      unfold State.atPoint; rw [State.core_modCore, Core.slot_modSlot]; exact hlife
    unfold State.atPoint at a1 a2 ⊢
    rw [a1, a2] at h5
    exact h5
  · rw [hi]; exact p5.rest
  · exact p5.quiet
  · exact p5.output

/-- A commit point of a core that has nothing outstanding. -/
theorem commitPoint_quiet {c : Ctx} (h : c.st.Quiet c.st.turn) (hb : c.base.Quiet c.st.turn)
    (ht : c.base.turn = c.st.turn) (hr : (c.base.core c.st.turn).runSlot = (c.st.core c.st.turn).runSlot) :
    ∃ c', commitPoint c = .ok ((), c') ∧ PassedPoint c.st c'.st c.st.turn ∧ PassedPoint c.base c'.base c.st.turn ∧
      c'.npc = c.npc ∧ c'.cost = c.cost ∧ c'.last = c.last ∧ c'.own = true := by
  obtain ⟨st, base, npc, cost, own, last⟩ := c
  simp only at h hb ht hr ⊢
  generalize hk : st.turn = k at *
  generalize hi : (st.core k).runSlot = i at *
  obtain ⟨s1, e1, p1⟩ := State.commitNow_part i h
  obtain ⟨b1, f1, q1⟩ := State.commitNow_part i hb
  have p2 := p1.trans (State.checkpoint_part i p1.quiet)
  have q2 := q1.trans (State.checkpoint_part i q1.quiet)
  have p6 := State.point_end p2 hi
  have q6 := State.point_end q2 hr
  have ts2 : (s1.modCore k fun x => x.checkpoint x.runSlot).turn = k := by rw [p2.turn, hk]
  have first : commitFirst ⟨st, base, npc, cost, own, last⟩ =
      .ok ((), ⟨s1.modCore k fun x => x.checkpoint x.runSlot, b1.modCore k fun x => x.checkpoint x.runSlot,
        npc, cost, true, last⟩) := by
    unfold commitFirst
    simp only [hk, e1, f1]
  have tb2 : (b1.modCore k fun x => x.checkpoint x.runSlot).turn = k := by rw [q2.turn, ht]
  generalize (s1.modCore k fun x => x.checkpoint x.runSlot) = s2 at *
  generalize (b1.modCore k fun x => x.checkpoint x.runSlot) = b2 at *
  have out : ∀ x : State, x.Quiet k → (x.core k).runSlot = i → ∀ n,
      (x.modCore k Core.pastPoint).releaseAll k i (n + 1) = .done (x.modCore k Core.pastPoint) := by
    intro x hq hrx n
    refine State.releaseAll_none ?_ n
    rw [State.core_modCore]
    show ∀ e ∈ (x.core k).ord.ob, e.slot ≠ i
    rw [← hrx]; exact hq.core.output
  have r3 := out s2 p2.quiet (by rw [p2.runSlot, hi])
  have r3b := out b2 q2.quiet (by rw [q2.runSlot, hr])
  have rs : ((s2.modCore k Core.pastPoint).core k).runSlot = i := by
    rw [State.core_modCore]; show (s2.core k).runSlot = i; rw [p2.runSlot, hi]
  have t3 : (s2.modCore k Core.pastPoint).turn = k := ts2
  refine ⟨⟨((s2.modCore k Core.pastPoint).modCore k fun c => c.checkpoint c.runSlot).atPoint k i false,
    ((b2.modCore k Core.pastPoint).modCore k fun c => c.checkpoint c.runSlot).atPoint k i false, npc, cost, true, last⟩,
    ?_, p6, q6, rfl, rfl, rfl, rfl⟩
  unfold commitPoint
  rw [M.bind_ok first, M.bind_ok (modBoth_apply _ _)]
  rw [show (⟨s2, b2, npc, cost, true, last⟩ : Ctx).st = s2 from rfl,
    show (⟨s2, b2, npc, cost, true, last⟩ : Ctx).base = b2 from rfl, ts2, tb2]
  generalize s2.modCore k Core.pastPoint = s3 at *
  generalize b2.modCore k Core.pastPoint = b3 at *
  show (match b3.releaseAll s3.turn (s3.core s3.turn).runSlot ((b3.core s3.turn).ord.ob.length + 2) with
    | .done b => _ | .wait b => _ | .fail r b => _) = _
  rw [t3, rs, r3b]
  dsimp only
  rw [r3]

end Sys2Proof.Machine
end

