-- ==== Sys2Proof/Laws/Memory.lean ====
section
/-! SUPPORT. The laws of memory: every operation keeps the canonical form, a read after a write gives the byte written, and a
write leaves every other byte alone. -/

namespace Sys2Proof.Machine

@[simp] theorem Memory.read_nil (a : Nat) : Memory.read [] a = 0 := rfl

theorem Memory.wfFrom_mono {m : Memory} {lo hi : Nat} (h : Memory.wfFrom hi m = true) (hle : lo ≤ hi) :
    Memory.wfFrom lo m = true := by
  cases m with
  | nil => rfl
  | cons e t =>
    obtain ⟨a, b⟩ := e
    simp only [Memory.wfFrom, Bool.and_eq_true, decide_eq_true_eq] at h ⊢
    exact ⟨⟨by omega, h.1.2⟩, h.2⟩

theorem Memory.read_below {m : Memory} {lo a : Nat} (h : Memory.wfFrom lo m = true) (ha : a < lo) : Memory.read m a = 0 := by
  cases m with
  | nil => rfl
  | cons e t =>
    obtain ⟨a', b⟩ := e
    simp only [Memory.wfFrom, Bool.and_eq_true, decide_eq_true_eq] at h
    have h1 : a ≠ a' := by omega
    have h2 : a < a' := by omega
    simp [Memory.read, h1, h2]

theorem Memory.wfFrom_write {m : Memory} {lo a : Nat} (b : Byte) (h : Memory.wfFrom lo m = true) (ha : lo ≤ a) :
    Memory.wfFrom lo (m.write a b) = true := by
  induction m generalizing lo with
  | nil =>
    simp only [Memory.write]
    split <;> simp_all [Memory.wfFrom]
  | cons e t ih =>
    obtain ⟨a', b'⟩ := e
    simp only [Memory.wfFrom, Bool.and_eq_true, decide_eq_true_eq] at h
    simp only [Memory.write]
    split
    · split
      · exact Memory.wfFrom_mono (lo := lo) (hi := lo) (by
          simp only [Memory.wfFrom, Bool.and_eq_true, decide_eq_true_eq]; exact h) (Nat.le_refl lo)
      · next h1 h2 =>
        simp only [Memory.wfFrom, Bool.and_eq_true, decide_eq_true_eq]
        exact ⟨⟨ha, h2⟩, ⟨⟨by omega, h.1.2⟩, h.2⟩⟩
    · split
      · split
        · exact Memory.wfFrom_mono h.2 (by omega)
        · next h1 h2 h3 =>
          subst h2
          simp only [Memory.wfFrom, Bool.and_eq_true, decide_eq_true_eq]
          exact ⟨⟨ha, h3⟩, h.2⟩
      · next h1 h2 =>
        simp only [Memory.wfFrom, Bool.and_eq_true, decide_eq_true_eq]
        exact ⟨h.1, ih h.2 (by omega)⟩

theorem Memory.wf_write {m : Memory} (a : Nat) (b : Byte) (h : m.wf = true) : (m.write a b).wf = true :=
  Memory.wfFrom_write b h (Nat.zero_le a)

theorem Memory.wf_put {m : Memory} (a : Nat) (bs : List Byte) (h : m.wf = true) : (m.put a bs).wf = true := by
  induction bs generalizing m a with
  | nil => exact h
  | cons b bs ih => exact ih (a + 1) (Memory.wf_write a b h)

theorem Memory.wfFrom_filter {m : Memory} {lo : Nat} (p : Host.Cell → Bool) (h : Memory.wfFrom lo m = true) :
    Memory.wfFrom lo (m.filter p) = true := by
  induction m generalizing lo with
  | nil => rfl
  | cons e t ih =>
    obtain ⟨a, b⟩ := e
    simp only [Memory.wfFrom, Bool.and_eq_true, decide_eq_true_eq] at h
    simp only [List.filter]
    split
    · simp only [Memory.wfFrom, Bool.and_eq_true, decide_eq_true_eq]
      exact ⟨h.1, ih h.2⟩
    · exact Memory.wfFrom_mono (ih h.2) (by omega)

theorem Memory.wf_filter {m : Memory} (p : Host.Cell → Bool) (h : m.wf = true) : Memory.wf (m.filter p) = true :=
  Memory.wfFrom_filter p h

theorem Memory.wf_nil : Memory.wf [] = true := rfl

theorem Memory.read_write_from {m : Memory} {lo a : Nat} (b : Byte) (x : Nat) (h : Memory.wfFrom lo m = true) :
    (m.write a b).read x = if x = a then b else m.read x := by
  induction m generalizing lo with
  | nil =>
    simp only [Memory.write]
    split <;> simp_all [Memory.read]
  | cons e t ih =>
    obtain ⟨a', b'⟩ := e
    simp only [Memory.wfFrom, Bool.and_eq_true, decide_eq_true_eq] at h
    simp only [Memory.write]
    split
    · next h1 =>
      split
      · next h2 =>
        by_cases hx : x = a
        · subst hx; simp [Memory.read, h2, Nat.ne_of_lt h1, h1]
        · simp [hx]
      · by_cases hx : x = a
        · simp [Memory.read, hx]
        · by_cases hy : x < a
          · have : x ≠ a' := by omega
            have : x < a' := by omega
            simp_all [Memory.read]
          · simp [Memory.read, hx, hy]
    · next h1 =>
      split
      · next h2 =>
        subst h2
        split
        · next h3 =>
          by_cases hx : x = a
          · subst hx; simp [h3, Memory.read_below h.2 (Nat.lt_succ_self x)]
          · by_cases hy : x < a
            · simp [Memory.read, hx, hy, Memory.read_below h.2 (show x < a + 1 by omega)]
            · simp [Memory.read, hx, hy]
        · by_cases hx : x = a <;> simp [Memory.read, hx]
      · next h2 =>
        have ih := ih (lo := a' + 1) h.2
        by_cases hx : x = a
        · subst hx
          simp [Memory.read, h2, h1, ih]
        · simp only [Memory.read, hx, if_false, ih]

theorem Memory.read_write {m : Memory} (a : Nat) (b : Byte) (x : Nat) (h : m.wf = true) :
    (m.write a b).read x = if x = a then b else m.read x :=
  Memory.read_write_from b x h

theorem Memory.read_write_self {m : Memory} (a : Nat) (b : Byte) (h : m.wf = true) : (m.write a b).read a = b := by
  simp [Memory.read_write a b a h]

theorem Memory.read_put_of_out {m : Memory} (a : Nat) (bs : List Byte) {x : Nat} (h : m.wf = true)
    (hx : x < a ∨ a + bs.length ≤ x) : (m.put a bs).read x = m.read x := by
  induction bs generalizing m a with
  | nil => rfl
  | cons b bs ih =>
    simp only [List.length_cons] at hx
    have hne : x ≠ a := by omega
    rw [Memory.put, ih (a + 1) (Memory.wf_write a b h) (by omega), Memory.read_write a b x h, if_neg hne]

theorem Memory.read_put_of_in {m : Memory} (a : Nat) (bs : List Byte) {j : Nat} (h : m.wf = true) (hj : j < bs.length) :
    (m.put a bs).read (a + j) = bs.getD j 0 := by
  induction bs generalizing m a j with
  | nil => simp at hj
  | cons b bs ih =>
    cases j with
    | zero =>
      rw [Memory.put, Memory.read_put_of_out (a + 1) bs (Memory.wf_write a b h) (by omega), Nat.add_zero,
        Memory.read_write_self a b h]
      rfl
    | succ j =>
      have := ih (m := m.write a b) (a + 1) (Memory.wf_write a b h) (by simpa using hj)
      rw [Memory.put, show a + (j + 1) = a + 1 + j by omega, this]
      rfl

@[simp] theorem Memory.length_bytes (m : Memory) (a n : Nat) : (m.bytes a n).length = n := by
  induction n generalizing a with
  | zero => rfl
  | succ n ih => simp [Memory.bytes, ih]

@[simp] theorem leBytes_length (n x : Nat) : (leBytes n x).length = n := by
  induction n generalizing x with
  | zero => rfl
  | succ n ih => simp [leBytes, ih]

/-- The bytes of a number hold it (R6). -/
theorem leNat_leBytes (n x : Nat) : leNat (leBytes n x) = x % 256 ^ n := by
  induction n generalizing x with
  | zero => simp [leBytes, leNat, Nat.mod_one]
  | succ n ih =>
    simp only [leBytes, leNat, ih, BitVec.toNat_ofNat]
    rw [Nat.pow_succ 256 n, Nat.mul_comm (256 ^ n) 256, Nat.mod_mul]

end Sys2Proof.Machine
end

