-- ==== Sys2Proof/Laws/Local.lean ====
section
/-! SUPPORT. What writes to a local store do to its cells (R85, R86, R91, R92): each keeps their canonical form, and marks, tags and checks
are no cells. -/

namespace Sys2Proof.Machine

@[simp] theorem Local.setTag_cells (l : Local) (g : Nat) (t : Tag) : (l.setTag g t).cells = l.cells := rfl

@[simp] theorem Local.renew_cells (l : Local) (g fade retn : Nat) : (l.renew g fade retn).cells = l.cells := rfl

@[simp] theorem Local.unmark_cells (l : Local) (g : Nat) : (l.unmark g).cells = l.cells := rfl

@[simp] theorem Local.markSectors_cells (l : Local) (off : Nat) (b : Bool) (n : Nat) : (l.markSectors off b n).cells = l.cells := by
  induction n with
  | zero => rfl
  | succ n ih => simpa [Local.markSectors] using ih

@[simp] theorem Local.poisonAll_cells (l : Local) (xs : List Nat) : (l.poisonAll xs).cells = l.cells := by
  induction xs generalizing l with
  | nil => rfl
  | cons x xs ih => simpa [Local.poisonAll] using ih _

@[simp] theorem Local.putCells_cells (l : Local) (off : Nat) (bs : List Byte) (p : Bool) :
    (l.putCells off bs p).cells = l.cells.put off bs := by simp [Local.putCells]

theorem Local.clearCells_wf {l : Local} (g : Nat) (h : l.cells.wf = true) : (l.clearCells g).cells.wf = true := Memory.wf_filter _ h

theorem Local.putCells_wf {l : Local} (off : Nat) (bs : List Byte) (p : Bool) (h : l.cells.wf = true) :
    (l.putCells off bs p).cells.wf = true := by simpa using Memory.wf_put off bs h

/-- A landing puts its bytes over the cells, or, in a granule with Z = 1, over zeros. -/
theorem Local.land_cells (l : Local) (fade retn : Nat) (whole : Bool) (off : Nat) (bs : List Byte) (p : Bool) :
    (l.land fade retn whole off bs p).cells =
      (if (l.tag (off / 512)).z && !(l.tag (off / 512)).x then l.clearCells (off / 512) else l).cells.put off bs := by
  simp only [Local.land]
  split <;> (try split) <;> simp

/-- One that renews nothing does the same to them (R358). -/
theorem Local.landStill_cells (l : Local) (fade off : Nat) (bs : List Byte) (p : Bool) :
    (l.landStill fade off bs p).cells =
      (if (l.tag (off / 512)).z && !(l.tag (off / 512)).x then l.clearCells (off / 512) else l).cells.put off bs := by
  simp only [Local.landStill]
  split
  · simp
  · next h => rw [Local.land_cells, if_neg h]

theorem Local.land_wf {l : Local} (fade retn : Nat) (whole : Bool) (off : Nat) (bs : List Byte) (p : Bool) (h : l.cells.wf = true) :
    (l.land fade retn whole off bs p).cells.wf = true := by
  rw [Local.land_cells]
  split
  · exact Memory.wf_put _ _ (Local.clearCells_wf _ h)
  · exact Memory.wf_put _ _ h

theorem Local.landStill_wf {l : Local} (fade off : Nat) (bs : List Byte) (p : Bool) (h : l.cells.wf = true) :
    (l.landStill fade off bs p).cells.wf = true := by
  rw [Local.landStill_cells, ← Local.land_cells l fade 0 false off bs p]
  exact Local.land_wf _ _ _ _ _ _ h

end Sys2Proof.Machine
end

