-- ==== Sys2Proof/Laws/Operands.lean ====
section
/-! SUPPORT. Operands: what reading and writing scalar selectors does. -/

namespace Sys2Proof.Machine

/-- A w-register source reads its register and does nothing else (R127). -/
theorem readOp_reg {b : Sel} (h : b.toNat ≤ 55) (c : Ctx) :
    readOp b c = .ok (if b.toNat = 0 then 0 else (c.st.core c.st.turn).reg b.toNat, c) := by
  unfold readOp
  by_cases h0 : b.toNat = 0
  · simp only [h0, if_true]; rfl
  · simp only [h0, if_false, h, if_true]; rfl

/-- The value a w-register source reads. -/
def Core.regValue (c : Core) (b : Sel) : Word := if b.toNat = 0 then 0 else c.reg b.toNat

theorem readsOf_regs {srcs : List Sel} (h : ∀ b ∈ srcs, b.toNat ≤ 55) (c : Ctx) :
    readsOf srcs c = .ok (srcs.map (c.st.core c.st.turn).regValue, c) := by
  induction srcs with
  | nil => rfl
  | cons b t ih =>
    unfold readsOf
    rw [M.bind_ok (readOp_reg (h b (by simp)) c), M.bind_ok (ih fun x hx => h x (by simp [hx]))]
    rfl

theorem Core.setReg_zero (c : Core) (x : Word) : c.setReg 0 x = c := rfl

/-- What WriteOp in the scalar context leaves (R126): only the register cache, and the fingerprint of a paired core's chunk. -/
theorem Core.setReg_same (c : Core) (i : Nat) (x : Word) :
    c.setReg i x = { c with
      regs := if i = 0 then c.regs else Table.set c.regs i x
      ord := { c.ord with chunk := (c.setReg i x).ord.chunk } } := by
  unfold Core.setReg Core.print
  split
  · rfl
  · split <;> rfl

theorem Core.reg_setReg (c : Core) (i j : Nat) (x : Word) :
    (c.setReg i x).reg j = if j = i ∧ i ≠ 0 then x else c.reg j := by
  rw [Core.setReg_same]
  unfold Core.reg
  by_cases h0 : i = 0
  · simp [h0]
  · simp only [h0, if_false, Table.get_set]
    by_cases hj : j = i <;> simp [hj, h0]

@[simp] theorem writeOp_apply (a : Sel) (x : Word) (c : Ctx) :
    writeOp a x c = .ok ((), { c with st := c.st.modCore c.st.turn fun d => d.setReg a.toNat x }) := rfl

/-! ## The forms of scalar instructions, from the reading of their sources -/

theorem readsOf_cons {b : Sel} {t : List Sel} {c c' : Ctx} {vals : List Word} (h : readsOf (b :: t) c = .ok (vals, c')) :
    ∃ x xs c1, readOp b c = .ok (x, c1) ∧ readsOf t c1 = .ok (xs, c') ∧ vals = x :: xs := by
  cases h1 : readOp b c with
  | error e => unfold readsOf at h; rw [M.bind_error h1] at h; cases h
  | ok p =>
    obtain ⟨x, c1⟩ := p
    unfold readsOf at h
    rw [M.bind_ok h1] at h
    cases h2 : readsOf t c1 with
    | error e => rw [M.bind_error h2] at h; cases h
    | ok q =>
      obtain ⟨xs, c2⟩ := q
      rw [M.bind_ok h2] at h
      simp only [M.pure_apply, Except.ok.injEq, Prod.mk.injEq] at h
      exact ⟨x, xs, c1, rfl, by rw [h2, h.2], h.1.symm⟩

theorem scalar1_apply {f : Word → Word} {a b : Sel} {c c' : Ctx} {x : Word} (h : readsOf [b] c = .ok ([x], c')) :
    scalar1 f a b c = writeOp a (f x) c' := by
  obtain ⟨y, ys, c1, h1, h2, h3⟩ := readsOf_cons h
  cases h2; cases h3
  unfold scalar1; rw [M.bind_ok h1]

theorem scalar2_apply {f : Word → Word → Word} {a b d : Sel} {c c' : Ctx} {x y : Word}
    (h : readsOf [b, d] c = .ok ([x, y], c')) : scalar2 f a b d c = writeOp a (f x y) c' := by
  obtain ⟨_, _, c1, h1, h2, h3⟩ := readsOf_cons h
  obtain ⟨_, _, c2, h4, h5, h6⟩ := readsOf_cons h2
  cases h5; cases h6; cases h3
  unfold scalar2; rw [M.bind_ok h1, M.bind_ok h4]

theorem scalar3_apply {f : Word → Word → Word → Word} {a b d e : Sel} {c c' : Ctx} {x y z : Word}
    (h : readsOf [b, d, e] c = .ok ([x, y, z], c')) : scalar3 f a b d e c = writeOp a (f x y z) c' := by
  obtain ⟨_, _, c1, h1, h2, h3⟩ := readsOf_cons h
  obtain ⟨_, _, c2, h4, h5, h6⟩ := readsOf_cons h2
  obtain ⟨_, _, c3, h7, h8, h9⟩ := readsOf_cons h5
  cases h8; cases h9; cases h6; cases h3
  unfold scalar3; rw [M.bind_ok h1, M.bind_ok h4, M.bind_ok h7]

theorem readsOf_length {srcs : List Sel} {c c' : Ctx} {vals : List Word} (h : readsOf srcs c = .ok (vals, c')) :
    vals.length = srcs.length := by
  induction srcs generalizing c vals with
  | nil => cases h; rfl
  | cons b t ih =>
    obtain ⟨x, xs, c1, _, h2, h3⟩ := readsOf_cons h
    subst h3; simp [ih h2]

end Sys2Proof.Machine
end

