-- ==== Sys2Proof/Laws/Results.lean ====
section
/-! SUPPORT. What reading operands leaves of the next PC, and what an instruction that writes one register comes to. -/

namespace Sys2Proof.Machine

/-- A meaning that leaves the next PC, the cycles and the end of the chunk as they were where it goes on. -/
def NpcKept {α : Type} (m : M α) : Prop :=
  ∀ c a c', m c = .ok (a, c') → c'.npc = c.npc ∧ c'.cost = c.cost ∧ c'.last = c.last

theorem NpcKept.bind {α β : Type} {m : M α} {f : α → M β} (h : NpcKept m) (g : ∀ a, NpcKept (f a)) : NpcKept (m >>= f) := by
  intro c b c' hb
  cases h1 : m c with
  | error e => rw [M.bind_error h1] at hb; cases hb
  | ok p =>
    obtain ⟨a, c1⟩ := p
    rw [M.bind_ok h1] at hb
    obtain ⟨e1, e2, e3⟩ := h c a c1 h1
    obtain ⟨g1, g2, g3⟩ := g a c1 b c' hb
    exact ⟨g1.trans e1, g2.trans e2, g3.trans e3⟩

theorem NpcKept.pure {α : Type} (a : α) : NpcKept (Pure.pure a : M α) := by
  intro c b c' h; cases h; exact ⟨rfl, rfl, rfl⟩

theorem NpcKept.fault {α : Type} (r : FaultRec) : NpcKept (fault r : M α) := by intro c b c' h; cases h
theorem NpcKept.leave {α : Type} (s : State) : NpcKept (leave s : M α) := by intro c b c' h; cases h
theorem NpcKept.getS : NpcKept getS := by intro c b c' h; cases h; exact ⟨rfl, rfl, rfl⟩
theorem NpcKept.me : NpcKept me := by intro c b c' h; cases h; exact ⟨rfl, rfl, rfl⟩
theorem NpcKept.keep : NpcKept keep := by intro c b c' h; cases h; exact ⟨rfl, rfl, rfl⟩
theorem NpcKept.myCore : NpcKept myCore := by intro c b c' h; cases h; exact ⟨rfl, rfl, rfl⟩
theorem NpcKept.modBoth (f : State → State) : NpcKept (modBoth f) := by intro c b c' h; cases h; exact ⟨rfl, rfl, rfl⟩
theorem NpcKept.modMe (f : Core → Core) : NpcKept (modMe f) := by intro c b c' h; cases h; exact ⟨rfl, rfl, rfl⟩

theorem NpcKept.ite {α : Type} {p : Prop} [Decidable p] {m n : M α} (h : NpcKept m) (g : NpcKept n) :
    NpcKept (if p then m else n) := by
  split
  · exact h
  · exact g

theorem NpcKept.forM {α : Type} {l : List α} {f : α → M PUnit} (h : ∀ a, NpcKept (f a)) : NpcKept (l.forM f) := by
  induction l with
  | nil => exact .pure _
  | cons a t ih => exact .bind (h a) fun _ => ih

theorem NpcKept.rankCheck (w3 : Word) (r : Option Nat) : NpcKept (rankCheck w3 r) := by
  refine .bind .myCore fun c => ?_
  cases r with
  | none => exact .ite (.fault _) (.pure _)
  | some r => exact .ite (.fault _) (.pure _)

theorem NpcKept.commitFirst : NpcKept commitFirst := by
  intro c a c' h
  unfold Machine.commitFirst at h
  simp only at h
  split at h <;> try cases h
  split at h <;> try cases h
  exact ⟨rfl, rfl, rfl⟩

theorem NpcKept.commitPoint : NpcKept commitPoint := by
  refine .bind .commitFirst fun _ => .bind (.modBoth _) fun _ => ?_
  intro c a c' h
  simp only at h
  split at h <;> try cases h
  split at h <;> cases h
  exact ⟨rfl, rfl, rfl⟩

theorem NpcKept.waitLocal (own : Bool) (checks : List (Word × Option Nat)) (ps : List Pred) :
    NpcKept (waitLocal own checks ps) := by
  have tail : NpcKept (do
      (fun c => Except.ok ((), { c with own := own }) : M PUnit)
      let c ← Machine.myCore
      if ps.all (c.holds c.act) = true then do
          waitDone
          Machine.keep
        else do
          let s ← Machine.getS
          let k ← Machine.me
          Machine.leave (s.suspend k ps)) :=
    .bind (by intro c a c' h; cases h; exact ⟨rfl, rfl, rfl⟩) fun _ => .bind .myCore fun _ =>
      .ite (.bind (.modMe _) fun _ => .keep) (.bind .getS fun _ => .bind .me fun _ => .leave _)
  exact .bind (.bind .myCore fun _ => .pure _) fun r =>
    .ite (.bind .commitPoint fun _ => .bind (.forM fun _ => .rankCheck _ _) fun _ => tail) tail

theorem NpcKept.qWait (i n : Nat) : NpcKept (qWait i n) := by
  refine .bind .myCore fun c => ?_
  split
  · exact .fault _
  · exact .ite (.pure _) (.pure _)

theorem NpcKept.inboxWord (off : Nat) : NpcKept (inboxWord off) := by
  refine .bind .getS fun _ => .bind .me fun k => ?_
  have rest : NpcKept (do
      Machine.modBoth fun s => s.secded k off 8
      let s ← Machine.getS
      if s.poisonAt k off 8 = true then
        Machine.modBoth fun s => s.poisonUsed k off
        Machine.fault (faultAt 0x06 (BitVec.ofNat 64 off))
      else Pure.pure ()) :=
    .bind (.modBoth _) fun _ => .bind .getS fun _ => .ite (.bind (.modBoth _) fun _ => .fault _) (.pure _)
  exact .ite (.bind (.fault _) fun _ => rest) rest

theorem NpcKept.readPlace (x : Nat × Bool) : NpcKept (readPlace x) :=
  .bind .me fun _ => .ite (.inboxWord _) (.ite (.bind (.modBoth _) fun _ => .fault _) (.pure _))

theorem NpcKept.qTake (i n : Nat) : NpcKept (qTake i n) := by
  refine .bind .myCore fun c => ?_
  split
  · exact .fault _
  · refine .ite (.bind (.forM .readPlace) fun _ => .bind (.modMe _) fun _ => .pure _) (.bind (.forM .readPlace) fun _ => ?_)
    simp only
    split
    · exact .bind (.fault _) fun _ => .bind (.modMe _) fun _ => .pure _
    · exact .bind (.modMe _) fun _ => .pure _

theorem NpcKept.readOp (b : Sel) : NpcKept (readOp b) := by
  refine .ite (.pure _) (.ite (.bind .myCore fun _ => .pure _) ?_)
  exact .bind (.qWait _ _) fun _ => .bind (.waitLocal _ _ _) fun _ => .bind (.qTake _ _) fun _ => .pure _

theorem NpcKept.readsOf (srcs : List Sel) : NpcKept (readsOf srcs) := by
  induction srcs with
  | nil => exact .pure _
  | cons b t ih => exact .bind (.readOp b) fun _ => .bind ih fun _ => .pure _

/-! ## What an instruction that writes one register comes to -/

theorem Finished.refl (s : State) (k : Nat) : Finished s s k := ⟨rfl, fun _ _ _ => rfl, .refl _ _, .refl _⟩

/-- A core changed in its registers and its chunk record only. -/
structure RegsOnly (c d : Core) (ws : List Nat) : Prop where
  core : d = { c with regs := d.regs, ord := { c.ord with chunk := d.ord.chunk } }
  regs : ∀ i, i ∉ ws → d.reg i = c.reg i

theorem Core.setReg_only (c : Core) (a : Sel) (x : Word) : RegsOnly c (c.setReg a.toNat x) (written a) where
  core := by rw [Core.setReg_same]
  regs i hi := by
    rw [Core.reg_setReg]
    unfold written at hi
    split at hi
    · next h => simp [h]
    · next h => simp only [List.mem_singleton] at hi; simp [hi]

theorem RegsOnly.refl (c : Core) : RegsOnly c c [] := ⟨rfl, fun _ _ => rfl⟩

/-- A frame from its three parts: what comes before the effect, the registers written, and what comes after. -/
theorem regFrame_of {s u v t : State} {k : Nat} {ws : List Nat} (h : Finished s u k)
    (hv : v = u.modCore k fun _ => v.core k) (hr : RegsOnly (u.core k) (v.core k) ws) (g : Finished v t k) :
    RegFrame s t k ws := by
  have hother : ∀ j, j ≠ k → v.core j = u.core j := by
    intro j hj; rw [hv]; exact State.core_modCore_of_ne u _ hj
  have hc := hr.core
  have hctl : (v.core k).ctl = (u.core k).ctl := by rw [hc]
  have hslots : (v.core k).slots = (u.core k).slots := by rw [hc]
  have hpair : (v.core k).ctl.pair = (s.core k).ctl.pair := by rw [hctl, h.core.ctl]
  have hrun : (u.core k).runSlot = (s.core k).runSlot := h.core.runSlot
  have hrun2 : (v.core k).runSlot = (s.core k).runSlot := by
    unfold Core.runSlot; rw [hctl]; exact hrun
  have hslot : ∀ i, (v.core k).slot i = (u.core k).slot i := by intro i; unfold Core.slot; rw [hslots]
  have g' := g.core
  rw [hrun2] at g'
  have hmid : SameStores u v := by
    rw [hv]; exact .modCore u k (by rw [hc]) (by rw [hc]) (by rw [hc])
  have hls : SameStores s t := h.held.trans (hmid.trans g.held)
  have hmod : OnlyCores s t := by
    have e1 := h.module
    have e2 := g.module
    unfold OnlyCores at e1 e2 ⊢
    rw [e2, hv, e1]; rfl
  have hphys : t.phys = s.phys := by rw [hmod]
  constructor
  · exact hmod
  · exact ⟨fun j off => State.cellAt_congr hls j off, fun pa => by rw [hphys], fun pa => by rw [hphys]⟩
  · intro j hj hp
    rw [g.others j hj (by rw [hpair]; exact hp), hother j hj, h.others j hj hp]
  · have e1 := h.core.core
    have e2 := g'.core
    rw [e2, hc, e1]
  · rw [g'.ctl, hctl, h.core.ctl]
  · intro i hi
    unfold Core.reg
    rw [g'.regs]
    show (v.core k).reg i = _
    rw [hr.regs i hi]
    unfold Core.reg
    rw [h.core.regs]
  · constructor
    · have ht : (t.core k).runSlot = (s.core k).runSlot := g'.runSlot.trans hrun2
      unfold Core.act
      rw [ht, g'.slot, hslot, h.core.slot]
    · intro i hi
      rw [g'.rest i hi, hslot, h.core.rest i hi]
  · rw [g'.sb, hc]; exact h.core.sb
  · rw [g'.ob, hc]; exact h.core.ob

theorem Operands.begins {s u : State} {srcs : List Sel} {vals : List Word} (h : Operands s srcs vals u) :
    ∃ c, readsOf srcs s.begin = .ok (vals, c) ∧ Finished u c.st s.turn ∧ c.st.turn = s.turn ∧
      (c.st.core s.turn).ctl.run.isSome = true ∧ c.npc = (s.core s.turn).act.nextPc ∧ c.cost = 1 := by
  obtain ⟨c, hc, hu⟩ := h.reads
  obtain ⟨n1, n2, -⟩ := NpcKept.readsOf srcs _ _ _ hc
  refine ⟨c, hc, ?_⟩
  have hr := h.running
  unfold State.Running at hr
  split at hu
  · next hd =>
    have hq : ∀ b ∈ srcs, b.toNat ≤ 55 := by
      intro b hb
      have := List.all_eq_true.mp hd b hb
      simpa [Sel.dstOk] using this
    rw [readsOf_regs hq] at hc
    simp only [Except.ok.injEq, Prod.mk.injEq] at hc
    obtain ⟨-, rfl⟩ := hc
    subst hu
    refine ⟨State.begin_finished u, rfl, ?_, rfl, rfl⟩
    rw [(State.begin_finished u).core.run]; exact hr
  · subst hu
    exact ⟨.refl _ _, h.turn, by rw [h.same]; exact hr, n1, n2⟩

/-- An instruction that reads its sources and then writes one register. -/
theorem register_result {s u : State} {srcs : List Sel} {vals : List Word} {a : Sel} {x : Word} {m : M PUnit}
    (h : Operands s srcs vals u) (hm : ∀ c, readsOf srcs s.begin = .ok (vals, c) → m s.begin = writeOp a x c) :
    ∃ t, run m s = .next t ∧ WritesReg s u t a x := by
  obtain ⟨c, hc, hfin, hturn, hrun, hnpc, hcost⟩ := h.begins
  have hm := hm c hc
  rw [writeOp_apply] at hm
  refine ⟨_, run_ok hm, ?_⟩
  have hcore : ((c.st.modCore c.st.turn fun d => d.setReg a.toNat x).core s.turn) = (c.st.core s.turn).setReg a.toNat x := by
    rw [hturn]; exact State.core_modCore _ _ _
  have hrun2 : (((c.st.modCore c.st.turn fun d => d.setReg a.toNat x).core s.turn).ctl.run).isSome = true := by
    rw [hcore, Core.setReg_same]; exact hrun
  obtain ⟨i, hi⟩ := Option.isSome_iff_exists.mp hrun2
  have hf := Ctx.finish_finished { c with st := c.st.modCore c.st.turn fun d => d.setReg a.toNat x } hi
  refine ⟨?_, ?_, ?_⟩
  · intro ha
    unfold Core.reg
    rw [hf.core.regs]
    show ((c.st.modCore c.st.turn fun d => d.setReg a.toNat x).core s.turn).reg a.toNat = x
    rw [hcore, Core.reg_setReg]
    simp [ha]
  · rw [Ctx.finish_pc _ hi]; exact hnpc
  · refine regFrame_of hfin ?_ ?_ hf
    · show c.st.modCore c.st.turn (fun d => d.setReg a.toNat x) = c.st.modCore s.turn fun _ => _
      rw [hcore, hturn]; rfl
    · show RegsOnly _ ((c.st.modCore c.st.turn fun d => d.setReg a.toNat x).core s.turn) _
      rw [hcore]; exact Core.setReg_only _ _ _

/-! ## What an instruction comes to whose effect is a change of the state -/

theorem Finished.retires {u t : State} {k : Nat} (h : Finished u t k) : Retires u t k (t.core k).act.pc where
  module := h.module
  memory := by
    have hp : t.phys = u.phys := by rw [h.module]
    exact ⟨fun j off => State.cellAt_congr h.held j off, fun pa => by rw [hp], fun pa => by rw [hp]⟩
  others := h.others
  core := by
    have := h.core.core
    rw [this]
  ctl := h.core.ctl
  slots := ⟨by
    unfold Core.act
    rw [h.core.runSlot]; exact h.core.slot, h.core.rest⟩
  stores := h.core.sb
  output := h.core.ob
  pc := rfl

theorem Retires.at {u t : State} {k : Nat} {pc pc' : Word} (h : Retires u t k pc) (e : pc = pc') : Retires u t k pc' := e ▸ h

/-- A meaning that completes with state `c.st` while the activation still runs. -/
theorem Ctx.finish_retires (c : Ctx) {k : Nat} (hr : (c.st.core k).ctl.run.isSome = true) :
    Retires c.st (c.finish k) k c.npc := by
  obtain ⟨i, hi⟩ := Option.isSome_iff_exists.mp hr
  exact (c.finish_finished hi).retires.at (c.finish_pc hi)

theorem Finished.trans {s u t : State} {k : Nat} (h : Finished s u k) (g : Finished u t k) : Finished s t k where
  module := by
    have e1 := h.module
    have e2 := g.module
    unfold OnlyCores at e1 e2 ⊢
    rw [e2, e1]
  others j hj hp := by
    rw [g.others j hj (by rw [h.core.ctl]; exact hp), h.others j hj hp]
  core := by
    have := g.core
    rw [h.core.runSlot] at this
    exact h.core.trans this
  held := h.held.trans g.held

theorem Finished.runs {s u : State} {k : Nat} (h : Finished s u k) : (u.core k).ctl.run = (s.core k).ctl.run := by rw [h.core.ctl]

theorem SameMemory.refl (s : State) : SameMemory s s := ⟨fun _ _ => rfl, fun _ => rfl, fun _ => rfl⟩

/-- Where all of memory is the same, so is its data. -/
theorem SameMemory.data {s t : State} (h : SameMemory s t) : SameData s t := ⟨fun k o _ => h.cell k o, h.home, h.edge⟩

theorem SameMemory.trans {a b c : State} (h : SameMemory a b) (g : SameMemory b c) : SameMemory a c :=
  ⟨fun k o => (g.cell k o).trans (h.cell k o), fun p => (g.home p).trans (h.home p), fun p => (g.edge p).trans (h.edge p)⟩

/-- Memory reads the same where physical memory, the local stores and what the service cores hold are the same. -/
theorem SameMemory.of {s t : State} (hp : t.phys = s.phys) (hl : SameStores s t) : SameMemory s t :=
  ⟨fun k off => State.cellAt_congr hl k off, fun pa => by rw [hp], fun pa => by rw [hp]⟩

theorem SameMemory.modCore (s : State) (k : Nat) {f : Core → Core} (h1 : (f (s.core k)).ls = (s.core k).ls)
    (h2 : (f (s.core k)).inq = (s.core k).inq) (h3 : (f (s.core k)).spilt = (s.core k).spilt) :
    SameMemory s (s.modCore k f) :=
  .of rfl (.modCore s k h1 h2 h3)

/-- The same effect on two states that differ by the beginning of an instruction. -/
theorem Finished.modCore {u v : State} {k : Nat} (h : Finished u v k) {f g : Core → Core}
    (hc : SameButRetired (f (u.core k)) (g (v.core k)) (f (u.core k)).runSlot)
    (hp : (f (u.core k)).ctl.pair = (u.core k).ctl.pair) : Finished (u.modCore k f) (v.modCore k g) k where
  module := by
    have := h.module
    unfold OnlyCores at this ⊢
    rw [this]; rfl
  others j hj hp' := by
    rw [State.core_modCore] at hp'
    rw [State.core_modCore_of_ne _ _ hj, State.core_modCore_of_ne _ _ hj]
    exact h.others j hj (by rw [← hp]; exact hp')
  core := by rw [State.core_modCore, State.core_modCore]; exact hc
  held := by
    refine ⟨h.held.tiles, h.held.events, h.held.parts, fun j => ?_, fun j => ?_, fun j => ?_⟩ <;> by_cases hj : j = k
    · subst hj; rw [State.core_modCore, State.core_modCore, hc.ls]
    · rw [State.core_modCore_of_ne _ _ hj, State.core_modCore_of_ne _ _ hj]; exact h.held.ls j
    · subst hj; intro ch; rw [State.core_modCore, State.core_modCore]; unfold Core.inb; rw [hc.inq]
    · rw [State.core_modCore_of_ne _ _ hj, State.core_modCore_of_ne _ _ hj]; exact h.held.div j
    · subst hj; rw [State.core_modCore, State.core_modCore, hc.spilt]
    · rw [State.core_modCore_of_ne _ _ hj, State.core_modCore_of_ne _ _ hj]; exact h.held.spilt j

/-- An instruction whose meaning leaves state `v` from context `c`, where `v` follows from the effect `w` on the state that its operands
were read in. -/
theorem effect_result {s w : State} {m : M PUnit} {c : Ctx} (hm : m s.begin = .ok ((), c)) (hf : Finished w c.st s.turn)
    (hr : (w.core s.turn).ctl.run.isSome = true) : ∃ t, run m s = .next t ∧ Retires w t s.turn c.npc := by
  refine ⟨_, run_ok hm, ?_⟩
  have hr2 : (c.st.core s.turn).ctl.run.isSome = true := by rw [hf.runs]; exact hr
  obtain ⟨i, hi⟩ := Option.isSome_iff_exists.mp hr2
  exact (hf.trans (c.finish_finished hi)).retires.at (c.finish_pc hi)

/-- A register other than w0 written, seen from before and from after the beginning of an instruction. -/
theorem Core.setReg_finished {c d : Core} {i : Nat} (h : SameButRetired c d i) {a : Nat} (ha : a ≠ 0) (x : Word) :
    SameButRetired { c with regs := Table.set c.regs a x } (d.setReg a x) i := by
  have hc : SameButRetired { c with regs := Table.set c.regs a x } { d with regs := Table.set d.regs a x } i :=
    ⟨by have := h.core; simp only [h.regs]; rw [this], h.ctl, h.slot, h.rest, h.sb, h.ob⟩
  refine hc.trans ?_
  rw [Core.setReg_same]; simp only [ha, if_false]
  exact ⟨rfl, rfl, rfl, fun _ _ => rfl, rfl, rfl⟩

end Sys2Proof.Machine
end

