-- ==== Sys2Proof/Laws/Twin.lean ====
section
/-! SUPPORT. What the second execution of a pair can do (R394, R395): it changes nothing but the registers, cells and shadows of followers. -/

namespace Sys2Proof.Machine

/-- Taking up what a follower has done leaves all but four fields of it. -/
theorem Core.took_frame (d o c : Core) (k : Nat) :
    d.took o c k = { d with regs := (d.took o c k).regs, ls := (d.took o c k).ls, vec := (d.took o c k).vec, twin := (d.took o c k).twin } := rfl

@[simp] theorem Core.took_ring (d o c : Core) (k : Nat) : (d.took o c k).vec.ring = d.vec.ring := rfl

/-- Where the second execution goes on to the same point, the follower takes up what it has done. -/
theorem State.follow_of_alike {s t u : State} {td : Todo} {k f : Nat} (h : (s.twinTodo k f td).map Todo.outcome = some (.next u))
    (a : (t.core k).alike (u.core k) = true) : s.follow td t k f = t.modCore f fun d => d.took (s.core f) (u.core k) k := by
  simp [State.follow, h, a]

/-- A second execution changes the follower alone, as it takes up what it has done, or nothing. -/
theorem State.follow_cases (s t : State) (td : Todo) (k f : Nat) :
    s.follow td t k f = t ∨ ∃ c, s.follow td t k f = t.modCore f fun d => d.took (s.core f) c k := by
  unfold State.follow
  split
  · split
    · exact .inr ⟨_, rfl⟩
    · exact .inl rfl
  · exact .inl rfl

/-- What the followers do touches only cores, and of these only followers. -/
theorem State.alongside_frame (s : State) (td : Todo) (t : State) :
    s.alongside td t = { t with cores := (s.alongside td t).cores } ∧
      ∀ j, (∀ x ∈ s.leads, x.2 ≠ j) → (s.alongside td t).core j = t.core j := by
  suffices h : ∀ (l : List (Nat × Nat)) (t : State),
      l.foldl (fun t x => s.follow td t x.1 x.2) t = { t with cores := (l.foldl (fun t x => s.follow td t x.1 x.2) t).cores } ∧
        ∀ j, (∀ x ∈ l, x.2 ≠ j) → (l.foldl (fun t x => s.follow td t x.1 x.2) t).core j = t.core j from h _ t
  intro l
  induction l with
  | nil => exact fun t => ⟨rfl, fun _ _ => rfl⟩
  | cons x l ih =>
    intro t
    obtain ⟨hf, hc⟩ := ih (s.follow td t x.1 x.2)
    simp only [List.foldl_cons]
    obtain e | ⟨c, e⟩ := State.follow_cases s t td x.1 x.2
    · rw [e] at hf hc ⊢
      exact ⟨hf, fun j h => hc j fun y hy => h y (.tail _ hy)⟩
    · rw [e] at hf hc ⊢
      refine ⟨hf, fun j h => (hc j fun y hy => h y (.tail _ hy)).trans ?_⟩
      exact State.core_modCore_of_ne _ _ (Ne.symm (h x (.head _)))

/-- Without a pair a step is what comes next, and nothing more. -/
theorem State.withFollowers_of_leads {s : State} (h : s.leads = []) (td : Todo) (o : Host.Outcome State Fault Refusal) :
    s.withFollowers td o = o := by
  cases o <;> simp [State.withFollowers, State.alongside, h]

end Sys2Proof.Machine
end

