-- ==== Sys2Proof/Machine/Bars.lean ====
section
/-! DEFINITION. What the host reads (R28, R107, R367 to R370, R375 to R377, R379, R398, R402): the registers and tables of the functions'
BARs as values of the state. A read changes nothing, so it is no step. Where the manual does not say how an amount is counted, or lays
out no words, the choice is marked (log 97). -/

namespace Sys2Proof.Machine

/-! ## The capability table (R369) -/

/-- An entry of the capability table: resource id, granularity, minimum, maximum and the amount now free. -/
structure Cap where
  id : Nat
  gran : Nat
  min : Nat
  max : Nat
  free : Nat
deriving DecidableEq, Repr

/-- Its four words. -/
def Cap.words (c : Cap) : List Word :=
  [BitVec.ofNat 64 (c.gran * 2 ^ 32 + c.id), BitVec.ofNat 64 (c.max * 2 ^ 32 + c.min), BitVec.ofNat 64 c.free, 0]

/-- Ready tiles that no partition owns (R27). -/
def State.spareTiles (s : State) : Nat :=
  ((List.range Config.tiles).filter fun t => (s.tile t).ready && (s.tile t).owner.isNone).length

/-- Frames of a tier that a GRANT could take (R27, R378). -/
def State.spareFrames (s : State) (far : Bool) : Nat :=
  let r := tierFrames far
  ((List.range r.2).filter fun i => s.grantable (r.1 + i)).length

/-- The eleven entries. The amount now free of a resource that every partition or tile has for itself is its maximum; of tiles,
partitions, queue pairs, frames and draw tokens what nobody has (DESIGN CHOICE, log 97). -/
def State.caps (s : State) : List Cap :=
  [⟨1, 8, 8, 32768, s.spareTiles⟩,
   ⟨2, 1, 1, 4096, 4096 - s.parts.length⟩,
   ⟨3, 1, 1, 64, 64⟩,
   ⟨4, 1, 0, 65536, 65536 - s.net.length⟩,
   ⟨5, 1, 0, Config.nearBytes / 65536, s.spareFrames false⟩,
   ⟨6, 1, 0, 67108864, s.spareFrames true⟩,
   ⟨7, 1, 8, 32, s.host.limit - s.heldBudgets⟩,
   ⟨8, 1, 1, 2047, 2047⟩,
   ⟨9, 1, 0, 1048575, 1048575⟩,
   ⟨10, 1, 0, 16, 16⟩,
   ⟨11, 1, 0, 256, 256⟩]

/-- The 64-bit word whose bit `i` is `f i`. -/
def bitsWord (f : Nat → Bool) : Word := BitVec.ofNat 64 (sumBy (fun i => if f i then 2 ^ i else 0) (List.range 64))

/-- Functions of a kind that are ready. -/
def State.readyCount (s : State) (f : Func) : Nat := ((List.range (funcCount f)).filter (s.isReady f)).length

/-- The summary word of the readiness block (R28). -/
def State.readySummary (s : State) : Word :=
  let all := [Func.tile, .station, .eth, .host].all fun f => s.readyCount f == funcCount f
  BitVec.ofNat 64 (fld (bnat all) 63 + fld (bnat (s.isReady .host 1)) 49 + fld (bnat (s.isReady .host 0)) 48
    + fld (s.readyCount .eth) 32 + fld (Nat.min 0xFFFF (s.readyCount .tile)) 16 + s.readyCount .station)

/-- Word `i` of the readiness block: the summary, the stations, the Ethernet ports, then 512 words of tiles (R28). -/
def State.readyWord (s : State) (i : Nat) : Word :=
  match i with
  | 0 => s.readySummary
  | 1 => bitsWord (s.isReady .station)
  | 2 => bitsWord fun p => decide (p < 32) && s.isReady .eth p
  | j + 3 => bitsWord fun b => s.isReady .tile (64 * j + b)

/-- Word `i` of the capability table: the magic bytes "ILCT" and the entry count, the entries, the readiness block (R369). -/
def State.capWord (s : State) (i : Nat) : Word :=
  if i = 0 then BitVec.ofNat 64 (11 * 2 ^ 32 + leNat [0x49, 0x4C, 0x43, 0x54])
  else if i < 45 then (s.caps.flatMap Cap.words).getD (i - 1) 0
  else if i < 560 then s.readyWord (i - 45)
  else 0

/-! ## Registers -/

/-- The lease register (R368). -/
def State.readLease (s : State) : Word :=
  BitVec.ofNat 64 (fld s.host.period.toNat 32 + fld (bnat s.host.expired) 2 + fld (bnat s.host.owner) 1)

/-- A queue's register (R370). -/
def Queue.read (u : Queue) (off : Nat) : Word :=
  match off with
  | 0x00 => u.base
  | 0x08 => u.size.setWidth 64
  | 0x10 => u.tail.setWidth 64
  | 0x18 => u.head.setWidth 64
  | 0x20 => u.vec.setWidth 64
  | _ => 0

/-- A trace station's register (R402). -/
def State.readTrace (s : State) (q off : Nat) : Word :=
  let t := Table.get {} s.trace q
  match off with
  | 0x00 => BitVec.ofNat 64 (fld (t.tile % 2 ^ 15) 34 + fld t.pre.toNat 18 + fld t.trig.toNat 16)
  | 0x08 => t.tcyc
  | 0x10 => BitVec.ofNat 64 (fld (t.now s.cycle) 1 + bnat t.done)
  | _ => 0

/-- The bucket register: the selected bucket (R375). -/
def Contract.bucketWord (x : Contract) : Word :=
  let b := Table.get {} x.buckets x.sel.toNat
  BitVec.ofNat 64 (fld x.sel.toNat 56 + fld b.depth.toNat 20 + b.rate.toNat)

/-- A monitor's configuration and status words (R376). -/
def Qos.word (m : Qos) : Word :=
  BitVec.ofNat 64 (fld m.bound.toNat 32 + fld m.p.toNat 22 + fld m.k.toNat 17 + fld m.src.toNat 15 + m.id.toNat)
def Qos.status (m : Qos) : Word := BitVec.ofNat 64 (fld (bnat m.viol) 5 + m.bin.toNat)

/-- A collective's slot: its record's address, with bit 0 set, or 0 (R383). -/
def Coll.word (x : Option Coll) : Word := (x.map fun x => x.va ||| 1#64).getD 0

/-- A word of a control block (R377). -/
def Contract.read (x : Contract) (off : Nat) : Word :=
  let m := Table.get {} x.qos ((off - 0x100) / 16)
  if off = 0 then x.bucketWord
  else if 0x100 ≤ off ∧ off < 0x200 then (if off % 16 = 0 then m.word else m.status)
  else if off = 0x200 then BitVec.ofNat 64 (fld x.qosvec.toNat 16 + x.prevec.toNat)
  else if 0x800 ≤ off then Coll.word (find x.coll ((off - 0x800) / 8))
  else 0

/-! ## Module telemetry (R379, R396, R398) -/

/-- The tile belongs to a confidential partition. -/
def State.secret (s : State) (t : Nat) : Bool :=
  match (s.tile t).owner with
  | some p => (s.part p).conf
  | none => false

/-- The link counters of a tile as the module shows them: a boundary port's too, a confidential partition's interior ones not. -/
def State.moduleLinks (s : State) (t : Nat) : List Byte :=
  (List.range 16).flatMap fun i =>
    match (s.tile t).owner with
    | some p => if (s.part p).conf && !s.boundaryPort p t (i / 4) then List.replicate 8 0 else s.linkCount t i
    | none => s.linkCount t i

/-- The block of a tile in module telemetry: of a confidential partition's tile no error counters, which are reported only as partition
sums (R379). -/
def State.moduleBlock (s : State) (t : Nat) : List Byte :=
  (if s.secret t then List.replicate 576 0
    else counters (s.tile t).cnt ++ (List.range 32).flatMap fun l => (s.core (t * 32 + l)).cnt.bytes)
    ++ s.moduleLinks t ++ leBytes 8 (match (s.tile t).owner with
      | some p => s.boundBits p t
      | none => 0)

/-- The administrator's sum of tile counter `i` over a partition's tiles (R379). -/
def State.errorSum (s : State) (p i : Nat) : Nat := sumBy (fun t => Table.get 0 (s.tile t).cnt i) (s.tilesOf p)

/-- Entry `i` of the fault log that the administrator sees: the last of those whose number is `i` modulo 256 (R379, R399). -/
def State.faultEntry (s : State) (i : Nat) : List Word :=
  let n := s.host.faults.length
  let back := (n + 255 - i) % 256
  if back < n then ((s.host.faults[n - 1 - back]?).map (·.words)).getD [] else []

/-- Bytes of module telemetry from offset `off` of its area (R398): the layout of a partition's area, for all tiles. SEQ and the partition
counters read zero, since no sweep and no partition is named there (DESIGN CHOICE, log 97). -/
def State.moduleBytes (s : State) (off : Nat) : List Byte :=
  if off < 0x40 then
    (wordBytes [0, BitVec.ofNat 64 s.cycle, BitVec.ofNat 64 s.host.faults.length, BitVec.ofNat 64 Config.tiles]).drop off
  else if off < 0x80 then []
  else if off < 0xC0 then (counters s.host.cnt).drop (off - 0x80)
  else if off < 0x1000 then []
  else if off < 0x5000 then (wordBytes (s.faultEntry ((off - 0x1000) / 64))).drop (off % 64)
  else (s.moduleBlock ((off - 0x5000) / 0x400)).drop ((off - 0x5000) % 0x400)

/-- Its word at `off`; what lies beyond a part reads zero. -/
def State.moduleWord (s : State) (off : Nat) : Word := BitVec.ofNat 64 (leNat ((s.moduleBytes off).take 8))

/-! ## The BARs (R367, R377) -/

/-- An aligned 64-bit read of the PF's BAR0 (R377); reserved offsets read zero, and so does everything while no host port is ready
(R26). -/
def State.readPf (s : State) (off : Nat) : Word :=
  if !s.hostUp ∨ off % 8 ≠ 0 then 0
  else if off < 0x1800 then s.capWord (off / 8)
  else if off = 0x1800 then s.readLease
  else if 0x2000 ≤ off ∧ off < 0x2040 then (s.queue 4096 0).read (off - 0x2000)
  else if 0x3000 ≤ off ∧ off < 0x3100 then s.readTrace ((off - 0x3000) / 0x40) (off % 0x40)
  else if 0x100000 ≤ off ∧ off < 0x1100000 then (s.ct ((off - 0x100000) / 0x1000)).read (off % 0x1000)
  else if 0x4000000 ≤ off ∧ off < 0x6005000 then s.moduleWord (off - 0x4000000)
  else if 0x40000000 ≤ off ∧ off < 0x50000000 then s.dbgRead ((off - 0x40000000) / 0x100) (off % 0x100)
  else 0

/-- An aligned 64-bit read of the BAR0 of partition `p`'s VF (R370). -/
def State.readVf (s : State) (p off : Nat) : Word :=
  if s.hostUp ∧ has s.parts p ∧ off < 0x1000 ∧ off % 8 = 0 then (s.queue p (off / 64)).read (off % 64) else 0

/-- The physical address behind an offset of BAR2 of partition `p`'s VF: a frame of its queue area (R367) at a station that is ready
(R26). -/
def State.bar2Pa (s : State) (p off : Nat) : Option Nat :=
  let f := Config.barFrame p (off / 65536)
  if s.hostUp && has s.parts p && Table.get 0 s.phys.owner f == p + 1 && s.addrUp (f * 65536) then some (f * 65536 + off % 65536) else none

/-- Bytes read through BAR2, as the homes or the edge stations hold them and find them on the way (R391), and whether the completion is
poisoned: some sector of them is (R390). -/
def State.readBar2 (s : State) (p off n : Nat) : List Byte × Bool :=
  match s.bar2Pa p off with
  | some pa =>
    let s1 := s.halvesCheck pa n
    (s1.phys.bytes pa n, s1.phys.poisoned .home pa n)
  | none => (List.replicate n 0, false)

/-- Bytes written through BAR2: the host's write at that address (R168, R287), which EXTERNAL_AGENT_WRITE performs. -/
def State.writeBar2 (s : State) (p off : Nat) (bs : List Byte) : State :=
  match s.bar2Pa p off with
  | some pa => s.agentWrite 4096 pa bs
  | none => s

/-! ## The batched fault queue (R107) -/

/-- The four words of a record of the batched fault queue (R107). -/
def PageRec.words (r : PageRec) : List Word :=
  [(r.vpage &&& ~~~0xFFFF#64) + BitVec.ofNat 64 (fld (r.kind % 16) 12),
   BitVec.ofNat 64 (fld r.seq.toNat 32 + fld (r.tile % 2 ^ 15) 12 + r.part % 2 ^ 12),
   BitVec.ofNat 64 (fld (r.newt % 2 ^ 20) 8 + 0x07),
   0]

/-- The 32-byte entries that the host reads, oldest first. -/
def State.faultQueue (s : State) : List Byte := wordBytes (s.host.faultq.flatMap PageRec.words)

end Sys2Proof.Machine
end

