-- ==== Sys2Proof/Tests/Slice0.lean ====
section
/-! SUPPORT. The model's own tests: ill-formed terms, words written out from the encoding tables, single steps on small states, and for
each statement states that meet its hypotheses. -/

namespace Sys2Proof.Tests

open Sys2Proof.Machine Sys2Proof.Claims

set_option Elab.async false

/-! ## Small states -/

/-- An activation that runs in slot 0 at the first slot of the line at VA 0. -/
def act0 : Act := { st := .running, pc := 1, count := 1000, budget := 32 }

/-- A newt that runs it, with registers, and one that runs nothing. -/
def newt (regs : Table Word) : Core := { ctl := { run := some 0 }, slots := [(0, act0)], regs := regs }

/-- Partition 0 on tiles 0 to 7, with one window of its first page. -/
def part0 : Part := { node := 4096, ptroot := 0x10000, win := [(0, 0x8000000000000000)] }

/-- Core `k` in a module whose other cores are as at reset, with its stations and partition 0's tiles ready. -/
def world (k : Nat) (c : Core) : State :=
  { State.reset with
    turn := k
    cores := [(k, c)]
    tiles := (List.range 8).map fun i => (i, { ready := true, owner := some 0 })
    parts := [(0, part0)]
    host := { stations := List.range 64 } }

/-- Newt 0 with registers, and tile 0's service core on a channel. -/
def at0 (regs : Table Word) : State := world 0 (newt regs)
def svc (chan : Nat) (regs : Table Word) : State :=
  world 0x100000 { newt regs with slots := [(0, { act0 with chan := chan })] }

/-- The core whose turn it is runs an activation, alone and with nothing outstanding. -/
def Idle (s : State) : Prop :=
  s.Running ∧ s.Quiet s.turn ∧ (s.core s.turn).act.life.deferred = none ∧ (s.core s.turn).inLiz = false ∧
    (s.core s.turn).ctl.pair = none ∧ (s.core s.turn).act.life.kind ≠ .resume

/-- A core in no pair has nothing outstanding. -/
theorem quiet_of {s : State} {k : Nat} (h : decide ((s.core k).ctl.pair = none ∧ (s.core k).ord.ended = [] ∧ (s.core k).ord.sb = [] ∧
    (s.core k).ord.chunk.rd = [] ∧ (s.core k).ord.chunk.wr = [] ∧ (s.core k).ord.chunk.iso = [] ∧
    (∀ e ∈ (s.core k).ord.ob, e.slot ≠ (s.core k).runSlot) ∧ (s.core k).act.sync.wait = []) = true) : s.Quiet k :=
  have h := of_decide_eq_true h
  ⟨⟨h.2.1, h.2.2.1, h.2.2.2.1, h.2.2.2.2.1, h.2.2.2.2.2.1, h.2.2.2.2.2.2.1, h.2.2.2.2.2.2.2⟩, fun f e => by rw [h.1] at e; cases e⟩

theorem at0_quiet (regs : Table Word) : (at0 regs).Quiet 0 := quiet_of rfl

theorem at0_idle (regs : Table Word) : Idle (at0 regs) :=
  ⟨rfl, at0_quiet regs, rfl, rfl, rfl, by rintro ⟨⟩⟩

/-! ## Witnesses of the statements' hypotheses -/

/-- Scalar results: a sum, a field of full length, a condition, a quotient by 0 and one that overflows. -/
theorem witness_scalar : (Instr.add 3 1 2).wf = true ∧ (arithmetic (.add 3 1 2)).isSome = true ∧
    (Instr.ext 3 1 0 64).wf = true ∧ (bitwise (.ext 3 1 0 64)).isSome = true ∧ (comparison (.cmp .gtn 3 1 2)).isSome = true ∧
    Operands (at0 [(1, 7), (2, 9)]) [1, 2] [7, 9] (at0 [(1, 7), (2, 9)]) ∧
    Operands (at0 [(1, 7)]) [1] [7] (at0 [(1, 7)]) :=
  ⟨rfl, rfl, rfl, rfl, rfl, ⟨rfl, ⟨_, rfl, rfl⟩, rfl, rfl⟩, rfl, ⟨_, rfl, rfl⟩, rfl, rfl⟩

theorem witness_division : (division (.div 3 1 2)).isSome = true ∧ (Instr.div 3 1 2).wf = true ∧
    Operands (at0 [(1, 7)]) [1, 2] [7, 0] (at0 [(1, 7)]) ∧
    Operands (at0 [(1, 0x8000000000000000), (2, -1)]) [1, 2] [0x8000000000000000, -1] (at0 [(1, 0x8000000000000000), (2, -1)]) :=
  ⟨rfl, rfl, ⟨rfl, ⟨_, rfl, rfl⟩, rfl, rfl⟩, rfl, ⟨_, rfl, rfl⟩, rfl, rfl⟩

/-- Control: a branch on a condition, a loop at its last turn, a call through a register. -/
theorem witness_control : (passages (.bcc .lt 1 2 3 5)).isSome = true ∧ (Instr.bcc .lt 1 2 3 5).wf = true ∧
    (passages (.loop 1 3 5)).isSome = true ∧ (Instr.loop 1 3 5).wf = true ∧ (passages (.callr 1)).isSome = true ∧
    Operands (at0 [(1, 1), (2, 9)]) [1, 2] [1, 9] (at0 [(1, 1), (2, 9)]) ∧ Operands (at0 [(1, 1)]) [1] [1] (at0 [(1, 1)]) :=
  ⟨rfl, rfl, rfl, rfl, rfl, ⟨rfl, ⟨_, rfl, rfl⟩, rfl, rfl⟩, rfl, ⟨_, rfl, rfl⟩, rfl, rfl⟩

/-- An activation that owes a unit on event 7, of rank 5. -/
def owing0 : State := world 0 { newt [] with obl := [⟨false, false, 5, 0, 1, 7, 0⟩] }

theorem witness_end : Idle (at0 []) ∧ ((at0 []).core 0).oblsOf (holderOf ((at0 []).core 0).runSlot) = [] ∧
    Idle owing0 ∧ (∀ o ∈ (owing0.core 0).oblsOf (holderOf (owing0.core 0).runSlot), o.arr = false) ∧
    (owing0.core 0).myFloor < Config.noRank :=
  ⟨at0_idle [], rfl, ⟨rfl, quiet_of rfl, rfl, rfl, rfl, by rintro ⟨⟩⟩,
    by decide +kernel, by decide +kernel⟩

theorem witness_traps : Idle (at0 []) ∧ (((at0 []).core 0).dbg.ctl.getLsbD 3 && ((at0 []).core 0).dbg.ctl.getLsbD 5) = false :=
  ⟨at0_idle [], rfl⟩

/-- CSRs: reads at and below their level, and writes of a newt's, a service core's and a partition's. -/
theorem witness_csrs : (Instr.csrr 3 0x000).wf = true ∧ (csrLevels 0x000).1 ≤ (at0 []).level 0 ∧ (at0 []).level 0 < (csrLevels 0x104).1 ∧
    (csrStores 0x00C 5).isSome = true ∧ csrPlace (at0 []) 0x00C ∧ (csrStores 0x027 5).isSome = true ∧ csrPlace (at0 []) 0x027 ∧
    (csrStores 0x011 5).isSome = true ∧ csrPlace (svc 0 []) 0x011 ∧ (csrStores 0x10A 5).isSome = true ∧ csrPlace (svc 32 []) 0x10A ∧
    (svc 32 []).level 0x100000 = 2 ∧ (csrStores 0x104 5).isSome = true ∧ csrPlace (svc 0 []) 0x104 ∧ csrPlace (svc 0 []) 0x101 ∧
    Operands (svc 0 [(3, 0x5000)]) [3] [0x5000] (svc 0 [(3, 0x5000)]) := by
  refine ⟨rfl, by decide +kernel, by decide +kernel, rfl, rfl, rfl, rfl, rfl, rfl, rfl, rfl, rfl, rfl, ⟨0, rfl, fun _ => rfl, fun _ => rfl⟩,
    ⟨0, rfl, fun h => ?_, fun h => ?_⟩, rfl, ⟨_, rfl, rfl⟩, rfl, rfl⟩
  · exact absurd h (by decide +kernel)
  · exact absurd h (by decide +kernel)

/-- CSR writes that are ignored: of ACTID, of GUARD on a service core, of SAVEBASE outside STATE 0, of PRECTL at a tile that is not the
first. Writes of QWSTAT, and of PRECTL with PEND in STATE 0, without it, and in STATE 5. -/
def csr0 (k : Nat) (st : BitVec 4) (x : Word) : State :=
  { world k { newt [(3, x)] with slots := [(0, { act0 with chan := 0 })] } with parts := [(0, { part0 with pre := { state := st } })] }

theorem witness_csrs_ignored : csrIgnores (at0 []) 0x000 ∧ csrIgnores (svc 0 []) 0x00C ∧ csrIgnores (csr0 0x100000 5 7) 0x104 ∧
    csrIgnores (csr0 0x100020 0 7) 0x103 ∧ (Instr.csrw 3 0x103).wf = true ∧ (csr0 0x100020 0 7).level 0x100020 = 1 ∧
    Operands (csr0 0x100020 0 7) [3] [7] (csr0 0x100020 0 7) ∧
    (∀ st ∈ [(0 : BitVec 4), 5], ∀ x ∈ [(0xC : Word), 1], (csr0 0x100000 st x).owner 0x100000 = some 0 ∧
      tileOf 0x100000 = (csr0 0x100000 st x).partFirst 0 ∧ (csr0 0x100000 st x).level 0x100000 = 1 ∧
      Operands (csr0 0x100000 st x) [3] [x] (csr0 0x100000 st x)) := by
  refine ⟨.inl (by decide +kernel), .inr (.inl ⟨rfl, .inl rfl⟩), .inr (.inr ⟨0, rfl, .inl ⟨rfl, by decide +kernel⟩⟩),
    .inr (.inr ⟨0, rfl, .inr ⟨by decide, by decide, by decide +kernel⟩⟩), rfl, rfl, ⟨rfl, ⟨_, rfl, rfl⟩, rfl, rfl⟩, ?_⟩
  simp only [List.forall_mem_cons, List.not_mem_nil, false_implies, implies_true, and_true]
  exact ⟨⟨⟨rfl, rfl, rfl, rfl, ⟨_, rfl, rfl⟩, rfl, rfl⟩, rfl, rfl, rfl, rfl, ⟨_, rfl, rfl⟩, rfl, rfl⟩,
    ⟨rfl, rfl, rfl, rfl, ⟨_, rfl, rfl⟩, rfl, rfl⟩, rfl, rfl, rfl, rfl, ⟨_, rfl, rfl⟩, rfl, rfl⟩

/-- Tile 0's service core holds a context of newt 1 that stands faulted in slot 0 (F1), and is at an `rte`. -/
def context1 : Held := { core := 1, slot := 0, act := 0, image := [(1, 9)], frec := { code := 0x13 } }
def rte0 : State :=
  { svc 0 [] with
    cores := [(0x100000, { newt [] with slots := [(0, { act0 with life := {
        ctx := some context1.ctx, fcsr := { newt := 0x1000001, pc := 6 } } })] }),
      (1, { slots := [(0, { st := .faulted, pc := 5 })] })]
    tiles := [(0, { ready := true, owner := some 0, svc := { held := [context1] } })] }

theorem witness_rte : rte0.Running ∧ rte0.Quiet 0x100000 ∧ 1 ≤ rte0.level 0x100000 ∧
    rte0.currentHeld 0x100000 = some context1 ∧ (rte0.level 0x100000 = 1 → rte0.owner 1 = rte0.owner 0x100000) ∧
    context1.core ≠ 0x100000 ∧ (rte0.core 0x100000).ctl.pair = none ∧ (rte0.core 1).moved = none :=
  ⟨rfl, quiet_of rfl, by decide +kernel, by decide +kernel, fun _ => rfl, by decide, rfl, rfl⟩

/-- Newt 0 runs a notice handler in slot 0 about the context in its slot 1, which owes a unit on event 7. -/
def context0 : Held := { core := 0, slot := 1, act := 0, image := [(1, 9)], frec := { code := 0x13 } }
def notice0 : State :=
  { world 0 { newt [] with
      slots := [(0, { act0 with chan := 29, life := { notice := some (0, 0, 1, 0) } }), (1, { st := .faulted, pc := 5, chan := 3 })]
      obl := [⟨false, false, 5, 1, 1, 7, 0⟩] } with
    tiles := [(0, { ready := true, owner := some 0, svc := { held := [context0] } })] }

theorem witness_requests : Idle notice0 ∧ notice0.noticed 0 = some context0 ∧ (notice0.core 0).moved = none ∧
    (notice0.core 0).ctl.lizn = 0 ∧ ((notice0.core 0).slot 1).life.kind ≠ .resume ∧
    (notice0.core 0).transferBad (holderOf 0) ((notice0.core 0).oblsOf (holderOf 1)) = none ∧
    (notice0.core 0).oblsOf (holderOf 1) ≠ [] :=
  ⟨⟨rfl, quiet_of rfl, rfl, rfl, rfl, by rintro ⟨⟩⟩, by decide +kernel, rfl, rfl, by rintro ⟨⟩,
    by decide +kernel, by decide +kernel⟩

/-- A live granule 8, at offset 0x1000, of newt 0 with a byte in it, and the last granule below the inboxes. -/
def live0 (regs : Table Word) : State :=
  world 0 { newt regs with ls := {
    cells := [(0x1000, 0x85), (0x1DFFF, 0x7F)]
    tags := [(8, { z := false, expiry := 100 }), (239, { z := false, expiry := 2047 })] } }

theorem live0_idle (regs : Table Word) : Idle (live0 regs) :=
  ⟨rfl, quiet_of rfl, rfl, rfl, rfl, by rintro ⟨⟩⟩

/-- Local accesses: a byte at 0x1000, the last doubleword below the inboxes, and one in the workspace granule, granule 0. -/
theorem witness_local : Operands (live0 [(1, 0x1DFF8), (2, 5)]) [1, 2] [0x1DFF8, 5] (live0 [(1, 0x1DFF8), (2, 5)]) ∧
    (Instr.ld .bs 3 1 0).wf = true ∧ (Instr.st .d 2 1 0).wf = true ∧ Operands (live0 [(1, 0x1000)]) [1] [0x1000] (live0 [(1, 0x1000)]) ∧
    address 0x1000 0 = 0x1000 ∧ LocalClear (live0 [(1, 0x1000)]) 0 0x1000 1 ∧ LocalSound (live0 [(1, 0x1000)]) 0 0x1000 1 ∧
    address 0x1DFF8 0 = 0x1DFF8 ∧ LocalClear (live0 []) 0 0x1DFF8 8 ∧ LocalSound (live0 []) 0 0x1DFF8 8 ∧
    ((live0 []).core 0).act.inWorkspace 0x1DFF8 8 = false ∧ ((live0 []).core 0).ord.sb.length < 32 ∧
    ((live0 []).core 0).act.inWorkspace 0x1D0 8 = true ∧ LocalClear (live0 []) 0 0x1D0 8 :=
  ⟨⟨rfl, ⟨_, rfl, rfl⟩, rfl, rfl⟩, rfl, rfl, ⟨rfl, ⟨_, rfl, rfl⟩, rfl, rfl⟩, by decide +kernel,
    ⟨by decide +kernel, by decide +kernel, by decide +kernel, by decide +kernel, fun _ => by decide +kernel⟩, ⟨by decide +kernel, by decide +kernel, by decide +kernel⟩, by decide +kernel,
    ⟨by decide +kernel, by decide +kernel, by decide +kernel, by decide +kernel, fun _ => by decide +kernel⟩, ⟨by decide +kernel, by decide +kernel, by decide +kernel⟩, by decide +kernel, by decide +kernel, by decide +kernel,
    ⟨by decide +kernel, by decide +kernel, by decide +kernel, by decide +kernel, fun h => absurd h (by decide +kernel)⟩⟩

/-- Newt 0 with the page at VA 0 mapped to frame 4, which holds bytes at an offset. -/
def pages (off : Nat) (bs : List Byte) : Phys :=
  { dram := (placedMemory [] []).put (0x40000 + off) bs, owner := [(1, 1), (2, 1), (3, 1), (4, 1)] }
def glob (regs : Table Word) (off : Nat) (bs : List Byte) : State := { at0 regs with phys := pages off bs }

theorem glob_idle (regs : Table Word) (off : Nat) (bs : List Byte) : Idle (glob regs off bs) :=
  ⟨rfl, quiet_of rfl, rfl, rfl, rfl, by rintro ⟨⟩⟩

/-- Global accesses: the last doubleword of the page. -/
theorem witness_global :
    let s := glob [(1, 0xFFF8), (2, 5)] 0xFFF8 [7]
    (Instr.ldg .d 3 1 0).wf = true ∧ (Instr.stg .d 2 1 0).wf = true ∧ Operands s [1, 2] [0xFFF8, 5] s ∧
    Operands s [1] [0xFFF8] s ∧ address 0xFFF8 0 = 0xFFF8 ∧
    GlobalClear s 0 .read 0xFFF8 8 0x4FFF8 0 .home (s.xlateOf 0 0 .read 0xFFF8).2 ∧
    s.xlateOf 0 0 .store 0xFFF8 = (.ok 0x4FFF8 0 .home, (s.xlateOf 0 0 .store 0xFFF8).2) ∧
    (s.core 0).ord.sb.length < 32 ∧ (s.core 0).hostPending = false ∧ (∀ x ∈ sectorsOf 0x4FFF8 8, has (s.core 0).par x = false) :=
  ⟨rfl, rfl, ⟨rfl, ⟨_, rfl, rfl⟩, rfl, rfl⟩, ⟨rfl, ⟨_, rfl, rfl⟩, rfl, rfl⟩, by decide +kernel,
    ⟨by decide +kernel, by decide +kernel, Prod.ext (by decide +kernel) rfl, by decide +kernel, fun _ => by decide +kernel⟩,
    Prod.ext (by decide +kernel) rfl, by decide +kernel, rfl, by decide +kernel⟩

/-- Misplaced: a doubleword and a signed halfword that are not aligned, one beyond the limit, and the first one of the inbox. -/
theorem witness_misplaced : Idle (at0 [(1, 0x1FFFC)]) ∧ MemSize.storeOk .d = true ∧ address 0x1FFFC 0 % sizeBytes .d ≠ 0 ∧
    MemSize.storeOk .hs = false ∧ address 0x1FFFC 1 % sizeBytes .hs ≠ 0 ∧
    address 0x1FFFC 4 % sizeBytes .d = 0 ∧ ((at0 []).core 0).limit 0 < address 0x1FFFC 4 + sizeBytes .d ∧
    address 0x1E000 0 % sizeBytes .ws = 0 ∧ localDenied ((at0 []).level 0) (address 0x1E000 0) (sizeBytes .ws) = true :=
  ⟨at0_idle _, rfl, by decide +kernel, rfl, by decide +kernel, by decide +kernel, by decide +kernel, by decide +kernel, by decide +kernel⟩

theorem witness_ldc :
    let s := glob [(1, 0xFFFE)] 0xFFFE [7]
    (Instr.ldc .h 3 1 0).wf = true ∧ Operands s [1] [0xFFFE] s ∧
    GlobalClear s 0 .bare (address 0xFFFE 0) (sizeBytes .h) 0x4FFFE 0 .home (s.xlateOf 0 0 .bare (address 0xFFFE 0)).2 :=
  ⟨rfl, ⟨rfl, ⟨_, rfl, rfl⟩, rfl, rfl⟩,
    ⟨by decide +kernel, by decide +kernel, Prod.ext (by decide +kernel) rfl, by decide +kernel, fun _ => by decide +kernel⟩⟩

/-- Atomics: a compare and swap at the end of the page, and one in live local store outside the workspace granule. -/
theorem witness_global_atomic :
    let s := glob [(1, 0xFFF8), (2, 7), (4, 9)] 0xFFF8 [7]
    (globalAtomics (.acas .d 3 1 2 4)).isSome = true ∧ (Instr.acas .d 3 1 2 4).wf = true ∧
    Operands s [1, 2, 4] [0xFFF8, 7, 9] s ∧ Idle s ∧ s.phys.dram.wf = true ∧
    GlobalClear s 0 .atomic 0xFFF8 8 0x4FFF8 0 .home (s.xlateOf 0 0 .atomic 0xFFF8).2 ∧
    s.writeDelayed 0 0 (lineOf 0xFFF8) = false :=
  ⟨rfl, rfl, ⟨rfl, ⟨_, rfl, rfl⟩, rfl, rfl⟩, glob_idle _ _ _, by decide +kernel,
    ⟨by decide +kernel, by decide +kernel, Prod.ext (by decide +kernel) rfl, by decide +kernel, fun _ => by decide +kernel⟩,
    by decide +kernel⟩

theorem live0_memoryOk (regs : Table Word) : (live0 regs).memoryOk := by
  refine ⟨rfl, fun k => ?_⟩
  by_cases h : k = 0
  · subst h; rfl
  · have e : (live0 regs).core k = ({} : Core) := if_neg h
    rw [e]; rfl

theorem witness_local_atomic : (localAtomics (.ladd .w 3 1 2)).isSome = true ∧ (Instr.ladd .w 3 1 2).wf = true ∧
    Operands (live0 [(1, 0x1DFFC), (2, 7)]) [1, 2] [0x1DFFC, 7] (live0 [(1, 0x1DFFC), (2, 7)]) ∧
    Idle (live0 [(1, 0x1DFFC), (2, 7)]) ∧ (live0 [(1, 0x1DFFC), (2, 7)]).memoryOk ∧
    LocalClear (live0 [(1, 0x1DFFC), (2, 7)]) 0 0x1DFFC 4 ∧ LocalSound (live0 [(1, 0x1DFFC), (2, 7)]) 0 0x1DFFC 4 ∧
    ((live0 []).core 0).act.inWorkspace 0x1DFFC 4 = false :=
  ⟨rfl, rfl, ⟨rfl, ⟨_, rfl, rfl⟩, rfl, rfl⟩, live0_idle _, live0_memoryOk _, ⟨by decide +kernel, by decide +kernel, by decide +kernel, by decide +kernel, fun _ => by decide +kernel⟩,
    ⟨by decide +kernel, by decide +kernel, by decide +kernel⟩, by decide +kernel⟩

/-- Granules: the live granule 8, and one that has expired. -/
theorem witness_granules : Operands (live0 [(1, 0x1000), (2, 0x200)]) [1, 2] [0x1000, 0x200] (live0 [(1, 0x1000), (2, 0x200)]) ∧
    Idle (live0 [(1, 0x1000), (2, 0x200)]) ∧ RangeClear (live0 [(1, 0x1000), (2, 0x200)]) 0 0x1000 0x200 ∧
    (live0 [(1, 0x1000), (2, 0x200)]).memoryOk ∧ ((live0 []).core 0).ls.ecc = [] :=
  ⟨⟨rfl, ⟨_, rfl, rfl⟩, rfl, rfl⟩, live0_idle _, ⟨by decide +kernel, by decide +kernel, by decide +kernel, by decide +kernel, by decide +kernel, by decide +kernel⟩, live0_memoryOk _, rfl⟩

theorem witness_granules_live : ∀ o, 0x1000 ≤ o → o < 0x1000 + 0x200 →
    (live0 [(1, 0x1000), (2, 0x200)]).poisonAt 0 o 32 = false ∧ (live0 [(1, 0x1000), (2, 0x200)]).expiredAt 0 o = false := by
  intro o h1 h2
  have hd : o / 0x20000 = 0 := by omega
  have hm : o % 0x20000 / 512 = 8 := by omega
  constructor
  · have : (live0 [(1, 0x1000), (2, 0x200)]).poisonAt 0 o 32 =
        (!(live0 [(1, 0x1000), (2, 0x200)]).zeroAt 0 o
          && ((live0 [(1, 0x1000), (2, 0x200)]).core (memberOf 0 o)).ls.poisonedIn (o % 0x20000) 32) := rfl
    rw [this, show memberOf 0 o = 0 from by unfold memberOf; omega]
    simp only [Local.poisonedIn, Bool.and_eq_false_iff, List.any_eq_false]
    exact .inr fun x _ h => by cases h
  · unfold State.expiredAt State.tagAt
    rw [hm, show memberOf 0 o = 0 from by unfold memberOf; omega]; decide +kernel

theorem witness_wtag : (Instr.wtag 3 1).wf = true ∧ Operands (live0 [(1, 0x1DFFF)]) [1] [0x1DFFF] (live0 [(1, 0x1DFFF)]) ∧
    localDenied 0 0x1DFFF 1 = false ∧ 0x1DFFF < ((live0 []).core 0).limit 0 ∧ ((live0 []).tagAt 0 0x1DFFF).z = false ∧
    ((live0 []).tagAt 0 0x2000).z = true ∧ ((live0 []).core 0).storeIn 0x2000 = false :=
  ⟨rfl, ⟨rfl, ⟨_, rfl, rfl⟩, rfl, rfl⟩, rfl, by decide +kernel, rfl, rfl, rfl⟩

theorem witness_fence : Idle (at0 []) ∧ ((at0 []).core 0).engBusy = false := ⟨at0_idle _, rfl⟩

/-- Monitors: one on a line of memory, and an `mwait` with none, with the line written, and with it not written. -/
def armed0 (written : Bool) : State :=
  world 0 { newt [] with slots := [(0, { act0 with sync := { mon := { armed := true, line := 1, pa := 0x40100, written := written } } })] }

theorem witness_monitor :
    let s := glob [(1, 0xFFFF)] 0 []
    Operands s [1] [0xFFFF] s ∧
    s.xlateOf 0 0 .read (address 0xFFFF 0) = (.ok 0x4FFFF 0 .home, (s.xlateOf 0 0 .read (address 0xFFFF 0)).2) ∧ (Instr.mwait 3).wf = true ∧
    ((at0 []).core 0).act.sync.mon.armed = false ∧ ((at0 []).core 0).myFloor = Config.noRank ∧ Idle (armed0 true) ∧ Idle (armed0 false) ∧
    ((armed0 true).core 0).act.sync.mon.written = true ∧ ((armed0 false).core 0).act.sync.mon.armed = true ∧
    ((armed0 false).core 0).act.sync.mon.written = false ∧ ((armed0 false).core 0).act.sync.mon.spurious = false :=
  ⟨⟨rfl, ⟨_, rfl, rfl⟩, rfl, rfl⟩, Prod.ext (by decide +kernel) rfl, rfl, rfl, rfl,
    ⟨rfl, quiet_of rfl, rfl, rfl, rfl, by rintro ⟨⟩⟩,
    ⟨rfl, quiet_of rfl, rfl, rfl, rfl, by rintro ⟨⟩⟩, rfl, rfl, rfl, rfl⟩

/-! ### Output, channels, events and barriers -/

theorem localClear_of {s : State} {k off n : Nat} (h : decide (off % n = 0 ∧ off + n ≤ (s.core k).limit k ∧
    localDenied (s.level k) off n = false ∧ (s.core k).reserved off n = false ∧
    ((s.core k).act.inWorkspace off n = false → s.expiredAt k off = false)) = true) : LocalClear s k off n :=
  have h := of_decide_eq_true h
  ⟨h.1, h.2.1, h.2.2.1, h.2.2.2.1, h.2.2.2.2⟩

theorem localSound_of {s : State} {k off n : Nat} (h : decide ((s.core (placeOf k off).1).ls.ecc = [] ∧
    s.poisonAt k off n = false ∧ ((s.core k).act.inWorkspace off n = true → (s.core k).act.life.bad58 = true →
      overlaps (off % 512) n 464 8 = false)) = true) : LocalSound s k off n :=
  have h := of_decide_eq_true h
  ⟨h.1, h.2.1, h.2.2⟩

/-- Newt 0 with bytes in its live granule 8, owing a unit on event 7. -/
def buf0 (regs : Table Word) (bs : List Byte) : State :=
  world 0 { newt regs with
    obl := [⟨false, false, 5, 0, 1, 7, 0⟩]
    ls := { cells := Memory.put [] 0x1000 bs, tags := [(8, { z := false, expiry := 100 })] } }

theorem buf0_idle (regs : Table Word) (bs : List Byte) : Idle (buf0 regs bs) :=
  ⟨rfl, quiet_of rfl, rfl, rfl, rfl, by rintro ⟨⟩⟩

/-- Entries: a signal of the largest count; a message of 12 bytes to channel 31 of newt 2, with a reply, that may carry a unit. -/
theorem witness_entries :
    let s := buf0 [(1, 0x0001FFFE01F00002), (2, 0x1000), (3, 12), (4, 7), (5, 0xFFFFFFFF)] [1, 2]
    (plainEntry (.sig 4 5)).isSome = true ∧ (Instr.sig 4 5).wf = true ∧ Operands s [4, 5] [7, 0xFFFFFFFF] s ∧
    (0xFFFFFFFF : Word).toNat < 2 ^ 32 ∧ Operands s [1, 2, 3] [0x0001FFFE01F00002, 0x1000, 12] s ∧
    Operands s [1, 2, 3, 4] [0x0001FFFE01F00002, 0x1000, 12, 7] s ∧ RouteLegal s 0x0001FFFE01F00002 ∧
    PayloadClear s 0 0x1000 12 ∧ (s.core 0).holdsUnit false 7 = true :=
  ⟨rfl, rfl, ⟨rfl, ⟨_, rfl, rfl⟩, rfl, rfl⟩, by decide +kernel, ⟨rfl, ⟨_, rfl, rfl⟩, rfl, rfl⟩, ⟨rfl, ⟨_, rfl, rfl⟩, rfl, rfl⟩,
    ⟨by decide +kernel, by decide +kernel, by decide +kernel, by decide +kernel, by decide +kernel⟩,
    ⟨by decide, by decide, fun j h => by
      obtain rfl | rfl : j = 0 ∨ j = 1 := by omega
      · exact ⟨localClear_of (by decide +kernel), localSound_of (by decide +kernel)⟩
      · exact ⟨localClear_of (by decide +kernel), localSound_of (by decide +kernel)⟩⟩, by decide +kernel⟩

/-- A pour of the last sector below the inboxes, and a counted one. -/
def pour0 : State :=
  { world 0 { newt [(1, 2), (2, 0x1DFE0), (3, 0x1DFE0), (4, 32)] with
      slots := [(0, { act0 with sync := { barsel := 0x10 } })] } with
    phys := pages 0 [] }

theorem witness_pour : Operands pour0 [1, 2, 3, 4] [2, 0x1DFE0, 0x1DFE0, 32] pour0 ∧
    pour0.inPart pour0.myPart (2 / 32) = true ∧ 0x1DFE0 + 32 ≤ (pour0.core 0).limit 0 ∧ localDenied 0 0x1DFE0 32 = false ∧
    (pour0.core 0).act.barSel ≠ 0 ∧
    pour0.xlateOf 0 0 .atomic (pour0.core 0).act.barSel.toNat =
      (.ok 0x40100 0 .home, (pour0.xlateOf 0 0 .atomic (pour0.core 0).act.barSel.toNat).2) :=
  ⟨⟨rfl, ⟨_, rfl, rfl⟩, rfl, rfl⟩, by decide +kernel, by decide +kernel, by decide +kernel, by decide +kernel,
    Prod.ext (by decide +kernel) rfl⟩

/-- A channel image of a handler at slot 1 of the line at 0x40, in the last workspace granule, and a binding of q3 to channel 31. -/
theorem witness_channels :
    let s := buf0 [(1, 31), (2, 0x1000), (3, 479), (4, 991)] (leBytes 8 0x41 ++ leBytes 8 0x000FFFFE0041DE00)
    Operands s [1, 2] [31, 0x1000] s ∧ PayloadClear s 0 0x1000 32 ∧
    (s.core 0).imageBad 31 ((payload s 0 0x1000 32).getD 0 0) ((payload s 0 0x1000 32).getD 1 0)
      ((payload s 0 0x1000 32).getD 2 0) ((payload s 0 0x1000 32).getD 3 0) = false ∧
    Operands s [3] [479] s ∧ (479 : Word).toNat = 256 + 64 * 3 + 31 ∧ (s.core 0).boundByOther 31 = false ∧
    Operands s [4] [991] s ∧ (991 : Word).toNat = 768 + 64 * 3 + 31 ∧ s.hasChan 0 31 = true :=
  ⟨⟨rfl, ⟨_, rfl, rfl⟩, rfl, rfl⟩,
    ⟨by decide, by decide, fun j h => by
      obtain rfl | rfl | rfl | rfl : j = 0 ∨ j = 1 ∨ j = 2 ∨ j = 3 := by omega
      all_goals exact ⟨localClear_of (by decide +kernel), localSound_of (by decide +kernel)⟩⟩,
    by decide +kernel, ⟨rfl, ⟨_, rfl, rfl⟩, rfl, rfl⟩, by decide, by decide +kernel, ⟨rfl, ⟨_, rfl, rfl⟩, rfl, rfl⟩, by decide,
    by decide +kernel⟩

/-- Channel 29 of a newt unbound and masked, and unmasked again; channels of a service core at level S, on a first tile and elsewhere. -/
theorem witness_notice_channel :
    let s := buf0 [(1, 29), (2, 0x1000), (3, 1)] [0x41]
    Operands s [1, 2] [29, 0x1000] s ∧ PayloadClear s 0 0x1000 32 ∧ (s.core 0).imageBad 29 0x41 0 0 0 = false ∧
    payload s 0 0x1000 32 = [0x41, 0, 0, 0] ∧ ((Chan.ofWords 0x41 0 0).stored 29).valid = false ∧ Operands s [1, 3] [29, 1] s ∧
    Operands s [1, 0] [29, 0] s ∧ ((s.modCore 0 fun c => c.setChan 29 { valid := true }).core 0).chan 29 = { valid := true } ∧
    (svc 0 [(1, 31), (2, 1)]).hasChan 0x100000 31 = true ∧ Operands (svc 0 [(1, 31), (2, 1)]) [1, 2] [31, 1] (svc 0 [(1, 31), (2, 1)]) ∧
    (csr0 0x100020 0 0).hasChan 0x100020 31 = false ∧ (csr0 0x100020 0 0).hasChan 0x100020 63 = true :=
  ⟨⟨rfl, ⟨_, rfl, rfl⟩, rfl, rfl⟩,
    ⟨by decide, by decide, fun j h => by
      obtain rfl | rfl | rfl | rfl : j = 0 ∨ j = 1 ∨ j = 2 ∨ j = 3 := by omega
      all_goals exact ⟨localClear_of (by decide +kernel), localSound_of (by decide +kernel)⟩⟩,
    by decide +kernel, by decide +kernel, by decide +kernel, ⟨rfl, ⟨_, rfl, rfl⟩, rfl, rfl⟩, ⟨rfl, ⟨_, rfl, rfl⟩, rfl, rfl⟩, by decide +kernel,
    by decide +kernel, ⟨rfl, ⟨_, rfl, rfl⟩, rfl, rfl⟩, by decide +kernel, by decide +kernel⟩

/-- Newt 0 beside an event 7 of rank 5. -/
def ev0 (regs : Table Word) (e : Event) : State := { at0 regs with events := [(evKey 0 7, e)] }

theorem ev0_idle (regs : Table Word) (e : Event) : Idle (ev0 regs e) :=
  ⟨rfl, quiet_of rfl, rfl, rfl, rfl, by rintro ⟨⟩⟩

/-- Events: the last name of level U and the last rank; an accepted one; the last name of level S; one to remove. -/
theorem witness_events :
    let s := ev0 [(1, 0xFEFF), (2, 0xFFFFE), (3, 7), (4, 5), (5, 1)] { rank := 5 }
    Operands s [1, 2, 0] [0xFEFF, 0xFFFFE, 0] s ∧ Idle s ∧ s.event s.myPart 0xFEFF = none ∧
    Operands s [3, 4, 5] [7, 5, 1] s ∧ s.event s.myPart 7 = some { rank := 5 } ∧
    Operands (svc 0 [(1, 0xFFFE), (2, 0xFFFFE)]) [1, 2, 0] [0xFFFE, 0xFFFFE, 0] (svc 0 [(1, 0xFFFE), (2, 0xFFFFE)]) ∧
    1 ≤ (svc 0 []).level 0x100000 ∧ Operands s [3] [7] s ∧ s.owedAnywhere s.myPart 7 = false :=
  ⟨⟨rfl, ⟨_, rfl, rfl⟩, rfl, rfl⟩, ev0_idle _ _, by decide +kernel, ⟨rfl, ⟨_, rfl, rfl⟩, rfl, rfl⟩, by decide +kernel,
    ⟨rfl, ⟨_, rfl, rfl⟩, rfl, rfl⟩, by decide +kernel, ⟨rfl, ⟨_, rfl, rfl⟩, rfl, rfl⟩, by decide +kernel⟩

/-- Owing: nothing, the most that fits beside a unit already owed, and on an event not owed yet. -/
def owe0 : State := { buf0 [(1, 7), (2, 0xFFFFFFFE)] [] with events := [(evKey 0 7, { rank := 5 })] }

theorem witness_owe : Operands owe0 [1, 0] [7, 0] owe0 ∧ Operands owe0 [1, 2] [7, 0xFFFFFFFE] owe0 ∧
    owe0.event owe0.myPart 7 = some { rank := 5 } ∧
    (∀ o, (owe0.core 0).oblOf (holderOf 0) false 7 = some o → o.count.toNat + 0xFFFFFFFE < 2 ^ 32) ∧
    ((ev0 [] { rank := 5 }).core 0).oblOf (holderOf 0) false 7 = none :=
  ⟨⟨rfl, ⟨_, rfl, rfl⟩, rfl, rfl⟩, ⟨rfl, ⟨_, rfl, rfl⟩, rfl, rfl⟩, by decide +kernel, fun o h => by cases h; decide, rfl⟩

/-- A barrier record in memory at VA 0x100. -/
def record (expected : BitVec 16) (gen : BitVec 32) : List Byte :=
  leBytes 16 (Bar.toNat { Bar.ofNat 0 with valid := true, rank := 9, expected := expected, gen := gen })

/-- Ranks: of an event and a ring, of a record in memory, and between two of the lowest and of the highest. -/
theorem witness_ranks :
    let s := glob [(1, 0x100), (2, 2)] 0x100 (record 0 0)
    (Instr.rank .bar 3 1).wf = true ∧ Operands s [1] [0x100] s ∧
    GlobalClear s 0 .read 0x100 16 0x40100 0 .home (s.xlateOf 0 0 .read 0x100).2 ∧
    (Bar.ofNat (leNat (s.globalBytes .home 0x40100 16))).valid = true ∧
    Operands (ev0 [(1, 7)] { rank := 5 }) [1] [7] (ev0 [(1, 7)] { rank := 5 }) ∧ (ev0 [] { rank := 5 }).event 0 7 = some { rank := 5 } ∧
    (({ newt [] with vec := { ring := [(15, { count := 4 })] } } : Core).ring 15).count ≠ 0 ∧
    Operands s [0, 2] [0, 2] s ∧ (0 : Word).toNat + 2 ≤ (2 : Word).toNat :=
  ⟨rfl, ⟨rfl, ⟨_, rfl, rfl⟩, rfl, rfl⟩,
    ⟨by decide +kernel, by decide +kernel, Prod.ext (by decide +kernel) rfl, by decide +kernel, fun _ => by decide +kernel⟩,
    by decide +kernel, ⟨rfl, ⟨_, rfl, rfl⟩, rfl, rfl⟩, by decide +kernel, by decide +kernel, ⟨rfl, ⟨_, rfl, rfl⟩, rfl, rfl⟩, by decide⟩

theorem witness_mkbar :
    let s := glob [(1, 0x100), (2, 0xFFFFE)] 0 []
    let v := (s.xlateOf 0 0 .atomic 0x100).2
    Operands s [1, 2] [0x100, 0xFFFFE] s ∧ Idle s ∧
    s.xlateOf 0 0 .atomic 0x100 = (.ok 0x40100 0 .home, v) ∧
    s.writeDelayed 0 0 (lineOf 0x100) = false ∧ v.phys.poisoned .home 0x40100 16 = false ∧ s.phys.dram.wf = true ∧
    (Bar.ofNat (leNat (v.globalBytes .home 0x40100 16))).valid = false :=
  ⟨⟨rfl, ⟨_, rfl, rfl⟩, rfl, rfl⟩, glob_idle _ _ _, Prod.ext (by decide +kernel) rfl, by decide +kernel, by decide +kernel,
    by decide +kernel, by decide +kernel⟩

/-- A wait on event 7 for the counter's own value, and for the next one. -/
theorem witness_event_wait :
    let s := ev0 [(1, 7), (2, 3), (4, 4)] { rank := 5, counter := 3 }
    (Instr.waitge 3 1 2).wf = true ∧ Operands s [1, 2] [7, 3] s ∧ Operands s [1, 4] [7, 4] s ∧ Idle s ∧
    (∀ n v, (s.core 0).act.sync.wait ≠ [.event n v]) ∧ s.event s.myPart (7 % 65536) = some { rank := 5, counter := 3 } ∧
    (5 : BitVec 20).toNat < (s.core 0).myFloor ∧ (3 + 2 ^ 32 - 3 % 2 ^ 32) % 2 ^ 32 < 2 ^ 31 ∧ 2 ^ 31 ≤ (3 + 2 ^ 32 - 4 % 2 ^ 32) % 2 ^ 32 :=
  ⟨rfl, ⟨rfl, ⟨_, rfl, rfl⟩, rfl, rfl⟩, ⟨rfl, ⟨_, rfl, rfl⟩, rfl, rfl⟩, ev0_idle _ _, (fun _ _ h => by cases h), by decide +kernel,
    by decide +kernel, by decide, by decide⟩

/-- Newt 0 a member of the barrier at VA 0x100, which it joined in generation 0 and has arrived at. -/
def bar0 (gen : BitVec 32) : State :=
  { world 0 { newt [(1, 0x100)] with obl := [⟨true, true, 9, 0, 0, 0x100, 0⟩] } with
    phys := pages 0x100 (record 1 gen) }

theorem bar0_idle (gen : BitVec 32) : Idle (bar0 gen) :=
  ⟨rfl, quiet_of rfl, rfl, rfl, rfl, by rintro ⟨⟩⟩

/-- The record as the wait of newt 0 finds it. -/
def found (gen : BitVec 32) : Bar := { Bar.ofNat 0 with valid := true, rank := 9, expected := 1, gen := gen }

theorem barHome_of {s : State} {va : Word} {x : Option (Nat × Nat × Dest × Bar)}
    (h : (match s.barHome 0 0 va with | .ok p => decide (p.1 = x) | .error _ => false) = true) :
    ∃ v, s.barHome 0 0 va = .ok (x, v) := by
  generalize s.barHome 0 0 va = e at h ⊢
  cases e with
  | error _ => cases h
  | ok p => exact ⟨p.2, congrArg _ (Prod.ext (of_decide_eq_true h) rfl)⟩

theorem witness_barw : (Instr.barw 3 1).wf = true ∧ Operands (bar0 0) [1] [0x100] (bar0 0) ∧ Operands (bar0 1) [1] [0x100] (bar0 1) ∧
    Idle (bar0 0) ∧ Idle (bar0 1) ∧ ((bar0 0).core 0).oblOf (holderOf 0) true 0x100 = some ⟨true, true, 9, 0, 0, 0x100, 0⟩ ∧
    (∃ v, (bar0 0).barHome 0 0 0x100 = .ok (some (0x40100, 0, .home, found 0), v)) ∧
    (∃ v, (bar0 1).barHome 0 0 0x100 = .ok (some (0x40100, 0, .home, found 1), v)) ∧ (found 0).rank.toNat < ((bar0 0).core 0).myFloor ∧
    2 ^ 31 ≤ ((found 0).gen.toNat + 2 ^ 33 - (0 : BitVec 32).toNat - 1) % 2 ^ 32 ∧
    ((found 1).gen.toNat + 2 ^ 33 - (0 : BitVec 32).toNat - 1) % 2 ^ 32 < 2 ^ 31 :=
  ⟨rfl, ⟨rfl, ⟨_, rfl, rfl⟩, rfl, rfl⟩, ⟨rfl, ⟨_, rfl, rfl⟩, rfl, rfl⟩, bar0_idle 0, bar0_idle 1, by decide +kernel,
    barHome_of (by decide +kernel), barHome_of (by decide +kernel), by decide +kernel, by decide +kernel, by decide +kernel⟩

theorem witness_suspension :
    let s := ev0 [(1, 7), (2, 4)] { rank := 5, counter := 3 }
    (Instr.waitge 3 1 2).wf = true ∧ Idle s ∧ isSvc 0 = false ∧ (s.core 0).ls.cells.wf = true ∧
    s.event s.myPart (((s.core 0).reg 1).toNat % 65536) = some { rank := 5, counter := 3 } ∧ (5 : BitVec 20).toNat < (s.core 0).myFloor ∧
    2 ^ 31 ≤ (3 + 2 ^ 32 - ((s.core 0).reg 2).toNat % 2 ^ 32) % 2 ^ 32 :=
  ⟨rfl, ev0_idle _ _, rfl, rfl, by decide +kernel, by decide +kernel, by decide +kernel⟩

/-- Rings: four slots, empty, filled to the last by one `advp`, and emptied by one `advc`; and an image. -/
def ring0 (filled : BitVec 7) (regs : Table Word) : State :=
  world 0 { newt regs with
    vec := { ring := [(15, { rank := 5, count := 4, slog := 6, base := 0x2000, filled := filled })] }
    ls := { cells := Memory.put [] 0x1000 (leBytes 8 0x50008CE000 ++ leBytes 8 0x40000)
            tags := [(8, { z := false, expiry := 100 })] } }

theorem ring0_idle (f : BitVec 7) (regs : Table Word) : Idle (ring0 f regs) :=
  ⟨rfl, quiet_of rfl, rfl, rfl, rfl, by rintro ⟨⟩⟩

theorem witness_rings : Idle (ring0 0 []) ∧ (((ring0 0 []).core 0).ring 15).count ≠ 0 ∧
    (((ring0 0 []).core 0).ring 15).filled.toNat + 4 ≤ (((ring0 0 []).core 0).ring 15).count.toNat ∧
    ((ring0 0 []).core 0).reserved (((ring0 0 []).core 0).ring 15).span.1 (((ring0 0 []).core 0).ring 15).span.2 = false ∧
    4 ≤ (((ring0 4 []).core 0).ring 15).filled.toNat ∧
    ((((ring0 4 []).core 0).readRanges 0 ++ ((ring0 4 []).core 0).queuedReads 0).any fun x => overlaps (((ring0 4 []).core 0).ring 15).span.1
      (((ring0 4 []).core 0).ring 15).span.2 x.1 x.2) = false :=
  ⟨ring0_idle _ _, by decide +kernel, by decide +kernel, by decide +kernel, by decide +kernel, by decide +kernel⟩

theorem witness_ringset :
    let s := ring0 0 [(1, 0x1000)]
    let w0 := BitVec.ofNat 64 (leNat ((localBytes s 0 0x1000 16).take 8))
    let w1 := BitVec.ofNat 64 (leNat ((localBytes s 0 0x1000 16).drop 8))
    Operands s [1] [0x1000] s ∧ LocalClear s 0 0x1000 16 ∧ LocalSound s 0 0x1000 16 ∧ ringImageBad w0 w1 = false ∧
    (Ring.ofWords w0 w1).rank.toNat < 0xFFFFF ∧ (s.core 0).ringNamed 3 = false ∧ (s.core 0).waitsRing 3 = false :=
  ⟨⟨rfl, ⟨_, rfl, rfl⟩, rfl, rfl⟩, localClear_of (by decide +kernel), localSound_of (by decide +kernel), by decide +kernel,
    by decide +kernel, by decide +kernel, by decide +kernel⟩

/-- Lizards: newt 0 composes 8, newt 1 may not compose 8; newt 0 heads a lizard of 2. -/
def liz0 : State :=
  { world 0 { newt [] with ctl := { run := some 0, lizn := 2 } } with
    cores := [(0, { newt [] with ctl := { run := some 0, lizn := 2 } }), (1, { ctl := { lizhead := some 0 } })] }

theorem witness_lizard : Idle (at0 []) ∧ (Instr.compose 3 8).wf = true ∧ 0 % 8 % 8 = 0 ∧
    (∀ m, 0 < m → m < 0 + 8 → MemberFree (at0 []) m) ∧ ((at0 []).core 0).ctl.gangm = 0 ∧ ((at0 []).core 0).ctl.lizn = 0 ∧
    1 % 8 % 8 ≠ 0 ∧ liz0.Running ∧ liz0.Quiet 0 ∧ (liz0.core 0).inLiz = true :=
  ⟨at0_idle [], rfl, rfl, fun m h1 h2 => by
    have : m = 1 ∨ m = 2 ∨ m = 3 ∨ m = 4 ∨ m = 5 ∨ m = 6 ∨ m = 7 := by omega
    rcases this with rfl | rfl | rfl | rfl | rfl | rfl | rfl <;> exact ⟨rfl, rfl, rfl, rfl, rfl, rfl, rfl⟩, rfl, rfl, by decide,
    rfl, quiet_of rfl, rfl⟩

/-- Draw tokens: a tile with some and one with none left; newt 0 gives its two tokens to newt 31 of its tile. -/
def draw0 (n : Nat) : State := world 0 { newt [(1, 31), (2, 2), (4, 3), (5, 32)] with ctl := { run := some 0, draw := n } }

theorem draw0_idle (n : Nat) : Idle (draw0 n) :=
  ⟨rfl, quiet_of rfl, rfl, rfl, rfl, by rintro ⟨⟩⟩

theorem witness_draw : (draw0 2).pool 0 ≠ 0 ∧ (draw0 16).pool 0 = 0 ∧ Idle (draw0 2) ∧
    Operands (draw0 2) [1, 2] [31, 2] (draw0 2) ∧ (Instr.drawg 3 1 2).wf = true ∧ 31 / 32 = 0 / 32 ∧ 2 ≤ ((draw0 2).core 0).ctl.draw ∧
    Operands (draw0 2) [1, 4] [31, 3] (draw0 2) ∧ ((draw0 2).core 0).ctl.draw < 3 ∧
    Operands (draw0 2) [5, 2] [32, 2] (draw0 2) ∧ 32 / 32 ≠ 0 / 32 :=
  ⟨by decide +kernel, by decide +kernel, draw0_idle _, ⟨rfl, ⟨_, rfl, rfl⟩, rfl, rfl⟩, rfl, by decide, by decide +kernel,
    ⟨rfl, ⟨_, rfl, rfl⟩, rfl, rfl⟩, by decide +kernel, ⟨rfl, ⟨_, rfl, rfl⟩, rfl, rfl⟩, by decide⟩

/-- Translations: the last address, at level S on the last tile of the partition and at level F on the last tile. -/
theorem witness_tlbinv : Operands (svc 0 [(1, 0x1FFFFFFFFFFFFFF), (2, 7)]) [1, 2] [0x1FFFFFFFFFFFFFF, 7] (svc 0 [(1, 0x1FFFFFFFFFFFFFF), (2, 7)]) ∧
    (svc 0 []).level 0x100000 = 1 ∧ (svc 0 []).inPart (svc 0 []).myPart 7 = true ∧
    Operands (svc 32 [(1, 0x1FFFFFFFFFFFFFF), (2, 32767)]) [1, 2] [0x1FFFFFFFFFFFFFF, 32767] (svc 32 [(1, 0x1FFFFFFFFFFFFFF), (2, 32767)]) ∧
    (svc 32 []).level 0x100000 = 2 :=
  ⟨⟨rfl, ⟨_, rfl, rfl⟩, rfl, rfl⟩, rfl, by decide +kernel, ⟨rfl, ⟨_, rfl, rfl⟩, rfl, rfl⟩, rfl⟩

/-- A store of an ended chunk that tile 0 has translated is on its way, and one of a running chunk. -/
def tlb0 (ended : Bool) : State :=
  { svc 0 [(1, 0x100)] with
    cores := [(0, { newt [] with ord := {
        chunk := { id := 5, slot := 0, pc := 1 }
        ended := if ended then [⟨{ id := 4 }, [], [], 1⟩] else []
        sb := [⟨if ended then 4 else 5, .home, 0x100, 0x40100, 0, [7], false⟩] } }),
      (0x100000, (svc 0 [(1, 0x100)]).core 0x100000)] }

theorem witness_tlb_waits : (∀ b, Operands (tlb0 b) [1, 0] [0x100, 0] (tlb0 b)) ∧ (tlb0 true).tlbWaits 0 0 0x100 = true ∧
    (tlb0 false).tlbWaits 0 0 0x100 = false ∧ (tlb0 true).inPart (tlb0 true).myPart 0 = true :=
  ⟨fun _ => ⟨rfl, ⟨_, rfl, rfl⟩, rfl, rfl⟩, by decide +kernel, by decide +kernel, by decide +kernel⟩

/-- Frames: the last frame of near memory to the free pool, and the first far one to partition 0. -/
theorem witness_frgrant :
    let s := svc 32 [(1, BitVec.ofNat 64 (Config.nearBytes - 65536)), (2, 4096), (3, 0x1000000000000)]
    let t := { s with host := { s.host with stations := List.range 64 } }
    Operands s [1, 2] [BitVec.ofNat 64 (Config.nearBytes - 65536), 4096] s ∧ s.level 0x100000 = 2 ∧ s.Quiet 0x100000 ∧
    (BitVec.ofNat 64 (Config.nearBytes - 65536)).toNat % 65536 = 0 ∧
    regionOf (BitVec.ofNat 64 (Config.nearBytes - 65536)).toNat = .near ∧ Operands t [3, 0] [0x1000000000000, 0] t ∧
    regionOf (0x1000000000000 : Word).toNat = .far ∧ s.phys.dram.wf = true ∧ t.stationsReady (0x1000000000000 / 65536) = true ∧
    s.physDelayed 0x100000 (fun pa => pa / 65536 == 0x1000000000000 / 65536) = false :=
  ⟨⟨rfl, ⟨_, rfl, rfl⟩, rfl, rfl⟩, rfl, quiet_of rfl, by decide +kernel, by decide +kernel,
    ⟨rfl, ⟨_, rfl, rfl⟩, rfl, rfl⟩, by decide +kernel, rfl, by decide +kernel, by decide +kernel⟩

/-- Pairs: newt 0 alone, and newt 0 the leader of a pair. -/
def pair0 : State :=
  { at0 [] with cores := [(0, { newt [] with ctl := { run := some 0, pair := some (partnerOf 0), leader := true } }),
      (partnerOf 0, { newt [] with ctl := { run := some 0, pair := some 0 } })] }

theorem pair0_quiet : pair0.Quiet 0 := ⟨by constructor <;> first | rfl | (intro e h; cases h), fun _ h _ => by cases h; exact ⟨rfl, fun _ _ => rfl⟩⟩

def pair1 : State :=
  { pair0 with cores := [(0, pair0.core 0), (partnerOf 0, { ctl := { pair := some 0 } })] }

theorem witness_pair : Idle (at0 []) ∧ (Instr.pair 3 true).wf = true ∧ (at0 []).pairStatuses 0 true = [] ∧
    ((at0 []).core 0).ctl.pair.isSome = false ∧ pair0.Running ∧ pair0.Quiet 0 ∧ pair0.pairStatuses 0 false = [] ∧
    (pair0.core 0).ctl.pair = some (partnerOf 0) ∧ ((at0 []).core 0).ctl.pair.isSome = false ∧
    (pair0.core 0).ctl.pair.isSome = true ∧ pair0.pairStatuses 0 true = [1, 2] ∧ (pair0.core 0).noPair = false ∧
    ((at0 []).core (partnerOf 0)).noPair = false ∧ (pair1.core 0).ctl.pair.isSome = true ∧ (pair1.core 0).noPair = false ∧
    (pair1.core (partnerOf 0)).noPair = false ∧ (pair1.core (partnerOf 0)).busyPartner = false ∧
    ∀ e ∈ (pair1.core 0).slots, e.1 ≠ (pair1.core 0).runSlot → e.2.st = .free :=
  ⟨at0_idle [], rfl, by decide +kernel, rfl, rfl, pair0_quiet, by decide +kernel, by decide +kernel, rfl,
    rfl, by decide +kernel⟩

/-! ### Vectors, engines and operands -/

/-- Newt 0 with vector registers, an accumulator, and rings 1 and 2 of matrix slots in banks 1 and 2, both BF16. -/
def vecs0 (regs : Table Word) : State :=
  world 0 { newt regs with
    ctl := { run := some 0, draw := 1, bfmt := [(1, 1), (2, 1)] }
    vec := { v := [(1, 0x3F80000040000000), (2, 0x0000000100000003)], a := [(3, 7)]
             ring := [(1, { rank := 4, count := 4, slog := 12, base := 0x4000, filled := 1 }),
               (2, { rank := 4, count := 4, slog := 12, base := 0x8000, filled := 1 })] }
    ls := { tags := [(239, { z := false, expiry := 100 })] } }

theorem vecs0_idle (regs : Table Word) : Idle (vecs0 regs) :=
  ⟨rfl, quiet_of rfl, rfl, rfl, rfl, by rintro ⟨⟩⟩

def v (i : Sel) : VOp := ⟨i, 0⟩

theorem vOperands_of {s : State} {a : VOp} {srcs : List VOp} (hr : s.Running) (hn : isSvc s.turn = false)
    (hq : ((a :: srcs).all fun o => !vIsRing o && !vIsQ o) = false)
    (h : (match gather (some a) srcs s.begin with
      | .ok p => decide (p.2.st.turn = s.turn) && decide ((p.2.st.core s.turn).ctl.run = (s.core s.turn).ctl.run)
      | .error _ => false) = true) : ∃ vals u, VOperands s a srcs vals u := by
  generalize hg : gather (some a) srcs s.begin = g at h
  cases g with
  | error _ => cases h
  | ok p =>
    simp only [Bool.and_eq_true, decide_eq_true_eq] at h
    exact ⟨p.1, p.2.st, hr, hn, ⟨p.2, hg, by rw [hq]; rfl⟩, h.1, h.2⟩

/-- Vectors: registers as sources and destination; the head slot of ring 15 as destination, with room; its tail slot as a source. -/
theorem witness_vectors : (laneWise (.vadd .i16 (v 3) (v 1) (v 2))).isSome = true ∧ (Instr.vadd .i16 (v 3) (v 1) (v 2)).wf = true ∧
    VOperands (vecs0 []) (v 3) [v 1, v 2] [0x3F80000040000000, 0x0000000100000003] (vecs0 []) ∧
    VOperands (vecs0 []) (v 3) [v 1] [0x3F80000040000000] (vecs0 []) ∧
    VOperands (vecs0 []) (v 3) [v 1, v 2, v 2] [0x3F80000040000000, 0x0000000100000003, 0x0000000100000003] (vecs0 []) ∧
    (∃ vals u, VOperands (ring0 0 []) (v 31) [v 1, v 2] vals u) ∧ (∃ vals u, VOperands (ring0 4 []) (v 3) [v 31, v 2] vals u) ∧
    (Instr.vfma .f32 (v 3) (v 1) (v 2)).wf = true ∧ (reductions (.vredadd .i8 (v 3) (v 1))).isSome = true ∧
    (Instr.vredadd .i8 (v 3) (v 1)).wf = true ∧ 2 ^ 6 = VTy.lanes .i8 :=
  ⟨rfl, rfl, ⟨rfl, rfl, ⟨_, rfl, rfl⟩, rfl, rfl⟩, ⟨rfl, rfl, ⟨_, rfl, rfl⟩, rfl, rfl⟩, ⟨rfl, rfl, ⟨_, rfl, rfl⟩, rfl, rfl⟩,
    vOperands_of rfl rfl rfl (by decide +kernel), vOperands_of rfl rfl rfl (by decide +kernel), rfl, rfl, rfl, rfl⟩

theorem witness_rearranged : (Instr.vcvt .f32 .e4m3 .rtz true (v 3) (v 1)).wf = true ∧ (Instr.vquant (v 3) (v 1) (v 2)).wf = true ∧
    (Instr.vdeq (v 3) (v 1) (v 2) (v 2)).wf = true ∧ (Instr.vshuf .i8 (v 3) (v 1) (v 2)).wf = true ∧
    (Instr.vbcast .i8 (v 3) 1).wf = true ∧ (∃ c, gatherScalar (v 3) 1 (vecs0 [(1, 7)]).begin = .ok (7, c)) ∧
    (Instr.vext .i8 3 1 63).wf = true ∧ Idle (vecs0 []) :=
  ⟨rfl, rfl, rfl, rfl, rfl, ⟨_, rfl⟩, rfl, vecs0_idle _⟩

/-- A vector in the last 64 bytes below the inboxes, and in the workspace granule. -/
theorem witness_vector_memory : Operands (vecs0 [(1, 0x1DFC0)]) [1] [0x1DFC0] (vecs0 [(1, 0x1DFC0)]) ∧
    LocalClear (vecs0 [(1, 0x1DFC0)]) 0 (address 0x1DFC0 0) 64 ∧ LocalSound (vecs0 [(1, 0x1DFC0)]) 0 (address 0x1DFC0 0) 64 ∧
    ((vecs0 []).core 0).act.inWorkspace (address 0x1DFC0 0) 64 = false ∧ ((vecs0 []).core 0).ord.sb.length < 32 ∧
    Operands (vecs0 [(1, 0x1C0)]) [1] [0x1C0] (vecs0 [(1, 0x1C0)]) ∧ LocalClear (vecs0 [(1, 0x1C0)]) 0 (address 0x1C0 0) 64 ∧
    ((vecs0 []).core 0).act.inWorkspace (address 0x1C0 0) 64 = true :=
  ⟨⟨rfl, ⟨_, rfl, rfl⟩, rfl, rfl⟩, localClear_of (by decide +kernel), localSound_of (by decide +kernel), by decide +kernel,
    by decide +kernel, ⟨rfl, ⟨_, rfl, rfl⟩, rfl, rfl⟩, localClear_of (by decide +kernel), by decide +kernel⟩

/-- The matrix engine: operands fit for BF16, with an event and without, a gang of one, an image in the last bytes it may have. -/
def mats0 (gangm : BitVec 8) (p : Bool) : State :=
  let s := vecs0 [(1, 0x1DF00)]
  { s with
    events := [(evKey 0 7, { rank := 5 })]
    cores := [(0, { s.core 0 with
      ctl := { run := some 0, draw := 1, bfmt := [(1, 1), (2, 1)], gangm := gangm }
      ls := { tags := [(239, { p := p, z := false, expiry := 100 })] } })] }

theorem mats0_idle (g : BitVec 8) (p : Bool) : Idle (mats0 g p) :=
  ⟨rfl, quiet_of rfl, rfl, rfl, rfl, by rintro ⟨⟩⟩

theorem witness_matrix : MatrixClear (mats0 1 false) (mats0 1 false) ∧ (mats0 1 false).Running ∧ ((mats0 1 false).core 0).ctl.draw ≠ 0 ∧
    RingFit ((mats0 1 false).core 0) .bf16 1 ∧ RingFit ((mats0 1 false).core 0) .bf16 2 ∧
    EventFit (mats0 1 false) holderMx 0xFFFF [1, 2] none ∧ EventFit (mats0 1 false) holderMx 7 [1, 2] (some 5) ∧
    ((mats0 1 false).core 0).ctl.gangm ≠ 0 ∧ Operands (mats0 1 false) [1] [0x1DF00] (mats0 1 false) ∧
    ImageFit ((mats0 1 false).core 0) 0x1DF00 ∧ ((mats0 1 false).tagAt 0 0x1DF00).p = false ∧
    ((mats0 1 true).tagAt 0 0x1DF00).p = true ∧ (1 : BitVec 8).getLsbD (0 % 8) = true ∧
    (∀ o ∈ ((mats0 1 false).core 0).eng.mq, o.kind.isGang = false) :=
  ⟨⟨rfl, rfl, (mats0_idle 1 false).2.1, by decide +kernel⟩, rfl, by decide +kernel,
    ⟨by decide +kernel, by decide +kernel, by decide +kernel, by decide +kernel⟩,
    ⟨by decide +kernel, by decide +kernel, by decide +kernel, by decide +kernel⟩, .inl ⟨rfl, rfl⟩,
    .inr ⟨by decide, { rank := 5 }, by decide +kernel, by decide, by decide +kernel, by decide +kernel⟩, by decide +kernel,
    ⟨rfl, ⟨_, rfl, rfl⟩, rfl, rfl⟩, ⟨by decide +kernel, by decide +kernel, by decide +kernel⟩, by decide +kernel, by decide +kernel,
    by decide, by decide +kernel⟩

/-- The pump: a chain in the last 32 bytes below the inboxes; and newt 0's own chain at work, with an event. -/
def chain0 : State :=
  { world 0 { newt [(1, 0x1DFE0)] with
      eng := { pq := [{ head := 0x1000, ev := 7, pc := 1, slot := 0, seq := 0, lvl := 0, bfmt := [], started := true }]
               pump := { state := 1, head := 0x1000, idx := 3, done := 32 } }
      obl := [⟨false, false, 5, holderCx, 1, 7, 0⟩] } with
    events := [(evKey 0 7, { rank := 5 })] }

theorem witness_pump : Operands (mats0 1 false) [1] [0x1DF00] (mats0 1 false) ∧ Operands chain0 [1] [0x1DFE0] chain0 ∧ Idle chain0 ∧
    0x1DFE0 + 32 ≤ 0x1E000 ∧ EventFit chain0 holderCx 7 [] (some 5) ∧ EventFit chain0 holderCx 0xFFFF [] none ∧
    ((chain0.core 0).eng.pq.filter fun o => !o.started).length < 2 ∧
    (∀ o ∈ ((at0 []).core 0).eng.pq, ¬(o.slot = ((at0 []).core 0).runSlot ∧ o.seq = ((at0 []).core 0).act.uid)) ∧
    (chain0.core 0).eng.pump.paid = false ∧ chain0.event chain0.myPart 7 = some { rank := 5 } ∧ (Instr.cxstat 3).wf = true :=
  ⟨⟨rfl, ⟨_, rfl, rfl⟩, rfl, rfl⟩, ⟨rfl, ⟨_, rfl, rfl⟩, rfl, rfl⟩,
    ⟨rfl, quiet_of rfl, rfl, rfl, rfl, by rintro ⟨⟩⟩, by decide,
    .inr ⟨by decide, { rank := 5 }, by decide +kernel, by decide, (fun x h => by cases h), by decide +kernel⟩, .inl ⟨rfl, rfl⟩,
    by decide +kernel, (fun o h => by cases h), by decide +kernel, by decide +kernel, rfl⟩

/-- Queue selectors: q0 bound to the own channel 0 and q1 to channel 3, whose rank, parts and messages are given. -/
def queue0 (rank : BitVec 20) (part : List Word) : State :=
  world 0 { newt [] with
    slots := [(0, { act0 with msg := { len := 16, words := [5, 6] }, sync := { qb := [(0, 0), (1, 3)] } })]
    chans := [(3, { rank := rank })]
    inq := [(3, { part := part })] }

theorem queue0_idle (r : BitVec 20) (l : List Word) : Idle (queue0 r l) :=
  ⟨rfl, quiet_of rfl, rfl, rfl, rfl, by rintro ⟨⟩⟩

theorem witness_operands : [(0 : Sel), 55].all Sel.dstOk = true ∧ (at0 []).Running ∧
    ([v 15, v 0, v 1].all fun o => !vIsRing o && !vIsQ o) = true ∧ Idle (queue0 5 [8]) ∧
    ((queue0 5 [8]).core 0).act.qBound (56 - 56) = some 0 ∧ ((queue0 5 [8]).core 0).act.msg.poison = false ∧
    ((queue0 5 [8]).core 0).act.qBound (57 - 56) = some 3 ∧ (((queue0 5 [8]).core 0).chan 3).rank.toNat < ((queue0 5 [8]).core 0).myFloor ∧
    (((queue0 5 [8]).core 0).inb 3).part = [8] ∧ (((queue0 5 []).core 0).inb 3).wordCount = 0 ∧
    ((queue0 0xFFFFF [8]).core 0).myFloor ≤ (((queue0 0xFFFFF [8]).core 0).chan 3).rank.toNat ∧
    ((queue0 5 [8]).core 0).act.qBound (59 - 56) = none :=
  ⟨rfl, rfl, rfl, queue0_idle _ _, rfl, rfl, rfl, by decide +kernel, rfl, rfl, by decide +kernel, rfl⟩

/-- The places of words are clear. -/
theorem placesClear_of {s : State} {k : Nat} {l : List (Nat × Bool)} (h : (l.all fun x =>
    if x.1 < inboxBytes k / 8 then
      let off := (if isSvc k then 0x7C000 else 0x1E000) + 8 * x.1
      decide (s.expiredAt k off = false ∧ (s.core (placeOf k off).1).ls.ecc = [] ∧ s.poisonAt k off 8 = false)
    else !x.2) = true) : ∀ x ∈ l, PlaceClear s k x := by
  intro x hx
  have := List.all_eq_true.mp h x hx
  unfold PlaceClear
  split at this
  · rw [if_pos ‹_›]; exact of_decide_eq_true this
  · rw [if_neg ‹_›]; simpa using this

/-- A message of two words at the end of the inbox ring: the triggering one, and one of channel 3 that has not been begun. -/
def queue1 : State :=
  world 0 { newt [] with
    slots := [(0, { act0 with msg := { len := 16, words := [5, 6], place := [1020, 1021, 1022, 1023] }, sync := { qb := [(0, 0), (1, 3)] } })]
    chans := [(3, { rank := 5 })]
    inq := [(3, { q := [{ len := 16, words := [5, 6], place := [0, 1, 2, 3] }] })] }

theorem witness_operand_places : queue1.Running ∧ queue1.Quiet 0 ∧ (queue1.core 0).ownPlaces 1 = [(1022, false)] ∧
    (∀ x ∈ (queue1.core 0).ownPlaces 1, PlaceClear queue1 0 x) ∧
    (∀ x ∈ (queue1.core 0).nextPlaces 3 (holderOf 0) 1, PlaceClear queue1 0 x) ∧ ((queue1.core 0).inb 3).part = [] ∧
    ((queue1.core 0).inb 3).q = [{ len := 16, words := [5, 6], place := [0, 1, 2, 3] }] ∧
    (queue1.core 0).takesOver (holderOf 0) [] = none ∧ ((queue1.core 0).chan 3).rank.toNat < (queue1.core 0).myFloor ∧
    (∀ x ∈ ((queue0 5 [8]).core 0).nextPlaces 3 (holderOf 0) 1, PlaceClear (queue0 5 [8]) 0 x) :=
  ⟨rfl, quiet_of rfl, by decide +kernel, placesClear_of (by decide +kernel), placesClear_of (by decide +kernel), rfl, rfl, rfl,
    by decide +kernel, placesClear_of (by decide +kernel)⟩

/-! ### Steps of the module -/

/-- A message to channel 3 of newt 0 in transit, whose sender's activation number 4 waits, with room and beyond the channel's limit. -/
def msg3 : Msg := { route := 0x300000, len := 16, words := [5, 6], src := 1 }
def transit (chan : Chan) (q div : List Msg) : State :=
  { world 0 { chans := [(3, chan)], inq := [(3, { q := q, div := div })] } with flight := [.msg 0 msg3 (some (1, 4))] }

theorem witness_arrival : routeChan msg3.route.toNat = 3 ∧ msg3.isLost = false ∧ (transit { qlimit := 1 } [] []).savedOwner 0 msg3 = none ∧
    (transit { qlimit := 1 } [] []).lost 0 msg3.part = false ∧ ((transit { qlimit := 1 } [] []).core 0).isStream 3 = false ∧
    (transit { qlimit := 1 } [] []).diverts 0 3 msg3 = false ∧
    ((transit { qlimit := 1 } [] []).core 0).ls.cells.wf = true ∧ (transit { qlimit := 1 } [msg3] []).diverts 0 3 msg3 = true ∧
    (((transit { qlimit := 1 } [msg3] []).core 0).inb 3).ovf = [] ∧
    (transit { qlimit := 1 } [msg3] []).divertUsed 0 + msg3.size ≤ 0x20000 ∧ (transit { qlimit := 1 } [] []).swapped 0 = false :=
  by decide +kernel

theorem witness_reinject : 3 < chanCount 0 ∧ (∀ c, c < 3 → (transit { qlimit := 1 } [] [msg3]).reinject 0 c = none) ∧
    (((transit { qlimit := 1 } [] [msg3]).core 0).inb 3).div = [msg3] ∧
    ((transit { qlimit := 1 } [] [msg3]).core 0).isStream 3 = false ∧ (transit { qlimit := 1 } [] [msg3]).heldBack 0 3 = false ∧
    ((transit { qlimit := 1 } [] [msg3]).core 0).ls.cells.wf = true ∧ ((transit { qlimit := 1 } [] [msg3]).core 0).ctl.pair = none ∧
    (((transit { qlimit := 1 } [] [msg3]).core 0).inb 3).q.length < (((transit { qlimit := 1 } [] [msg3]).core 0).chan 3).limit ∧
    ((transit { qlimit := 1 } [] [msg3]).core 0).inboxUsed + msg3.size ≤ inboxBytes 0 := by decide +kernel

/-- A stream of 48 bytes to channel 3 in ring 2, whose slots are of 64 bytes: its first beat, and its end. -/
def stream0 (done : Nat) : State :=
  world 0 {
    chans := [(3, { valid := true, mode := true, ring := 2 })]
    inq := [(3, { div := [{ msg3 with route := 0x2300000, len := 48, words := [1, 2, 3, 4, 5, 6], done := done }]
                  stream := if done = 0 then none else some ⟨1, 48, 48, [], none⟩ })]
    vec := { ring := [(2, { count := 4, slog := 6, base := 0x1000 })] }
    ls := { tags := [(8, { z := false, expiry := 100 })] } }

theorem witness_streams : 3 < chanCount 0 ∧ isSvc 0 = false ∧ ((stream0 0).core 0).isStream 3 = true ∧
    ((stream0 0).core 0).ctl.pair = none ∧ (stream0 0).heldBack 0 3 = false ∧
    (((stream0 0).core 0).inb 3).stream = none ∧ (((stream0 48).core 0).inb 3).stream = some ⟨1, 48, 48, [], none⟩ ∧
    (∀ c, c < 3 → (stream0 0).streamBeat 0 c = none) ∧ (((stream0 0).core 0).ring 2).count ≠ 0 ∧
    (((stream0 0).core 0).ring 2).filled.toNat < (((stream0 0).core 0).ring 2).count.toNat ∧
    ((stream0 0).core 0).ls.cells.wf = true ∧ (stream0 0).expiredAt 0 0x1000 = false ∧
    (∀ c, c < 3 → (stream0 48).segmentEnd 0 c = none) ∧ routeEos 0x2300000 = true := by decide +kernel

/-- Beats in transit to the last sector below the inboxes, and a decrement in transit to a record with one beat to come. -/
def beat0 : State :=
  { world 0 { ls := { tags := [(239, { z := false, expiry := 100 })] } } with
    flight := [.beats 1 0 0x1DFE0 (List.replicate 32 9) [false] none 0 (some (1, 4)) none false] }
def decr0 : State :=
  { glob [] 0x100 (leBytes 16 (Bar.toNat { found 0 with arrived := 1, beats := 1 })) with
    flight := [.decr 0 0x100 1 none 0 0 false] }

theorem witness_pours : beat0.beatsWait 0 0 = false ∧ beat0.lost 0 (some 0) = false ∧ (beat0.core 0).ls.cells.wf = true ∧
    0x1DFE0 / 512 = (0x1DFE0 + 32 - 1) / 512 ∧ beat0.expiredAt 0 0x1DFE0 = false ∧ 0 < beat0.retn 0 := by decide +kernel

theorem witness_decrement :
    let v := (State.xlate { decr0 with flight := [] } 0 0 2 .atomic 0x100).2
    State.xlate { decr0 with flight := [] } 0 0 2 .atomic 0x100 = (.ok 0x40100 0 .home, v) ∧
    v.writeDelayed (svcOf (v.partFirst 0)) 0 (lineOf 0x100) = false ∧ v.phys.dram.wf = true ∧ (v.barAt .home 0x40100).valid = true ∧
    NoDeparture decr0 0 0x40100 :=
  ⟨Prod.ext (by decide +kernel) rfl, by decide +kernel, by decide +kernel, by decide +kernel, fun w h => by cases h⟩

/-- An idle newt with a message on channel 3, and one whose activation on channel 3 is ready. -/
def select0 : State := world 0 { chans := [(3, { valid := true, hpc := 0x41, wsp := 9 })], inq := [(3, { q := [msg3] })] }
def ready0 : State :=
  world 0 { chans := [(3, { valid := true, hpc := 0x41, wsp := 8 })], inq := [(3, { live := some 0 })]
            slots := [(0, { st := .ready, chan := 3, pc := 0x81, wsp := 8 })]
            ls := { cells := [(0x1008, 7)], tags := [(8, { z := false, expiry := 100 })] } }

theorem witness_select : select0.select 0 = some (3, some 0) ∧ (select0.core 0).readyChan 3 = false ∧
    (select0.core 0).slotFor 0 3 = some 0 ∧ ((select0.core 0).chan 3).mode = false ∧ ((select0.core 0).inb 3).q = [msg3] ∧
    ready0.select 0 = some (3, some 0) ∧ (ready0.core 0).readyChan 3 = true ∧ ((ready0.core 0).inb 3).live = some 0 ∧
    (ready0.core 0).ctl.lizn = 0 ∧ (ready0.core 0).ctl.pair = none ∧ ((ready0.core 0).slot 0).image = none ∧
    ready0.expiredAt 0 ((ready0.core 0).slot 0).wspOff = false ∧ (ready0.core 0).ls.ecc = [] ∧
    ready0.poisonAt 0 ((ready0.core 0).slot 0).wspOff 512 = false := by decide +kernel

/-- Tile 0's service core with a context to handle and a firmware message on channel 32. -/
def handler0 : State :=
  { world 0x100000 { chans := [(32, { valid := true, hpc := 0x41 })], inq := [(32, { q := [{ msg3 with route := 0x2000000 }] })] } with
    tiles := [(0, { ready := true, owner := some 0, svc := { held := [context1] } })] }

theorem witness_handler : (handler0.select 0x100000).map (·.1) = some 32 ∧ (handler0.core 0x100000).readyChan 32 = false ∧
    ((handler0.core 0x100000).slotFor 0x100000 32).isSome = true ∧ handler0.toHandle 0x100000 32 = some context1 := by decide +kernel

/-- The running activation of newt 0, at a commit point, with one entry to release. -/
def release0 (kind : OKind) (obl : List Obl) : State :=
  { world 0 { newt [] with
      slots := [(0, { act0 with life := { atPoint := true } }), (1, { st := .suspended, sync := { wait := [.event 7 4] } })]
      ord := { ob := [⟨kind, 1, 0, 0, false, 0, false⟩] }
      obl := obl } with
    events := [(evKey 0 7, { rank := 5, counter := 3, waiters := [(.act 0 1, 4)] })]
    phys := pages 0x100 (record 1 0) }

/-- The first entry of the buffer of `release0` is the one its `release` drains next. -/
theorem release0_releasing (k : OKind) (l : List Obl) :
    Releasing (release0 k l) 0 0 ⟨k, 1, 0, 0, false, 0, false⟩ :=
  ⟨rfl, rfl, rfl, rfl⟩

theorem witness_release : Releasing (release0 (.sig 7 1) [⟨false, false, 5, 0, 2, 7, 0⟩]) 0 0 ⟨.sig 7 1, 1, 0, 0, false, 0, false⟩ ∧
    Releasing (release0 (.send false 0x300001 8 [5]) []) 0 0 ⟨.send false 0x300001 8 [5], 1, 0, 0, false, 0, false⟩ ∧
    Releasing (release0 (barEntry .join 0x100 0) []) 0 0 ⟨barEntry .join 0x100 0, 1, 0, 0, false, 0, false⟩ ∧
    Releasing (release0 (barEntry .arrive 0x100 2) [⟨true, false, 9, 0, 0, 0x100, 0⟩]) 0 0 ⟨barEntry .arrive 0x100 2, 1, 0, 0, false, 0, false⟩ ∧
    (release0 (.sig 7 1) []).event 0 7 = some { rank := 5, counter := 3, waiters := [(.act 0 1, 4)] } ∧
    (∃ v, (release0 (barEntry .arrive 0x100 2) []).barHome 0 0 0x100 = .ok (some (0x40100, 0, .home, found 0), v)) ∧
    NoDeparture (release0 (barEntry .arrive 0x100 2) []) 0 0x40100 ∧ (pages 0x100 (record 1 0)).dram.wf = true :=
  ⟨release0_releasing _ _, release0_releasing _ _, release0_releasing _ _, release0_releasing _ _, by decide +kernel,
    barHome_of (by decide +kernel), fun w h => (by cases h), by decide +kernel⟩

/-- The same with an entry that is given whole, with the note of a `sendw` that waits, or of none. -/
def release1 (e : OEntry) (waits : Bool) (obl : List Obl) : State :=
  { world 0 { newt [] with
      slots := [(0, { act0 with life := { atPoint := true, sendw := waits } })]
      ord := { ob := [e] }
      obl := obl } with
    events := [(evKey 0 7, { rank := 5, counter := 3 })] }

def sent (kind : OKind) (injected : Bool) : OEntry := ⟨kind, 1, 0, 0, injected, 0, false⟩
def replyEntry : OKind := .send false 0x1000700300001 8 [5]
def waitEntry : OKind := .send true 0x300001 8 [5]
def unitEntry (bar : Bool) : OKind := .sendo bar 0x300001 8 [5] (if bar then 0x100 else 7)
def pourEntry : OKind := .pour 2 0x1000 0x2000 32 none

/-- Entries that are released in more than one way: a message that owes a reply; one of a `sendw`, not yet sent, waiting, and accepted; one
that takes a unit on an event or an arrival with it; the beats of a pour. -/
theorem witness_release_more : (∀ k ∈ [replyEntry, waitEntry, unitEntry false, unitEntry true, pourEntry],
      Releasing (release1 (sent k false) false []) 0 0 (sent k false)) ∧
    (∀ b, Releasing (release1 (sent waitEntry true) b []) 0 0 (sent waitEntry true) ∧
      (((release1 (sent waitEntry true) b []).core 0).slot 0).life.sendw = b) ∧
    owedBy ((release1 (sent replyEntry false) false []).core (routeCore 0x1000700300001)) holderNet (evObj 7) + 1 < 2 ^ 32 ∧
    (release1 (sent replyEntry false) false []).event 0 (bitsOf 0x1000700300001 47 32) = some { rank := 5, counter := 3 } ∧
    bitOf 0x1000700300001 48 = true ∧ bitOf 0x300001 48 = false ∧
    ((release1 (sent (unitEntry false) false) false [⟨false, false, 5, 0, 2, 7, 0⟩]).core 0).oblOf (holderOf 0) false 7 =
      some ⟨false, false, 5, 0, 2, 7, 0⟩ ∧
    (((release1 (sent (unitEntry true) false) false [⟨true, false, 9, 0, 0, 0x100, 0⟩]).core 0).owedArrivals (holderOf 0) 0x100).head? =
      some ⟨true, false, 9, 0, 0, 0x100, 0⟩ ∧
    (release1 (sent pourEntry false) false []).firstExpired 0 0x1000 (32 / 32) = none := by
  refine ⟨fun k h => ?_, fun b => ⟨⟨rfl, rfl, rfl, rfl⟩, rfl⟩, by decide +kernel⟩
  simp only [List.mem_cons, List.not_mem_nil, or_false] at h
  obtain rfl | rfl | rfl | rfl | rfl := h <;> exact ⟨rfl, rfl, rfl, rfl⟩

/-- An activation with no watchdog cycles left; a context of newt 0 that is to be killed; one that may be replayed. -/
def expired0 : State := world 0 { newt [] with slots := [(0, { act0 with count := 0, budget := 1 })] }
def held0 (code : Nat) : Held := { core := 0, slot := 1, act := 2, image := [], frec := { code := code, pc := 5 } }
def serve0 (code : Nat) : State :=
  { world 0 {
      slots := [(1, { st := .faulted, chan := 3, uid := 2, life := { whole := some msg3 } })]
      chans := [(3, { replay := true })]
      inq := [(3, { live := some 1 })]
      obl := [⟨false, false, 5, 1, 1, 7, 0⟩] } with
    tiles := [(0, { ready := true, owner := some 0, svc := { held := [held0 code] } })] }

/-- The same while the service core runs an activation of its own. -/
def busy0 : State := (serve0 0x01).modCore 0x100000 fun c => { c with ctl := { c.ctl with run := some 3 } }

theorem witness_watchdog : (expired0.core 0).ctl.run.isSome = true ∧ (expired0.core 0).act.count = 0 ∧
    (expired0.core 0).dbg.halted = false ∧ expired0.Quiet 0 ∧ (expired0.core 0).inLiz = false :=
  ⟨rfl, rfl, rfl, quiet_of rfl, rfl⟩

theorem witness_faulted : (serve0 0x01).toServe 0 1 = some (0, held0 0x01) ∧
    (serve0 0x01).heldClass (held0 0x01) = 3 ∧ (held0 0x01).frec.code ≠ 0x0F ∧ (held0 0x01).frec.page = none ∧
    ((serve0 0x01).core 0).moved = none ∧ (((serve0 0x01).core 0).slot 1).chan ≠ 29 ∧
    (held0 0x01).act = (((serve0 0x01).core 0).slot 1).uid ∧ ((serve0 0x01).core 0).ctl.run ≠ some 1 ∧
    ((serve0 0x01).core 0).ctl.lizn = 0 ∧ (((serve0 0x01).core 0).slot 1).life.kind ≠ .resume ∧
    (serve0 0x01).firmwareSlot 0 = some 0 ∧ (busy0.toServe 0 1 = some (0, held0 0x01) ∧ busy0.firmwareSlot 0 = none) ∧ (serve0 0x06).toServe 0 1 = some (0, held0 0x06) ∧
    (serve0 0x06).heldClass (held0 0x06) = 2 ∧ (((serve0 0x06).core 0).slot 1).life.whole = some msg3 ∧
    ((serve0 0x06).core 0).ls.cells.wf = true := by decide +kernel

theorem witness_clock : (0, (live0 []).core 0) ∈ (live0 []).cores ∧ (live0 []).expiredAt 0 (512 * 8) = false ∧
    ((live0 []).tagAt 0 (512 * 8)).z = false ∧ (live0 []).expiredAt 0 (512 * 239) = false :=
  ⟨.head _, by decide +kernel, by decide +kernel, by decide +kernel⟩

/-- Chunks of newt 0: one that wants its last home, one that holds its homes with a store to the last doubleword of a page, and a
running one that has read a line. -/
def chunk0 (todo : List Nat) (sb : List Store) : State :=
  { glob [] 0xFFF8 [7] with
    cores := [(0, { newt [] with
      ord := { chunk := { id := 5, slot := 0, pc := 1, rd := [(0x400, 3)] }
               ended := [⟨{ id := 4, wr := [(0x4FF, 3)] }, todo, [], 1⟩], sb := sb } })] }
def reads0 : State :=
  world 0 { newt [(1, 9)] with
    slots := [(0, { act0 with pc := 0x45 })]
    ord := { chunk := { id := 5, slot := 0, pc := 1, regs := [(1, 8)], rd := [(0x400, 3)] } } }

def homeStore : Store := ⟨4, .home, 0xFFF8, 0x4FFF8, 3, leBytes 8 5, false⟩
def localStore : Store := ⟨4, .loc, 0x1DFF8, 0, 0, leBytes 8 5, false⟩

theorem witness_chunks : ((chunk0 [3] []).core 0).ord.ended = [⟨{ id := 4, wr := [(0x4FF, 3)] }, [3], [], 1⟩] ∧
    (∀ l, (chunk0 l []).missed 0 { id := 4, wr := [(0x4FF, 3)] } = false) ∧ (chunk0 [3] []).ungranted 0 3 = false ∧
    (((chunk0 [] [homeStore]).core 0).ord.sb.filter fun y => y.chunk == 4) = [homeStore] ∧
    (chunk0 [] [homeStore]).refusedStore 0 ((chunk0 [] [homeStore]).chunkLevel 0 { id := 4, wr := [(0x4FF, 3)] }) homeStore = false ∧
    (((chunk0 [] [localStore]).core 0).ord.sb.filter fun y => y.chunk == 4) = [localStore] ∧
    (chunk0 [] [localStore]).refusedStore 0 ((chunk0 [] [localStore]).chunkLevel 0 { id := 4, wr := [(0x4FF, 3)] }) localStore = false ∧
    ((chunk0 [] []).core 0).ls.cells.wf = true ∧ 0x1DFF8 / 512 = (0x1DFF8 + 8 - 1) / 512 ∧ localStore.data ≠ [] ∧
    ((chunk0 [] []).tagAt 0 0x1DFF8).x = false :=
  ⟨by decide +kernel, fun _ => rfl, by decide +kernel⟩

theorem witness_squash : (reads0.core 0).ctl.run.isSome = true ∧ (reads0.core 0).ord.ended = [] ∧
    (reads0.core 0).ord.chunk.slot = (reads0.core 0).runSlot ∧
    sigMeets (sigOf [0x400]) (sigOf (linesOf (reads0.core 0).ord.chunk.rd)) = true ∧
    sigMeets 0 (sigOf (linesOf (reads0.core 0).ord.chunk.rd)) = false ∧
    sigMeets 0 (sigOf (linesOf (reads0.core 0).ord.chunk.wr)) = false := by decide +kernel

theorem witness_agent_write :
    let v := ((glob [] 0 []).xlate 0 ((glob [] 0 []).partFirst 0) 1 .store 0xFFF8).2
    (glob [] 0 []).late = [] ∧ (glob [] 0 []).xlate 0 ((glob [] 0 []).partFirst 0) 1 .store 0xFFF8 = (.ok 0x4FFF8 0 .home, v) ∧
    v.writeDelayed agentKey 0 (lineOf 0xFFF8) = false :=
  ⟨rfl, Prod.ext (by decide +kernel) rfl, by decide +kernel⟩

/-- A matrix operation at the head of its queue, and the `gmma` of a gang of newt 0 alone. -/
def mop (kind : MKind) (started : Bool) : MOp :=
  { kind := kind, ev := 7, pc := 1, slot := 0, seq := 0, bfmt := [(1, 1), (2, 1)], started := started }
def engine0 (o : MOp) : State :=
  let s := mats0 1 false
  { s with cores := [(0, { s.core 0 with eng := { mq := [o] } })] }

theorem witness_matrix_steps : (engine0 (mop (.mma .bf16 3 1 2) false)).frozen 0 = false ∧
    ((engine0 (mop (.mma .bf16 3 1 2) false)).core 0).mReady (mop (.mma .bf16 3 1 2) false) = true ∧
    ((engine0 (mop (.gmma .bf16 3 1 2 1) false)).core 0).joinNumber = some 1 ∧
    (engine0 (mop (.gmma .bf16 3 1 2 1) false)).gangBroken 0 1 = false ∧
    (engine0 (mop (.gmma .bf16 3 1 2 1) false)).gangJoined 0 1 = true ∧
    (∀ m ∈ (engine0 (mop (.gmma .bf16 3 1 2 1) false)).gangOf 0,
      (((engine0 (mop (.gmma .bf16 3 1 2 1) false)).core m).waitingGang 1).bind (·.gfmt) =
        (((engine0 (mop (.gmma .bf16 3 1 2 1) false)).core
          (((engine0 (mop (.gmma .bf16 3 1 2 1) false)).gangOf 0).headD 0)).waitingGang 1).bind (·.gfmt)) ∧
    ((engine0 (mop (.mma .bf16 3 1 2) true)).core 0).tailOff 1 + usedBytes .bf16 ≤ 0x20000 ∧
    (engine0 (mop (.mma .bf16 3 1 2) true)).badSector 0 (((engine0 (mop (.mma .bf16 3 1 2) true)).core 0).tailOff 1)
      (usedBytes .bf16 / 32) = none ∧
    (engine0 (mop (.mst 3 0x1DF00) true)).expiredAt 0 0x1DF00 = false ∧
    (imageOf (Table.get 0 (mop (.mst 3 0x1DF00) true).bfmt (0x1DF00 / 0x4000))
      (Table.get 0 ((engine0 (mop (.mst 3 0x1DF00) true)).core 0).vec.a 3)).length = 256 ∧
    (engine0 (mop (.mld 3 0x1DF00) true)).badSector 0 0x1DF00 8 = none := by
  decide +kernel

/-- The pump at the entry of a chain whose words it has read, or not yet; a sector copied from 0x1000 to 0x1200, and a granule. -/
def pump0 (started : Bool) (ent : List Word) : State :=
  { world 0 {
      eng := { pq := [{ head := 0x1000, ev := 7, pc := 1, slot := 0, seq := 0, lvl := 0, bfmt := [], started := started }]
               pump := { state := if started then 1 else 0, head := 0x1000, idx := 3, ent := ent } }
      ls := { cells := Memory.put [] 0x1060 (leBytes 8 5), tags := [(8, { z := false, expiry := 100 }), (9, { z := false, expiry := 100 })] } } with
    events := [(evKey 0 7, { rank := 5, counter := 3 })] }

def copyWords (len : Nat) : List Word := [BitVec.ofNat 64 (len * 2 ^ 32 + 1), 0x1000, 0x1200, 0]

theorem witness_pump_steps : (pump0 false []).frozen 0 = false ∧ pumpDenied 0 0 (0x1000 + 32 * 3) 32 = false ∧
    ((pump0 true []).core 0).pumpWaits 0 (some (0x1000 + 32 * 3, 32)) none = false ∧
    ((pump0 true []).core 0).ls.ecc = [] ∧ (pump0 true []).badSector 0 (0x1000 + 32 * 3) 1 = none ∧
    entryOf (BitVec.ofNat 64 (leNat ((pump0 true []).cellsAt 0 (0x1000 + 32 * 3 + 8 * 0) 8))) 0 0 0 = some .fin ∧
    ((pump0 true [0x300000302, 32, 64, 0]).core 0).eng.pump.entry = some (.loop 3 3 32 64) ∧
    ((pump0 true [0x300070203, 0, 0, 0]).core 0).eng.pump.entry = some (.cond 3 7 2) ∧
    ((pump0 true [0x200070004, 0, 0, 0]).core 0).eng.pump.entry = some (.sig 2 7) ∧
    ((pump0 true [5, 0, 0, 0]).core 0).eng.pump.entry = some .fin ∧
    (pump0 true []).event 0 7 = some { rank := 5, counter := 3 } := by decide +kernel

/-- A sector of a COPY of 32 bytes, and a granule of one of 512. -/
theorem witness_pump_copies : ((pump0 true (copyWords 32)).core 0).eng.pump.entry = some (.copy 32 false 0 0 0x1000 0x1200) ∧
    ((pump0 true (copyWords 512)).core 0).eng.pump.entry = some (.copy 512 false 0 0 0x1000 0x1200) ∧
    ((pump0 true (copyWords 512)).core 0).pumpBlocked 0 = false ∧ ((pump0 true (copyWords 32)).core 0).pumpBlocked 0 = false ∧
    ((pump0 true []).core 0).ls.cells.wf = true ∧
    (pump0 true (copyWords 512)).badSector 0 0x1000 16 = none ∧ (pump0 true (copyWords 32)).badSector 0 0x1000 1 = none ∧
    (pump0 true (copyWords 512)).expiredAt 0 0x1200 = false := by decide +kernel

/-- Partition 0 in a state of its pre-emption, with a newt that has a suspended and a ready activation and takes notices. -/
def stay0 : Core :=
  { chans := [(30, { valid := true })], slots := [(0, { st := .suspended, chan := 3, pc := 0x41 }), (1, { st := .ready, chan := 4, pc := 0x81 })] }
def pre0 (st : BitVec 4) (mode : Bool) : State :=
  { world 0 stay0 with cycle := 1000000, parts := [(0, { part0 with pre := { state := st, mode := mode } })] }

theorem witness_preemption : (∀ k ∈ (pre0 1 false).newtsOfPart 0, ((pre0 1 false).core k).ctl.run = none) ∧
    (∀ k ∈ (pre0 2 false).newtsOfPart 0, ((pre0 2 false).core k).evictors = []) ∧
    ((pre0 2 false).part 0).pre.evlim.toNat * 4096 + ((pre0 2 false).part 0).pre.began ≤ (pre0 2 false).cycle ∧
    (∀ k ∈ (pre0 2 false).newtsOfPart 0, ((pre0 2 false).core k).evictQueued = false) ∧
    (∀ m, ∀ k ∈ (pre0 3 m).newtsOfPart 0, ((pre0 3 m).core k).eng.mq.any MOp.mustFinish = false) ∧
    (0 ∈ (pre0 5 false).newtsOfPart 0 ∧ ((pre0 5 false).core 0).ctl.pair = none ∧ (((pre0 5 false).core 0).chan 30).valid = true) ∧
    (∀ k ∈ (pre0 6 false).newtsOfPart 0, ((pre0 6 false).core k).ctl.resuming = false) :=
  ⟨by decide +kernel, by decide +kernel, by decide +kernel, by decide +kernel, by decide +kernel, by decide +kernel, by decide +kernel⟩

/-- An evict handler that is still live when its time is over. -/
def evict0 : State :=
  { pre0 2 false with cores := [(0, { slots := [(1, { st := .suspended, chan := 30, pc := 0x41, life := { kind := .evict } })] })] }

theorem witness_evlim : (evict0.part 0).pre.state = 2 ∧ (evict0.core 0).evictors = [1] ∧
    (evict0.part 0).pre.evlim.toNat * 4096 + (evict0.part 0).pre.began ≤ evict0.cycle ∧
    (∀ k ∈ evict0.newtsOfPart 0, (evict0.core k).ctl.run = none ∧ (evict0.core k).ctl.lizn = 0) ∧ 0 ∈ evict0.newtsOfPart 0 := by
  decide +kernel

/-- Queue 0 of partition 0, its ring in the page at VA 0, and an event. -/
def cp0 (u : Queue) (off : Nat) (bs : List Byte) : State :=
  { glob [] off bs with
    cycle := 100000000
    parts := [(0, { part0 with queues := [(0, u)], savebase := 0x100000000, wd := [(0, { period := 3, since := 4 })] })]
    events := [(evKey 0 7, { rank := 5, counter := 3 })] }
def entry (ws : List Word) : List Byte := ws.flatMap fun w => leBytes 8 w.toNat
def cmd0 (ws : List Word) (phase status done : Nat) : Queue :=
  { size := 4, tail := 1, cmd := some ws, phase := phase, status := status, done := done }
def markWords : List Word := [0x00070203, 0, 0, 0, 0, 0, 0, 0]
def waitWords (v : Nat) : List Word := [0x00070103, BitVec.ofNat 64 (v * 2 ^ 32 + 7), 0, 0, 0, 0, 0, 0]
def lateWords (op : Nat) : List Word := [BitVec.ofNat 64 (0x00070000 + op), 0x30000, 0, 0x10000, 0, 0, 0, 0]
def copyFields : List Word := [0xFFFF0002, 0, 0, 0x80, 0x60, 0, 0, 0]

theorem fwRead_of {s : State} {p va n : Nat} {bs : List Byte}
    (h : (match s.fwRead p va n with | .ok b _ => b == bs | _ => false) = true) : ∃ v, s.fwRead p va n = .ok bs v := by
  split at h
  · rename_i b v e
    exact ⟨v, by rw [e, eq_of_beq h]⟩
  · cases h

theorem fwRead_where {s : State} {p va n : Nat} {bs : List Byte} (P : State → Bool)
    (h : (match s.fwRead p va n with | .ok b v => b == bs && P v | _ => false) = true) : ∃ v, s.fwRead p va n = .ok bs v ∧ P v = true := by
  split at h
  · rename_i b v e
    rw [Bool.and_eq_true] at h
    exact ⟨v, by rw [e, eq_of_beq h.1], h.2⟩
  · cases h

/-- A queue of 16 entries whose first doorbell covers one entry, and the words of an unknown command. -/
def rung0 : State :=
  { cp0 { size := 4, tail := 1, bells := [(1, 50)] } 0 [] with host := { ports := [0] } }
def oddWords : List Word := [0x77, 0, 0, 0, 0, 0, 0, 0]

theorem witness_doorbell : rung0.hostUp = true ∧ has rung0.parts 0 = true ∧
    (∀ b ∈ (rung0.queue 0 0).bells, (b.1 - (rung0.queue 0 0).head).toNat < ((3 : BitVec 16) - (rung0.queue 0 0).head).toNat) ∧
    2 ^ (rung0.queue 0 0).size.toNat < ((17 : BitVec 16) - (rung0.queue 0 0).head).toNat ∧
    ((0 : BitVec 16) - (rung0.queue 0 0).head).toNat ≤ 0 ∧ (rung0.queue 0 0).phase = 0 := by decide +kernel

/-- A queue whose ring lies at an address that does not translate. -/
def unread0 : State := cp0 { size := 4, tail := 1, base := 0x10000 } 0 []

theorem witness_queue_stops : unread0.mayRead 0 0 = true ∧ ∃ v, unread0.fwRead 0 0x10000 64 = .bad v := by
  refine ⟨by decide +kernel, ?_⟩
  have h : (match unread0.fwRead 0 0x10000 64 with | .bad _ => true | _ => false) = true := by decide +kernel
  split at h
  · rename_i v e; exact ⟨v, e⟩
  · cases h

theorem witness_queue_reads : (cp0 { size := 4, tail := 1 } 0 []).mayRead 0 0 = true ∧
    (∃ v, (cp0 { size := 4, tail := 1 } 0 (entry markWords)).fwRead 0 0 64 = .ok (entry markWords) v ∧
      (!v.malformed 0 (v.queue 0 0) markWords) = true) ∧ bitOf (markWords.getD 0 0).toNat 8 = false ∧
    (∃ v, (cp0 { size := 4, tail := 1 } 0 (entry oddWords)).fwRead 0 0 64 = .ok (entry oddWords) v ∧
      v.malformed 0 (v.queue 0 0) oddWords = true) ∧
    (∃ v, (cp0 { size := 4, tail := 1 } 0 (entry (waitWords 4))).fwRead 0 0 64 = .ok (entry (waitWords 4)) v ∧
      (!v.malformed 0 (v.queue 0 0) (waitWords 4)) = true) ∧
    bitOf ((waitWords 4).getD 0 0).toNat 8 = true ∧ bitsOf ((waitWords 4).getD 1 0).toNat 15 0 = 7 ∧
    (cp0 { size := 4, tail := 1 } 0 []).event 0 7 = some { rank := 5, counter := 3 } :=
  ⟨by decide +kernel, fwRead_where (fun v => !v.malformed 0 (v.queue 0 0) markWords) (by decide +kernel), by decide +kernel,
    fwRead_where (fun v => v.malformed 0 (v.queue 0 0) oddWords) (by decide +kernel),
    fwRead_where (fun v => !v.malformed 0 (v.queue 0 0) (waitWords 4)) (by decide +kernel), by decide +kernel, by decide +kernel,
    by decide +kernel⟩

/-- A command that has ended; one that has made no progress; one that its partition's save has not ended; two past their deadlines. -/
def ended0 : State := cp0 (cmd0 markWords 4 0 0) 0 []
def stalled0 : State := cp0 (cmd0 markWords 3 0 0) 0 []
def timedOut0 : State :=
  { stalled0 with parts := [(0, { stalled0.part 0 with wd := [(0, { period := 3, since := 4, stage := 1 })] })] }

theorem witness_queue_ends : ended0.serving 0 = true ∧ opOf markWords ≠ 0x42 ∧ opOf markWords ≠ 0x43 ∧ ended0.late = [] ∧
    ended0.xlate 0 (ended0.partFirst 0) 1 .store 56 = (.ok 0x40038 0 .home, (ended0.xlate 0 (ended0.partFirst 0) 1 .store 56).2) ∧
    (ended0.xlate 0 (ended0.partFirst 0) 1 .store 56).2.writeDelayed agentKey 0 (lineOf 56) = false ∧ (ended0.ct 0).qos = [] :=
  ⟨by decide +kernel, by decide +kernel, by decide +kernel, rfl, Prod.ext (by decide +kernel) rfl, by decide +kernel, by decide +kernel⟩

theorem witness_watchdogs : 4 + 3 * 65536 ≤ stalled0.cycle ∧ (stalled0.queue 0 0).phase ≠ 0 ∧
    (Table.get {} (stalled0.part 0).wd 0).period ≠ 0 ∧ (Table.get {} (stalled0.part 0).wd 0).stage = 0 ∧
    (Table.get {} (timedOut0.part 0).wd 0).stage = 1 ∧ 4 + 1 * 4096 ≤ timedOut0.cycle ∧ (timedOut0.queue 0 0).cmd.isSome = true ∧
    timedOut0.taggedContexts 0 0 = [] ∧ (timedOut0.part 0).saved = [] := by decide +kernel

theorem witness_deadlines : (∀ k, (timedOut0.core k).moved = none) ∧
    ∀ op ∈ [1, 0x40], (opOf (lateWords op) = 0x01 ∨ (opOf (lateWords op) = 0x40 ∧ (lateWords op).getD 2 0 = 0)) ∧
      bitsOf ((lateWords op).getD 1 0).toNat 31 16 ≠ 0 ∧
      (cp0 (cmd0 (lateWords op) 2 0 0) 0 []).cycle ≥ 0 + bitsOf ((lateWords op).getD 1 0).toNat 31 16 * 1700 ∧
      ((cp0 (cmd0 (lateWords op) 2 0 0) 0 []).queue 0 0).phase = 2 ∧ ((cp0 (cmd0 (lateWords op) 2 0 0) 0 []).queue 0 0).poisoned = false :=
  ⟨fun k => (by rcases k with _ | k <;> rfl), by decide +kernel⟩

theorem witness_commands : QueueHas (cp0 (cmd0 copyFields 3 0 32) 0x20 (List.replicate 32 5)) 0 0 0x02 3 copyFields ∧
    (∃ u, (cp0 (cmd0 copyFields 3 0 32) 0x20 (List.replicate 32 5)).fwRead 0 32 32 = .ok (List.replicate 32 5) u) ∧
    (cp0 (cmd0 copyFields 3 0 32) 0 []).xlate 0 ((cp0 (cmd0 copyFields 3 0 32) 0 []).partFirst 0) 1 .store 0xA0 =
      (.ok 0x400A0 0 .home, ((cp0 (cmd0 copyFields 3 0 32) 0 []).xlate 0 ((cp0 (cmd0 copyFields 3 0 32) 0 []).partFirst 0) 1 .store 0xA0).2) ∧
    QueueHas (cp0 (cmd0 markWords 2 0 0) 0 []) 0 0 0x03 2 markWords :=
  ⟨⟨by decide, rfl, rfl, rfl, rfl, rfl⟩, fwRead_of (by decide +kernel), Prod.ext (by decide +kernel) rfl, by decide, rfl, rfl, rfl, rfl, rfl⟩

/-- A LAUNCH on tile 0, of newt 1 and of no newt, whose image in the zero page at VA 0 declares nothing, beside tokens that newt 0 holds. -/
def launchWords (newts : Word) : List Word := [0xFFFF0001, 0, 0, 0x10000, newts, 0, 0, 0]
def launch0 (newts : Word) (tokens : Nat) : State :=
  { cp0 (cmd0 (launchWords newts) 2 0 0) 0 [] with cores := [(0, { ctl := { draw := tokens } })] }

/-- The LAUNCH finds its image, and all of its checks pass, or not. -/
def launchChecks (s : State) (ws : List Word) : Option Bool :=
  match (s.begin_ 0 0 ws).readImage 0 (ws.getD 2 0).toNat with
  | .ok im v => some ((launchTiles (s.partFirst 0) ws).all ((v.launchBoundary 0).tokensFit ws im.tokens) && v.eventsFit 0 im.events
      && chansFit im.chans)
  | _ => none

theorem witness_launch : (∀ n ∈ [(0 : Word), 2], QueueHas (launch0 n 0) 0 0 0x01 2 (launchWords n) ∧
      (launch0 n 0).launchRange 0 (launchWords n) = true ∧ launchChecks (launch0 n 0) (launchWords n) = some true) ∧
    QueueHas (launch0 2 99) 0 0 0x01 2 (launchWords 2) ∧ launchChecks (launch0 2 99) (launchWords 2) = some false := by
  refine ⟨fun n h => ?_, ⟨by decide, rfl, rfl, rfl, rfl, rfl⟩, by decide +kernel⟩
  obtain rfl | rfl : n = 0 ∨ n = 2 := by simpa using h
  · exact ⟨⟨by decide, rfl, rfl, rfl, rfl, rfl⟩, by decide +kernel, by decide +kernel⟩
  · exact ⟨⟨by decide, rfl, rfl, rfl, rfl, rfl⟩, by decide +kernel, by decide +kernel⟩

/-- The administrative queue with a command about partition 0, which stands on a node in a state of its pre-emption. -/
def admin0 (phase done : Nat) (ws : List Word) (st : BitVec 4) (node : Nat) : State :=
  { world 0 {} with
    nodes := [(4096, .owned 0), (4097, .free)]
    tiles := (List.range 16).map fun i => (i, { ready := true, owner := if i < nodeTiles node then some 0 else none })
    parts := [(0, { part0 with node := node, savebase := 0x1000, pre := { state := st } })]
    host := { admin := { size := 4, tail := 1, cmd := some ws, phase := phase, done := done }, stations := List.range 64 } }
def words (op : Nat) (ws : List Word) : List Word := BitVec.ofNat 64 (0xFFFF0000 + op) :: 0 :: ws ++ List.replicate (6 - ws.length) 0

theorem witness_create : AdminHas (admin0 2 0 (words 0x40 [4097, 1, 5, 1]) 0 4096) 0x40 2 (words 0x40 [4097, 1, 5, 1]) ∧
    ((words 0x40 [4097, 1, 5, 1]).getD 5 0).toNat = 1 ∧ has (admin0 2 0 (words 0x40 [4097, 1, 5, 1]) 0 4096).parts 1 = false ∧
    (admin0 2 0 (words 0x40 [4097, 1, 5, 1]) 0 4096).placeNode (words 0x40 [4097, 1, 5, 1]) = some 4097 :=
  ⟨⟨rfl, rfl, rfl, rfl⟩, by decide +kernel, by decide +kernel, by decide +kernel⟩

theorem witness_destroy : AdminHas (admin0 2 0 (words 0x41 [0]) 0 4096) 0x41 2 (words 0x41 [0]) ∧
    has (admin0 2 0 (words 0x41 [0]) 0 4096).parts 0 = true ∧ (admin0 2 0 (words 0x41 [0]) 0 4096).contextsOf 0 = [] ∧
    ((admin0 2 0 (words 0x41 [0]) 0 4096).part 0).pre.given = true ∧ ((admin0 2 0 (words 0x41 [0]) 0 4096).part 0).tel.base = 0 ∧
    (admin0 2 0 (words 0x41 [0]) 0 4096).phys.dram.wf = true ∧
    (∀ k, ((admin0 2 0 (words 0x41 [0]) 0 4096).core k).moved = none) :=
  ⟨⟨rfl, rfl, rfl, rfl⟩, by decide +kernel, by decide +kernel, by decide +kernel, by decide +kernel, by decide +kernel, fun k => by
    rcases k with _ | k <;> rfl⟩

theorem witness_resize : AdminHas (admin0 2 0 (words 0x42 [0]) 0 4096) 0x42 2 (words 0x42 [0]) ∧
    find (admin0 2 0 (words 0x42 [0]) 0 4096).nodes (siblingOf 4096) = some .free ∧
    (admin0 2 0 (words 0x42 [0]) 0 4096).nodeReady (siblingOf 4096) = true ∧
    AdminHas (admin0 3 1 (words 0x42 [0]) 4 4096) 0x42 3 (words 0x42 [0]) ∧
    AdminHas (admin0 2 0 (words 0x43 [0, 2]) 0 2048) 0x43 2 (words 0x43 [0, 2]) ∧
    AdminHas (admin0 3 1 (words 0x43 [0, 2]) 4 2048) 0x43 3 (words 0x43 [0, 2]) ∧
    (admin0 3 1 (words 0x43 [0, 2]) 4 2048).halfIdle (tilesOfNode (siblingOf 4096)) = true ∧
    (∀ n ∈ [2048, 4096], ((admin0 3 1 (words 0x42 [0]) 4 n).part 0).pre.mode = false ∧ ((admin0 3 1 (words 0x42 [0]) 4 n).part 0).late = []) :=
  ⟨⟨rfl, rfl, rfl, rfl⟩, by decide +kernel, by decide +kernel, ⟨rfl, rfl, rfl, rfl⟩, ⟨rfl, rfl, rfl, rfl⟩, ⟨rfl, rfl, rfl, rfl⟩,
    by decide +kernel, by decide +kernel⟩

theorem witness_grant : AdminHas (admin0 2 0 (words 0x46 [0, 3, 0]) 0 4096) 0x46 2 (words 0x46 [0, 3, 0]) ∧
    (admin0 2 0 (words 0x46 [0, 3, 0]) 0 4096).pickFrames (tierFrames false).1 3 (tierFrames false).2 = some [0, 1, 2] ∧
    (admin0 2 0 (words 0x46 [0, 2, 1]) 0 4096).pickFrames (tierFrames true).1 2 (tierFrames true).2 =
      some [0x100000000, 0x100000001] :=
  ⟨⟨rfl, rfl, rfl, rfl⟩, by decide +kernel, by decide +kernel⟩

/-- A CONFIG of partition 0's page-table root and windows, whose image of windows is at physical address 0x40000. -/
def config0 (root : Word) : State :=
  { admin0 2 0 (words 0x47 [0x50000, root, 0, 0x40000]) 0 4096 with phys := pages 0 (leBytes 8 0x8000000700000000) }

theorem witness_config : AdminHas (config0 0x20000) 0x47 2 (words 0x47 [0x50000, 0x20000, 0, 0x40000]) ∧
    (match ((config0 0x20000).adminBegin (words 0x47 [0x50000, 0x20000, 0, 0x40000])).configImage (words 0x47 [0x50000, 0x20000, 0, 0x40000]) with
      | .ok bs v => v.configFit (words 0x47 [0x50000, 0x20000, 0, 0x40000]) (if bs.isEmpty then [] else wordsOf bs 32)
      | _ => false) = true ∧
    (match ((config0 0x8000000000020000).adminBegin (words 0x47 [0x50000, 0x8000000000020000, 0, 0x40000])).configImage
          (words 0x47 [0x50000, 0x8000000000020000, 0, 0x40000]) with
      | .ok bs v => v.configFit (words 0x47 [0x50000, 0x8000000000020000, 0, 0x40000]) (if bs.isEmpty then [] else wordsOf bs 32)
      | _ => true) = false :=
  ⟨⟨rfl, rfl, rfl, rfl⟩, by decide +kernel, by decide +kernel⟩

/-- A REPLAY of records 3 to 5 of tile 0, where a context of newt 5 is parked on record 4. -/
def parked0 : Held := { core := 5, slot := 2, act := 6, image := [(3, 3)], frec := { code := 7 }, parked := true, seq := 4 }
def replay0 (st : BitVec 4) : State :=
  { admin0 2 0 (words 0x48 [0, 0x500000003, 0]) st 4096 with
    cores := [(5, { slots := [(2, { st := .faulted, uid := 6, pc := 0x99 })] })]
    tiles := [(0, { ready := true, owner := some 0, svc := { held := [parked0] } })] }

theorem witness_replay : AdminHas (replay0 0) 0x48 2 (words 0x48 [0, 0x500000003, 0]) ∧
    ((((replay0 0).tile 0).svc.held.filter fun h => h.parked && (replay0 0).owner h.core == some 0 && seqIn 3 5 h.seq) = [parked0]) ∧
    ((replay0 0).core 5).moved = none ∧ ((replay0 4).part 0).pre.state.toNat = 4 :=
  ⟨⟨rfl, rfl, rfl, rfl⟩, by decide +kernel, rfl, rfl⟩

theorem witness_preempt : AdminHas (admin0 2 0 (words 0x44 [0, 1]) 0 4096) 0x44 2 (words 0x44 [0, 1]) ∧
    ((admin0 2 0 (words 0x44 [0, 1]) 0 4096).part 0).savebase ≠ 0 ∧
    AdminHas (admin0 2 0 (words 0x45 [0]) 4 4096) 0x45 2 (words 0x45 [0]) ∧
    ((admin0 2 0 (words 0x45 [0]) 4 4096).part 0).pre.given = true :=
  ⟨⟨rfl, rfl, rfl, rfl⟩, by decide +kernel, ⟨rfl, rfl, rfl, rfl⟩, rfl⟩

/-- A monitor at the end of its window, a record of a collective, and a collective that has a contribution to come. -/
def contract0 : State :=
  { cp0 { size := 4 } 0x80 (entry [0x0000000300070044, 0x9000, 0x500000200, 0x300000001, 0, 0, 0, 0]) with
    host := { ports := [0, 1], period := 10, stations := List.range 64 }
    blocks := [(0, {
      qos := [(2, { bound := 31, p := 512, k := 4, bins := [(3, 7), (4, 5), (31, 4)], samples := 16 })]
      coll := [(2, { va := 0x40, tag := 0x44, expect := 3, ev := 7, buf := 0x9000, blen := 0x200, count := 2, deadline := 70 })] })] }

theorem witness_contracts : contract0.hostUp = true ∧ has contract0.parts 0 = true ∧ contract0.host.owner = false ∧
    0 ∈ contract0.host.ports ∧ ({ contract0 with cycle := 1000 } : State).refills = 1000 / 1024 ∧
    IsPercentile { bound := 31, p := 512, k := 4, bins := [(3, 7), (4, 5), (31, 4)], samples := 16 } 4 ∧
    find (contract0.ct 0).coll 4 = none ∧ find (contract0.ct 0).coll 2 = some (Table.get {} (contract0.ct 0).coll 2) ∧
    (∃ v, (contract0.withdraw 0 4).fwRead 0 0x80 64 = .ok (entry [0x0000000300070044, 0x9000, 0x500000200, 0x300000001, 0, 0, 0, 0]) v) ∧
    (contract0.event 0 7).isSome = true ∧
    contract0.collFor 0 (0x440000 / 65536) = some (2, Table.get {} (contract0.ct 0).coll 2) ∧
    0x9000 ≤ 0x9100 ∧ 0x9100 + 0x100 ≤ 0x9000 + 0x200 ∧
    (Table.get {} (contract0.ct 0).coll 2).wait = false ∧ (Table.get {} (contract0.ct 0).coll 2).done = false ∧
    (Table.get {} (contract0.ct 0).coll 2).deadline ≤ contract0.cycle ∧
    contract0.host.renewed + contract0.host.period.toNat * 1700000 ≤ contract0.cycle :=
  ⟨rfl, by decide +kernel, rfl, by decide, rfl, ⟨by decide, by decide +kernel, by decide +kernel⟩, by decide +kernel,
    by decide +kernel, fwRead_of (by decide +kernel), by decide +kernel⟩

/-- Monitors whose K acts as 4 and as 20, and one of edge-station reads that has no sample. -/
theorem witness_monitors : windowOf { k := 0, samples := 16 } ≤ 16 ∧ IsPercentile { p := 512, k := 0, bins := [(3, 9)], samples := 16 } 3 ∧
    16 < windowOf { k := 31, samples := 16 } ∧ ({ k := 31, samples := 16 } : Qos).src ≠ 1 ∧
    ({ bound := 5, src := 1 } : Qos).samples < windowOf { bound := 5, src := 1 } ∧ ({ bound := 5, src := 1 } : Qos).bound ≠ 0 :=
  ⟨by decide +kernel, ⟨by decide, by decide +kernel, by decide +kernel⟩, by decide +kernel, by decide, by decide +kernel, by decide⟩

/-- A queue pair with an entry at the head of its ring, an operation taken, and a receive entry. -/
def workWords (op len lva : Nat) : List Word := [BitVec.ofNat 64 (7 * 65536 + op), BitVec.ofNat 64 lva, BitVec.ofNat 64 len, 0x500, 3]
def qp0 (ops : List WEntry) : QPair := { sbase := 0, rbase := 0x40, head := 2, rhead := 1, tail := 2, ops := ops }
def net0 (ops : List WEntry) : State :=
  { cp0 {} 0x80 (entry (workWords 1 64 0x400 ++ [0, 0, 0])) with net := [(3, qp0 ops)], host := { eth := [5], stations := List.range 64 } }
def workEntry (op : Nat) : WEntry := ⟨workWords op 64 0x400, 0, false⟩

/-- A write of partition 0's agent at a virtual address goes to a physical one of home 0, with no delay. -/
def landsAt (s : State) (va pa : Nat) : Bool :=
  let x := s.xlate 0 (s.partFirst 0) 1 .store va
  decide (x.1 = .ok pa 0 .home) && !x.2.writeDelayed agentKey 0 (lineOf va)

theorem witness_network : (net0 []).ethUp = true ∧ 5 ∈ (net0 []).host.eth ∧ (net0 []).hasPair 3 = true ∧ ((net0 []).qp 3).err = false ∧ ((net0 []).qp 3).bells = [] ∧
    ((net0 []).qp 3).arr = [] ∧ (net0 [workEntry 1]).late = [] ∧
    (∀ o ∈ ((net0 [workEntry 1]).qp 3).ops, o.given = false) ∧ (net0 []).present 0 = true ∧
    (∃ v, State.fwRead { net0 [] with freeCount := (net0 []).freeCount + 1 } 0 0x80 64 =
        .ok (entry (workWords 1 64 0x400 ++ [0, 0, 0])) v ∧ landsAt v 0x400 0x40400 = true) ∧
    (∃ v, (net0 []).fwRead 0 0x80 64 = .ok (entry (workWords 1 64 0x400 ++ [0, 0, 0])) v) ∧
    landsAt (net0 [workEntry 4]) 0x400 0x40400 = true ∧
    WEntry.bad (workEntry 1) = false ∧ WEntry.op (workEntry 1) ≠ 4 ∧ WEntry.op (workEntry 4) = 4 ∧ WEntry.len (workEntry 1) = 64 ∧
    WEntry.lva (workEntry 1) = 0x400 ∧ ((net0 [workEntry 4]).qp 3).ops = [workEntry 4] :=
  ⟨rfl, .head _, by decide +kernel, rfl, rfl, rfl, rfl, by decide +kernel, by decide +kernel,
    fwRead_where (fun v => landsAt v 0x400 0x40400) (by decide +kernel), fwRead_of (by decide +kernel), by decide +kernel, by decide +kernel,
    by decide +kernel, by decide +kernel, by decide +kernel, by decide +kernel, rfl⟩

/-- A queue pair that nothing has used, of a partition whose tiles a SWAP has released; and one with an arrival that has a receive entry. -/
def away0 : State :=
  { net0 [] with tiles := [], parts := [(0, { (net0 []).part 0 with pre := { state := 4, mode := true, given := false } })] }
def arrived0 : State :=
  { net0 [] with net := [(3, { qp0 [] with arr := [{ op := .send, imm := 0, va := 0x400, data := [1], entry := some (workEntry 1) }] })] }

theorem witness_network_waits : away0.ethUp = true ∧ away0.hasPair 3 = true ∧ (away0.qp 3).err = false ∧ away0.present 0 = false ∧
    away0.late = [] ∧ (∀ o ∈ (away0.qp 3).ops, o.given = false) ∧ arrived0.hasPair 3 = true ∧
    (arrived0.qp 3).ops ++ (arrived0.qp 3).arr.filterMap (·.entry) = [workEntry 1] ∧ (workEntry 1).ev ≠ 0xFFFF := by decide +kernel

/-- What is in transit: a message, the beats of a pour, and decrements resent seven times and six. -/
def flight0 : State :=
  { world 0 {} with
    flight := [.msg 0 msg3 none, .beats 1 0 0x1000 [1] [false] none 0 none none false, .decr 0 0x100 1 none 4 7 false,
      .decr 0 0x100 1 (some (1, 2)) 4 6 true]
    cycle := 0x100000
    parts := [(0, { part0 with tel := { en := true, base := 0x50000 } })] }

theorem witness_reliability : flight0.flight[0]? = some (.msg 0 msg3 none) ∧
    flight0.flight[1]? = some (.beats 1 0 0x1000 [1] [false] none 0 none none false) ∧
    flight0.flight[2]? = some (.decr 0 0x100 1 none 4 7 false) ∧
    flight0.flight[3]? = some (.decr 0 0x100 1 (some (1, 2)) 4 6 true) ∧
    (flight0.part 0).tel.en = true ∧ (flight0.part 0).tel.base ≠ 0 ∧
    (flight0.part 0).tel.since + 2 ^ (flight0.part 0).tel.k.toNat ≤ flight0.cycle ∧
    Releasing (release0 (.sig 7 1) []) 0 0 ⟨.sig 7 1, 1, 0, 0, false, 0, false⟩ ∧
    (release0 (.sig 7 1) []).cores[0]? = some (0, (release0 (.sig 7 1) []).core 0) ∧
    ((release0 (.sig 7 1) []).cores.map (·.1)).Pairwise (· < ·) :=
  ⟨rfl, rfl, rfl, rfl, by decide +kernel, by decide +kernel, by decide +kernel, release0_releasing _ _, rfl, by decide⟩

/-- A message of level F and a chunk's signature that are lost, for the first time and for the eighth; a dirty half-line and a clean one in
tile 0's cistern, and a newt that holds their line in its data cache; a sweep that is due while an earlier one still writes. -/
def lossy0 (tries : Nat) : State :=
  { flight0 with
    flight := [.msg 0 { msg3 with sys := some ⟨0x100000, 9, tries, true⟩ } none]
    cores := [(0, { newt [] with ord := { ended := [⟨{ id := 4, wr := [(0x4FF, 3)] }, [3], [], 1⟩], sign := some ⟨4, 3, tries, false⟩ } })]
    phys := { flight0.phys with cis := [(0x800, { home := 0, data := 5, dirty := true }), (0x801, { home := 0, data := 6 })], dir := [(0x400, [0])] }
    late := [{ part := 0, va := 0x50008, data := [1] }] }

/-- A newt whose activation's translation request has been resent some times. -/
def asking0 (tries : Nat) : State := { at0 [] with cores := [(0, { newt [] with asked := some ⟨act0.uid, act0.pc, tries, false⟩ })] }

theorem witness_translation_requests : ∀ n ∈ [0, 7], ((asking0 n).core 0).request.map (·.tries) = some n ∧ (asking0 n).level 0 ≠ 2 ∧
    (asking0 n).cores[0]? = some (0, (asking0 n).core 0) ∧ ((asking0 n).cores.map (·.1)).Pairwise (· < ·) ∧
    ((asking0 n).core 0).moved = none ∧ ((asking0 n).core 0).stepWaits = false ∧ ((asking0 n).core 0).act.count ≠ 0 ∧
    ((asking0 n).core 0).ord.chunk.want = [] := by decide +kernel

theorem witness_losses : (∀ n ∈ [0, 7], (lossy0 n).flight[0]? = some (.msg 0 { msg3 with sys := some ⟨0x100000, 9, n, true⟩ } none) ∧
      ((lossy0 n).core 0).signing = some ⟨4, 3, n, false⟩ ∧ (lossy0 n).cores[0]? = some (0, (lossy0 n).core 0) ∧
      ((lossy0 n).cores.map (·.1)).Pairwise (· < ·) ∧ msg3.carry = [] ∧ ((lossy0 n).core 0x100000).moved = none ∧
      ((lossy0 n).core 0x100000).slotsOf 9 = [] ∧ ((lossy0 n).core 0).moved = none) ∧
    (lossy0 0).phys.cis[0]? = some (0x800, { home := 0, data := 5, dirty := true }) ∧
    (lossy0 0).phys.cis[1]? = some (0x801, { home := 0, data := 6 }) ∧
    find (lossy0 0).phys.cis 0x800 = some { home := 0, data := 5, dirty := true } ∧
    find (lossy0 0).phys.cis 0x801 = some { home := 0, data := 6 } ∧ (lossy0 0).phys.dram.wf = true ∧
    (lossy0 0).sharers[0]? = some (0x400, 0) ∧ (lossy0 0).sweeping 0 = true ∧ flight0.sweeping 0 = false := by
  decide +kernel

/-- A tile whose firmware's heartbeat is overdue, and one that runs an image that is bad. -/
def beat1 (bad : Bool) : State :=
  { State.reset with
    cycle := 1000000000
    tiles := [(3, { ready := true, svc := { started := 5, beat := if bad then 0 else 999999999, bad := bad } })] }

theorem witness_board : (∀ f ∈ [Func.tile, .station, .eth, .host],
      1 < funcCount f ∧ (f, 1) ∉ State.reset.host.failed ∧ State.reset.isReady f 1 = false) ∧
    State.reset.bootSlot.isSome = true ∧ State.reset.phys.dram.wf = true ∧
    (lossy0 0).phys.cis.all (fun e => find (lossy0 0).phys.cis e.1 == some e.2) = true ∧ ((live0 []).tile 0).ready = true ∧
    ((live0 []).tile 0).owner = some 0 ∧ ((live0 []).part 0).clamped = [] ∧
    1024 < ({ part0 with retn := 2000 } : Part).retn.toNat ∧ ((live0 []).cores.map (·.1)).Nodup ∧
    (0 : Nat) ∈ ({ ports := [0] } : HostSt).ports ∧ State.reset.host.minVersion ≤ 4 ∧
    State.reset.heldBudgets + 8 * State.reset.freeTiles ≤ 262144 ∧
    ((beat1 false).tile 3).svc.started + 170000000 ≤ (beat1 false).cycle ∧
    ((beat1 false).tile 3).svc.started + 170000000 < ((beat1 false).tile 3).svc.beat ∧ ((beat1 true).tile 3).svc.bad = true := by
  decide +kernel

theorem witness_halted : (∀ rest, State.reset.agenda ≠ .step .moduleReset :: rest ∧ State.reset.agenda ≠ .step .powerOn :: rest) ∧
    (({ State.reset with halted := true, agenda := [.step .powerOn] } : State).agenda = .step .powerOn :: []) :=
  ⟨fun _ => ⟨by simp [State.reset], by simp [State.reset]⟩, rfl⟩

/-- R29: a halted module stops, and a reset brings it back. -/
theorem test_halted : step { State.reset with halted := true } = .fault .moduleHalted ∧
    (match step { State.reset with halted := true, agenda := [.step .moduleReset] } with
      | .next t => t.halted
      | _ => true) = false :=
  ⟨rfl, by decide +kernel⟩

/-- Newt 0 at the first slot of a line, next in the module, with its debug module. -/
def line0 (h : Nat) (heads tails : List Nat) : List Nat := h :: heads ++ List.replicate (31 - heads.length - tails.length) 0 ++ tails
def codeOn (k : Nat) (hs : List Nat) (pc : Word) (g : Dbg) : State :=
  { world k { newt [(1, 0x1000)] with slots := [(0, { act0 with pc := pc })], dbg := g } with
    agenda := [.run k]
    phys := pages 0 (bytesOfHalves hs) }
def code0 (hs : List Nat) (pc : Word) (g : Dbg) : State := codeOn 0 hs pc g

theorem code0_alone (hs : List Nat) (g : Dbg) : DebugAlone (code0 hs 1 g) 0 :=
  ⟨rfl, ⟨rfl, rfl⟩, fun p h => by cases h; rfl⟩

def debug0 : State := code0 (line0 1 [0x9003] [0, 0x0580]) 1 { ctl := 0x18, dbp := [(2, 1)], dwa := [(1, 0x1000)], dwc := [(1, 0x58)] }
def debug1 (acc : Word) : State := code0 [] 1 { ctl := 8, halted := true, acc := acc }

theorem witness_debug_alone : DebugAlone (code0 [] 1 { ctl := 8 }) 0 ∧ DebugAlone debug0 0 ∧ DebugAlone (debug1 59) 0 :=
  ⟨code0_alone _ _, code0_alone _ _, code0_alone _ _⟩

theorem witness_debug : ((code0 [] 1 { ctl := 8 }).core 0).dbg.ctl.getLsbD 3 = true ∧ ((debug1 63).core 0).dbg.halted = true ∧
    ((debug1 63).core 0).dbg.acc.toNat < 64 ∧ 60 ≤ ((debug1 63).core 0).dbg.acc.toNat ∧ ((debug1 59).core 0).dbg.acc.toNat < 60 ∧
    ((debug1 0x400000000001DFF8).core 0).dbg.acc.toNat = 2 ^ 62 + 0x1DFF8 ∧ ((debug1 0).core 0).ls.cells.wf = true ∧
    (debug0.core 0).dbg.ctl.getLsbD 4 = true ∧ (debug0.core 0).dbg.skip ≠ some ((debug0.core 0).act.uid, (debug0.core 0).act.pc) ∧
    Table.get 0 (debug0.core 0).dbg.dbp 2 = (debug0.core 0).act.pc ∧
    (∀ j, j < 2 → Table.get 0 (debug0.core 0).dbg.dbp j ≠ (debug0.core 0).act.pc) ∧ debug0.slotOfLine 0 = true ∧
    (code0 [] 1 { ctl := 0x18, dbp := [(2, 1)] }).slotOfLine 0 = false ∧ debug0.watchHit 0 (.ld .d 3 1 0) = some 1 := by decide +kernel

theorem witness_watchpoint : ∃ h u, debug0.fetch 0 = .instr (.ld .d 3 1 0) h u := by
  have h : (match debug0.fetch 0 with
      | .instr i _ _ => decide (i = .ld .d 3 1 0)
      | _ => false) = true := by decide +kernel
  split at h
  · rename_i i n u e
    exact ⟨n, u, by rw [e, of_decide_eq_true h]⟩
  · cases h

def trace0 : State :=
  { at0 [] with cycle := 70000, trace := [(1, { trig := 3, state := 1 }), (2, { state := 3 }), (3, { state := 2, tcyc := 4470, pre := 6 })] }

theorem witness_trace : (Table.get {} trace0.trace 0).state = 0 ∧ bitsOf (0x0000000100010000 : Word).toNat 48 34 = 0 ∧
    (∀ p, (trace0.tile 0).owner = some p → (trace0.part p).conf = false) ∧ (Table.get {} trace0.trace 1).state = 1 ∧
    (Table.get {} trace0.trace 1).trig = 3 ∧ (Table.get {} trace0.trace 3).state = 2 ∧
    (Table.get {} trace0.trace 3).tcyc.toNat + (65536 - (Table.get {} trace0.trace 3).pre.toNat) ≤ trace0.cycle :=
  ⟨rfl, by decide +kernel, fun p h => by cases h; rfl, rfl, rfl, rfl, by decide +kernel⟩

/-- The state that the translation of a core's line leaves. -/
def lineState (s : State) (k : Nat) : State :=
  (State.xlateOf { s with agenda := [], turn := k } k (s.level k) .fetch ((s.core k).act.pc.toNat / 64 * 64)).2

/-- A core whose turn comes next is at the boundary before a slot of a line that its page holds. -/
theorem boundary_of {s : State} {k pa : Nat} (ha : s.agenda = [.run k])
    (h : s.halted = false ∧ (s.tile (tileOf k)).ready = true ∧ (s.core k).ctl.run.isSome = true ∧ (s.core k).inLiz = false ∧
      ((s.core k).dbg.halted = false ∧ (s.core k).dbg.ctl = 0) ∧
      ((s.core k).ctl.pair.isSome = true → (s.core k).ctl.leader = true) ∧ (s.core k).ord.chunk.want = [] ∧
      (s.core k).act.count ≠ 0 ∧ (s.core k).act.pc.toNat < 2 ^ 57 ∧
      (State.xlateOf { s with agenda := [], turn := k } k (s.level k) .fetch ((s.core k).act.pc.toNat / 64 * 64)).1 = .ok pa 0 .home ∧
      (lineState s k).readDelayed k 0 ((s.core k).act.pc.toNat / 256) = false ∧ (lineState s k).phys.poisoned .home pa 64 = false ∧
      (find (s.core k).icache ((s.core k).act.pc.toNat / 64)) = none ∧ (s.core k).request.any (·.lost) = false) : AtBoundary s k [] .home pa (lineState s k) :=
  ⟨.inl ha, h.1, h.2.1, h.2.2.1, h.2.2.2.1, h.2.2.2.2.1, h.2.2.2.2.2.1, h.2.2.2.2.2.2.1, h.2.2.2.2.2.2.2.1, h.2.2.2.2.2.2.2.2.1,
    ⟨0, Prod.ext h.2.2.2.2.2.2.2.2.2.1 rfl, h.2.2.2.2.2.2.2.2.2.2.1⟩, fun _ => h.2.2.2.2.2.2.2.2.2.2.2.1,
    fun bs e => (by rw [h.2.2.2.2.2.2.2.2.2.2.2.2.1] at e; cases e), h.2.2.2.2.2.2.2.2.2.2.2.2.2⟩

/-- A line with the `add 3 1 2` of the encoding tables, one with a reserved opcode, and one with a vector instruction. -/
def addLine : List Nat := line0 1 [0x4403] [0x0420]
def badLine : List Nat := line0 1 [0x7F00] [0]
def vecLine : List Nat := line0 1 [0xA010] [0x05F6, 0x3800]

theorem witness_step : AtBoundary (code0 addLine 1 {}) 0 [] .home 0x40000 (lineState (code0 addLine 1 {}) 0) ∧
    lineOfBytes ((lineState (code0 addLine 1 {}) 0).globalBytes .home 0x40000 64) = addLine ∧
    Line.wellFormed addLine = true ∧ Line.count addLine = 1 ∧ decodeParts (Line.parts addLine 1) = .ok (.add 3 1 2) ∧
    noEngineOp 0 (Line.parts addLine 1) = false :=
  ⟨boundary_of rfl (by decide +kernel), by decide +kernel, by decide +kernel, by decide +kernel, rfl, rfl⟩

/-- Newt 0 leads a pair whose follower holds other registers than its own. -/
def twins0 : State :=
  { code0 addLine 1 {} with
    cores := [(0, { newt [(1, 7), (2, 9)] with ctl := { run := some 0, pair := some 1, leader := true } }),
      (1, { newt [(1, 7), (2, 8)] with ctl := { run := some 0, pair := some 0 } })] }

/-- What an instruction of newt 0 comes to with its own data and with its follower's: both go on to the same point. -/
def goOnAlike (i : Instr) (u : State) : Bool :=
  match exec i u, exec i (u.otherSide 0 1) with
  | .next t, .next w => ((t.pass 0).core 0).alike ((w.pass 0).core 0)
  | _, _ => false

theorem witness_pair_step : AtBoundary twins0 0 [] .home 0x40000 (lineState twins0 0) ∧ twins0.leads = [(0, 1)] ∧
    lineOfBytes ((lineState twins0 0).globalBytes .home 0x40000 64) = addLine ∧
    goOnAlike (.add 3 1 2) (fetched (lineState twins0 0) 0 .home ((lineState twins0 0).globalBytes .home 0x40000 64) 1) = true :=
  ⟨boundary_of rfl (by decide +kernel), rfl, by decide +kernel, by decide +kernel⟩

/-- R394, R395: in one step the leader adds its operands and the follower its own, and the fingerprints of the chunk differ. -/
theorem test_pair_step : (match step twins0 with
    | .next t => some ((t.core 0).reg 3, (t.core 1).reg 3, t.missed 0 (t.core 0).ord.chunk)
    | _ => none) = some (16, 15, true) := by decide +kernel

theorem witness_privileged : (at0 []).Running ∧ (at0 []).Quiet 0 ∧ (at0 []).level 0 = 0 ∧ (svc 0 []).level 0x100000 < 2 :=
  ⟨rfl, at0_quiet _, by decide +kernel, by decide +kernel⟩

theorem witness_refusals : AtBoundary (code0 addLine 0 {}) 0 [] .home 0x40000 (lineState (code0 addLine 0 {}) 0) ∧
    AtBoundary (code0 addLine 2 {}) 0 [] .home 0x40000 (lineState (code0 addLine 2 {}) 0) ∧
    AtBoundary (code0 (line0 0x20 [] []) 31 {}) 0 [] .home 0x40000 (lineState (code0 (line0 0x20 [] []) 31 {}) 0) ∧
    AtBoundary (code0 badLine 1 {}) 0 [] .home 0x40000 (lineState (code0 badLine 1 {}) 0) ∧
    AtBoundary (codeOn 0x100000 vecLine 1 {}) 0x100000 [] .home 0x40000 (lineState (codeOn 0x100000 vecLine 1 {}) 0x100000) :=
  ⟨boundary_of rfl (by decide +kernel), boundary_of rfl (by decide +kernel), boundary_of rfl (by decide +kernel),
    boundary_of rfl (by decide +kernel), boundary_of rfl (by decide +kernel)⟩

theorem witness_refused_lines : Line.count addLine < 2 ∧ Line.wellFormed addLine = true ∧ Line.wellFormed (line0 0x20 [] []) = false ∧
    lineOfBytes ((lineState (code0 badLine 1 {}) 0).globalBytes .home 0x40000 64) = badLine ∧ Line.wellFormed badLine = true ∧
    (match decodeParts (Line.parts badLine 1) with | .error n => n == 1 | _ => false) = true ∧
    lineOfBytes ((lineState (codeOn 0x100000 vecLine 1 {}) 0x100000).globalBytes .home 0x40000 64) = vecLine ∧
    Line.wellFormed vecLine = true ∧ Line.count vecLine = 1 ∧ noEngineOp 0x100000 (Line.parts vecLine 1) = true ∧
    ((codeOn 0x100000 vecLine 1 {}).core 0x100000).ctl.pair = none ∧ ((code0 badLine 1 {}).core 0).ctl.pair = none := by decide +kernel

theorem witness_encoding : (Instr.addi 55 59 0x3FFFFF).wf = true ∧ encode (.addi 55 59 0x3FFFFF) = some [0x8B37, 0xFFFF, 0xEC3F] ∧
    (Instr.add 55 0 59).wf = true ∧ encode (.add 55 0 59) = some [0x4437, 0x03B0] :=
  ⟨rfl, rfl, rfl, rfl⟩

/-- The memories of a small state are canonical, and a step from it goes on. -/
theorem witness_memory : (code0 addLine 1 {}).memoryOk ∧
    (∀ p, ∀ e ∈ ((code0 addLine 1 {}).part p).saved, e.2.ls.cells.wf = true) ∧
    (match step (code0 addLine 1 {}) with | .next _ => true | _ => false) = true := by
  refine ⟨⟨by decide +kernel, fun k => ?_⟩, fun p e h => ?_, by decide +kernel⟩
  · rcases k with _ | k <;> rfl
  · rcases p with _ | p <;> cases h

/-! ## Ill-formed terms -/

/-- A term for each check of WellFormed, which the check refuses: a destination (R117), a source (R117), two q selectors (R118), lengths
and positions (R146), shifts (R149), sizes (R163), CSR numbers (R151), counts (R257), and the fields of the other groups. -/
theorem test_wellformed_scalar : ∀ i ∈ [
      Instr.add 56 1 2, Instr.add 1 60 2, Instr.add 1 56 57, Instr.jr 60, Instr.bcc .always 1 0 1 0, Instr.loop 0 1 0,
      Instr.loop 56 1 0, Instr.trap 0x7F01, Instr.ext 1 2 3 0, Instr.ins 1 2 60 5, Instr.shli 1 2 64, Instr.movhi 56 1,
      Instr.csrr 1 0x00E, Instr.csrw 60 0, Instr.tlbinv 1 60, Instr.pair 56 true], i.wf = false := by decide +kernel

theorem test_wellformed_memory : ∀ i ∈ [
      Instr.ld .d 56 1 0, Instr.st .bs 1 2 0, Instr.stg .ws 1 2 0, Instr.pref true 60 0, Instr.aadd .w 1 2 60,
      Instr.acas .w 1 56 2 56, Instr.fence .p false false false true, Instr.mwait 56, Instr.pour true 1 56 2 57, Instr.advp 1 0,
      Instr.advc 1 65, Instr.compose 1 3, Instr.barw 56 1, Instr.drawg 1 2 60], i.wf = false := by decide +kernel

theorem test_wellformed_vector : ∀ i ∈ [
      Instr.vadd .f32 ⟨32, 0⟩ ⟨1, 0⟩ ⟨2, 0⟩, Instr.vadd .f32 ⟨1, 1⟩ ⟨1, 0⟩ ⟨2, 0⟩, Instr.vadd .f32 ⟨1, 0⟩ ⟨36, 0⟩ ⟨2, 0⟩,
      Instr.vadd .f32 ⟨1, 0⟩ ⟨32, 0⟩ ⟨32, 0⟩, Instr.vfma .f32 ⟨16, 0⟩ ⟨1, 0⟩ ⟨2, 0⟩, Instr.vcmp .ltn .f32 ⟨1, 0⟩ ⟨1, 0⟩ ⟨2, 0⟩,
      Instr.vshl .f32 ⟨1, 0⟩ ⟨1, 0⟩ ⟨2, 0⟩, Instr.vext .f32 1 0 16, Instr.vbcast .f32 ⟨1, 0⟩ 60, Instr.vld 1 60 0, Instr.gang 1,
      Instr.mst 0 60 7, Instr.cxstat 56], i.wf = false := by decide +kernel

/-! ## Decoding -/

/-- Each of the words decodes to its instruction. -/
def decodesAll (l : List (List (BitVec 16) × Instr)) : Bool :=
  l.all fun e =>
    match decodeHalves e.1 with
    | .ok i => i == e.2
    | .error _ => false

/-- Words written out from the encoding tables (R115, R116, R119 to R121), by the table's groups. The words of `jr`, `loop`, `addi`, `movi`,
`pour`, `bara` and `barw` are those of the worked line of the softmax program. -/
theorem test_decode_control :
    decodesAll [
      ([0x0000], .nop),
      ([0x8040, 0xFFFE, 0x17FF], .br 5 (-2)),
      ([0xC084, 0x0000, 0x0000, 0x1881], .bcc .lt 4 6 1 0),
      ([0xC0B7, 0xFFFD, 0xFFFF, 0xE65F], .bcc .gtn 55 57 31 (-3)),
      ([0x80C0, 0xFFFF, 0x1DFF], .call 7 0x1FFFFFF),
      ([0x4100, 0xDC00], .jr 55),
      ([0x4140, 0x0C00], .callr 3),
      ([0x819A, 0x0000, 0x0400], .loop 26 1 0),
      ([0x01C0], .endAct),
      ([0x4200, 0x1234], .trap 0x1234),
      ([0x4200, 0x7F01], .trapKillContext),
      ([0x4200, 0x7F02], .trapResumeAtFault),
      ([0x4200, 0x7F03], .trapResumePastFault),
      ([0x4200, 0x7F04], .trapTransferObligations),
      ([0x4240, 0xFFFF], .brk 0xFFFF)] = true := by decide +kernel

theorem test_decode_arithmetic :
    decodesAll [
      ([0x4401, 0x0830], .add 1 2 3),
      ([0x4442, 0x0C40], .sub 2 3 4),
      ([0x4483, 0x1050], .mul 3 4 5),
      ([0x44C4, 0x1460], .mulh 4 5 6),
      ([0x4505, 0x1870], .mulhn 5 6 7),
      ([0x4546, 0x1C80], .div 6 7 8),
      ([0x4587, 0x2090], .divn 7 8 9),
      ([0x45C8, 0x24A0], .rem 8 9 10),
      ([0x4609, 0x28B0], .remn 9 10 11),
      ([0x464A, 0x2CC0], .and 10 11 12),
      ([0x468B, 0x30D0], .or 11 12 13),
      ([0x46CC, 0x34E0], .xor 12 13 14),
      ([0x470D, 0x38F0], .andn 13 14 15),
      ([0x474E, 0x3D00], .shl 14 15 16),
      ([0x478F, 0x4110], .shr 15 16 17),
      ([0x47D0, 0x4520], .sar 16 17 18),
      ([0x4811, 0x4930], .rol 17 18 19),
      ([0x4852, 0x4D40], .min 18 19 20),
      ([0x4893, 0x5150], .minn 19 20 21),
      ([0x48D4, 0x5560], .max 20 21 22),
      ([0x4915, 0x5970], .maxn 21 22 23)] = true := by decide +kernel

theorem test_decode_integer :
    decodesAll [
      ([0x4945, 0x1877], .cmp .gen 5 6 7),
      ([0x8981, 0x0000, 0x0831], .sel 1 2 3 4),
      ([0x49C8, 0x2400], .clz 8 9),
      ([0x4A08, 0x2400], .ctz 8 9),
      ([0x4A48, 0x2400], .popc 8 9),
      ([0x8A83, 0x01C5, 0x1000], .ext 3 4 5 7),
      ([0x8AC3, 0x1000, 0x1000], .ins 3 4 0 64),
      ([0x8B19, 0x0001, 0x6400], .addi 25 25 1),
      ([0x8B55, 0x0008, 0x0000], .movi 21 8),
      ([0x8B95, 0xCDEF, 0x89AB], .movhi 21 0x89ABCDEF),
      ([0x4BC1, 0x083F], .shladd 1 2 3 15),
      ([0x8C01, 0xFFFE, 0xEC3F], .andi 1 59 (-2)),
      ([0x8C41, 0xFFFE, 0xEC3F], .ori 1 59 (-2)),
      ([0x8C81, 0xFFFE, 0xEC3F], .xori 1 59 (-2)),
      ([0x8DC1, 0xFFFE, 0xEC3F], .muli 1 59 (-2)),
      ([0x8CC1, 0x003F, 0x0800], .shli 1 2 63),
      ([0x8D01, 0x003F, 0x0800], .shri 1 2 63),
      ([0x8D41, 0x003F, 0x0800], .sari 1 2 63),
      ([0x8D81, 0xFFFF, 0x09BF], .cmpi .ltn 1 2 (-1))] = true := by decide +kernel

theorem test_decode_system :
    decodesAll [
      ([0x4E05, 0x010A], .csrr 5 0x10A),
      ([0x4E46, 0x000C], .csrw 6 0x00C),
      ([0x4E87, 0x0027], .csrx 7 0x027),
      ([0x0EC0], .rte),
      ([0x4F00, 0x0420], .tlbinv 1 2),
      ([0x4F40, 0x0C40], .frgrant 3 4),
      ([0x4F89, 0x0001], .pair 9 true),
      ([0x0FC0], .chunk)] = true := by decide +kernel

theorem test_decode_memory :
    decodesAll [
      ([0x9003, 0xFFF8, 0x057F], .ld .ws 3 1 (-8)),
      ([0x9083, 0xFFF8, 0x04FF], .ldg .hs 3 1 (-8)),
      ([0x9103, 0xFFF8, 0x047F], .ldc .bs 3 1 (-8)),
      ([0x9043, 0xFFF8, 0x04BF], .st .h 3 1 (-8)),
      ([0x90C3, 0xFFF8, 0x05BF], .stg .d 3 1 (-8)),
      ([0x9140, 0x0040, 0x1040], .pref true 4 64),
      ([0x5181, 0x0830], .aadd .w 1 2 3),
      ([0x51C1, 0x0831], .amin .d 1 2 3),
      ([0x5201, 0x0830], .amax .w 1 2 3),
      ([0x5241, 0x0831], .aminn .d 1 2 3),
      ([0x5281, 0x0830], .amaxn .w 1 2 3),
      ([0x52C1, 0x0831], .aand .d 1 2 3),
      ([0x5301, 0x0830], .aor .w 1 2 3),
      ([0x5341, 0x0831], .axor .d 1 2 3),
      ([0x5381, 0x0830], .axchg .w 1 2 3),
      ([0x93C1, 0x0001, 0x0831], .acas .d 1 2 3 4),
      ([0x5401, 0x0830], .ladd .w 1 2 3),
      ([0x9441, 0x0000, 0x0831], .lcas .w 1 2 3 4),
      ([0x5480, 0x1460], .renew 5 6),
      ([0x54C7, 0x2000], .wtag 7 8),
      ([0x5500, 0x1462], .wset 5 6 true false),
      ([0x5540, 0x1460], .wzero 5 6),
      ([0x5580, 0x0027], .fence .s true false false true),
      ([0x5580, 0x0019], .fence .t false true true false),
      ([0x95C0, 0x0010, 0x0C00], .marm 3 16),
      ([0x160B], .mwait 11),
      ([0x1640], .roinv)] = true := by decide +kernel

theorem test_decode_messages :
    decodesAll [
      ([0x5801, 0x0830], .send 1 2 3),
      ([0x5841, 0x0830], .sendw 1 2 3),
      ([0x9899, 0xC001, 0x6CB8], .pour true 25 27 11 35),
      ([0x58C1, 0x0800], .bind 1 2),
      ([0x5901, 0x0800], .chmask 1 2),
      ([0x5943, 0x0040], .advp 3 64),
      ([0x598F, 0x0001], .advc 15 1),
      ([0x59C4, 0x1400], .ringset 4 5),
      ([0x5A01, 0x0830], .mkev 1 2 3),
      ([0x5A44, 0x0000], .rmev 4),
      ([0x5A81, 0x0800], .sig 1 2),
      ([0x5AC1, 0x0830], .waitge 1 2 3),
      ([0x5B01, 0x0800], .owe 1 2),
      ([0x9B41, 0x0001, 0x0831], .sendo true 1 2 3 4),
      ([0x5B81, 0x0802], .rank .ring 1 2),
      ([0x5BC1, 0x0830], .rkmid 1 2 3),
      ([0x9C00, 0x0000, 0x0830], .mkbar 2 3),
      ([0x5C54, 0x5400], .bara 20 21),
      ([0x5C8C, 0x5000], .barw 12 20),
      ([0x5CC0, 0x2400], .join 9),
      ([0x5D00, 0x2400], .leave 9),
      ([0x5D42, 0x0008], .compose 2 8),
      ([0x1D80], .release),
      ([0x1DC5], .drawt 5),
      ([0x5E01, 0x0830], .drawg 1 2 3)] = true := by decide +kernel

theorem test_decode_vector :
    decodesAll [
      ([0xA010, 0x3800, 0x05F6], .vadd .f32 ⟨16, 3⟩ ⟨1, 0⟩ ⟨31, 7⟩),
      ([0xA050, 0x3900, 0x05F6], .vsub .bf16 ⟨16, 3⟩ ⟨1, 0⟩ ⟨31, 7⟩),
      ([0xA090, 0x3A00, 0x05F6], .vmul .f16 ⟨16, 3⟩ ⟨1, 0⟩ ⟨31, 7⟩),
      ([0xA110, 0x3B00, 0x05F6], .vmax .i32 ⟨16, 3⟩ ⟨1, 0⟩ ⟨31, 7⟩),
      ([0xA150, 0x3C00, 0x05F6], .vmin .i16 ⟨16, 3⟩ ⟨1, 0⟩ ⟨31, 7⟩),
      ([0xA590, 0x3D00, 0x05F6], .vshuf .i8 ⟨16, 3⟩ ⟨1, 0⟩ ⟨31, 7⟩),
      ([0xA0C4, 0x8100, 0x4430], .vfma .bf16 ⟨4, 0⟩ ⟨17, 2⟩ ⟨3, 0⟩),
      ([0xA182, 0x4000, 0x4801], .vabs .f32 ⟨2, 0⟩ ⟨18, 5⟩),
      ([0xA1C2, 0x4100, 0x4801], .vneg .bf16 ⟨2, 0⟩ ⟨18, 5⟩),
      ([0xA442, 0x4200, 0x4801], .vredadd .f16 ⟨2, 0⟩ ⟨18, 5⟩),
      ([0xA482, 0x4300, 0x4801], .vredmax .i32 ⟨2, 0⟩ ⟨18, 5⟩),
      ([0xA4C2, 0x4400, 0x4801], .vredmin .i16 ⟨2, 0⟩ ⟨18, 5⟩),
      ([0xA211, 0x0000, 0x8402], .vrcp ⟨17, 1⟩ ⟨33, 0⟩),
      ([0xA251, 0x0000, 0x8402], .vrsqrt ⟨17, 1⟩ ⟨33, 0⟩),
      ([0xA291, 0x0000, 0x8402], .vexp2 ⟨17, 1⟩ ⟨33, 0⟩),
      ([0xA2D1, 0x0000, 0x8402], .vlog2 ⟨17, 1⟩ ⟨33, 0⟩),
      ([0xA7D1, 0x0000, 0x8402], .vmov ⟨17, 1⟩ ⟨33, 0⟩)] = true := by decide +kernel

theorem test_decode_vector_more :
    decodesAll [
      ([0xA302, 0x0406, 0x0C40], .vcmp .ltn .i16 ⟨2, 0⟩ ⟨3, 0⟩ ⟨4, 0⟩),
      ([0xE342, 0x3500, 0x0D40, 0x5680], .vsel .i8 ⟨2, 0⟩ ⟨3, 0⟩ ⟨20, 6⟩ ⟨21, 5⟩),
      ([0xA381, 0x006E, 0x0800], .vcvt .f32 .e4m3 .rup true ⟨1, 0⟩ ⟨2, 0⟩),
      ([0xE3C1, 0x0000, 0x0830, 0x0000], .vquant ⟨1, 0⟩ ⟨2, 0⟩ ⟨3, 0⟩),
      ([0xE401, 0x0000, 0x0830, 0x1000], .vdeq ⟨1, 0⟩ ⟨2, 0⟩ ⟨3, 0⟩ ⟨4, 0⟩),
      ([0xA513, 0x0200, 0xA004], .vbcast .f16 ⟨19, 2⟩ 40),
      ([0xA568, 0x053F, 0x1C00], .vext .i8 40 7 63),
      ([0xA5D0, 0x3800, 0x05F6], .vand ⟨16, 3⟩ ⟨1, 0⟩ ⟨31, 7⟩),
      ([0xA610, 0x3800, 0x05F6], .vor ⟨16, 3⟩ ⟨1, 0⟩ ⟨31, 7⟩),
      ([0xA650, 0x3800, 0x05F6], .vxor ⟨16, 3⟩ ⟨1, 0⟩ ⟨31, 7⟩),
      ([0xA690, 0x3B00, 0x05F6], .vshl .i32 ⟨16, 3⟩ ⟨1, 0⟩ ⟨31, 7⟩),
      ([0xA6D0, 0x3C00, 0x05F6], .vshr .i16 ⟨16, 3⟩ ⟨1, 0⟩ ⟨31, 7⟩),
      ([0xA710, 0x3D00, 0x05F6], .vsar .i8 ⟨16, 3⟩ ⟨1, 0⟩ ⟨31, 7⟩),
      ([0xA749, 0xFFC0, 0x043F], .vld 9 1 (-64)),
      ([0xA789, 0x0080, 0x0400], .vst 9 1 128)] = true := by decide +kernel

theorem test_decode_engines :
    decodesAll [
      ([0xA801, 0x1234, 0x0831], .mma .bf16 1 2 3 0x1234),
      ([0xA843, 0xFFFF, 0x3CE7], .gmma .nq4 3 15 14 0xFFFF),
      ([0x2882], .mzero 2),
      ([0xA8C1, 0x0007, 0x2400], .mst 1 9 7),
      ([0xA902, 0x0007, 0x2400], .mld 2 9 7),
      ([0x6940, 0x00A5], .gang 0xA5),
      ([0x2980], .ungang),
      ([0x69C3, 0x2400], .mscale 3 9),
      ([0xAC00, 0x8007, 0x2400], .cxgo 9 0x8007),
      ([0x2C40], .cxstop),
      ([0x2C86], .cxstat 6)] = true := by decide +kernel

/-- Words that checks 7 to 10 of R113 refuse, with their reasons: an opcode that is not assigned, another tail size, a nonzero reserved
field, an illegal selector, and an illegal code. -/
theorem test_decode_refuses :
    decodeHalves [0x0280] = .error 1 ∧ decodeHalves [0x1680] = .error 1 ∧ decodeHalves [0x4000, 0x0000] = .error 2 ∧
    decodeHalves [0x01C1] = .error 3 ∧ decodeHalves [0x4401, 0x0831] = .error 3 ∧ decodeHalves [0x4438, 0x0830] = .error 4 ∧
    decodeHalves [0x4401, 0xF030] = .error 4 ∧ decodeHalves [0x4401, 0xE390] = .error 4 ∧ decodeHalves [0x4945, 0x187B] = .error 5 ∧
    decodeHalves [0x8CC1, 0x0040, 0x0800] = .error 5 ∧ decodeHalves [0x4E05, 0x000E] = .error 5 :=
  ⟨rfl, rfl, rfl, rfl, rfl, rfl, rfl, rfl, rfl, rfl, rfl⟩

/-! ## Single steps -/

/-- A register of the core whose turn it was, after an instruction; and whether an instruction takes a fault of a code. -/
def regAfter (i : Instr) (s : State) (n : Nat) : Option Word :=
  match exec i s with
  | .next t => some ((t.core s.turn).reg n)
  | _ => none
def faultAfter (i : Instr) (s : State) : Option Nat :=
  match exec i s with
  | .next t => ((t.core s.turn).slot 0).life.fault.map (·.code)
  | _ => none

/-- The worked cases of R143. -/
theorem test_divide :
    regAfter (.div 3 1 2) (at0 [(1, -7), (2, 2)]) 3 = some 0xFFFFFFFFFFFFFFFD ∧
    regAfter (.rem 3 1 2) (at0 [(1, 7), (2, -2)]) 3 = some 1 ∧
    regAfter (.div 3 1 2) (at0 [(1, 0x8000000000000000), (2, -1)]) 3 = some 0x8000000000000000 ∧
    regAfter (.rem 3 1 2) (at0 [(1, 5), (2, 0)]) 3 = some 5 ∧
    regAfter (.divn 3 1 2) (at0 [(1, 0xFFFFFFFFFFFFFFF9), (2, 2)]) 3 = some 0x7FFFFFFFFFFFFFFC ∧
    regAfter (.remn 3 1 2) (at0 [(1, 9), (2, 0)]) 3 = some 9 := by decide +kernel

/-- The worked fields of R146, the constant of the notes on scalar code, and a shift by 65 (R142). -/
theorem test_fields :
    regAfter (.ext 6 7 8 12) (at0 [(7, 0x00ABCD00)]) 6 = some 0xBCD ∧
    regAfter (.ins 6 7 4 8) (at0 [(6, 0xFFFFFFFFFFFFFFFF), (7, 0x12)]) 6 = some 0xFFFFFFFFFFFFF12F ∧
    regAfter (.movi 4 0x9ABCDEF0) (at0 []) 4 = some 0xFFFFFFFF9ABCDEF0 ∧
    regAfter (.movhi 4 0x12345678) (at0 [(4, 0xFFFFFFFF9ABCDEF0)]) 4 = some 0x123456789ABCDEF0 ∧
    regAfter (.shl 1 2 3) (at0 [(2, 3), (3, 65)]) 1 = some 6 ∧ regAfter (.sari 6 7 52) (at0 [(7, 0xBCD0000000000000)]) 6 = some 0xFFFFFFFFFFFFFBCD ∧
    regAfter (.add 0 1 1) (at0 [(1, 7)]) 0 = some 0 := by decide +kernel

/-- The unsigned comparison with −1 of R150, and the high half of a product (R142). -/
theorem test_compare :
    regAfter (.cmpi .ltn 1 2 (-1)) (at0 [(2, 0xFFFFFFFFFFFFFFFF)]) 1 = some 0 ∧
    regAfter (.cmpi .ltn 1 2 (-1)) (at0 [(2, 0xFFFFFFFFFFFFFFFE)]) 1 = some 1 ∧
    regAfter (.cmp .lt 1 2 3) (at0 [(2, -1), (3, 1)]) 1 = some 1 ∧
    regAfter (.mulh 1 2 3) (at0 [(2, -1), (3, -1)]) 1 = some 0 ∧
    regAfter (.mulhn 1 2 3) (at0 [(2, -1), (3, -1)]) 1 = some 0xFFFFFFFFFFFFFFFE := by decide +kernel

/-- A byte is loaded with its sign (R162), and a misaligned access raises 0x03 (R79). -/
theorem test_load :
    regAfter (.ld .bs 3 1 0) (live0 [(1, 0x1000)]) 3 = some 0xFFFFFFFFFFFFFF85 ∧ regAfter (.ld .b 3 1 0) (live0 [(1, 0x1000)]) 3 = some 0x85 ∧
    faultAfter (.ld .w 3 1 2) (live0 [(1, 0x1000)]) = some 0x03 := by decide +kernel

/-- A call in slot 1 of a line of 31 instructions writes slot 2 to w55, and jumps; the target of `callr w55` is the old link (R111, R136). -/
theorem test_call : regAfter (.call 5 2) (at0 []) 55 = some 2 ∧
    (match exec (.callr 55) (at0 [(55, 0x1C1)]) with
      | .next t => some (((t.core 0).slot 0).pc, (t.core 0).reg 55)
      | _ => none) = some (0x1C1, 2) := by decide +kernel

/-- The pairwise sum of the worked arithmetic: {1, 2^24, 1, −2^24} and zeros sum to 1.0, in lane 0 (R203). -/
theorem test_vredadd :
    (match exec (.vredadd .f32 ⟨3, 0⟩ ⟨1, 0⟩) { at0 [] with cores := [(0, { newt [] with vec := { v := [(1, 0xCB8000003F8000004B8000003F800000)] } })] } with
      | .next t => some ((Table.get 0 (t.core 0).vec.v 3).toNat % 2 ^ 32)
      | _ => none) = some 0x3F800000 := by decide +kernel

/-- The block that the worked arithmetic quantises: codes 0x93, 0x88, 0xF7, 0x04, zeros, and scales 0x82 and 0x00 (R192, R193). -/
theorem test_vquant :
    (match exec (.vquant ⟨3, 0⟩ ⟨1, 0⟩ ⟨2, 0⟩) { at0 [] with cores := [(0, { newt [] with vec := {
          v := [(1, 0x3DCCCCCD3F800000C020000040200000000000003D4CCCCDBE99999A3F666666), (2, 0x3F800000)] } })] } with
      | .next t => some ((Table.get 0 (t.core 0).vec.v 3).toNat % 2 ^ 80)
      | _ => none) = some 0x00828888888804F78893 := by decide +kernel

/-- The value 0.3 becomes the e4m3 code 0x2A to nearest and 0x29 toward zero (R188, R197). -/
theorem test_vcvt :
    (match exec (.vcvt .f32 .e4m3 .rne false ⟨3, 0⟩ ⟨1, 0⟩) { at0 [] with cores := [(0, { newt [] with vec := { v := [(1, 0x3E99999A)] } })] } with
      | .next t => some ((Table.get 0 (t.core 0).vec.v 3).toNat % 256)
      | _ => none) = some 0x2A ∧
    (match exec (.vcvt .f32 .e4m3 .rtz false ⟨3, 0⟩ ⟨1, 0⟩) { at0 [] with cores := [(0, { newt [] with vec := { v := [(1, 0x3E99999A)] } })] } with
      | .next t => some ((Table.get 0 (t.core 0).vec.v 3).toNat % 256)
      | _ => none) = some 0x29 := by decide +kernel

/-- Two decodings of the table's numbering (R109, R115), and the step that fetches one of them: `jr` to slot 2 of line 7. -/
theorem test_table_word : decodeTableWord 32 0x4100DC00 = some (.jr 55) ∧ decodeTableWord 16 0x01C0 = some .endAct ∧
    (match step ((State.reset).withFetchWord 32 0x44030420) with
      | .next t => some (((t.core 0).slot 0).pc, (t.core 0).reg 3)
      | _ => none) = some (0x41, 0) := by decide +kernel

end Sys2Proof.Tests
end

/-! SUPPORT. What scalar instructions write, in the arithmetic of whole numbers (R142 to R150), and the statement about them. -/

namespace Sys2Proof.Machine

open Sys2Proof.Claims

/-! ## Sums, products and shifts -/

theorem eq_ofNat_of_toNat_eq {x : Word} {n : Nat} (h : x.toNat = n) : x = BitVec.ofNat 64 n := by
  rw [← h, BitVec.ofNat_toNat, BitVec.setWidth_eq]

theorem add_eq_ofNat (x y : Word) : x + y = BitVec.ofNat 64 (x.toNat + y.toNat) :=
  BitVec.eq_of_toNat_eq (by simp)

theorem mul_eq_ofNat (x y : Word) : x * y = BitVec.ofNat 64 (x.toNat * y.toNat) :=
  BitVec.eq_of_toNat_eq (by simp)

theorem add_eq_ofInt (x y : Word) : x + y = BitVec.ofInt 64 (x.toInt + y.toInt) :=
  BitVec.eq_of_toInt_eq (by simp)

theorem sub_eq_ofInt (x y : Word) : x - y = BitVec.ofInt 64 (x.toInt - y.toInt) :=
  BitVec.eq_of_toInt_eq (by simp)

theorem mul_eq_ofInt (x y : Word) : x * y = BitVec.ofInt 64 (x.toInt * y.toInt) :=
  BitVec.eq_of_toInt_eq (by simp)

/-- A sign-extended immediate enters sums and products as a whole number (R147, R149). -/
theorem toInt_signExtend_imm (imm : BitVec 22) : (imm.signExtend 64).toInt = imm.toInt :=
  BitVec.toInt_signExtend_of_le (by decide)

theorem mulhW_eq (x y : Word) : mulhW x y = BitVec.ofInt 64 (x.toInt * y.toInt / 2 ^ 64) := by
  have hp : x.signExtend 128 * y.signExtend 128 = BitVec.ofInt 128 (x.toInt * y.toInt) := (BitVec.ofInt_mul ..).symm
  apply BitVec.eq_of_toNat_eq
  rw [mulhW, hp, BitVec.extractLsb'_toNat, BitVec.toNat_ofInt, BitVec.toNat_ofInt, Nat.shiftRight_eq_div_pow]
  omega

theorem mulhnW_eq (x y : Word) : mulhnW x y = BitVec.ofNat 64 (x.toNat * y.toNat / 2 ^ 64) := by
  have hlt : x.toNat * y.toNat < 2 ^ 64 * 2 ^ 64 := Nat.mul_lt_mul'' x.isLt y.isLt
  apply BitVec.eq_of_toNat_eq
  simp only [mulhnW, BitVec.extractLsb'_toNat, BitVec.toNat_mul, BitVec.toNat_setWidth, Nat.shiftRight_eq_div_pow,
    BitVec.toNat_ofNat, ← Nat.mul_mod]
  rw [Nat.mod_eq_of_lt (b := 2 ^ 128) (by omega)]

theorem movhi_eq (imm : BitVec 32) (x : Word) :
    (imm ++ x.extractLsb' 0 32 : Word) = BitVec.ofNat 64 (imm.toNat * 2 ^ 32 + x.toNat % 2 ^ 32) := by
  have hx : x.toNat % 2 ^ 32 < 2 ^ 32 := Nat.mod_lt _ (by decide)
  apply eq_ofNat_of_toNat_eq
  rw [BitVec.toNat_append, BitVec.extractLsb'_toNat, Nat.shiftRight_zero, ← Nat.shiftLeft_add_eq_or_of_lt hx, Nat.shiftLeft_eq]

theorem shladd_eq (x y : Word) (n : Nat) : (x <<< n) + y = BitVec.ofNat 64 (x.toNat * 2 ^ n + y.toNat) :=
  BitVec.eq_of_toNat_eq (by simp [Nat.shiftLeft_eq])

theorem shiftOf_eq (y : Word) : shiftOf y = y.toNat % 64 := by simp [shiftOf]

theorem shiftLeft_eq_ofNat (x : Word) (n : Nat) : x <<< n = BitVec.ofNat 64 (x.toNat * 2 ^ n) :=
  BitVec.eq_of_toNat_eq (by simp [Nat.shiftLeft_eq])

theorem shiftRight_eq_ofNat (x : Word) (n : Nat) : x >>> n = BitVec.ofNat 64 (x.toNat / 2 ^ n) :=
  eq_ofNat_of_toNat_eq (by rw [BitVec.toNat_ushiftRight, Nat.shiftRight_eq_div_pow])

theorem sshiftRight_eq_ofInt (x : Word) (n : Nat) : x.sshiftRight n = BitVec.ofInt 64 (x.toInt / 2 ^ n) := by
  rw [BitVec.sshiftRight, Int.shiftRight_eq_div_pow, Int.natCast_pow]; rfl

/-! ## Fields (R146) -/

theorem onesW_toNat {len : Nat} (h : len ≤ 64) : (onesW len).toNat = 2 ^ len - 1 := by
  rcases Nat.lt_or_eq_of_le h with h | rfl
  · have hlt : 2 ^ len < 2 ^ 64 := Nat.pow_lt_pow_right (by decide) h
    have hpos := Nat.two_pow_pos len
    simp [onesW, Nat.shiftLeft_eq, BitVec.toNat_sub]
    omega
  · rfl

theorem onesW_getLsbD {len : Nat} (h : len ≤ 64) (i : Nat) : (onesW len).getLsbD i = decide (i < len) := by
  rw [BitVec.getLsbD, onesW_toNat h, Nat.testBit_two_pow_sub_one]

theorem extW_eq (x : Word) (pos : Nat) {len : Nat} (h : len ≤ 64) :
    extW x pos len = BitVec.ofNat 64 (x.toNat / 2 ^ pos % 2 ^ len) :=
  eq_ofNat_of_toNat_eq (by
    rw [extW, BitVec.toNat_and, onesW_toNat h, Nat.and_two_pow_sub_one_eq_mod, BitVec.toNat_ushiftRight,
      Nat.shiftRight_eq_div_pow])

/-- The bits that `ins` takes from its source are those of the field. -/
theorem insW_getLsbD (a x : Word) (pos : Nat) {len i : Nat} (h : len ≤ 64) (hi : i < 64) :
    (insW a x pos len).getLsbD i =
      if i < pos then a.getLsbD i else if i - pos < len then x.getLsbD (i - pos) else a.getLsbD i := by
  simp only [insW, BitVec.getLsbD_or, BitVec.getLsbD_and, BitVec.getLsbD_not, BitVec.getLsbD_shiftLeft, onesW_getLsbD h, hi]
  by_cases h1 : i < pos
  · simp [h1]
  · by_cases h2 : i - pos < len <;> simp [h1, h2]

theorem insW_eq (a x : Word) (pos : Nat) {len : Nat} (h : len ≤ 64) :
    insW a x pos len = BitVec.ofNat 64 (a.toNat % 2 ^ pos + x.toNat % 2 ^ len * 2 ^ pos
      + a.toNat / 2 ^ (pos + len) * 2 ^ (pos + len)) := by
  have hsum : a.toNat % 2 ^ pos + x.toNat % 2 ^ len * 2 ^ pos + a.toNat / 2 ^ (pos + len) * 2 ^ (pos + len)
      = 2 ^ pos * (2 ^ len * (a.toNat / 2 ^ (pos + len)) + x.toNat % 2 ^ len) + a.toNat % 2 ^ pos := by
    rw [Nat.pow_add, Nat.mul_add]; ac_rfl
  have hlow : a.toNat % 2 ^ pos < 2 ^ pos := Nat.mod_lt _ (Nat.two_pow_pos _)
  have hfield : x.toNat % 2 ^ len < 2 ^ len := Nat.mod_lt _ (Nat.two_pow_pos _)
  apply BitVec.eq_of_getLsbD_eq
  intro i hi
  rw [insW_getLsbD a x pos h hi, hsum, BitVec.getLsbD_ofNat, Nat.testBit_two_pow_mul_add _ hlow,
    Nat.testBit_two_pow_mul_add _ hfield, Nat.testBit_mod_two_pow, Nat.testBit_mod_two_pow, Nat.testBit_div_two_pow]
  by_cases h1 : i < pos
  · simp [h1, hi, BitVec.getLsbD]
  · by_cases h2 : i - pos < len
    · simp [h1, h2, hi, BitVec.getLsbD]
    · simp [h1, h2, hi, BitVec.getLsbD, show i - pos - len + (pos + len) = i by omega]

/-- The fields of a well-formed `ext` or `ins` are at most 64 bits long. -/
theorem field_len_le {a b : Sel} {pos : BitVec 6} {len : BitVec 7}
    (h : (selsOk [a] [b] && 1 ≤ len.toNat && pos.toNat + len.toNat ≤ 64) = true) : len.toNat ≤ 64 := by
  simp only [Bool.and_eq_true, decide_eq_true_eq] at h
  omega

/-! ## Comparisons and counts of bits -/

theorem condHolds_eq_condSays (c : Cond) (x y : Word) : condHolds c x y = condSays c x y := by
  have hbeq : (x == y) = decide (x = y) := rfl
  cases c
  case eq => simp [condHolds, condSays, BitVec.toNat_inj, hbeq]
  case ne => simp [condHolds, condSays, BitVec.toNat_inj, bne, hbeq]
  all_goals rfl

theorem min_choice_eq (x y : Word) : (if y.slt x then y else x) = if x.toInt ≤ y.toInt then x else y := by
  simp only [BitVec.slt, decide_eq_true_eq]
  by_cases h : x.toInt ≤ y.toInt
  · rw [if_pos h, if_neg (Int.not_lt.mpr h)]
  · rw [if_neg h, if_pos (Int.not_le.mp h)]

theorem max_choice_eq (x y : Word) : (if x.slt y then y else x) = if y.toInt ≤ x.toInt then x else y := by
  simp only [BitVec.slt, decide_eq_true_eq]
  by_cases h : y.toInt ≤ x.toInt
  · rw [if_pos h, if_neg (Int.not_lt.mpr h)]
  · rw [if_neg h, if_pos (Int.not_le.mp h)]

theorem minn_choice_eq (x y : Word) : (if y.ult x then y else x) = if x.toNat ≤ y.toNat then x else y := by
  simp only [BitVec.ult, decide_eq_true_eq]
  by_cases h : x.toNat ≤ y.toNat
  · rw [if_pos h, if_neg (Nat.not_lt.mpr h)]
  · rw [if_neg h, if_pos (Nat.not_le.mp h)]

theorem maxn_choice_eq (x y : Word) : (if x.ult y then y else x) = if y.toNat ≤ x.toNat then x else y := by
  simp only [BitVec.ult, decide_eq_true_eq]
  by_cases h : y.toNat ≤ x.toNat
  · rw [if_pos h, if_neg (Nat.not_lt.mpr h)]
  · rw [if_neg h, if_pos (Nat.not_le.mp h)]

theorem zerosDown_eq (x : Word) (n : Nat) :
    zerosDown x n = ((List.range n).takeWhile fun i => !x.getLsbD (n - 1 - i)).length := by
  induction n with
  | zero => rfl
  | succ n ih =>
    have hf : ((fun i => !x.getLsbD (n + 1 - 1 - i)) ∘ Nat.succ) = fun i => !x.getLsbD (n - 1 - i) := by
      funext i; simp [Nat.sub_sub, Nat.add_comm]
    rw [zerosDown, List.range_succ_eq_map, List.takeWhile_cons, List.takeWhile_map, hf, ih]
    cases h : x.getLsbD n <;> simp [h, Nat.add_comm]

theorem zerosUp_eq (x : Word) {n : Nat} (hn : n ≤ 64) :
    zerosUp x n = ((List.range n).takeWhile fun i => !x.getLsbD (64 - n + i)).length := by
  induction n with
  | zero => rfl
  | succ n ih =>
    have hf : ((fun i => !x.getLsbD (64 - (n + 1) + i)) ∘ Nat.succ) = fun i => !x.getLsbD (64 - n + i) := by
      funext i; simp only [Function.comp_apply]; congr 2; omega
    rw [zerosUp, List.range_succ_eq_map, List.takeWhile_cons, List.takeWhile_map, hf, ih (by omega)]
    cases h : x.getLsbD (63 - n) <;> simp [h, Nat.add_comm]

theorem popCount_eq (n x : Nat) : popCount n x = ((List.range n).filter x.testBit).length := by
  induction n generalizing x with
  | zero => rfl
  | succ n ih =>
    have hf : (x.testBit ∘ Nat.succ) = (x / 2).testBit := by funext i; simp [Nat.testBit_succ]
    rw [popCount, List.range_succ_eq_map, List.filter_cons, List.filter_map, hf, ih, Nat.testBit_zero]
    rcases Nat.mod_two_eq_zero_or_one x with h | h <;> simp [h, Nat.add_comm]

/-! ## Divisions (R143) -/

theorem divW_eq (x y : Word) :
    divW x y = if y = 0 then 0xFFFFFFFFFFFFFFFF else BitVec.ofInt 64 (x.toInt.tdiv y.toInt) := by
  have h : x.sdiv y = BitVec.ofInt 64 (x.toInt.tdiv y.toInt) :=
    BitVec.eq_of_toInt_eq (by rw [BitVec.toInt_sdiv, BitVec.toInt_ofInt])
  rw [divW, h]

theorem divnW_eq (x y : Word) :
    divnW x y = if y = 0 then 0xFFFFFFFFFFFFFFFF else BitVec.ofNat 64 (x.toNat / y.toNat) := by
  have h : x.udiv y = BitVec.ofNat 64 (x.toNat / y.toNat) := eq_ofNat_of_toNat_eq BitVec.toNat_udiv
  rw [divnW, h]

theorem remW_eq (x y : Word) :
    remW x y = if y = 0 then x else BitVec.ofInt 64 (x.toInt - x.toInt.tdiv y.toInt * y.toInt) := by
  have h : x.srem y = BitVec.ofInt 64 (x.toInt - x.toInt.tdiv y.toInt * y.toInt) := by
    rw [← BitVec.ofInt_toInt (x := x.srem y), BitVec.toInt_srem, Int.tmod_def, Int.mul_comm]
  rw [remW, h]

theorem remnW_eq (x y : Word) :
    remnW x y = if y = 0 then x else BitVec.ofNat 64 (x.toNat - x.toNat / y.toNat * y.toNat) := by
  have h : x.umod y = BitVec.ofNat 64 (x.toNat - x.toNat / y.toNat * y.toNat) :=
    eq_ofNat_of_toNat_eq (BitVec.toNat_umod.trans (by rw [Nat.mod_eq_sub, Nat.mul_comm]))
  rw [remnW, h]

/-! ## Time and the register written -/

/-- Retiring takes at least the cycles of the instruction (R50). -/
theorem Ctx.finish_cycle (c : Ctx) (k : Nat) : c.st.cycle + c.cost ≤ (c.finish k).cycle := by
  have h : (c.finish k).cycle = c.st.cycle + (c.cost + Config.stall
      ((c.st.modCore k fun x => x.retire c.npc c.own c.last).mirror k).freeCount) := by
    unfold Ctx.finish
    rw [State.mirror_only]
    rfl
  omega

/-- The state in which operands are seen is at the cycle at which they have been read. -/
theorem Operands.cycle {s u : State} {srcs : List Sel} {vals : List Word} {c : Ctx} (h : Operands s srcs vals u)
    (hc : readsOf srcs s.begin = .ok (vals, c)) : c.st.cycle = u.cycle := by
  obtain ⟨c', hc', hu⟩ := h.reads
  obtain ⟨-, rfl⟩ := Prod.mk.inj (Except.ok.inj (hc'.symm.trans hc))
  split at hu
  · next hd =>
    have hw : ∀ b ∈ srcs, b.toNat ≤ 55 := fun b hb => by simpa [Sel.dstOk] using List.all_eq_true.mp hd b hb
    rw [readsOf_regs hw] at hc
    obtain ⟨-, rfl⟩ := Prod.mk.inj (Except.ok.inj hc)
    rw [hu]; rfl
  · rw [hu]

/-- An instruction that reads its sources, writes one register and takes `n` cycles. -/
theorem register_result_takes {s u : State} {srcs : List Sel} {vals : List Word} {a : Sel} {x : Word} {m : M PUnit} {n : Nat}
    (h : Operands s srcs vals u)
    (hm : ∀ c, readsOf srcs s.begin = .ok (vals, c) →
      m s.begin = .ok ((), { c with st := c.st.modCore c.st.turn fun d => d.setReg a.toNat x, cost := n })) :
    ∃ t, run m s = .next t ∧ WritesReg s u t a x ∧ u.cycle + n ≤ t.cycle := by
  obtain ⟨c, hc, hfin, hturn, hrun, hnpc, -⟩ := h.begins
  let d : Ctx := { c with st := c.st.modCore c.st.turn fun d => d.setReg a.toNat x, cost := n }
  have hcore : d.st.core s.turn = (c.st.core s.turn).setReg a.toNat x := by
    show (c.st.modCore c.st.turn _).core s.turn = _
    rw [hturn, State.core_modCore]
  have hstill : (d.st.core s.turn).ctl.run.isSome = true := by rw [hcore, Core.setReg_same]; exact hrun
  obtain ⟨i, hi⟩ := Option.isSome_iff_exists.mp hstill
  have hend := d.finish_finished hi
  refine ⟨_, run_ok (hm c hc), ⟨fun ha => ?_, (d.finish_pc hi).trans hnpc, regFrame_of hfin ?_ ?_ hend⟩, ?_⟩
  · unfold Core.reg
    rw [hend.core.regs]
    show (d.st.core s.turn).reg a.toNat = x
    rw [hcore, Core.reg_setReg, if_pos ⟨rfl, ha⟩]
  · rw [hcore, ← hturn]; rfl
  · rw [hcore]; exact Core.setReg_only _ _ _
  · rw [← h.cycle hc]; exact d.finish_cycle s.turn

/-! ## Instructions by the number of their sources -/

/-- Instruction `i` completes with the result `r`, whatever the operands. -/
def Computes (i : Instr) (r : Result) : Prop :=
  ∀ s u vals, Operands s r.srcs vals u → ∃ t, exec i s = .next t ∧ WritesReg s u t r.dst (r.val vals)

theorem Operands.length {s u : State} {srcs : List Sel} {vals : List Word} (h : Operands s srcs vals u) :
    vals.length = srcs.length := by
  obtain ⟨c, hc, -⟩ := h.reads
  exact readsOf_length hc

theorem eq_two_of_length {vals : List Word} (h : vals.length = 2) : ∃ x y, vals = [x, y] :=
  match vals, h with
  | [x, y], _ => ⟨x, y, rfl⟩

theorem eq_three_of_length {vals : List Word} (h : vals.length = 3) : ∃ x y z, vals = [x, y, z] :=
  match vals, h with
  | [x, y, z], _ => ⟨x, y, z, rfl⟩

theorem computes_constant {i : Instr} {x y : Word} {a : Sel} (he : ∀ s, exec i s = run (writeOp a x) s) (hv : x = y) :
    Computes i ⟨a, [], fun _ => y⟩ := by
  intro s u vals h
  rw [he, hv]
  refine register_result h fun c hc => ?_
  cases hc
  rfl

theorem computes_scalar1 {i : Instr} {f g : Word → Word} {a b : Sel} (he : ∀ s, exec i s = run (scalar1 f a b) s)
    (hv : ∀ x, f x = g x) : Computes i ⟨a, [b], of1 g⟩ := by
  intro s u vals h
  obtain ⟨x, rfl⟩ := List.length_eq_one_iff.mp h.length
  rw [he]
  exact register_result h fun c hc => (scalar1_apply hc).trans (by rw [hv]; rfl)

theorem computes_scalar2 {i : Instr} {f g : Word → Word → Word} {a b c : Sel} (he : ∀ s, exec i s = run (scalar2 f a b c) s)
    (hv : ∀ x y, f x y = g x y) : Computes i ⟨a, [b, c], of2 g⟩ := by
  intro s u vals h
  obtain ⟨x, y, rfl⟩ := eq_two_of_length h.length
  rw [he]
  exact register_result h fun c hc => (scalar2_apply hc).trans (by rw [hv]; rfl)

theorem computes_scalar3 {i : Instr} {f g : Word → Word → Word → Word} {a b c d : Sel}
    (he : ∀ s, exec i s = run (scalar3 f a b c d) s) (hv : ∀ x y z, f x y z = g x y z) :
    Computes i ⟨a, [b, c, d], of3 g⟩ := by
  intro s u vals h
  obtain ⟨x, y, z, rfl⟩ := eq_three_of_length h.length
  rw [he]
  exact register_result h fun c hc => (scalar3_apply hc).trans (by rw [hv]; rfl)

theorem computes_division {i : Instr} {f g : Word → Word → Word} {a b c : Sel} (he : ∀ s, exec i s = run (division f a b c) s)
    (hv : ∀ x y, f x y = g x y) {s u : State} {vals : List Word} (h : Operands s [b, c] vals u) :
    ∃ t, exec i s = .next t ∧ WritesReg s u t a (of2 g vals) ∧ u.cycle + 34 ≤ t.cycle := by
  obtain ⟨x, y, rfl⟩ := eq_two_of_length h.length
  rw [he]
  refine register_result_takes h fun c hc => ?_
  rw [division, M.bind_ok ((scalar2_apply hc).trans (writeOp_apply ..)), takes_apply, hv]
  rfl

/-! ## Each group of instructions -/

theorem arithmetic_computes {i : Instr} {r : Result} (h : arithmetic i = some r) : Computes i r := by
  unfold arithmetic at h
  split at h <;> cases h
  -- add, sub, mul, mulh, mulhn
  · exact computes_scalar2 (fun _ => rfl) add_eq_ofNat
  · exact computes_scalar2 (fun _ => rfl) sub_eq_ofInt
  · exact computes_scalar2 (fun _ => rfl) mul_eq_ofNat
  · exact computes_scalar2 (fun _ => rfl) mulhW_eq
  · exact computes_scalar2 (fun _ => rfl) mulhnW_eq
  -- addi, muli, movi, movhi, shladd
  · exact computes_scalar1 (fun _ => rfl) fun x => by rw [add_eq_ofInt, toInt_signExtend_imm]
  · exact computes_scalar1 (fun _ => rfl) fun x => by rw [mul_eq_ofInt, toInt_signExtend_imm]
  · exact computes_constant (fun _ => rfl) rfl
  · exact computes_scalar1 (fun _ => rfl) (movhi_eq _)
  · exact computes_scalar2 (fun _ => rfl) fun x y => shladd_eq x y _

theorem bitwise_computes {i : Instr} {r : Result} (h : bitwise i = some r) (hw : i.wf = true) : Computes i r := by
  unfold bitwise at h
  split at h <;> cases h
  -- and, or, xor, andn
  · exact computes_scalar2 (fun _ => rfl) fun _ _ => rfl
  · exact computes_scalar2 (fun _ => rfl) fun _ _ => rfl
  · exact computes_scalar2 (fun _ => rfl) fun _ _ => rfl
  · exact computes_scalar2 (fun _ => rfl) fun _ _ => rfl
  -- shl, shr, sar, rol
  · exact computes_scalar2 (fun _ => rfl) fun x y => by rw [shiftOf_eq, shiftLeft_eq_ofNat]
  · exact computes_scalar2 (fun _ => rfl) fun x y => by rw [shiftOf_eq, shiftRight_eq_ofNat]
  · exact computes_scalar2 (fun _ => rfl) fun x y => by rw [shiftOf_eq, sshiftRight_eq_ofInt]
  · exact computes_scalar2 (fun _ => rfl) fun x y => by rw [shiftOf_eq]
  -- andi, ori, xori
  · exact computes_scalar1 (fun _ => rfl) fun _ => rfl
  · exact computes_scalar1 (fun _ => rfl) fun _ => rfl
  · exact computes_scalar1 (fun _ => rfl) fun _ => rfl
  -- shli, shri, sari
  · exact computes_scalar1 (fun _ => rfl) fun x => shiftLeft_eq_ofNat x _
  · exact computes_scalar1 (fun _ => rfl) fun x => shiftRight_eq_ofNat x _
  · exact computes_scalar1 (fun _ => rfl) fun x => sshiftRight_eq_ofInt x _
  -- ext, ins
  · exact computes_scalar1 (fun _ => rfl) fun x => extW_eq x _ (field_len_le hw)
  · exact computes_scalar2 (fun _ => rfl) fun x y => insW_eq x y _ (field_len_le hw)

theorem comparison_computes {i : Instr} {r : Result} (h : comparison i = some r) : Computes i r := by
  unfold comparison at h
  split at h <;> cases h
  -- min, minn, max, maxn
  · exact computes_scalar2 (fun _ => rfl) min_choice_eq
  · exact computes_scalar2 (fun _ => rfl) minn_choice_eq
  · exact computes_scalar2 (fun _ => rfl) max_choice_eq
  · exact computes_scalar2 (fun _ => rfl) maxn_choice_eq
  -- cmp, cmpi, sel
  · exact computes_scalar2 (fun _ => rfl) fun x y => by rw [condHolds_eq_condSays]; rfl
  · exact computes_scalar1 (fun _ => rfl) fun x => by rw [condHolds_eq_condSays]; rfl
  · exact computes_scalar3 (fun _ => rfl) fun _ _ _ => rfl
  -- clz, ctz, popc
  · exact computes_scalar1 (fun _ => rfl) fun x => by rw [zerosDown_eq]
  · exact computes_scalar1 (fun _ => rfl) fun x => by rw [zerosUp_eq x (Nat.le_refl 64)]; simp only [Nat.sub_self, Nat.zero_add]
  · exact computes_scalar1 (fun _ => rfl) fun x => by rw [popCount_eq]; rfl

theorem division_computes {i : Instr} {r : Result} (h : Claims.division i = some r) {s u : State} {vals : List Word}
    (ho : Operands s r.srcs vals u) :
    ∃ t, exec i s = .next t ∧ WritesReg s u t r.dst (r.val vals) ∧ u.cycle + 34 ≤ t.cycle := by
  unfold Claims.division at h
  split at h <;> cases h
  · exact computes_division (fun _ => rfl) divW_eq ho
  · exact computes_division (fun _ => rfl) divnW_eq ho
  · exact computes_division (fun _ => rfl) remW_eq ho
  · exact computes_division (fun _ => rfl) remnW_eq ho

end Sys2Proof.Machine

namespace Sys2Proof.Claims

open Sys2Proof.Machine

/-- Settles O1: each group of instructions has the values above, by the reading of the sources and the write of one register. -/
theorem scalarResults : Obligations.ScalarResults := by
  refine ⟨fun i r s u vals hr hw ho => ?_, fun i r s u vals hr _ ho => division_computes hr ho⟩
  obtain hr | hr | hr := hr
  · exact arithmetic_computes hr s u vals ho
  · exact bitwise_computes hr hw s u vals ho
  · exact comparison_computes hr s u vals ho

end Sys2Proof.Claims

/-! SUPPORT. Why a taken branch on a message word can miss the line of its own instruction (R112, R127, R135, R400). -/

namespace Sys2Proof.Claims

open Sys2Proof.Machine

/-! ## A core that sets its own PC from a store -/

/-- A store to the register at offset `off` of newt 0's debug module (R400), made in the current chunk and not yet performed. -/
def debugStore (off : Nat) (v : Word) : Store :=
  { chunk := 0, dest := .dev, va := BitVec.ofNat 64 off, pa := 0x4100000000000 + off, home := 0, data := leBytes 8 v.toNat }

/-- Newt 0, at slot 4 of the line at VA 0, has stored ENABLE with HALT, then the PC 0x1001 in DPC, then ENABLE with RUN to its own debug
module; q0 is bound to its own channel, whose message has the word 5. -/
def selfDebugged : State :=
  { State.reset with
    turn := 0
    tiles := [(0, { ready := true, owner := some 0 })]
    cores := [(0, {
      ctl := { run := some 0 }
      slots := [(0, { st := .running, pc := 4, count := 1000, budget := 32, msg := { len := 16, words := [5] }, sync := { qb := [(0, 0)] } })]
      ord := { chunk := { pc := 1, retired := 3, wr := [(0, 0)] }
               sb := [debugStore 0x00 0x9, debugStore 0x60 0x1001, debugStore 0x00 0xA] } })] }

/-- The sources of the instruction that core `s.turn` is at give `vals`, and its activation still runs. -/
def readsInto (s : State) (srcs : List Sel) (vals : List Word) : Bool :=
  match readsOf srcs s.begin with
  | .ok (v, c) => decide (v = vals ∧ c.st.turn = s.turn ∧ (c.st.core s.turn).ctl.run = (s.core s.turn).ctl.run)
  | .error _ => false

theorem operands_of_readsInto {s : State} {srcs : List Sel} {vals : List Word} (hr : s.Running)
    (hq : srcs.all Sel.dstOk = false) (h : readsInto s srcs vals = true) : ∃ u, Operands s srcs vals u := by
  unfold readsInto at h
  split at h
  · next v c hc =>
    obtain ⟨rfl, hturn, hrun⟩ := of_decide_eq_true h
    exact ⟨c.st, hr, ⟨c, hc, by rw [hq]; rfl⟩, hturn, hrun⟩
  · cases h

/-- The PC of the core whose turn it was, after an instruction. -/
def pcAfter (i : Instr) (s : State) : Option Word :=
  match exec i s with
  | .next t => some (t.core s.turn).act.pc
  | _ => none

theorem pcAfter_eq {i : Instr} {s t : State} (h : exec i s = .next t) : pcAfter i s = some (t.core s.turn).act.pc := by
  simp only [pcAfter, h]

theorem selfDebugged_operands : ∃ u, Operands selfDebugged [56, 0] [5, 0] u :=
  operands_of_readsInto rfl rfl (by decide +kernel)

/-- The branch goes to slot 2 of the line after that of the PC in DPC. -/
theorem selfDebugged_branches : pcAfter (.bcc .ne 56 0 2 1) selfDebugged = some 0x1042 := by decide +kernel

/-- Refutes O2: `bcc` on a q operand reads the PC for its target after the commit point of that operand (R127), which performs the stores of
the chunk. Where these halt the core in its own debug module, set DPC and run it again (R400), the activation still runs, at another PC, and
the branch goes to a line counted from there and not from its own. -/
theorem not_controlFlow : ¬ Obligations.ControlFlow := by
  intro h
  obtain ⟨u, hu⟩ := selfDebugged_operands
  obtain ⟨t, ht, hret, -⟩ := h.1 (.bcc .ne 56 0 2 1) _ _ selfDebugged u [5, 0] rfl rfl hu
  have hmodel : (t.core selfDebugged.turn).act.pc = 0x1042 := Option.some.inj ((pcAfter_eq ht).symm.trans selfDebugged_branches)
  have hclaim : (t.core selfDebugged.turn).act.pc = 0x42 := hret.pc
  exact absurd (hmodel.symm.trans hclaim) (by decide)

end Sys2Proof.Claims
